-- ==== Sys2Proof/Word.lean ====
section
/-! DEFINITION. The word types of the part: bytes on the link, machine times, tags and the bit sets that stand for
lines, channels, ports and event kinds (spec/00_scope.md sections 5.1 and 5.3, spec/11 R170). -/

namespace Sys2Proof

/-- One byte on MOSI or MISO. -/
abbrev Byte := BitVec 8

/-- A machine time: 48 bits, wrapping (00 section 5.1). -/
abbrev Time := BitVec 48

/-- An entry's tag, or a note's value: 16 bits, unsigned (11 R170). -/
abbrev Half := BitVec 16

/-- A frame index: counts boundaries modulo 2^32 (01 section 1.1). -/
abbrev FrameIndex := BitVec 32

/-- An output line OUT0 to OUT15. -/
abbrev Line := Fin 16

/-- An input channel IN0 to IN15. -/
abbrev Channel := Fin 16

/-- A line set or a channel set: bit n stands for OUTn or INn (11 R170). -/
abbrev LineSet := BitVec 16

/-- A channel set: bit n stands for INn (11 R170). -/
abbrev ChannelSet := BitVec 16

/-- A port set: bits 0 to 3 stand for ports A to D (11 R170). -/
abbrev PortSet := BitVec 4

/-- A set of the thirteen event kinds, in the bit order of 11 R170. -/
abbrev EventSet := BitVec 13

end Sys2Proof
end

