-- ==== Sys2Proof/Config.lean ====
section
/-! DEFINITION. The sizes and limits the spec fixes for the part. There is one JT416 and no variant (00 section 1.2), and
the spec leaves no value free, so this file holds no free value. -/

namespace Sys2Proof.Config

/-- Slots of the action queue (03 R42). -/
def slots : Nat := 256

/-- Records a completion FIFO holds (04 R65). -/
def fifoDepth : Nat := 32

/-- Records a capture log holds (06 R108). -/
def logDepth : Nat := 32

/-- The highest loss count (06 R113). -/
def lossMax : Nat := 255

/-- Slots a batch holds (05 R83). -/
def batchSlots : Nat := 16

/-- Quota of each port on release of RST_N (03 R42). -/
def quotaAtReset : Nat := 64

/-- Frame length on release of RST_N (01 R2). -/
def frameLengthAtReset : Nat := 100000

/-- Filter depth of each channel on release of RST_N (06 R100). -/
def depthAtReset : Nat := 3

/-- The admission window: distances below this are acceptable (01 R3). -/
def windowEnd : Nat := 2 ^ 46

/-- The far end of the TOO_FAR class; a greater distance is reached (01 R3). -/
def halfCircle : Nat := 2 ^ 47

/-- A backward step leaves every waiting PENDING entry below this distance (01 R8). -/
def stepBound : Nat := 2 ^ 46 + 2 ^ 40

/-- The greatest magnitude of a STEP_TIME offset (01 R8). -/
def maxOffset : Nat := 2 ^ 40 - 1

/-- Shortest and longest frame length (01 R7). -/
def frameLengthMin : Nat := 256

/-- Longest frame length (01 R7). -/
def frameLengthMax : Nat := 16777216

/-- Least and greatest magnitude of a slew interval that is not 0 (01 R14). -/
def intervalMin : Nat := 16

/-- Greatest magnitude of a slew interval (01 R14). -/
def intervalMax : Nat := 65535

/-- Greatest number of corrections (01 R14). -/
def correctionsMax : Nat := 16777215

/-- Shortest finite lease term (02 R25). -/
def termMin : Nat := 1000

/-- Longest finite lease term (02 R25). -/
def termMax : Nat := 4294967295

/-- Most records one READ_COMPLETIONS or READ_CAPTURES returns (04 R81, 06 R117). -/
def readMax : Nat := 8

/-- Deepest filter (06 R105). -/
def depthMax : Nat := 8

end Sys2Proof.Config
end

