-- ==== Sys2Proof/Syntax.lean ====
section
/-! DEFINITION. The commands of the part: one constructor per row of spec/opcode_table.json, with its operands, and
the named values the operands are made of. -/

namespace Sys2Proof

/-- The four ports (00 section 5.2). -/
inductive Port
  | a | b | c | d
  deriving DecidableEq, Repr

/-- The port's number on the link: 0 A, 1 B, 2 C, 3 D (11 R170). -/
def Port.index : Port → Fin 4
  | .a => 0
  | .b => 1
  | .c => 2
  | .d => 3

/-- The four ports, A first. -/
def Port.all : List Port := [.a, .b, .c, .d]

/-- A level on a line or a channel. -/
inductive Level
  | low | high
  deriving DecidableEq, Repr

/-- The level a line takes when its lease ends (02 section 2.1). -/
inductive Failsafe
  | low | high | hold
  deriving DecidableEq, Repr

/-- The two modes of STEP_TIME (01 R8). -/
inductive StepMode
  | sweep | skip
  deriving DecidableEq, Repr

/-- The two roles (08 R134). -/
inductive Role
  | timeAuthority | supervisor
  deriving DecidableEq, Repr

/-- A channel's edge select (06 R100). -/
inductive EdgeSelect
  | none | rise | fall | both
  deriving DecidableEq, Repr

/-- The two modes of a guard (07 R123). -/
inductive GuardMode
  | consume | peek
  deriving DecidableEq, Repr

/-- A guard: the channel whose arm flag is tested, and the mode (07 R123). -/
structure Guard where
  channel : Channel
  mode    : GuardMode
  deriving DecidableEq, Repr

/-- Whether a DONE outcome is reported (03 section 3.2). -/
inductive Report
  | always | faultsOnly
  deriving DecidableEq, Repr

/-- What a descriptor asks for: its kind with the fields that apply to that kind (03 R43). -/
inductive DescAction
  | set (line : Line)
  | clear (line : Line)
  | toggle (line : Line)
  | pulse (line : Line) (width : BitVec 24)
  | note (value : Half) (targets : PortSet)
  deriving DecidableEq, Repr

/-- An entry descriptor, as SUBMIT and STAGE carry it (03 section 3.2, 11 R173). -/
structure Descriptor where
  tag     : Half
  action  : DescAction
  dueTime : Time
  guard   : Option Guard
  report  : Report
  lateOk  : Bool
  deriving DecidableEq, Repr

/-- The pin levels that the synchronisers' first stages take in one REFCLK cycle (01 R18, 06 R101): bit n of `ins` is
INn, bit n of `strobes` the STROBE pin of port n. -/
structure Pins where
  ins     : BitVec 16
  strobes : BitVec 4
  deriving DecidableEq, Repr

/-- What is clocked in a request transaction (10 R160, R161). `begins` is the end of its first byte, the request type
value; `byte` a further whole byte; `csRises` the rising CS_N after `extraBits` SCK edges of a partial byte. `whole` is the
transaction from its first byte to its rising CS_N with no other event between. `recognised` is the recognition of the
rising CS_N of a transaction that was aborted or dropped (10 R157); that of a whole frame is FRAME_CHECK. -/
inductive RequestPart
  | begins
  | byte (b : Byte)
  | csRises (extraBits : Fin 8)
  | whole (rest : List Byte) (extraBits : Fin 8)
  | recognised
  deriving DecidableEq, Repr

/-- A transaction whose first byte is neither type value: so many further bytes up to its rising CS_N, or the recognition
of that rising edge (10 R157, R158). -/
inductive UnknownPart
  | clocked (further : Nat)
  | recognised
  deriving DecidableEq, Repr

/-- A fetch transaction of so many whole bytes, up to its rising CS_N, or the recognition of the rising edge of one that
clocked out the whole reply (10 R157, R166, R167). -/
inductive FetchPart
  | clocked (bytes : Nat)
  | recognised
  deriving DecidableEq, Repr

/-- The commands, one constructor per row of spec/opcode_table.json in the table's order. In a request, `p` is the
requester. -/
inductive Instr
  | powerOnReset
  | increment (pins : Pins)
  | correctionCycle (pins : Pins)
  | slewDone (pins : Pins)
  | frameBoundary
  | batchValidation (p : Port)
  | leaseExpiry (l : Line)
  | dueEvent
  | reportMove (p : Port)
  | strobeEdge (p : Port)
  | edgeDelivery (c : Channel)
  | requestTransaction (p : Port) (part : RequestPart)
  | unknownTransaction (p : Port) (first : Byte) (part : UnknownPart)
  | frameCheck (p : Port)
  | fetchTransaction (p : Port) (part : FetchPart)
  | readTime (p : Port)
  | stepTime (p : Port) (offset : Int) (mode : StepMode)
  | setRate (p : Port) (interval : Int) (count : Nat)
  | setFrame (p : Port) (length : Nat)
  | acquireLines (p : Port) (lines : LineSet) (term : Option Nat) (failsafe : Failsafe)
  | renewLines (p : Port) (lines : LineSet)
  | releaseLines (p : Port) (lines : LineSet)
  | revokeLines (p : Port) (lines : LineSet)
  | forceLines (p : Port) (lines : LineSet) (level : Level)
  | unforceLines (p : Port) (lines : LineSet)
  | readLines (p : Port)
  | submit (p : Port) (desc : Descriptor)
  | cancel (p : Port) (tag : Half)
  | cancelLines (p : Port) (lines : LineSet)
  | readQueue (p : Port)
  | readCompletions (p : Port) (count : Nat)
  | stage (p : Port) (desc : Descriptor)
  | commitBatch (p : Port) (framesAhead : Option Byte)
  | discardBatch (p : Port)
  | configInput (p : Port) (channels : ChannelSet) (depth : Nat) (select : EdgeSelect)
  | subscribe (p : Port) (channels : ChannelSet)
  | readCaptures (p : Port) (count : Nat)
  | clearArms (p : Port) (channels : ChannelSet)
  | readArms (p : Port)
  | openPort (p : Port)
  | closePort (p : Port)
  | claimRole (p : Port) (role : Role)
  | releaseRole (p : Port) (role : Role)
  | fencePort (p : Port) (target : Port)
  | setQuota (p : Port) (target : Port) (quota : Nat)
  | readStatus (p : Port)
  | readEvents (p : Port) (clear : EventSet)
  | setEventMask (p : Port) (mask : EventSet)
  | resetAsserted
  | channelSample (c : Channel)
  deriving DecidableEq, Repr

end Sys2Proof
end

