-- ==== Sys2Proof/WellFormed.lean ====
section
/-! DEFINITION. Which commands are well formed: for a request, the field ranges whose breach is BAD_FIELD at check 4 of
the frame checks (10 R162), each as its owning rule gives it. -/

namespace Sys2Proof

/-- The ranges of a descriptor's fields that its encoding can break (03 R55, 11 R173). -/
def Descriptor.wellFormed (x : Descriptor) : Bool :=
  match x.action with
  | .set _ => true
  | .clear _ => true
  | .toggle _ => true
  | .pulse _ width => width != 0
  | .note _ targets => targets != 0

/-- The type values that begin a request and a fetch transaction (11 R172). -/
def requestType : Byte := 0x6D

/-- The first byte of a fetch transaction (11 R172). -/
def fetchType : Byte := 0x93

/-- A SET_RATE's interval and count (01 R14). A K of 0 leaves the count unexamined; its three bytes hold it still. -/
def rateInRange (interval : Int) (count : Nat) : Bool :=
  decide (count ≤ Config.correctionsMax) &&
    (interval == 0 ||
      (decide (Config.intervalMin ≤ interval.natAbs) && decide (interval.natAbs ≤ Config.intervalMax) && count != 0))

/-- Whether a command's operands are in range. -/
def Instr.wellFormed : Instr → Bool
  | .powerOnReset => true
  | .increment _ => true
  | .correctionCycle _ => true
  | .slewDone _ => true
  | .frameBoundary => true
  | .batchValidation _ => true
  | .leaseExpiry _ => true
  | .dueEvent => true
  | .reportMove _ => true
  | .strobeEdge _ => true
  | .edgeDelivery _ => true
  | .requestTransaction _ _ => true
  | .unknownTransaction _ first _ => first != requestType && first != fetchType
  | .frameCheck _ => true
  | .fetchTransaction _ _ => true
  | .readTime _ => true
  | .stepTime _ offset _ => offset != 0 && decide (offset.natAbs ≤ Config.maxOffset)
  | .setRate _ interval count => rateInRange interval count
  | .setFrame _ length => decide (Config.frameLengthMin ≤ length) && decide (length ≤ Config.frameLengthMax)
  | .acquireLines _ lines term _ =>
    lines != 0 &&
      (match term with
       | some t => decide (Config.termMin ≤ t) && decide (t ≤ Config.termMax)
       | none => true)
  | .renewLines _ lines => lines != 0
  | .releaseLines _ lines => lines != 0
  | .revokeLines _ lines => lines != 0
  | .forceLines _ lines _ => lines != 0
  | .unforceLines _ lines => lines != 0
  | .readLines _ => true
  | .submit _ desc => desc.wellFormed
  | .cancel _ _ => true
  | .cancelLines _ lines => lines != 0
  | .readQueue _ => true
  | .readCompletions _ count => count != 0 && decide (count ≤ Config.readMax)
  | .stage _ desc => desc.wellFormed
  | .commitBatch _ _ => true
  | .discardBatch _ => true
  | .configInput _ channels depth _ => channels != 0 && depth != 0 && decide (depth ≤ Config.depthMax)
  | .subscribe _ _ => true
  | .readCaptures _ count => count != 0 && decide (count ≤ Config.readMax)
  | .clearArms _ channels => channels != 0
  | .readArms _ => true
  | .openPort _ => true
  | .closePort _ => true
  | .claimRole _ _ => true
  | .releaseRole _ _ => true
  | .fencePort _ _ => true
  | .setQuota _ _ quota => decide (quota ≤ Config.slots)
  | .readStatus _ => true
  | .readEvents _ _ => true
  | .setEventMask _ _ => true
  | .resetAsserted => true
  | .channelSample _ => true

end Sys2Proof
end

