-- ==== Sys2Proof/Decode.lean ====
section
/-! DEFINITION. Reading and writing what crosses a port (spec/11): big-endian fields, the CRC-8, the 33 command codes
with their parameter layouts, the entry descriptor, and the encoder of a request frame. Reading is total: bytes that stand
for no command, or for a value that its owning rule refuses, are rejected by name of the failing check (10 R162). -/

namespace Sys2Proof

/-! ## Fields -/

/-- The number a run of bytes holds, most significant byte first (11 R170). -/
def beValue (bytes : List Byte) : Nat :=
  bytes.foldl (fun acc b => acc * 256 + b.toNat) 0

/-- The low `n` bytes of a number, most significant first (11 R170). -/
def beBytes : Nat → Nat → List Byte
  | 0, _ => []
  | n + 1, v => BitVec.ofNat 8 (v / 256 ^ n) :: beBytes n v

/-- A signed field of 48 bits: a step's offset (11 R170). -/
def signed48 (bytes : List Byte) : Int := (BitVec.ofNat 48 (beValue bytes)).toInt

/-- A signed field of 24 bits: a slew's interval (11 R170). -/
def signed24 (bytes : List Byte) : Int := (BitVec.ofNat 24 (beValue bytes)).toInt

/-- The six bytes of an offset, two's complement (11 R170). -/
def offsetBytes (offset : Int) : List Byte := beBytes 6 (BitVec.ofInt 48 offset).toNat

/-- The three bytes of an interval, two's complement (11 R170). -/
def intervalBytes (interval : Int) : List Byte := beBytes 3 (BitVec.ofInt 24 interval).toNat

/-- A set of sixteen, from its two bytes (11 R170). -/
def maskOf (hi lo : Byte) : BitVec 16 := BitVec.ofNat 16 (beValue [hi, lo])

/-- A port byte: bits 2 to 7 are reserved and ignored (11 R170). -/
def portOf (b : Byte) : Port :=
  match b[1], b[0] with
  | false, false => .a
  | false, true => .b
  | true, false => .c
  | true, true => .d

/-- The byte of a port (11 R170). -/
def portByte (p : Port) : Byte := BitVec.ofNat 8 p.index.val

/-- An event kind set, from its two bytes; bits 13 to 15 name no kind (11 R170). -/
def eventSetOf (hi lo : Byte) : Option EventSet :=
  if (beValue [hi, lo]) < 2 ^ 13 then some (BitVec.ofNat 13 (beValue [hi, lo])) else none

/-! ## The CRC-8 -/

/-- One shift of the CRC register: the top bit leaves, and 0x2F is combined in if it was 1 (11 R171). -/
def crcShift (r : Byte) : Byte :=
  if r[7] then (r <<< 1) ^^^ 0x2F else r <<< 1

/-- The register after one byte is combined into it and shifted eight times (11 R171). -/
def crcByte (r b : Byte) : Byte :=
  crcShift (crcShift (crcShift (crcShift (crcShift (crcShift (crcShift (crcShift (r ^^^ b))))))))

/-- The CRC-8 of a run of bytes in link order, from 0xFF (11 R171). -/
def crc8 (bytes : List Byte) : Byte := bytes.foldl crcByte 0xFF

/-! ## The commands and their codes -/

/-- The 33 commands of the link (11 R172). -/
inductive Cmd
  | readTime | stepTime | setRate | setFrame
  | acquireLines | renewLines | releaseLines | revokeLines | forceLines | unforceLines | readLines
  | submit | cancel | cancelLines | readQueue | readCompletions
  | stage | commitBatch | discardBatch
  | configInput | subscribe | readCaptures | clearArms | readArms
  | openPort | closePort | claimRole | releaseRole | fencePort | setQuota | readStatus
  | readEvents | setEventMask
  deriving DecidableEq, Repr

/-- The commands in the order of the table of 11 R172. -/
def Cmd.all : List Cmd :=
  [.readTime, .stepTime, .setRate, .setFrame,
   .acquireLines, .renewLines, .releaseLines, .revokeLines, .forceLines, .unforceLines, .readLines,
   .submit, .cancel, .cancelLines, .readQueue, .readCompletions,
   .stage, .commitBatch, .discardBatch,
   .configInput, .subscribe, .readCaptures, .clearArms, .readArms,
   .openPort, .closePort, .claimRole, .releaseRole, .fencePort, .setQuota, .readStatus,
   .readEvents, .setEventMask]

/-- A command's code (11 R172). -/
def Cmd.code : Cmd → Byte
  | .readTime => 0x10
  | .stepTime => 0x11
  | .setRate => 0x12
  | .setFrame => 0x13
  | .acquireLines => 0x20
  | .renewLines => 0x21
  | .releaseLines => 0x22
  | .revokeLines => 0x23
  | .forceLines => 0x24
  | .unforceLines => 0x25
  | .readLines => 0x26
  | .submit => 0x30
  | .cancel => 0x31
  | .cancelLines => 0x32
  | .readQueue => 0x33
  | .readCompletions => 0x38
  | .stage => 0x40
  | .commitBatch => 0x41
  | .discardBatch => 0x42
  | .configInput => 0x50
  | .subscribe => 0x51
  | .readCaptures => 0x52
  | .clearArms => 0x58
  | .readArms => 0x59
  | .openPort => 0x60
  | .closePort => 0x61
  | .claimRole => 0x62
  | .releaseRole => 0x63
  | .fencePort => 0x64
  | .setQuota => 0x65
  | .readStatus => 0x66
  | .readEvents => 0x70
  | .setEventMask => 0x71

/-- The command a code names, if any (check 3 of 10 R162). -/
def Cmd.ofCode (b : Byte) : Option Cmd := Cmd.all.find? (fun c => c.code == b)

/-- Whether a command's parameters may have this many bytes (11 R172; COMMIT_BATCH alone has two sizes). -/
def Cmd.sizeOk : Cmd → Nat → Bool
  | .readTime, n => n == 0
  | .stepTime, n => n == 7
  | .setRate, n => n == 6
  | .setFrame, n => n == 4
  | .acquireLines, n => n == 7
  | .renewLines, n => n == 2
  | .releaseLines, n => n == 2
  | .revokeLines, n => n == 2
  | .forceLines, n => n == 3
  | .unforceLines, n => n == 2
  | .readLines, n => n == 0
  | .submit, n => n == 19
  | .cancel, n => n == 2
  | .cancelLines, n => n == 2
  | .readQueue, n => n == 0
  | .readCompletions, n => n == 1
  | .stage, n => n == 19
  | .commitBatch, n => n == 0 || n == 1
  | .discardBatch, n => n == 0
  | .configInput, n => n == 4
  | .subscribe, n => n == 2
  | .readCaptures, n => n == 1
  | .clearArms, n => n == 2
  | .readArms, n => n == 0
  | .openPort, n => n == 0
  | .closePort, n => n == 0
  | .claimRole, n => n == 1
  | .releaseRole, n => n == 1
  | .fencePort, n => n == 1
  | .setQuota, n => n == 3
  | .readStatus, n => n == 0
  | .readEvents, n => n == 2
  | .setEventMask, n => n == 2

/-! ## Single-byte values -/

/-- STEP_TIME's mode byte (11 R172). -/
def modeOf (b : Byte) : Option StepMode :=
  if b = 0x00 then some .sweep else if b = 0x01 then some .skip else none

/-- The byte of a mode (11 R172). -/
def modeByte : StepMode → Byte
  | .sweep => 0x00
  | .skip => 0x01

/-- FORCE_LINES' level byte (11 R172). -/
def levelOf (b : Byte) : Option Level :=
  if b = 0x00 then some .low else if b = 0x01 then some .high else none

/-- The byte of a level (11 R172). -/
def levelByte : Level → Byte
  | .low => 0x00
  | .high => 0x01

/-- A role byte (11 R172). -/
def roleOf (b : Byte) : Option Role :=
  if b = 0x00 then some .timeAuthority else if b = 0x01 then some .supervisor else none

/-- The byte of a role (11 R172). -/
def roleByte : Role → Byte
  | .timeAuthority => 0x00
  | .supervisor => 0x01

/-- CONFIG_INPUT's edge select byte (11 R172). -/
def selectOf (b : Byte) : Option EdgeSelect :=
  if b = 0x00 then some .none else if b = 0x01 then some .rise else if b = 0x02 then some .fall
  else if b = 0x03 then some .both else none

/-- The byte of an edge select (11 R172). -/
def selectByte : EdgeSelect → Byte
  | .none => 0x00
  | .rise => 0x01
  | .fall => 0x02
  | .both => 0x03

/-- The failsafe in bits 0 to 1 of the lease byte; bits 2 to 6 are reserved (11 R172). -/
def failsafeOf (b : Byte) : Option Failsafe :=
  match b[1], b[0] with
  | false, false => some .low
  | false, true => some .high
  | true, false => some .hold
  | true, true => none

/-- The failsafe's code (11 R172). -/
def failsafeCode : Failsafe → Nat
  | .low => 0
  | .high => 1
  | .hold => 2

/-! ## The entry descriptor -/

/-- The guard byte: bit 7 present, bits 4 to 5 mode, bits 0 to 3 channel, bit 6 reserved (11 R173). The outer option is the
refusal of a mode that is neither CONSUME nor PEEK. -/
def guardOf (b : Byte) : Option (Option Guard) :=
  if b[7] then
    match b[5], b[4] with
    | false, true => some (some ⟨(b.extractLsb' 0 4).toFin, .consume⟩)
    | true, false => some (some ⟨(b.extractLsb' 0 4).toFin, .peek⟩)
    | _, _ => none
  else some none

/-- The byte of a guard (11 R173). -/
def guardByte : Option Guard → Byte
  | none => 0x00
  | some ⟨c, .consume⟩ => BitVec.ofNat 8 (0x90 + c.val)
  | some ⟨c, .peek⟩ => BitVec.ofNat 8 (0xA0 + c.val)

/-- The report byte (11 R173). -/
def reportOf (b : Byte) : Option Report :=
  if b = 0x00 then some .always else if b = 0x01 then some .faultsOnly else none

/-- The byte of a report field (11 R173). -/
def reportByte : Report → Byte
  | .always => 0x00
  | .faultsOnly => 0x01

/-- The late_ok byte (11 R173). -/
def lateOkOf (b : Byte) : Option Bool :=
  if b = 0x00 then some false else if b = 0x01 then some true else none

/-- The byte of a late_ok field (11 R173). -/
def lateOkByte (v : Bool) : Byte := if v then 0x01 else 0x00

/-- The line byte: 0 to 15 (11 R173). -/
def lineOf (b : Byte) : Option Line :=
  if h : b.toNat < 16 then some ⟨b.toNat, h⟩ else none

/-- A descriptor's kind with the fields that apply to it; the others are not examined (03 R43, 11 R173). -/
def descActionOf (kind line : Byte) (width value : List Byte) (targets : Byte) : Option DescAction :=
  if kind = 0x00 then (lineOf line).map .set
  else if kind = 0x01 then (lineOf line).map .clear
  else if kind = 0x02 then (lineOf line).map .toggle
  else if kind = 0x03 then (lineOf line).map (fun l => .pulse l (BitVec.ofNat 24 (beValue width)))
  else if kind = 0x04 then some (.note (BitVec.ofNat 16 (beValue value)) (targets.extractLsb' 0 4))
  else none

/-- The 19 bytes of a descriptor (11 R173). -/
def descriptorOf (bytes : List Byte) : Option Descriptor :=
  match bytes with
  | [t0, t1, kind, line, d0, d1, d2, d3, d4, d5, w0, w1, w2, v0, v1, targets, grd, rep, late] =>
    match descActionOf kind line [w0, w1, w2] [v0, v1] targets, guardOf grd, reportOf rep, lateOkOf late with
    | some action, some guard, some report, some lateOk =>
      some ⟨BitVec.ofNat 16 (beValue [t0, t1]), action, BitVec.ofNat 48 (beValue [d0, d1, d2, d3, d4, d5]),
        guard, report, lateOk⟩
    | _, _, _, _ => none
  | _ => none

/-- The kind code and the bytes of line, width, note value and note targets; bytes of fields that do not apply are 0. -/
def descActionBytes : DescAction → Byte × Byte × List Byte × List Byte × Byte
  | .set l => (0x00, BitVec.ofNat 8 l.val, beBytes 3 0, beBytes 2 0, 0)
  | .clear l => (0x01, BitVec.ofNat 8 l.val, beBytes 3 0, beBytes 2 0, 0)
  | .toggle l => (0x02, BitVec.ofNat 8 l.val, beBytes 3 0, beBytes 2 0, 0)
  | .pulse l w => (0x03, BitVec.ofNat 8 l.val, beBytes 3 w.toNat, beBytes 2 0, 0)
  | .note v ts => (0x04, 0, beBytes 3 0, beBytes 2 v.toNat, ts.zeroExtend 8)

/-- A descriptor as its 19 bytes (11 R173). -/
def descriptorBytes (x : Descriptor) : List Byte :=
  let a := descActionBytes x.action
  beBytes 2 x.tag.toNat ++ [a.1, a.2.1] ++ beBytes 6 x.dueTime.toNat ++ a.2.2.1 ++ a.2.2.2.1
    ++ [a.2.2.2.2, guardByte x.guard, reportByte x.report, lateOkByte x.lateOk]

/-! ## Commands from their parameters -/

/-- The command with these parameters, before the ranges of `Instr.wellFormed` are checked (11 R172). -/
def decodeFields (p : Port) (c : Cmd) (params : List Byte) : Option Instr :=
  match c, params with
  | .readTime, [] => some (.readTime p)
  | .stepTime, [o0, o1, o2, o3, o4, o5, m] => (modeOf m).map (.stepTime p (signed48 [o0, o1, o2, o3, o4, o5]))
  | .setRate, [k0, k1, k2, n0, n1, n2] => some (.setRate p (signed24 [k0, k1, k2]) (beValue [n0, n1, n2]))
  | .setFrame, [l0, l1, l2, l3] => some (.setFrame p (beValue [l0, l1, l2, l3]))
  | .acquireLines, [s0, s1, lease, t0, t1, t2, t3] =>
    (failsafeOf lease).map (.acquireLines p (maskOf s0 s1) (if lease[7] then none else some (beValue [t0, t1, t2, t3])))
  | .renewLines, [s0, s1] => some (.renewLines p (maskOf s0 s1))
  | .releaseLines, [s0, s1] => some (.releaseLines p (maskOf s0 s1))
  | .revokeLines, [s0, s1] => some (.revokeLines p (maskOf s0 s1))
  | .forceLines, [s0, s1, l] => (levelOf l).map (.forceLines p (maskOf s0 s1))
  | .unforceLines, [s0, s1] => some (.unforceLines p (maskOf s0 s1))
  | .readLines, [] => some (.readLines p)
  | .submit, bytes => (descriptorOf bytes).map (.submit p)
  | .cancel, [t0, t1] => some (.cancel p (BitVec.ofNat 16 (beValue [t0, t1])))
  | .cancelLines, [s0, s1] => some (.cancelLines p (maskOf s0 s1))
  | .readQueue, [] => some (.readQueue p)
  | .readCompletions, [n] => some (.readCompletions p n.toNat)
  | .stage, bytes => (descriptorOf bytes).map (.stage p)
  | .commitBatch, [] => some (.commitBatch p none)
  | .commitBatch, [n] => some (.commitBatch p (some n))
  | .discardBatch, [] => some (.discardBatch p)
  | .configInput, [s0, s1, d, e] => (selectOf e).map (.configInput p (maskOf s0 s1) d.toNat)
  | .subscribe, [s0, s1] => some (.subscribe p (maskOf s0 s1))
  | .readCaptures, [n] => some (.readCaptures p n.toNat)
  | .clearArms, [s0, s1] => some (.clearArms p (maskOf s0 s1))
  | .readArms, [] => some (.readArms p)
  | .openPort, [] => some (.openPort p)
  | .closePort, [] => some (.closePort p)
  | .claimRole, [r] => (roleOf r).map (.claimRole p)
  | .releaseRole, [r] => (roleOf r).map (.releaseRole p)
  | .fencePort, [t] => some (.fencePort p (portOf t))
  | .setQuota, [t, q0, q1] => some (.setQuota p (portOf t) (beValue [q0, q1]))
  | .readStatus, [] => some (.readStatus p)
  | .readEvents, [e0, e1] => (eventSetOf e0 e1).map (.readEvents p)
  | .setEventMask, [e0, e1] => (eventSetOf e0 e1).map (.setEventMask p)
  | _, _ => none

/-- The command of port `p` with these parameters when check 4 passes, and none when it fails with BAD_FIELD (10 R162). -/
def decodeCommand (p : Port) (c : Cmd) (params : List Byte) : Option Instr :=
  (decodeFields p c params).filter Instr.wellFormed

/-! ## Request frames -/

/-- The length byte of a frame: how many bytes from the sequence through the last parameter (11 R172). -/
def frameLengthByte (bytes : List Byte) : Nat := (bytes.getD 1 0).toNat

/-- A frame's sequence; a frame too short to hold one echoes 0 (10 R162). -/
def frameSequence (bytes : List Byte) : Byte := if frameLengthByte bytes = 0 then 0 else bytes.getD 2 0

/-- A frame's command code; a frame too short to hold one echoes 0 (10 R162). -/
def frameCode (bytes : List Byte) : Byte := if frameLengthByte bytes < 2 then 0 else bytes.getD 3 0

/-- A frame's parameters (11 R172). -/
def frameParams (bytes : List Byte) : List Byte := (bytes.drop 4).take (frameLengthByte bytes - 2)

/-- A frame's CRC byte, the one after the bytes that the length counts (11 R172). -/
def frameCrc (bytes : List Byte) : Byte := bytes.getD (frameLengthByte bytes + 2) 0

/-- The run that the frame's CRC covers: the length byte through the last parameter (11 R171). -/
def frameCrcRun (bytes : List Byte) : List Byte := (bytes.drop 1).take (frameLengthByte bytes + 1)

/-- Whether CS_N may rise here: exactly after the bytes the length asks for (10 R160). -/
def frameWhole (bytes : List Byte) : Bool := 2 ≤ bytes.length && bytes.length == frameLengthByte bytes + 3

/-- Checks 1 to 4 of 10 R162, in their order, by the name of the check that fails. -/
inductive FrameVerdict
  | badCrc
  | badLength
  | unknownCommand
  | badField
  | passed (i : Instr)
  deriving DecidableEq, Repr

/-- What checks 1 to 4 say of a whole frame at port `p` (10 R162). -/
def checkFrame (p : Port) (bytes : List Byte) : FrameVerdict :=
  if crc8 (frameCrcRun bytes) ≠ frameCrc bytes then .badCrc
  else if frameLengthByte bytes < 2 then .badLength
  else
    match Cmd.ofCode (frameCode bytes) with
    | none => .unknownCommand
    | some c =>
      if !c.sizeOk (frameLengthByte bytes - 2) then .badLength
      else
        match decodeCommand p c (frameParams bytes) with
        | none => .badField
        | some i => .passed i

/-! ## The encoder -/

/-- The term bytes and bit 7 of the lease byte (11 R172). -/
def leaseByte (term : Option Nat) (f : Failsafe) : Byte :=
  BitVec.ofNat 8 (failsafeCode f + (match term with | some _ => 0 | none => 0x80))

/-- A request's command and parameter bytes (11 R172); none for a command that is no request. -/
def encodeCommand : Instr → Option (Port × Cmd × List Byte)
  | .powerOnReset => none
  | .increment _ => none
  | .correctionCycle _ => none
  | .slewDone _ => none
  | .frameBoundary => none
  | .batchValidation _ => none
  | .leaseExpiry _ => none
  | .dueEvent => none
  | .reportMove _ => none
  | .strobeEdge _ => none
  | .edgeDelivery _ => none
  | .requestTransaction _ _ => none
  | .unknownTransaction _ _ _ => none
  | .frameCheck _ => none
  | .fetchTransaction _ _ => none
  | .readTime p => some (p, .readTime, [])
  | .stepTime p offset mode => some (p, .stepTime, offsetBytes offset ++ [modeByte mode])
  | .setRate p interval count => some (p, .setRate, intervalBytes interval ++ beBytes 3 count)
  | .setFrame p length => some (p, .setFrame, beBytes 4 length)
  | .acquireLines p lines term f =>
    some (p, .acquireLines, beBytes 2 lines.toNat ++ [leaseByte term f] ++ beBytes 4 (term.getD 0))
  | .renewLines p lines => some (p, .renewLines, beBytes 2 lines.toNat)
  | .releaseLines p lines => some (p, .releaseLines, beBytes 2 lines.toNat)
  | .revokeLines p lines => some (p, .revokeLines, beBytes 2 lines.toNat)
  | .forceLines p lines level => some (p, .forceLines, beBytes 2 lines.toNat ++ [levelByte level])
  | .unforceLines p lines => some (p, .unforceLines, beBytes 2 lines.toNat)
  | .readLines p => some (p, .readLines, [])
  | .submit p desc => some (p, .submit, descriptorBytes desc)
  | .cancel p tag => some (p, .cancel, beBytes 2 tag.toNat)
  | .cancelLines p lines => some (p, .cancelLines, beBytes 2 lines.toNat)
  | .readQueue p => some (p, .readQueue, [])
  | .readCompletions p count => some (p, .readCompletions, beBytes 1 count)
  | .stage p desc => some (p, .stage, descriptorBytes desc)
  | .commitBatch p framesAhead => some (p, .commitBatch, framesAhead.toList)
  | .discardBatch p => some (p, .discardBatch, [])
  | .configInput p channels depth select =>
    some (p, .configInput, beBytes 2 channels.toNat ++ beBytes 1 depth ++ [selectByte select])
  | .subscribe p channels => some (p, .subscribe, beBytes 2 channels.toNat)
  | .readCaptures p count => some (p, .readCaptures, beBytes 1 count)
  | .clearArms p channels => some (p, .clearArms, beBytes 2 channels.toNat)
  | .readArms p => some (p, .readArms, [])
  | .openPort p => some (p, .openPort, [])
  | .closePort p => some (p, .closePort, [])
  | .claimRole p role => some (p, .claimRole, [roleByte role])
  | .releaseRole p role => some (p, .releaseRole, [roleByte role])
  | .fencePort p target => some (p, .fencePort, [portByte target])
  | .setQuota p target quota => some (p, .setQuota, [portByte target] ++ beBytes 2 quota)
  | .readStatus p => some (p, .readStatus, [])
  | .readEvents p clear => some (p, .readEvents, beBytes 2 clear.toNat)
  | .setEventMask p mask => some (p, .setEventMask, beBytes 2 mask.toNat)
  | .resetAsserted => none
  | .channelSample _ => none

/-- The request frame that carries a request with a sequence (11 R172); empty for a command that is no request. -/
def requestFrame (sequence : Byte) (i : Instr) : List Byte :=
  match encodeCommand i with
  | none => []
  | some (_, c, params) =>
    let run := BitVec.ofNat 8 (params.length + 2) :: sequence :: c.code :: params
    requestType :: run ++ [crc8 run]

/-- The command that a word of the opcode table spells. No row of spec/opcode_table.json gives bits, so no word spells
one (spec/98_reader.md: 50 rows unread, none with fixed bits). -/
def decodeTableWord (_nbits _w : Nat) : Option Instr := none

end Sys2Proof
end

