-- ==== Sys2Proof/Machine/State.lean ====
section
/-! DEFINITION. The state of the part as plain data, with its values on release of RST_N, and the reasons a step could
stop. Each field cites the rule that names it; INVENTORY.md lists them all. -/

namespace Sys2Proof.Machine

/-! ## Time base (chapter 1) -/

/-- A rate slew in progress: interval K, corrections left, cycle count (01 section 1.1, R14, R15). -/
structure Slew where
  interval : Int
  left     : Nat
  count    : Nat
  deriving DecidableEq, Repr

/-- A port's strobe record (01 R18). -/
structure StrobeRecord where
  time        : Time
  valid       : Bool
  overwritten : Bool
  deriving DecidableEq, Repr

/-- The strobe record on release of RST_N and after CLOSE (01 R2, R19). -/
def StrobeRecord.cleared : StrobeRecord := ⟨0, false, false⟩

/-! ## Output lines (chapter 2) -/

/-- A lease's term and remaining term, in elapsed ticks (02 section 2.1). -/
inductive LeaseTerm
  | unlimited
  | finite (term : Nat) (remaining : Nat)
  deriving DecidableEq, Repr

/-- A lease record (02 section 2.1). -/
structure Lease where
  holder   : Port
  term     : LeaseTerm
  failsafe : Failsafe
  deriving DecidableEq, Repr

/-- A line record; the pin level is derived from it (02 section 2.1, R22). -/
structure LineRecord where
  lease  : Option Lease
  shadow : Level
  force  : Option Level
  deriving DecidableEq, Repr

/-! ## Entries (chapter 3) -/

/-- What an entry does: the kind, part, line, note value and note targets of 03 section 3.2 with only the combinations that
can stand together. `lead` and `trail` are the two parts of a PULSE (03 R50). -/
inductive EntryAction
  | set (line : Line)
  | clear (line : Line)
  | toggle (line : Line)
  | lead (line : Line)
  | trail (line : Line)
  | note (value : Half) (targets : PortSet)
  deriving DecidableEq, Repr

/-- The fields of an entry record that are fixed at admission (03 section 3.2, R43). An entry's state is the list that
holds it: a staged list (STAGED), the queue order (PENDING), a retirement order (REPORT_WAIT). -/
structure Entry where
  port    : Port
  tag     : Half
  action  : EntryAction
  dueTime : Time
  guard   : Option Guard
  report  : Report
  lateOk  : Bool
  deriving DecidableEq, Repr

/-- The outcomes of retirement (03 R45). -/
inductive Outcome
  | done | masked | guardFalse | cancelled | expired | revoked | skipped | fenced | late | notOwner | batchAborted
  deriving DecidableEq, Repr

/-- An entry in REPORT_WAIT, with its outcome and actual time (03 R45). -/
structure Retired where
  entry      : Entry
  outcome    : Outcome
  actualTime : Time
  deriving DecidableEq, Repr

/-- The kind of a completion record (04 R78). -/
inductive Kind
  | set | clear | toggle | pulse | note
  deriving DecidableEq, Repr

/-- The part of a completion record (04 R78). -/
inductive Part
  | none | lead | trail
  deriving DecidableEq, Repr

/-- A completion record (04 R78). -/
structure CompletionRecord where
  tag        : Half
  part       : Part
  kind       : Kind
  line       : Option Line
  outcome    : Outcome
  dueTime    : Time
  actualTime : Time
  deriving DecidableEq, Repr

/-- A port's batch: its staged list in staging order and its target frame index (05 R83). The batch state EMPTY, OPEN or
ARMED is read off these two. -/
structure Batch where
  staged : List Entry
  target : Option FrameIndex
  deriving DecidableEq, Repr

/-! ## Capture (chapter 6) -/

/-- The direction of an edge (06 R103). -/
inductive Edge
  | rise | fall
  deriving DecidableEq, Repr

/-- A filter run in progress (06 R100). -/
structure FilterRun where
  candidate : Level
  count     : Nat
  firstTime : Time
  deriving DecidableEq, Repr

/-- An input channel (06 R100). `sampled` says that the first sample after release has been taken; until then the
filtered level is not yet known (06 R104) and `filtered` holds the value that log entry 6 names. -/
structure ChannelState where
  depth    : Nat
  select   : EdgeSelect
  filtered : Level
  sampled  : Bool
  run      : Option FilterRun
  deriving DecidableEq, Repr

/-- The fields of a capture record that depend on its kind (06 R115). -/
inductive CaptureBody
  | edge (channel : Channel) (edge : Edge)
  | note (source : Port) (value : Half)
  | step (offset : Int)
  deriving DecidableEq, Repr

/-- A capture record (06 R115). -/
structure CaptureRecord where
  body       : CaptureBody
  time       : Time
  lostBefore : Option Nat
  deriving DecidableEq, Repr

/-! ## Port controllers (chapters 8 to 10) -/

/-- Session states (08 R133). -/
inductive Session
  | detached | attached | fenced
  deriving DecidableEq, Repr

/-- The thirteen event kinds, in the bit order of 11 R170 (09 section 9.2). -/
inductive EventKind
  | replyReady | frameAborted | completionReady | captureReady | captureLoss | leaseExpired | leaseRevoked
  | batchDone | slewDone | frameBoundary | strobe | portFenced | roleChanged
  deriving DecidableEq, Repr

/-- The result that BATCH_DONE carries (09 R146). -/
inductive BatchResult
  | committed | aborted
  deriving DecidableEq, Repr

/-- The result that SLEW_DONE carries (09 R146). -/
inductive SlewResult
  | complete | cancelled
  deriving DecidableEq, Repr

/-- The result codes of a reply (10 section 10.6). -/
inductive ResultCode
  | ok | badCrc | badLength | unknownCommand | badField
  | notAttached | alreadyOpen | fenced | notRole | held | self
  | notOwner | quota | dupTag | late | tooFar | notFound | inUse
  | batchFull | batchArmed | batchEmpty | badFrame
  deriving DecidableEq, Repr

/-- A reply (10 R159): what the last-executed record stores, without indicators. -/
structure Reply where
  sequence : Byte
  command  : Byte
  result   : ResultCode
  data     : List Byte
  deriving DecidableEq, Repr

/-- The reply buffer's entry, with its indicators and fetched state (10 R159, R165). -/
structure ReplyEntry where
  reply     : Reply
  repeated  : Bool
  replyLost : Bool
  overrun   : Bool
  fetched   : Bool
  deriving DecidableEq, Repr

/-- The last-executed record (10 R159). -/
structure LastExecuted where
  sequence : Byte
  crc      : Byte
  reply    : Reply
  deriving DecidableEq, Repr

/-- The two states that a reception leaves and may return to (10 R160). -/
inductive Resting
  | idle | replyHeld
  deriving DecidableEq, Repr

/-- The engine state; RECEIVING remembers which state it left (10 R159, R160). -/
inductive Engine
  | idle
  | receiving (left : Resting)
  | executing
  | replyHeld
  deriving DecidableEq, Repr

/-- What stands on a port's link: nothing, with CS_N high; a request transaction being received, or one being dropped (10 R160,
R161); or CS_N low from before the release of RST_N, which is ignored until CS_N next rises (10 R157). -/
inductive Link
  | idle | receiving | dropping | ignored
  deriving DecidableEq, Repr

/-- What the rising CS_N that ends a transaction changes in the REFCLK cycle in which it is recognised (10 R157): a whole
frame is checked, an aborted one is discarded, a dropped transaction leaves overrun pending, one with an unknown first byte
raises FRAME_ABORTED, and a fetch of the whole reply makes it fetched. -/
inductive RiseChange
  | whole | aborted | dropped | unknown | fetched
  deriving DecidableEq, Repr

/-- A rising CS_N that is not yet recognised: the change it brings, and the stages of the synchroniser that it has passed, 0
to 2 (10 R157, R162). -/
structure Rise where
  change : RiseChange
  stage  : Nat
  deriving DecidableEq, Repr

/-- What has been delivered on a guard's channel since the entry's admission: nothing; an edge that found the arm flag clear
and set it; or one that found it set and set it again (07 R127). -/
inductive EdgeAfter
  | quiet | unseen | again
  deriving DecidableEq, Repr

/-- The guard of an entry that was admitted with its due time reached: the entry's tag, the guard's channel, and what has been
delivered there since (07 R127, log entry 27). -/
structure LateGuard where
  tag     : Half
  channel : Channel
  after   : EdgeAfter
  deriving DecidableEq, Repr

/-- Everything kept once per port. -/
structure PortState where
  /-- Session state (08 R133). -/
  session : Session
  /-- Quota of queue slots (03 R42). -/
  quota : Nat
  /-- Strobe record (01 R18). -/
  strobe : StrobeRecord
  /-- First stage of the STROBE pin's synchroniser (01 R18). -/
  strobeStage1 : Bool
  /-- Second stage: the synchronised level (01 R18). -/
  strobeStage2 : Bool
  /-- The model's own: a rising edge recognised in the present cycle and not yet taken (log entry 3). -/
  strobeRose : Bool
  /-- Retirement order, oldest first (04 R65). -/
  retirement : List Retired
  /-- Completion FIFO, oldest first (04 R65). -/
  fifo : List CompletionRecord
  /-- Batch (05 R83). -/
  batch : Batch
  /-- Subscription set (06 R108). -/
  subscription : ChannelSet
  /-- Capture log, oldest first (06 R108). -/
  log : List CaptureRecord
  /-- Loss count (06 R108). -/
  losses : Nat
  /-- Arm flags (07 R120). -/
  arms : ChannelSet
  /-- The model's own: the guarded entry that the port's SUBMIT has admitted in the present cycle with its due time reached
  (log entry 27). -/
  lateGuard : Option LateGuard
  /-- Event set (09 R146). -/
  events : EventSet
  /-- BATCH_DONE's stored result (09 R146). -/
  batchResult : Option BatchResult
  /-- SLEW_DONE's stored result (09 R146). -/
  slewResult : Option SlewResult
  /-- Event mask (09 R146). -/
  mask : EventSet
  /-- Engine state (10 R159). -/
  engine : Engine
  /-- Frame in hand: its bytes from the type byte on (10 R159). -/
  frame : Option (List Byte)
  /-- The model's own: the frame in hand has passed its checks in the present cycle, and is taken in the next (10 R164, log
  entry 7). -/
  checkedNow : Bool
  /-- Reply buffer (10 R159). -/
  reply : Option ReplyEntry
  /-- Last-executed record (10 R159). -/
  lastExecuted : Option LastExecuted
  /-- Overrun pending (10 R159). -/
  overrun : Bool
  /-- The transaction on the link (10 R157). -/
  link : Link
  /-- Rising edges of CS_N that wait to be recognised, oldest first (10 R157, log entry 28). -/
  risen : List Rise
  /-- The level that ATTN_N shows: the one in which the latest REFCLK cycle to end left it (09 R150). -/
  attnShown : Level
  /-- The model's own record of the output: the bytes driven on MISO in the latest transaction (log entry 11). -/
  miso : List Byte
  deriving DecidableEq, Repr

/-- The four ports' states. -/
structure PortFile where
  a : PortState
  b : PortState
  c : PortState
  d : PortState
  deriving DecidableEq, Repr

/-- The whole state: everything the spec gives the part, and the queue of commands that wait. -/
structure State where
  /-- RST_N is low: the part is held in reset (00 section 3.3). -/
  inReset : Bool
  /-- The first REFCLK cycle after release is still to come (01 R18). -/
  freshRelease : Bool
  /-- The machine clock (01 section 1.1). -/
  mc : Time
  /-- Frame phase (01 section 1.1). -/
  framePhase : Nat
  /-- Frame index (01 section 1.1). -/
  frameIndex : FrameIndex
  /-- Frame length (01 section 1.1). -/
  frameLength : Nat
  /-- Pending frame length (01 section 1.1). -/
  pendingLength : Option Nat
  /-- The slew in progress (01 section 1.1). -/
  slew : Option Slew
  /-- The model's own: a frame boundary made in the present cycle and not yet handed to the event sets (log entry 3). -/
  boundaryToHand : Bool
  /-- The sixteen line records (02 section 2.1). -/
  lines : Vector LineRecord 16
  /-- The pins OUT0 to OUT15 that show HIGH, as the latest REFCLK cycle to end left them (04 R69). -/
  outsShown : LineSet
  /-- The queue order: the PENDING entries of all ports (03 R42). -/
  queue : List Entry
  /-- The sixteen input channels (06 R100). -/
  channels : Vector ChannelState 16
  /-- First stages of the IN pins' synchronisers (06 R101). -/
  inStage1 : BitVec 16
  /-- Second stages: the synchronised levels (06 R101). -/
  inStage2 : BitVec 16
  /-- The model's own: the channels whose sample of the present cycle has been taken (log entry 3). -/
  samplesTaken : ChannelSet
  /-- Holder of TIME_AUTHORITY (08 R133). -/
  timeAuthority : Option Port
  /-- Holder of SUPERVISOR (08 R133). -/
  supervisor : Option Port
  /-- What is kept once per port. -/
  ports : PortFile
  /-- The commands that wait, first in first out. -/
  pending : List Instr
  deriving DecidableEq, Repr

/-- Faults. The spec gives the part none: a request that cannot be carried out is answered with a result code
(10 section 10.6). The type is closed and empty, and no step ends in a fault. -/
inductive Fault
  deriving DecidableEq, Repr

/-- Refusals. -/
inductive Refusal
  /-- Raised by an arm of exec whose command has no meaning yet; safe. No arm of this model raises it. -/
  | notModelled (mnemonic : String)
  deriving DecidableEq, Repr

/-! ## Values on release of RST_N -/

/-- A line record on release (02 R23). -/
def LineRecord.atReset : LineRecord := ⟨none, .low, none⟩

/-- A channel on release (06 R100, R104); the filtered level is the value of log entry 6 until the first sample. -/
def ChannelState.atReset : ChannelState := ⟨Config.depthAtReset, .none, .low, false, none⟩

/-- A port on release (01 R2, 03 R42, 04 R65, 05 R83, 06 R108, 07 R120, 08 R133, 09 R146, R149, 10 R159); the synchroniser
stages are the values of log entry 5. -/
def PortState.atReset : PortState where
  session := .detached
  quota := Config.quotaAtReset
  strobe := .cleared
  strobeStage1 := false
  strobeStage2 := false
  strobeRose := false
  retirement := []
  fifo := []
  batch := ⟨[], none⟩
  subscription := 0
  log := []
  losses := 0
  arms := 0
  lateGuard := none
  events := 0
  batchResult := none
  slewResult := none
  mask := 0
  engine := .idle
  frame := none
  checkedNow := false
  reply := none
  lastExecuted := none
  overrun := false
  link := .idle
  risen := []
  attnShown := .high
  miso := []

/-- The part on release of RST_N, with no command waiting. -/
def State.reset : State where
  inReset := false
  freshRelease := true
  mc := 0
  framePhase := 0
  frameIndex := 0
  frameLength := Config.frameLengthAtReset
  pendingLength := none
  slew := none
  boundaryToHand := false
  lines := Vector.ofFn fun _ => LineRecord.atReset
  outsShown := 0
  queue := []
  channels := Vector.ofFn fun _ => ChannelState.atReset
  inStage1 := 0
  inStage2 := 0
  samplesTaken := BitVec.allOnes 16
  timeAuthority := none
  supervisor := none
  ports := ⟨PortState.atReset, PortState.atReset, PortState.atReset, PortState.atReset⟩
  pending := []

end Sys2Proof.Machine
end

