-- ==== Sys2Proof/Machine/Operands.lean ====
section
/-! DEFINITION. Reading the operands of commands and the fields of records: the classes of a time against MC, levels and
sets, the entries a descriptor is admitted as, and the batch state. -/

namespace Sys2Proof.Machine

/-! ## Times -/

/-- The modular distance d(T) of a time from MC (01 R3, 00 section 5.1). -/
def distance (mc t : Time) : Nat := (t - mc).toNat

/-- A time that is now or lies in the past half of the circle (01 R3). -/
def reached (mc t : Time) : Bool := distance mc t == 0 || decide (Config.halfCircle < distance mc t)

/-- A time in the future beyond the admission window (01 R3). -/
def tooFar (mc t : Time) : Bool :=
  decide (Config.windowEnd ≤ distance mc t) && decide (distance mc t ≤ Config.halfCircle)

/-- A time in the future within the admission window (01 R3). -/
def acceptable (mc t : Time) : Bool := decide (0 < distance mc t) && decide (distance mc t < Config.windowEnd)

/-- MC moved by a signed offset, modulo 2^48 (01 R9). -/
def movedBy (mc : Time) (offset : Int) : Time := mc + BitVec.ofInt 48 offset

/-! ## Levels and sets -/

/-- The level of a pin or synchroniser stage. -/
def levelFromBool (b : Bool) : Level := if b then .high else .low

/-- The inverse level, which TOGGLE leaves (02 R24). -/
def invertLevel : Level → Level
  | .low => .high
  | .high => .low

/-- The lines or channels that have a property, as a set (11 R170). -/
def bitsWhere (f : Fin 16 → Bool) : BitVec 16 := BitVec.ofFnLE f

/-- The number of members of a set of sixteen. -/
def setSize (m : BitVec 16) : Nat := ((List.finRange 16).filter fun i => m[i]).length

/-- The level a line's shadow takes when a lease with this failsafe ends (02 R29). -/
def failsafeLevel (f : Failsafe) (shadow : Level) : Level :=
  match f with
  | .low => .low
  | .high => .high
  | .hold => shadow

/-- Whether an edge qualifies under an edge select (06 R103). -/
def qualifies : EdgeSelect → Edge → Bool
  | .none, _ => false
  | .rise, e => e == .rise
  | .fall, e => e == .fall
  | .both, _ => true

/-- The edge made by a change of filtered level to this level (06 R103). -/
def edgeTo : Level → Edge
  | .high => .rise
  | .low => .fall

/-! ## Entries -/

/-- An entry's line; a NOTE names none (03 section 3.2). -/
def EntryAction.line? : EntryAction → Option Line
  | .set l => some l
  | .clear l => some l
  | .toggle l => some l
  | .lead l => some l
  | .trail l => some l
  | .note _ _ => none

/-- An entry's kind; both parts of a PULSE read PULSE (03 R50). -/
def EntryAction.kind : EntryAction → Kind
  | .set _ => .set
  | .clear _ => .clear
  | .toggle _ => .toggle
  | .lead _ => .pulse
  | .trail _ => .pulse
  | .note _ _ => .note

/-- An entry's part (03 section 3.2). -/
def EntryAction.part : EntryAction → Part
  | .set _ => .none
  | .clear _ => .none
  | .toggle _ => .none
  | .lead _ => .lead
  | .trail _ => .trail
  | .note _ _ => .none

/-- Whether an entry is the LEAD of a PULSE. -/
def EntryAction.isLead : EntryAction → Bool
  | .lead _ => true
  | _ => false

/-- Whether an entry is the TRAIL of a PULSE. -/
def EntryAction.isTrail : EntryAction → Bool
  | .trail _ => true
  | _ => false

/-- Whether `x` is the TRAIL of the PULSE that `e` is the LEAD of: among one port's live entries only the two parts of one
PULSE share a tag (03 R54). -/
def isTrailOf (e x : Entry) : Bool := x.port == e.port && x.tag == e.tag && x.action.isTrail

/-- Whether an entry names a line of the set. -/
def namesLineIn (m : LineSet) (e : Entry) : Bool :=
  match e.action.line? with
  | some l => m[l]
  | none => false

/-- The line a descriptor names; NOTE names none. -/
def descLine : DescAction → Option Line
  | .set l => some l
  | .clear l => some l
  | .toggle l => some l
  | .pulse l _ => some l
  | .note _ _ => none

/-- The due time of a PULSE's TRAIL: (T + W) mod 2^48 (03 R50). -/
def trailTime (due : Time) (width : BitVec 24) : Time := due + width.zeroExtend 48

/-- The entries a descriptor of port `p` is admitted as: one, or LEAD then TRAIL (03 R43, R50). -/
def descEntries (p : Port) (x : Descriptor) : List Entry :=
  match x.action with
  | .set l => [⟨p, x.tag, .set l, x.dueTime, x.guard, x.report, x.lateOk⟩]
  | .clear l => [⟨p, x.tag, .clear l, x.dueTime, x.guard, x.report, x.lateOk⟩]
  | .toggle l => [⟨p, x.tag, .toggle l, x.dueTime, x.guard, x.report, x.lateOk⟩]
  | .pulse l w =>
    [⟨p, x.tag, .lead l, x.dueTime, x.guard, x.report, x.lateOk⟩,
     ⟨p, x.tag, .trail l, trailTime x.dueTime w, none, x.report, x.lateOk⟩]
  | .note v ts => [⟨p, x.tag, .note v ts, x.dueTime, x.guard, x.report, x.lateOk⟩]

/-- The slots a descriptor needs: 1, or 2 for a PULSE (03 R46). -/
def descSlots (x : Descriptor) : Nat :=
  match x.action with
  | .pulse _ _ => 2
  | _ => 1

/-- The completion record of a retired entry (04 R78). -/
def Retired.record (r : Retired) : CompletionRecord :=
  ⟨r.entry.tag, r.entry.action.part, r.entry.action.kind, r.entry.action.line?, r.outcome, r.entry.dueTime, r.actualTime⟩

/-! ## Batches -/

/-- The batch states (05 R83). -/
inductive BatchState
  | empty | opened | armed
  deriving DecidableEq, Repr

/-- The state of a batch: ARMED when it has a target, else EMPTY when it holds no entry, else OPEN (05 R83). -/
def Batch.state (b : Batch) : BatchState :=
  if b.target.isSome then .armed else if b.staged.isEmpty then .empty else .opened

/-- The batch with no entry and no target (05 R83). -/
def Batch.cleared : Batch := ⟨[], none⟩

/-! ## Slews -/

/-- The cycle to come is a correction cycle: its count of cycles reaches abs(K) (01 R15). -/
def Slew.corrects (w : Slew) : Bool := decide (w.interval.natAbs ≤ w.count + 1)

/-- The increment of the cycle to come (01 R1). -/
def slewIncrement : Option Slew → Nat
  | none => 1
  | some w => if w.corrects then (if 0 < w.interval then 2 else 0) else 1

/-- The slew after the cycle to come: its count rises, or returns to 0 as the corrections left fall by one; with none left
the slew has ended (01 R15, R16). -/
def slewAfter : Option Slew → Option Slew
  | none => none
  | some w =>
    if w.corrects then (if w.left ≤ 1 then none else some { w with left := w.left - 1, count := 0 })
    else some { w with count := w.count + 1 }

/-- The cycle to come makes the slew's last correction (01 R16). -/
def slewEnds : Option Slew → Bool
  | none => false
  | some w => w.corrects && decide (w.left ≤ 1)

/-! ## Leases -/

/-- The remaining term after an increment; it stops at 0 (02 R28). -/
def LeaseTerm.fall (n : Nat) : LeaseTerm → LeaseTerm
  | .unlimited => .unlimited
  | .finite t r => .finite t (r - n)

/-- The remaining term restarted (02 R27). -/
def LeaseTerm.restart : LeaseTerm → LeaseTerm
  | .unlimited => .unlimited
  | .finite t _ => .finite t t

/-- The term of a new lease, its remaining term equal to it (02 R26). -/
def LeaseTerm.start : Option Nat → LeaseTerm
  | none => .unlimited
  | some t => .finite t t

/-- The remaining term has reached 0, so the lease is to expire in this cycle (02 R28, R32). -/
def LeaseTerm.runOut : LeaseTerm → Bool
  | .unlimited => false
  | .finite _ r => r == 0

end Sys2Proof.Machine
end

