-- ==== Sys2Proof/Machine/Flags.lean ====
section
/-! DEFINITION. The event set and the event mask of a port: raising, clearing and the attention line (chapter 9). -/

namespace Sys2Proof.Machine

/-- The bit of an event kind (11 R170). -/
def EventKind.bit : EventKind → Fin 13
  | .replyReady => 0
  | .frameAborted => 1
  | .completionReady => 2
  | .captureReady => 3
  | .captureLoss => 4
  | .leaseExpired => 5
  | .leaseRevoked => 6
  | .batchDone => 7
  | .slewDone => 8
  | .frameBoundary => 9
  | .strobe => 10
  | .portFenced => 11
  | .roleChanged => 12

/-- The set that holds one kind. -/
def EventKind.mask (k : EventKind) : EventSet := BitVec.twoPow 13 k.bit.val

/-- Whether a set holds a kind. -/
def hasKind (m : EventSet) (k : EventKind) : Bool := m[k.bit]

/-- The kinds that a DETACHED port records (09 R147). -/
def keptDetached : EventKind → Bool
  | .replyReady => true
  | .frameAborted => true
  | _ => false

/-- Whether a raise of this kind is recorded in this session state (09 R147). -/
def records (session : Session) (k : EventKind) : Bool :=
  match session with
  | .attached => true
  | .fenced => true
  | .detached => keptDetached k

/-- A raise of an event kind at a port (09 R147). -/
def PortState.raise (k : EventKind) (ps : PortState) : PortState :=
  if records ps.session k then { ps with events := ps.events ||| k.mask } else ps

/-- A raise of BATCH_DONE with its result, which becomes the stored one (09 R147, R148). -/
def PortState.raiseBatchDone (r : BatchResult) (ps : PortState) : PortState :=
  if records ps.session .batchDone then { ps with events := ps.events ||| EventKind.batchDone.mask, batchResult := some r }
  else ps

/-- A raise of SLEW_DONE with its result, which becomes the stored one (09 R147, R148). -/
def PortState.raiseSlewDone (r : SlewResult) (ps : PortState) : PortState :=
  if records ps.session .slewDone then { ps with events := ps.events ||| EventKind.slewDone.mask, slewResult := some r }
  else ps

/-- The kinds of a set leave the event set, with their stored results (09 R148, R151). -/
def PortState.clearEvents (m : EventSet) (ps : PortState) : PortState :=
  { ps with
    events := ps.events &&& ~~~m
    batchResult := if hasKind m .batchDone then none else ps.batchResult
    slewResult := if hasKind m .slewDone then none else ps.slewResult }

/-- The event set and the event mask share a kind (09 R149). -/
def PortState.wantsAttention (ps : PortState) : Bool := (ps.events &&& ps.mask) != 0

end Sys2Proof.Machine
end

