-- ==== Sys2Proof/Machine/Ops.lean ====
section
/-! DEFINITION. The shared operations on the state: reaching a port or a line, raising events, offering capture records,
retiring entries and moving their reports, taking a due entry, ending leases, losing roles, placing entries in queue order,
and the taking of a request's frame with the placement of its reply. -/

namespace Sys2Proof.Machine

/-! ## Ports and lines -/

/-- The state of one port. -/
def PortFile.get (f : PortFile) : Port → PortState
  | .a => f.a
  | .b => f.b
  | .c => f.c
  | .d => f.d

/-- One port's state replaced. -/
def PortFile.set (f : PortFile) (p : Port) (ps : PortState) : PortFile :=
  match p with
  | .a => { f with a := ps }
  | .b => { f with b := ps }
  | .c => { f with c := ps }
  | .d => { f with d := ps }

/-- Every port's state changed, each by itself. -/
def PortFile.map (g : Port → PortState → PortState) (f : PortFile) : PortFile :=
  ⟨g .a f.a, g .b f.b, g .c f.c, g .d f.d⟩

/-- The state of port `p`. -/
def State.port (s : State) (p : Port) : PortState := s.ports.get p

/-- One port's state changed. -/
def State.modifyPort (s : State) (p : Port) (g : PortState → PortState) : State :=
  { s with ports := s.ports.set p (g (s.ports.get p)) }

/-- Every port's state changed, each by itself. -/
def State.mapPorts (s : State) (g : Port → PortState → PortState) : State := { s with ports := s.ports.map g }

/-- The line record of a line. -/
def State.line (s : State) (l : Line) : LineRecord := s.lines[l]

/-- Every line record changed, each by itself. -/
def State.mapLines (s : State) (g : Line → LineRecord → LineRecord) : State :=
  { s with lines := Vector.ofFn fun l => g l s.lines[l] }

/-- The port holds a lease on the line. -/
def State.holds (s : State) (p : Port) (l : Line) : Bool :=
  match (s.line l).lease with
  | some x => x.holder == p
  | none => false

/-- Another port holds a lease on the line. -/
def State.heldByOther (s : State) (p : Port) (l : Line) : Bool :=
  match (s.line l).lease with
  | some x => x.holder != p
  | none => false

/-- The set of lines the port holds. -/
def State.heldLines (s : State) (p : Port) : LineSet := bitsWhere fun l => s.holds p l

/-- The session state of a port is ATTACHED. -/
def State.attached (s : State) (p : Port) : Bool := (s.port p).session == .attached

/-- The holder of a role (08 R133). -/
def State.holder (s : State) : Role → Option Port
  | .timeAuthority => s.timeAuthority
  | .supervisor => s.supervisor

/-! ## Pins -/

/-- The level of an output line's record: its force when one is present, else its shadow level (02 R22). -/
def LineRecord.pin (r : LineRecord) : Level :=
  match r.force with
  | some f => f
  | none => r.shadow

/-- The level that the state gives pin OUTn; LOW while RST_N is low (02 R22, R23). It is the one that the pin shows for the
REFCLK cycle in progress if nothing more is taken in it (04 R69). -/
def State.outPin (s : State) (l : Line) : Level := if s.inReset then .low else (s.line l).pin

/-- The level that the state gives a port's ATTN_N: low while set and mask share a kind, high otherwise and while RST_N is
low (09 R149). It is the one that the pin shows for the cycle in progress if nothing more is taken in it (09 R150). -/
def State.attnPin (s : State) (p : Port) : Level :=
  if !s.inReset && (s.port p).wantsAttention then .low else .high

/-- The pins show the levels that the state gives them: at the end of a REFCLK cycle, so that levels between two of its
events never appear, and as RST_N goes low (02 R23, 04 R69, 09 R150). -/
def State.showPins (s : State) : State :=
  { s.mapPorts fun p ps => { ps with attnShown := s.attnPin p } with outsShown := bitsWhere fun l => s.outPin l == .high }

/-! ## Usage -/

/-- The port's PENDING entries, in queue order. -/
def State.pendingOf (s : State) (p : Port) : List Entry := s.queue.filter fun e => e.port == p

/-- The slots the port's live entries occupy: STAGED, PENDING and REPORT_WAIT (03 R46). -/
def State.usage (s : State) (p : Port) : Nat :=
  (s.port p).batch.staged.length + (s.pendingOf p).length + (s.port p).retirement.length

/-- The slots free in the part: 256 less the sum of the usages (03 R46). -/
def State.freeSlots (s : State) : Nat :=
  Config.slots - (s.usage .a + s.usage .b + s.usage .c + s.usage .d)

/-- Some live entry of the port bears the tag (03 R54). -/
def State.tagLive (s : State) (p : Port) (tag : Half) : Bool :=
  (s.port p).batch.staged.any (fun e => e.tag == tag) || (s.pendingOf p).any (fun e => e.tag == tag) ||
    (s.port p).retirement.any (fun r => r.entry.tag == tag)

/-- The sum of the four quotas. -/
def State.quotaSum (s : State) : Nat :=
  (s.port .a).quota + (s.port .b).quota + (s.port .c).quota + (s.port .d).quota

/-! ## Events -/

/-- A raise at one port (09 R147). -/
def State.raise (s : State) (p : Port) (k : EventKind) : State := s.modifyPort p (PortState.raise k)

/-- A raise at every ATTACHED port (01 R6). -/
def State.raiseAttached (s : State) (k : EventKind) : State :=
  s.mapPorts fun _ ps => if ps.session = .attached then ps.raise k else ps

/-- ROLE_CHANGED at every ATTACHED port other than the one that caused the change (08 R141). -/
def State.raiseRoleChanged (s : State) (cause : Port) : State :=
  s.mapPorts fun p ps => if ps.session = .attached ∧ p ≠ cause then ps.raise .roleChanged else ps

/-! ## Capture records -/

/-- A capture record offered to a port's log: accepted at its tail with the lost-before field when losses stand, or dropped
and counted when the log is full (06 R112, R113, R114). -/
def PortState.offer (body : CaptureBody) (time : Time) (ps : PortState) : PortState :=
  if ps.log.length < Config.logDepth then
    let rec1 : CaptureRecord := ⟨body, time, if ps.losses = 0 then none else some ps.losses⟩
    let ps1 := if ps.log.isEmpty then ps.raise .captureReady else ps
    { ps1 with log := ps.log ++ [rec1], losses := 0 }
  else
    let ps1 := if ps.losses = 0 then ps.raise .captureLoss else ps
    { ps1 with losses := if ps.losses < Config.lossMax then ps.losses + 1 else ps.losses }

/-- A late guard as an edge is delivered on a channel whose arm flag stood so: an edge after the admission is not one that
the guard sees (07 R127). -/
def LateGuard.edge (c : Channel) (flag : Bool) (g : LateGuard) : LateGuard :=
  if g.channel = c then { g with after := if flag && g.after != .unseen then .again else .unseen } else g

/-- The arm flag of a channel is set by the delivery of an edge (06 R111, 07 R121). -/
def PortState.setArm (c : Channel) (ps : PortState) : PortState :=
  { ps with arms := ps.arms ||| BitVec.twoPow 16 c.val, lateGuard := ps.lateGuard.map (LateGuard.edge c ps.arms[c]) }

/-- Delivery of a qualifying edge: each ATTACHED subscriber's arm flag is set and an EDGE record offered (06 R111). -/
def State.deliverEdge (s : State) (c : Channel) (e : Edge) (time : Time) : State :=
  s.mapPorts fun _ ps =>
    if ps.session = .attached ∧ ps.subscription[c] then
      (ps.setArm c).offer (.edge c e) time
    else ps

/-- Note delivery: a NOTE record offered to each target that is ATTACHED (07 R131). -/
def State.deliverNote (s : State) (source : Port) (value : Half) (targets : PortSet) (time : Time) : State :=
  s.mapPorts fun p ps =>
    if ps.session = .attached ∧ targets[p.index] then ps.offer (.note source value) time else ps

/-- A STEP record offered to every ATTACHED port's log (01 R13, 06 R116). -/
def State.offerStep (s : State) (offset : Int) : State :=
  s.mapPorts fun _ ps => if ps.session = .attached then ps.offer (.step offset) s.mc else ps

/-! ## Retirement and reports -/

/-- Report movement: while the FIFO has room the oldest reports move in, and COMPLETION_READY is raised when it goes from
empty to holding records (04 R77, R79). The slots of the reports moved are free, since usage counts the retirement order. -/
def PortState.moveReports (ps : PortState) : PortState :=
  let room := Config.fifoDepth - ps.fifo.length
  let moved := ps.retirement.take room
  let ps1 := if ps.fifo.isEmpty && !moved.isEmpty then ps.raise .completionReady else ps
  { ps1 with fifo := ps.fifo ++ moved.map Retired.record, retirement := ps.retirement.drop room }

/-- The report of a retiring entry: a DONE entry with report FAULTS_ONLY is freed at once, any other joins its port's
retirement order, and reports then move (03 R45, 04 R77). -/
def State.fileReport (s : State) (e : Entry) (o : Outcome) : State :=
  if o = .done ∧ e.report = .faultsOnly then s
  else s.modifyPort e.port fun ps => { ps with retirement := ps.retirement ++ [Retired.mk e o s.mc] }.moveReports

/-- The retirement of a PENDING entry with an outcome: it leaves the queue order, with MC as its actual time (03 R45). -/
def State.retire (s : State) (e : Entry) (o : Outcome) : State :=
  ({ s with queue := s.queue.erase e }).fileReport e o

/-- Several PENDING entries retire with one outcome, in the order of the list (04 R76). -/
def State.retireAll (s : State) (es : List Entry) (o : Outcome) : State :=
  es.foldl (fun acc e => acc.retire e o) s

/-! ## Queue order -/

/-- Whether `x`, already PENDING, stands ahead of `e` when `e` enters: `x` is reached, or `e` is not and `x` is no farther
away (03 R47, R48). -/
def standsAhead (mc : Time) (e x : Entry) : Bool :=
  reached mc x.dueTime || (!reached mc e.dueTime && decide (distance mc x.dueTime ≤ distance mc e.dueTime))

/-- An entry placed in the queue order as it enters PENDING (03 R47, R48). -/
def insertEntry (mc : Time) (e : Entry) (queue : List Entry) : List Entry :=
  queue.takeWhile (standsAhead mc e) ++ e :: queue.dropWhile (standsAhead mc e)

/-- Entries enter PENDING in the order of the list (03 R50, 05 R94). -/
def State.enqueue (s : State) (es : List Entry) : State :=
  es.foldl (fun acc e => { acc with queue := insertEntry acc.mc e acc.queue }) s

/-! ## The due event -/

/-- What has been delivered on the channel of an entry's guard since an admission that found its due time reached; for any other
entry, nothing that its guard does not see (07 R127). -/
def PortState.edgeAfter (e : Entry) (ps : PortState) : EdgeAfter :=
  match ps.lateGuard with
  | some g => if g.tag = e.tag then g.after else .quiet
  | none => .quiet

/-- The arm flag as the guard of an entry meets it: an edge delivered after such an admission is not seen (07 R124, R127). -/
def PortState.guardSees (e : Entry) (c : Channel) (ps : PortState) : Bool := ps.arms[c] && ps.edgeAfter e != .unseen

/-- A CONSUME guard that passes clears the flag; an edge delivered after such an admission has set it again (07 R124, R127). -/
def PortState.consumeArm (e : Entry) (c : Channel) (ps : PortState) : PortState :=
  { ps with arms := if ps.edgeAfter e = .again then ps.arms else ps.arms &&& ~~~(BitVec.twoPow 16 c.val) }

/-- The guard test: passes with the state it leaves, or fails (07 R124). -/
def State.guardTest (s : State) (e : Entry) : Option State :=
  match e.guard with
  | none => some s
  | some g =>
    if (s.port e.port).guardSees e g.channel then
      match g.mode with
      | .consume => some (s.modifyPort e.port (PortState.consumeArm e g.channel))
      | .peek => some s
    else none

/-- A line's shadow level set, with the outcome that its force gives (04 R68). -/
def State.applyLevel (s : State) (l : Line) (g : Level → Level) : State × Outcome :=
  ({ s with lines := s.lines.set l { s.line l with shadow := g (s.line l).shadow } },
   if (s.line l).force.isSome then .masked else .done)

/-- An entry's action applied to its line, or its note delivered (04 R68, R70). -/
def State.applyAction (s : State) (e : Entry) : State × Outcome :=
  match e.action with
  | .set l => s.applyLevel l fun _ => .high
  | .clear l => s.applyLevel l fun _ => .low
  | .toggle l => s.applyLevel l invertLevel
  | .lead l => s.applyLevel l fun _ => .high
  | .trail l => s.applyLevel l fun _ => .low
  | .note value targets => (s.deliverNote e.port value targets s.mc, .done)

/-- A failed guard test: the entry retires GUARD_FALSE, and a LEAD's TRAIL with it (04 R67, 07 R125). -/
def State.retireGuardFalse (s : State) (e : Entry) : State :=
  let s1 := s.retire e .guardFalse
  if e.action.isLead then
    match s1.queue.find? (isTrailOf e) with
    | some t => s1.retire t .guardFalse
    | none => s1
  else s1

/-- The executor takes one entry: guard test, application or note delivery, retirement (04 R67). -/
def State.takeEntry (s : State) (e : Entry) : State :=
  match s.guardTest e with
  | none => s.retireGuardFalse e
  | some s1 =>
    let r := s1.applyAction e
    r.1.retire e r.2

/-- The entry at the head of the queue order has fallen due (03 R47, 04 R66). -/
def State.dueHead (s : State) : Option Entry :=
  match s.queue with
  | [] => none
  | e :: _ => if reached s.mc e.dueTime then some e else none

/-- The executor takes the entry that stands first among those fallen due, if there is one (04 R66). -/
def State.takeDue (s : State) : State :=
  match s.dueHead with
  | none => s
  | some e => s.takeEntry e

/-- Up to `n` entries that have fallen due are taken, one after another in queue order (04 R66). -/
def State.takeDueTimes : Nat → State → State
  | 0, s => s
  | n + 1, s => takeDueTimes n s.takeDue

/-- Every entry that has fallen due is taken, in queue order (01 R11, 04 R66). -/
def State.takeAllDue (s : State) : State := takeDueTimes s.queue.length s

/-! ## Lease ends -/

/-- A line record after its lease ends; a line with no lease is left as it is (02 R29). -/
def LineRecord.leaseEnded (r : LineRecord) : LineRecord :=
  match r.lease with
  | none => r
  | some x => { r with lease := none, shadow := failsafeLevel x.failsafe r.shadow }

/-- The lines of a set that have a lease. -/
def State.leasedIn (s : State) (m : LineSet) : LineSet := bitsWhere fun l => m[l] && (s.line l).lease.isSome

/-- The PENDING entries on the leased lines of a set, in queue order (02 R30). -/
def State.entriesOn (s : State) (m : LineSet) : List Entry := s.queue.filter (namesLineIn (s.leasedIn m))

/-- The leases on a set of lines end together: each line goes to its failsafe level, and the PENDING entries on them retire
in one queue-ordered sequence (02 R29, R30). -/
def State.endLeases (s : State) (m : LineSet) (o : Outcome) : State :=
  (s.mapLines fun l r => if m[l] then r.leaseEnded else r).retireAll (s.entriesOn m) o

/-! ## Roles -/

/-- TIME_AUTHORITY leaves its holder: a slew in progress is cancelled without SLEW_DONE (01 R17), and ROLE_CHANGED is
raised (08 R141). -/
def State.dropTimeAuthority (s : State) (cause : Port) : State :=
  ({ s with timeAuthority := none, slew := none }).raiseRoleChanged cause

/-- SUPERVISOR leaves its holder, and ROLE_CHANGED is raised (08 R141). -/
def State.dropSupervisor (s : State) (cause : Port) : State :=
  ({ s with supervisor := none }).raiseRoleChanged cause

/-- Each role the port holds is released (08 R137 step 1, R142 step 1). -/
def State.dropRoles (s : State) (p cause : Port) : State :=
  let s1 := if s.timeAuthority = some p then s.dropTimeAuthority cause else s
  if s1.supervisor = some p then s1.dropSupervisor cause else s1

/-- The port's batch is freed: its staged entries leave with no outcome and no report (05 R97, R98). -/
def State.freeBatch (s : State) (p : Port) : State := s.modifyPort p fun ps => { ps with batch := .cleared }

/-! ## Replies -/

/-- A reply placed in the port's buffer: the indicators are formed from the state just before, and REPLY_READY is raised
(10 R165). -/
def PortState.placeReply (reply : Reply) (repeated : Bool) (ps : PortState) : PortState :=
  let lost := match ps.reply with
    | some b => !b.fetched
    | none => false
  ({ ps with reply := some ⟨reply, repeated, lost, ps.overrun, false⟩, overrun := false, engine := .replyHeld }).raise
    .replyReady

/-- What a command's owner answers: the state after its effects, the result, and the reply's data. -/
structure Answer where
  state  : State
  result : ResultCode
  data   : List Byte

/-- A refusal: nothing changes. -/
def refuse (s : State) (r : ResultCode) (data : List Byte) : Answer := ⟨s, r, data⟩

/-- A row of the admission table (08 R135): admitted when DETACHED, admitted when FENCED, and the role required. Every
command is admitted when ATTACHED. -/
structure Access where
  whenDetached : Bool
  whenFenced   : Bool
  role         : Option Role
  deriving DecidableEq, Repr

/-- ATTACHED only, no role. -/
def Access.attached : Access := ⟨false, false, none⟩

/-- ATTACHED or FENCED, no role. -/
def Access.reading : Access := ⟨false, true, none⟩

/-- DETACHED or ATTACHED, no role: OPEN. -/
def Access.opening : Access := ⟨true, false, none⟩

/-- Every session state, no role. -/
def Access.always : Access := ⟨true, true, none⟩

/-- ATTACHED, with a role. -/
def Access.withRole (r : Role) : Access := ⟨false, false, some r⟩

/-- The admission check: none when the command passes to its owner, else the refusal (08 R135). -/
def admission (x : Access) (p : Port) (s : State) : Option ResultCode :=
  let roleCheck := match x.role with
    | none => none
    | some r => if s.holder r = some p then none else some ResultCode.notRole
  match (s.port p).session with
  | .attached => roleCheck
  | .detached => if x.whenDetached then roleCheck else some .notAttached
  | .fenced => if x.whenFenced then roleCheck else some .fenced

/-- The request that the frame in hand of port `p` carries, where it awaits its owner and the REFCLK cycle after the one of its
checks has come (10 R162, R164). -/
def PortState.owedRequest (p : Port) (ps : PortState) : Option Instr :=
  match ps.engine, ps.frame with
  | .executing, some bytes =>
    if ps.checkedNow then none
    else
      match checkFrame p bytes with
      | .passed i => some i
      | _ => none
  | _, _ => none

/-- The frame in hand of port `p` awaits its owner and carries this request (10 R164). -/
def State.awaits (s : State) (p : Port) (i : Instr) : Bool := !s.inReset && (s.port p).owedRequest p == some i

/-- The bytes of the frame in hand. -/
def State.frameBytes (s : State) (p : Port) : List Byte := (s.port p).frame.getD []

/-- The end of a taking: the last-executed record is set, the frame in hand becomes absent, and the reply is placed
(10 R164). -/
def State.finishTaking (s : State) (p : Port) (bytes : List Byte) (r : ResultCode) (data : List Byte) : State :=
  let reply : Reply := ⟨frameSequence bytes, frameCode bytes, r, data⟩
  s.modifyPort p fun ps =>
    ({ ps with lastExecuted := some ⟨frameSequence bytes, frameCrc bytes, reply⟩, frame := none }).placeReply reply false

/-- What the admission check and then the owner answer to a request (08 R135, 10 R164). -/
def answerOf (x : Access) (p : Port) (owner : State → Answer) (s : State) : Answer :=
  match admission x p s with
  | some r => refuse s r []
  | none => owner s

/-- The taking of a request as one event: the admission check, the owner's conditions and effects, and the reply (10 R164).
The event comes about only where the request awaits its owner; anywhere else the part does nothing (log entry 8). -/
def takeRequest (x : Access) (p : Port) (i : Instr) (owner : State → Answer) (s : State) : State :=
  if s.awaits p i then
    let ans := answerOf x p owner s
    ans.state.finishTaking p (s.frameBytes p) ans.result ans.data
  else s

end Sys2Proof.Machine
end

