-- ==== Sys2Proof/Machine/Formats.lean ====
section
/-! DEFINITION. The bytes that leave the part: code values, record layouts and the reply frame (spec/11). -/

namespace Sys2Proof.Machine

/-- The value of a result code (11 R174). -/
def ResultCode.byte : ResultCode → Byte
  | .ok => 0x00
  | .badCrc => 0x01
  | .badLength => 0x02
  | .unknownCommand => 0x03
  | .badField => 0x04
  | .notAttached => 0x10
  | .alreadyOpen => 0x11
  | .fenced => 0x12
  | .notRole => 0x13
  | .held => 0x14
  | .self => 0x15
  | .notOwner => 0x20
  | .quota => 0x21
  | .dupTag => 0x22
  | .late => 0x23
  | .tooFar => 0x24
  | .notFound => 0x25
  | .inUse => 0x26
  | .batchFull => 0x30
  | .batchArmed => 0x31
  | .batchEmpty => 0x32
  | .badFrame => 0x33

/-- The value of an outcome (11 R175). -/
def Outcome.byte : Outcome → Byte
  | .done => 0x00
  | .masked => 0x01
  | .guardFalse => 0x02
  | .cancelled => 0x03
  | .expired => 0x04
  | .revoked => 0x05
  | .skipped => 0x06
  | .fenced => 0x07
  | .late => 0x08
  | .notOwner => 0x09
  | .batchAborted => 0x0A

/-- The code of a kind (11 R173). -/
def Kind.code : Kind → Nat
  | .set => 0
  | .clear => 1
  | .toggle => 2
  | .pulse => 3
  | .note => 4

/-- The code of a part (11 R175). -/
def Part.code : Part → Nat
  | .none => 0
  | .lead => 1
  | .trail => 2

/-- A role holder: bit 7 set when present, with the port in bits 0 to 1; 0x00 when absent (11 R170). -/
def holderByte : Option Port → Byte
  | none => 0x00
  | some p => BitVec.ofNat 8 (0x80 + p.index.val)

/-- A time's six bytes (11 R170). -/
def timeBytes (t : Time) : List Byte := beBytes 6 t.toNat

/-- A set's two bytes (11 R170). -/
def maskBytes (m : BitVec 16) : List Byte := beBytes 2 m.toNat

/-- An event kind set's two bytes (11 R170). -/
def eventBytes (m : EventSet) : List Byte := beBytes 2 m.toNat

/-- The bit a level stands for. -/
def levelBit : Level → Nat
  | .low => 0
  | .high => 1

/-- The bit a Boolean stands for. -/
def boolBit (b : Bool) : Nat := if b then 1 else 0

/-- A completion record's 17 bytes (11 R175). -/
def completionBytes (r : CompletionRecord) : List Byte :=
  beBytes 2 r.tag.toNat ++
    [BitVec.ofNat 8 (r.kind.code + 16 * r.part.code),
     (match r.line with
      | some l => BitVec.ofNat 8 l.val
      | none => 0xFF),
     r.outcome.byte] ++
    timeBytes r.dueTime ++ timeBytes r.actualTime

/-- A capture record's 14 bytes (11 R176). -/
def captureBytes (r : CaptureRecord) : List Byte :=
  let lost : Byte := BitVec.ofNat 8 (r.lostBefore.getD 0)
  match r.body with
  | .edge c e =>
    [0x01, lost, BitVec.ofNat 8 c.val, (match e with | .rise => 0x00 | .fall => 0x01), 0, 0, 0, 0] ++ timeBytes r.time
  | .note p v => [0x02, lost, portByte p] ++ beBytes 2 v.toNat ++ [0, 0, 0] ++ timeBytes r.time
  | .step offset => [0x03, lost] ++ offsetBytes offset ++ timeBytes r.time

/-- A line record's 10 bytes in READ_LINES' reply (11 R174). -/
def lineBytes (r : LineRecord) : List Byte :=
  let second : Byte := BitVec.ofNat 8
    (levelBit r.shadow + 2 * boolBit r.force.isSome + 4 * (match r.force with | some f => levelBit f | none => 0) + 8 * levelBit r.pin)
  match r.lease with
  | none => [0x00, second] ++ beBytes 4 0 ++ beBytes 4 0
  | some x =>
    match x.term with
    | .unlimited =>
      [BitVec.ofNat 8 (1 + 2 * x.holder.index.val + 8 * failsafeCode x.failsafe + 32), second] ++ beBytes 4 0 ++ beBytes 4 0
    | .finite t rem =>
      [BitVec.ofNat 8 (1 + 2 * x.holder.index.val + 8 * failsafeCode x.failsafe), second] ++ beBytes 4 t ++ beBytes 4 rem

/-- A batch state's byte (11 R174). -/
def BatchState.byte : BatchState → Byte
  | .empty => 0x00
  | .opened => 0x01
  | .armed => 0x02

/-- READ_STATUS's session byte; a DETACHED port is refused before it is read (11 R174). -/
def Session.byte : Session → Byte
  | .detached => 0x00
  | .attached => 0x01
  | .fenced => 0x02

/-- READ_EVENTS' results byte (11 R174). -/
def resultsByte (b : Option BatchResult) (w : Option SlewResult) : Byte :=
  BitVec.ofNat 8
    ((match b with | none => 0 | some .committed => 1 | some .aborted => 2) +
      4 * (match w with | none => 0 | some .complete => 1 | some .cancelled => 2))

/-- The slew state a reply carries: interval and corrections left, both 0 when the slew is none (01 R14, R20). -/
def slewBytes : Option Slew → List Byte
  | none => intervalBytes 0 ++ beBytes 3 0
  | some w => intervalBytes w.interval ++ beBytes 3 w.left

/-- The quotas of all four ports, A first (11 R174). -/
def quotaBytes (s : State) : List Byte :=
  beBytes 2 (s.port .a).quota ++ beBytes 2 (s.port .b).quota ++ beBytes 2 (s.port .c).quota ++ beBytes 2 (s.port .d).quota

/-- The two role holders, TIME_AUTHORITY first (11 R174). -/
def roleBytes (s : State) : List Byte := [holderByte s.timeAuthority, holderByte s.supervisor]

/-- The indicators byte (11 R174). -/
def ReplyEntry.indicators (b : ReplyEntry) : Byte :=
  BitVec.ofNat 8 (boolBit b.repeated + 2 * boolBit b.replyLost + 4 * boolBit b.overrun)

/-- The reply frame of a buffer entry: length, echoes, result, indicators, data and CRC. The CRC runs over the indicators too
(11 R171 and the table of R174), so that a repeat whose indicators differ has another CRC byte, against R174's word that every
other byte is the same: DEDUCED, log entry 30. -/
def ReplyEntry.frame (b : ReplyEntry) : List Byte :=
  let run : List Byte :=
    [BitVec.ofNat 8 (4 + b.reply.data.length), b.reply.sequence, b.reply.command, b.reply.result.byte, b.indicators] ++
      b.reply.data
  run ++ [crc8 run]

/-- The status bytes of a fetch (11 R174). -/
def statusNoReply : Byte := 0x4E

/-- NOT_READY (11 R174). -/
def statusNotReady : Byte := 0x5A

/-- READY (11 R174). -/
def statusReady : Byte := 0xA5

end Sys2Proof.Machine
end

