-- ==== Sys2Proof/Machine/Events.lean ====
section
/-! DEFINITION. The commands on the event state: READ_EVENTS and SET_EVENT_MASK (chapter 9). -/

namespace Sys2Proof.Machine

/-- READ_EVENTS' owner: the reply shows the set as the command found it; the named kinds then leave it (09 R151). -/
def readEventsOwner (p : Port) (clear : EventSet) (s : State) : Answer :=
  let ps := s.port p
  ⟨s.modifyPort p (PortState.clearEvents (ps.events &&& clear)), .ok,
   eventBytes ps.events ++ [resultsByte ps.batchResult ps.slewResult] ++ eventBytes ps.mask⟩

/-- READ_EVENTS (09 R151). -/
def execReadEvents (p : Port) (clear : EventSet) (s : State) : Host.Outcome State Fault Refusal :=
  .next (takeRequest .always p (.readEvents p clear) (readEventsOwner p clear) s)

/-- SET_EVENT_MASK's owner (09 R154). -/
def setEventMaskOwner (p : Port) (mask : EventSet) (s : State) : Answer :=
  ⟨s.modifyPort p fun ps => { ps with mask := mask }, .ok, eventBytes mask ++ eventBytes (s.port p).events⟩

/-- SET_EVENT_MASK (09 R154). -/
def execSetEventMask (p : Port) (mask : EventSet) (s : State) : Host.Outcome State Fault Refusal :=
  .next (takeRequest .always p (.setEventMask p mask) (setEventMaskOwner p mask) s)

end Sys2Proof.Machine
end

