-- ==== Sys2Proof/Machine/Lines.lean ====
section
/-! DEFINITION. The commands of the lease table and the line drivers, and the expiry of a lease (chapter 2). -/

namespace Sys2Proof.Machine

/-! ## Expiry -/

/-- A line's lease is to expire in this cycle (02 R28, R32). -/
def State.leaseRunOut (s : State) (l : Line) : Bool :=
  match (s.line l).lease with
  | some x => x.term.runOut
  | none => false

/-- A lease expires: it ends with outcome EXPIRED, and LEASE_EXPIRED is raised at the former holder (02 R32). A line with no
lease that has run out is left as it is. -/
def State.expireLease (s : State) (l : Line) : State :=
  match (s.line l).lease with
  | some x =>
    if x.term.runOut then (s.endLeases (BitVec.twoPow 16 l.val) .expired).raise x.holder .leaseExpired else s
  | none => s

/-- LEASE_EXPIRY (02 R32). -/
def execLeaseExpiry (l : Line) (s : State) : Host.Outcome State Fault Refusal :=
  .next (if s.inReset then s else s.expireLease l)

/-! ## Leases -/

/-- The named lines that other ports hold (02 R25). -/
def linesInTheWay (p : Port) (lines : LineSet) (s : State) : LineSet := bitsWhere fun l => lines[l] && s.heldByOther p l

/-- The named lines the requester does not hold (02 R27, R31). -/
def linesNotHeld (p : Port) (lines : LineSet) (s : State) : LineSet := bitsWhere fun l => lines[l] && !s.holds p l

/-- Every named line is leased to the requester anew (02 R26). -/
def State.grant (s : State) (p : Port) (lines : LineSet) (term : Option Nat) (f : Failsafe) : State :=
  s.mapLines fun l r => if lines[l] then { r with lease := some ⟨p, .start term, f⟩ } else r

/-- ACQUIRE_LINES' owner (02 R25, R26). -/
def acquireLinesOwner (p : Port) (lines : LineSet) (term : Option Nat) (f : Failsafe) (s : State) : Answer :=
  if linesInTheWay p lines s ≠ 0 then refuse s .held (maskBytes (linesInTheWay p lines s))
  else ⟨s.grant p lines term f, .ok, maskBytes ((s.grant p lines term f).heldLines p)⟩

/-- ACQUIRE_LINES (02 R25, R26). -/
def execAcquireLines (p : Port) (lines : LineSet) (term : Option Nat) (f : Failsafe) (s : State) :
    Host.Outcome State Fault Refusal :=
  .next (takeRequest .attached p (.acquireLines p lines term f) (acquireLinesOwner p lines term f) s)

/-- Every named lease's remaining term is set to its term (02 R27). -/
def State.renew (s : State) (lines : LineSet) : State :=
  s.mapLines fun l r =>
    if lines[l] then { r with lease := r.lease.map fun x => { x with term := x.term.restart } } else r

/-- RENEW_LINES' owner (02 R27). -/
def renewLinesOwner (p : Port) (lines : LineSet) (s : State) : Answer :=
  if linesNotHeld p lines s ≠ 0 then refuse s .notOwner (maskBytes (linesNotHeld p lines s))
  else ⟨s.renew lines, .ok, beBytes 1 (setSize lines)⟩

/-- RENEW_LINES (02 R27). -/
def execRenewLines (p : Port) (lines : LineSet) (s : State) : Host.Outcome State Fault Refusal :=
  .next (takeRequest .attached p (.renewLines p lines) (renewLinesOwner p lines) s)

/-- RELEASE_LINES' owner (02 R31). -/
def releaseLinesOwner (p : Port) (lines : LineSet) (s : State) : Answer :=
  if linesNotHeld p lines s ≠ 0 then refuse s .notOwner (maskBytes (linesNotHeld p lines s))
  else ⟨s.endLeases lines .cancelled, .ok, beBytes 2 (s.entriesOn lines).length⟩

/-- RELEASE_LINES (02 R31). -/
def execReleaseLines (p : Port) (lines : LineSet) (s : State) : Host.Outcome State Fault Refusal :=
  .next (takeRequest .attached p (.releaseLines p lines) (releaseLinesOwner p lines) s)

/-- The port holds some line of the set. -/
def State.holdsIn (s : State) (p : Port) (lines : LineSet) : Bool := (List.finRange 16).any fun l => lines[l] && s.holds p l

/-- REVOKE_LINES' owner: LEASE_REVOKED is raised at each former holder (02 R36). -/
def revokeLinesOwner (lines : LineSet) (s : State) : Answer :=
  let s1 := s.endLeases lines .revoked
  let s2 := s1.mapPorts fun p ps => if s.holdsIn p lines then ps.raise .leaseRevoked else ps
  ⟨s2, .ok, maskBytes (s.leasedIn lines) ++ beBytes 2 (s.entriesOn lines).length⟩

/-- REVOKE_LINES (02 R36). -/
def execRevokeLines (p : Port) (lines : LineSet) (s : State) : Host.Outcome State Fault Refusal :=
  .next (takeRequest (.withRole .supervisor) p (.revokeLines p lines) (revokeLinesOwner lines) s)

/-! ## Forces -/

/-- The set of lines that are forced. -/
def State.forcedLines (s : State) : LineSet := bitsWhere fun l => (s.line l).force.isSome

/-- Every named line's force replaced, or removed (02 R38, R39). -/
def State.setForce (s : State) (lines : LineSet) (force : Option Level) : State :=
  s.mapLines fun l r => if lines[l] then { r with force := force } else r

/-- FORCE_LINES' owner (02 R38). -/
def forceLinesOwner (lines : LineSet) (level : Level) (s : State) : Answer :=
  ⟨s.setForce lines (some level), .ok, maskBytes (s.setForce lines (some level)).forcedLines⟩

/-- FORCE_LINES (02 R38). -/
def execForceLines (p : Port) (lines : LineSet) (level : Level) (s : State) : Host.Outcome State Fault Refusal :=
  .next (takeRequest (.withRole .supervisor) p (.forceLines p lines level) (forceLinesOwner lines level) s)

/-- UNFORCE_LINES' owner (02 R39). -/
def unforceLinesOwner (lines : LineSet) (s : State) : Answer :=
  ⟨s.setForce lines none, .ok, maskBytes (s.setForce lines none).forcedLines⟩

/-- UNFORCE_LINES (02 R39). -/
def execUnforceLines (p : Port) (lines : LineSet) (s : State) : Host.Outcome State Fault Refusal :=
  .next (takeRequest (.withRole .supervisor) p (.unforceLines p lines) (unforceLinesOwner lines) s)

/-! ## Reading -/

/-- READ_LINES' owner: the sixteen records, OUT0 first (02 R41). -/
def readLinesOwner (s : State) : Answer := ⟨s, .ok, (s.lines.toList.map lineBytes).flatten⟩

/-- READ_LINES (02 R41). -/
def execReadLines (p : Port) (s : State) : Host.Outcome State Fault Refusal :=
  .next (takeRequest .attached p (.readLines p) readLinesOwner s)

end Sys2Proof.Machine
end

