-- ==== Sys2Proof/Machine/Protocol.lean ====
section
/-! DEFINITION. The link of a port: request transactions, unknown transactions, the check of a whole frame, and fetches,
with the recognition of the rising CS_N that ends each (chapter 10). -/

namespace Sys2Proof.Machine

/-! ## The rising CS_N -/

/-- The change that the oldest rising CS_N brings, once both stages of the synchroniser have passed it on (10 R157,
R162). -/
def PortState.recognisable (ps : PortState) : Option RiseChange :=
  match ps.risen with
  | [] => none
  | r :: _ => if 2 ≤ r.stage then some r.change else none

/-- The oldest rising CS_N waits no longer. -/
def PortState.riseTaken (ps : PortState) : PortState := { ps with risen := ps.risen.tail }

/-- CS_N rises: the link is idle again, and the change that the edge brings waits for the edge to be recognised
(10 R157). -/
def PortState.csRises (change : RiseChange) (ps : PortState) : PortState :=
  { ps with link := .idle, risen := ps.risen ++ [⟨change, 0⟩] }

/-- CS_N moves on a link that the part ignores: in reset, and until CS_N next rises where it was low at release. `low` says
where the move leaves CS_N, and none that it does not move. A link that carries a transaction is no such link (10 R157). -/
def Link.moveIgnored (low : Option Bool) : Link → Link
  | .idle => if low = some true then .ignored else .idle
  | .ignored => if low = some false then .idle else .ignored
  | .receiving => .receiving
  | .dropping => .dropping

/-- CS_N moves on a port whose link the part ignores, and nothing is taken (10 R157). -/
def PortState.moveIgnored (low : Option Bool) (ps : PortState) : PortState := { ps with link := ps.link.moveIgnored low }

/-! ## Request transactions -/

/-- Where a part of a request transaction leaves CS_N. -/
def requestLeaves : RequestPart → Option Bool
  | .begins => some true
  | .byte _ => none
  | .csRises _ => some false
  | .whole _ _ => some false
  | .recognised => none

/-- The state a reception left, as an engine state (10 R160). -/
def Resting.engine : Resting → Engine
  | .idle => .idle
  | .replyHeld => .replyHeld

/-- The first byte of a request transaction: the engine goes to RECEIVING from IDLE or REPLY_HELD (10 R160), and in
RECEIVING or EXECUTING the transaction is dropped whole (10 R161). A link that carries a transaction begins no other. -/
def PortState.requestBegins (ps : PortState) : PortState :=
  match ps.link with
  | .receiving => ps
  | .dropping => ps
  | .ignored => ps
  | .idle =>
    match ps.engine with
    | .idle => { ps with engine := .receiving .idle, frame := some [requestType], link := .receiving, miso := [0xFF] }
    | .replyHeld =>
      { ps with engine := .receiving .replyHeld, frame := some [requestType], link := .receiving, miso := [0xFF] }
    | .receiving _ => { ps with link := .dropping, miso := [0xFF] }
    | .executing => { ps with link := .dropping, miso := [0xFF] }

/-- A further byte of a request transaction: taken into the frame in hand, or passed over when the transaction is dropped;
MISO carries ones (10 R157, R160, R161). -/
def PortState.requestByte (b : Byte) (ps : PortState) : PortState :=
  match ps.link with
  | .idle => ps
  | .ignored => ps
  | .receiving => { ps with frame := ps.frame.map (· ++ [b]), miso := ps.miso ++ [0xFF] }
  | .dropping => { ps with miso := ps.miso ++ [0xFF] }

/-- The rising CS_N of a request transaction: the frame is whole, or is to be aborted, or the transaction was dropped. The
engine and the frame stay as they are until the edge is recognised (10 R157, R160, R161). -/
def PortState.requestEnds (extraBits : Fin 8) (ps : PortState) : PortState :=
  match ps.link with
  | .idle => ps
  | .ignored => ps.moveIgnored (some false)
  | .dropping => ps.csRises .dropped
  | .receiving => ps.csRises (if extraBits = 0 ∧ frameWhole (ps.frame.getD []) then .whole else .aborted)

/-- The recognition of an aborted frame's rising CS_N: the frame is discarded, with the engine back in the state it left
and FRAME_ABORTED raised (10 R160). -/
def PortState.abortFrame (ps : PortState) : PortState :=
  let back := match ps.engine with
    | .receiving left => left.engine
    | .idle => .idle
    | .executing => .executing
    | .replyHeld => .replyHeld
  ({ ps with frame := none, engine := back }).raise .frameAborted

/-- The recognition of the rising CS_N of an aborted or a dropped request transaction: a dropped one leaves overrun pending
(10 R157, R160, R161). -/
def PortState.requestRecognised (ps : PortState) : PortState :=
  match ps.recognisable with
  | some .aborted => ps.riseTaken.abortFrame
  | some .dropped => { ps.riseTaken with overrun := true }
  | _ => ps

/-- A part of a request transaction, taken at the port. -/
def PortState.clockRequest (part : RequestPart) (ps : PortState) : PortState :=
  match part with
  | .begins => ps.requestBegins
  | .byte b => ps.requestByte b
  | .csRises bits => ps.requestEnds bits
  | .whole rest bits =>
    match ps.link with
    | .idle => (rest.foldl (fun acc b => acc.requestByte b) ps.requestBegins).requestEnds bits
    | .ignored => ps.moveIgnored (some false)
    | .receiving => ps
    | .dropping => ps
  | .recognised => ps.requestRecognised

/-- REQUEST_TRANSACTION (10 R157, R160, R161). While RST_N is low the link is ignored, and only CS_N moves (10 R157). -/
def execRequestTransaction (p : Port) (part : RequestPart) (s : State) : Host.Outcome State Fault Refusal :=
  .next (s.modifyPort p
    (if s.inReset then PortState.moveIgnored (requestLeaves part) else PortState.clockRequest part))

/-- A transaction whose first byte is neither type value: ones on MISO, and FRAME_ABORTED once its rising CS_N is
recognised (10 R157, R158). -/
def PortState.unknownClocked (further : Nat) (ps : PortState) : PortState :=
  match ps.link with
  | .idle => ({ ps with miso := List.replicate (further + 1) 0xFF }).csRises .unknown
  | .ignored => ps.moveIgnored (some false)
  | .receiving => ps
  | .dropping => ps

/-- Where a part of an unknown transaction leaves CS_N. -/
def unknownLeaves : UnknownPart → Option Bool
  | .clocked _ => some false
  | .recognised => none

/-- The recognition of such a transaction's rising CS_N: FRAME_ABORTED, and nothing else (10 R158). -/
def PortState.unknownRecognised (ps : PortState) : PortState :=
  match ps.recognisable with
  | some .unknown => ps.riseTaken.raise .frameAborted
  | _ => ps

/-- A part of an unknown transaction, taken at the port; one that begins with a type value is no such transaction. -/
def PortState.unknownTransaction (first : Byte) (part : UnknownPart) (ps : PortState) : PortState :=
  if first == requestType || first == fetchType then ps
  else
    match part with
    | .clocked further => ps.unknownClocked further
    | .recognised => ps.unknownRecognised

/-- UNKNOWN_TRANSACTION (10 R158); while RST_N is low only CS_N moves (10 R157). -/
def execUnknownTransaction (p : Port) (first : Byte) (part : UnknownPart) (s : State) : Host.Outcome State Fault Refusal :=
  .next (s.modifyPort p
    (if s.inReset then PortState.moveIgnored (unknownLeaves part) else PortState.unknownTransaction first part))

/-! ## The frame checks -/

/-- A frame that fails one of checks 1 to 4 is answered at once with no data; the last-executed record stays (10 R162). -/
def PortState.refuseFrame (bytes : List Byte) (r : ResultCode) (ps : PortState) : PortState :=
  ({ ps with frame := none }).placeReply ⟨frameSequence bytes, frameCode bytes, r, []⟩ false

/-- The last-executed record has the frame's sequence and CRC (10 R163). -/
def isRepeatOf (bytes : List Byte) (x : LastExecuted) : Bool :=
  x.sequence == frameSequence bytes && x.crc == frameCrc bytes

/-- A frame that passes checks 1 to 4: a repeat is answered from the last-executed record, any other goes to EXECUTING, to be
taken in the next cycle (10 R163, R164). -/
def PortState.acceptFrame (bytes : List Byte) (ps : PortState) : PortState :=
  match ps.lastExecuted with
  | some x =>
    if isRepeatOf bytes x then PortState.placeReply x.reply true { ps with frame := none }
    else { ps with engine := .executing, checkedNow := true }
  | none => { ps with engine := .executing, checkedNow := true }

/-- The checks of a frame in order, and what follows from the first that fails or from all passing (10 R162, R163). -/
def PortState.checkBytes (p : Port) (bytes : List Byte) (ps : PortState) : PortState :=
  match checkFrame p bytes with
  | .badCrc => ps.refuseFrame bytes .badCrc
  | .badLength => ps.refuseFrame bytes .badLength
  | .unknownCommand => ps.refuseFrame bytes .unknownCommand
  | .badField => ps.refuseFrame bytes .badField
  | .passed _ => ps.acceptFrame bytes

/-- The check of the frame in hand of an engine that is RECEIVING (10 R162). -/
def PortState.checkReceived (p : Port) (ps : PortState) : PortState :=
  match ps.engine, ps.frame with
  | .receiving _, some bytes => ps.checkBytes p bytes
  | _, _ => ps

/-- The recognition of a whole frame's rising CS_N: the frame in hand is checked (10 R162). -/
def PortState.checkInHand (p : Port) (ps : PortState) : PortState :=
  match ps.recognisable with
  | some .whole => ps.riseTaken.checkReceived p
  | _ => ps

/-- FRAME_CHECK (10 R162, R163). -/
def execFrameCheck (p : Port) (s : State) : Host.Outcome State Fault Refusal :=
  .next (if s.inReset then s else s.modifyPort p (PortState.checkInHand p))

/-! ## Fetching -/

/-- The bytes that follow the first of a fetch: the status byte, and the reply frame after READY (10 R166). -/
def PortState.fetchBytes (ps : PortState) : List Byte :=
  match ps.engine with
  | .idle => [statusNoReply]
  | .receiving _ => [statusNotReady]
  | .executing => [statusNotReady]
  | .replyHeld => statusReady :: (match ps.reply with
      | some b => b.frame
      | none => [])

/-- A fetch transaction of `clocked` whole bytes, its first byte counted: one that clocks out the whole reply up to its CRC
byte completes once its rising CS_N is recognised. With no whole byte CS_N rose before the first was complete, and nothing
happens (10 R157, R158, R166, R167). -/
def PortState.fetchClocked (clocked : Nat) (ps : PortState) : PortState :=
  match ps.link with
  | .idle =>
    if clocked = 0 then ps
    else
      let out := ps.fetchBytes
      let ps1 := { ps with miso := (0xFF :: out ++ List.replicate clocked 0xFF).take clocked }
      if ps.engine = .replyHeld ∧ out.length < clocked then ps1.csRises .fetched else ps1
  | .ignored => ps.moveIgnored (some false)
  | .receiving => ps
  | .dropping => ps

/-- Where a part of a fetch transaction leaves CS_N. -/
def fetchLeaves : FetchPart → Option Bool
  | .clocked _ => some false
  | .recognised => none

/-- The recognition of a complete fetch's rising CS_N: fetched becomes yes and REPLY_READY leaves the event set
(10 R167). -/
def PortState.fetchRecognised (ps : PortState) : PortState :=
  match ps.recognisable with
  | some .fetched =>
    ({ ps.riseTaken with reply := ps.reply.map fun (b : ReplyEntry) => { b with fetched := true } }).clearEvents
      EventKind.replyReady.mask
  | _ => ps

/-- A part of a fetch transaction, taken at the port. -/
def PortState.fetch (part : FetchPart) (ps : PortState) : PortState :=
  match part with
  | .clocked bytes => ps.fetchClocked bytes
  | .recognised => ps.fetchRecognised

/-- FETCH_TRANSACTION (10 R166, R167); while RST_N is low only CS_N moves (10 R157). -/
def execFetchTransaction (p : Port) (part : FetchPart) (s : State) : Host.Outcome State Fault Refusal :=
  .next (s.modifyPort p (if s.inReset then PortState.moveIgnored (fetchLeaves part) else PortState.fetch part))

/-! ## All that a cycle recognises -/

/-- The oldest rising CS_N is recognised, where it has passed both stages, and makes its change (10 R157). -/
def PortState.recogniseNext (p : Port) (ps : PortState) : PortState :=
  match ps.recognisable with
  | none => ps
  | some .whole => ps.checkInHand p
  | some .aborted => ps.requestRecognised
  | some .dropped => ps.requestRecognised
  | some .unknown => ps.unknownRecognised
  | some .fetched => ps.fetchRecognised

/-- Up to `n` rising edges are recognised, oldest first. -/
def PortState.recogniseTimes (p : Port) : Nat → PortState → PortState
  | 0, ps => ps
  | n + 1, ps => recogniseTimes p n (ps.recogniseNext p)

/-- Every rising CS_N of a port that has passed both stages is recognised in the cycle, oldest first (10 R157). -/
def State.recogniseAll (s : State) (p : Port) : State :=
  s.modifyPort p (PortState.recogniseTimes p (s.port p).risen.length)

end Sys2Proof.Machine
end

