-- ==== Sys2Proof/Machine/Capture.lean ====
section
/-! DEFINITION. The capture unit: the sample of a channel with its filter and edges, and the commands CONFIG_INPUT,
SUBSCRIBE, READ_CAPTURES, CLEAR_ARMS, READ_ARMS (chapters 6 and 7). -/

namespace Sys2Proof.Machine

/-! ## The sample of a channel -/

/-- The filter of a channel acts on a sample taken at a machine time: the channel after it, and the first-sample time of the
edge it makes, if it makes one (06 R102). The first sample after release becomes the filtered level and makes no edge
(06 R104). -/
def ChannelState.take (ch : ChannelState) (sample : Level) (now : Time) : ChannelState × Option Time :=
  if !ch.sampled then ({ ch with filtered := sample, sampled := true, run := none }, none)
  else
    match ch.run with
    | none =>
      if sample = ch.filtered then (ch, none)
      else if ch.depth ≤ 1 then ({ ch with filtered := sample }, some now)
      else ({ ch with run := some ⟨sample, 1, now⟩ }, none)
    | some r =>
      if sample = ch.filtered then ({ ch with run := none }, none)
      else if r.count + 1 < ch.depth then ({ ch with run := some { r with count := r.count + 1 } }, none)
      else ({ ch with filtered := r.candidate, run := none }, some r.firstTime)

/-- The channel's sample in the present cycle: its synchronised level (06 R101). -/
def State.sampleLevel (s : State) (c : Channel) : Level := levelFromBool s.inStage2[c]

/-- What the present cycle's sample does to a channel (06 R102). -/
def State.sampleResult (s : State) (c : Channel) : ChannelState × Option Time :=
  s.channels[c].take (s.sampleLevel c) s.mc

/-- The channel's sample of the present cycle is still to be taken (06 R101). -/
def State.sampleOwed (s : State) (c : Channel) : Bool := !s.samplesTaken[c]

/-- The present cycle's sample of the channel makes a qualifying edge (06 R103). -/
def State.qualifyingEdgeDue (s : State) (c : Channel) : Bool :=
  s.sampleOwed c && (s.sampleResult c).2.isSome &&
    qualifies (s.channels[c]).select (edgeTo (s.sampleResult c).1.filtered)

/-- The channel after its sample of the present cycle, marked as taken. -/
def State.storeSample (s : State) (c : Channel) : State :=
  { s with
    channels := s.channels.set c (s.sampleResult c).1
    samplesTaken := s.samplesTaken ||| BitVec.twoPow 16 c.val }

/-- The channel's sample of the present cycle is taken, once: the filter acts, and a qualifying edge is delivered in the
same event (06 R102, R103, R111). -/
def State.sampleChannel (s : State) (c : Channel) : State :=
  if s.sampleOwed c then
    match (s.sampleResult c).2 with
    | some t =>
      if qualifies (s.channels[c]).select (edgeTo (s.sampleResult c).1.filtered) then
        (s.storeSample c).deliverEdge c (edgeTo (s.sampleResult c).1.filtered) t
      else s.storeSample c
    | none => s.storeSample c
  else s

/-- CHANNEL_SAMPLE: the present cycle's sample of a channel (06 R102). Where it makes a qualifying edge, the delivery is part
of the same event (06 R111, log entry 4). -/
def execChannelSample (c : Channel) (s : State) : Host.Outcome State Fault Refusal :=
  .next (if s.inReset then s else s.sampleChannel c)

/-- EDGE_DELIVERY: the present cycle's sample of a channel where it makes a qualifying edge (06 R111). -/
def execEdgeDelivery (c : Channel) (s : State) : Host.Outcome State Fault Refusal :=
  .next (if s.inReset then s else if s.qualifyingEdgeDue c then s.sampleChannel c else s)

/-! ## Configuration and subscription -/

/-- The channels whose filtered level is HIGH (06 R106). -/
def State.highChannels (s : State) : ChannelSet := bitsWhere fun c => (s.channels[c]).filtered == .high

/-- The channels whose edge select is other than NONE (06 R109). -/
def State.edgeChannels (s : State) : ChannelSet := bitsWhere fun c => (s.channels[c]).select != .none

/-- No port holds SUPERVISOR, or the requester does (06 R105, 08 R144). -/
def supervisorAllows (p : Port) (s : State) : Bool := s.supervisor.isNone || s.supervisor == some p

/-- Every named channel is configured and its run restarted; filtered levels are kept (06 R106). -/
def State.configure (s : State) (channels : ChannelSet) (depth : Nat) (select : EdgeSelect) : State :=
  { s with channels := Vector.ofFn fun c =>
      if channels[c] then { s.channels[c] with depth := depth, select := select, run := none } else s.channels[c] }

/-- CONFIG_INPUT's owner (06 R105, R106). -/
def configInputOwner (p : Port) (channels : ChannelSet) (depth : Nat) (select : EdgeSelect) (s : State) : Answer :=
  if !supervisorAllows p s then refuse s .notRole []
  else ⟨s.configure channels depth select, .ok, maskBytes (s.configure channels depth select).highChannels⟩

/-- CONFIG_INPUT (06 R105, R106). -/
def execConfigInput (p : Port) (channels : ChannelSet) (depth : Nat) (select : EdgeSelect) (s : State) :
    Host.Outcome State Fault Refusal :=
  .next (takeRequest .attached p (.configInput p channels depth select) (configInputOwner p channels depth select) s)

/-- SUBSCRIBE's owner: channels that stay keep their arm flags, removed and added ones have them clear (06 R109). -/
def subscribeOwner (p : Port) (channels : ChannelSet) (s : State) : Answer :=
  ⟨s.modifyPort p fun ps => { ps with subscription := channels, arms := ps.arms &&& (ps.subscription &&& channels) }, .ok,
   maskBytes channels ++ maskBytes s.highChannels ++ maskBytes s.edgeChannels⟩

/-- SUBSCRIBE (06 R109). -/
def execSubscribe (p : Port) (channels : ChannelSet) (s : State) : Host.Outcome State Fault Refusal :=
  .next (takeRequest .attached p (.subscribe p channels) (subscribeOwner p channels) s)

/-! ## Logs and arm flags -/

/-- READ_CAPTURES' owner (06 R117). -/
def readCapturesOwner (p : Port) (count : Nat) (s : State) : Answer :=
  let taken := (s.port p).log.take count
  let left := (s.port p).log.drop count
  ⟨s.modifyPort p fun ps => { ps with log := ps.log.drop count }, .ok,
   beBytes 1 taken.length ++ beBytes 1 left.length ++ beBytes 1 (s.port p).losses ++ (taken.map captureBytes).flatten⟩

/-- READ_CAPTURES (06 R117). -/
def execReadCaptures (p : Port) (count : Nat) (s : State) : Host.Outcome State Fault Refusal :=
  .next (takeRequest .reading p (.readCaptures p count) (readCapturesOwner p count) s)

/-- CLEAR_ARMS' owner: the reply carries the flags it cleared (07 R128). -/
def clearArmsOwner (p : Port) (channels : ChannelSet) (s : State) : Answer :=
  ⟨s.modifyPort p fun ps => { ps with arms := ps.arms &&& ~~~channels }, .ok, maskBytes ((s.port p).arms &&& channels)⟩

/-- CLEAR_ARMS (07 R128). -/
def execClearArms (p : Port) (channels : ChannelSet) (s : State) : Host.Outcome State Fault Refusal :=
  .next (takeRequest .attached p (.clearArms p channels) (clearArmsOwner p channels) s)

/-- READ_ARMS' owner (07 R129). -/
def readArmsOwner (p : Port) (s : State) : Answer :=
  ⟨s, .ok, maskBytes (s.port p).arms ++ maskBytes (s.port p).subscription⟩

/-- READ_ARMS (07 R129). -/
def execReadArms (p : Port) (s : State) : Host.Outcome State Fault Refusal :=
  .next (takeRequest .attached p (.readArms p) (readArmsOwner p) s)

end Sys2Proof.Machine
end

