-- ==== Sys2Proof/Machine/Sessions.lean ====
section
/-! DEFINITION. Sessions, roles, fencing, quotas and status: OPEN, CLOSE, CLAIM_ROLE, RELEASE_ROLE, FENCE_PORT, SET_QUOTA,
READ_STATUS (chapter 8). -/

namespace Sys2Proof.Machine

/-! ## Sessions -/

/-- OPEN's owner (08 R136). -/
def openPortOwner (p : Port) (s : State) : Answer :=
  if s.attached p then refuse s .alreadyOpen []
  else
    ⟨s.modifyPort p fun ps => { ps with session := .attached }, .ok,
     [portByte p] ++ beBytes 2 (s.port p).quota ++ roleBytes s ++ eventBytes (s.port p).mask⟩

/-- OPEN (08 R136). -/
def execOpenPort (p : Port) (s : State) : Host.Outcome State Fault Refusal :=
  .next (takeRequest .opening p (.openPort p) (openPortOwner p) s)

/-- The port's own state at the end of CLOSE: everything of the session is emptied; quota, synchroniser, reply buffer,
last-executed record and engine stay (08 R137 steps 4 to 8). -/
def PortState.closed (ps : PortState) : PortState :=
  { ps with
    session := .detached
    strobe := .cleared
    retirement := []
    fifo := []
    batch := .cleared
    subscription := 0
    log := []
    losses := 0
    arms := 0
    events := 0
    batchResult := none
    slewResult := none
    mask := 0 }

/-- The shared part of CLOSE: roles released, leases ended, the batch freed, and every PENDING entry of the port retired
CANCELLED (08 R137 steps 1 to 4). -/
def State.closeWork (s : State) (p : Port) : State :=
  let s1 := s.dropRoles p p
  let s2 := (s1.endLeases (s1.heldLines p) .cancelled).freeBatch p
  s2.retireAll (s2.pendingOf p) .cancelled

/-- The number of entries that CLOSE retires CANCELLED (08 R137). -/
def closeRetired (p : Port) (s : State) : Nat :=
  let s1 := s.dropRoles p p
  (s1.entriesOn (s1.heldLines p)).length +
    (((s1.endLeases (s1.heldLines p) .cancelled).freeBatch p).pendingOf p).length

/-- CLOSE's owner; the reports discarded are the entries then in REPORT_WAIT and the records in the FIFO (08 R137). -/
def closePortOwner (p : Port) (s : State) : Answer :=
  let s1 := s.closeWork p
  ⟨s1.modifyPort p PortState.closed, .ok,
   beBytes 2 (closeRetired p s) ++ beBytes 2 ((s1.port p).retirement.length + (s1.port p).fifo.length)⟩

/-- CLOSE (08 R137). -/
def execClosePort (p : Port) (s : State) : Host.Outcome State Fault Refusal :=
  .next (takeRequest .reading p (.closePort p) (closePortOwner p) s)

/-! ## Roles -/

/-- The role is given to a port (08 R139). -/
def State.giveRole (s : State) (r : Role) (p : Port) : State :=
  match r with
  | .timeAuthority => { s with timeAuthority := some p }
  | .supervisor => { s with supervisor := some p }

/-- CLAIM_ROLE's owner (08 R139). -/
def claimRoleOwner (p : Port) (r : Role) (s : State) : Answer :=
  match s.holder r with
  | none => ⟨(s.giveRole r p).raiseRoleChanged p, .ok, roleBytes (s.giveRole r p)⟩
  | some h => if h = p then ⟨s, .ok, roleBytes s⟩ else refuse s .held (roleBytes s)

/-- CLAIM_ROLE (08 R139). -/
def execClaimRole (p : Port) (r : Role) (s : State) : Host.Outcome State Fault Refusal :=
  .next (takeRequest .attached p (.claimRole p r) (claimRoleOwner p r) s)

/-- The role leaves its holder (08 R140, 01 R17). -/
def State.dropRole (s : State) (r : Role) (cause : Port) : State :=
  match r with
  | .timeAuthority => s.dropTimeAuthority cause
  | .supervisor => s.dropSupervisor cause

/-- RELEASE_ROLE's owner (08 R140). -/
def releaseRoleOwner (p : Port) (r : Role) (s : State) : Answer :=
  if s.holder r ≠ some p then refuse s .notRole []
  else ⟨s.dropRole r p, .ok, roleBytes (s.dropRole r p)⟩

/-- RELEASE_ROLE (08 R140). -/
def execReleaseRole (p : Port) (r : Role) (s : State) : Host.Outcome State Fault Refusal :=
  .next (takeRequest .attached p (.releaseRole p r) (releaseRoleOwner p r) s)

/-! ## Fencing -/

/-- The entries a fence retires: every PENDING entry of the target, and any on a line it holds, in queue order
(08 R142 step 2). -/
def fencedEntries (t : Port) (s : State) : List Entry :=
  s.queue.filter fun e => e.port == t || namesLineIn (s.heldLines t) e

/-- The target's own state at the end of a fence (08 R142 steps 4 and 5). -/
def PortState.fencedOff (ps : PortState) : PortState := { ps with subscription := 0, arms := 0 }.raise .portFenced

/-- The teardown of a fence (08 R142). -/
def State.fence (s : State) (t cause : Port) : State :=
  let s1 := (s.modifyPort t fun ps => { ps with session := .fenced }).dropRoles t cause
  let s2 := (s1.mapLines fun l r => if s1.holds t l then r.leaseEnded else r).retireAll (fencedEntries t s1) .fenced
  (s2.freeBatch t).modifyPort t PortState.fencedOff

/-- FENCE_PORT's owner (08 R142). -/
def fencePortOwner (p t : Port) (s : State) : Answer :=
  if t = p then refuse s .self []
  else if !s.attached t then refuse s .notAttached []
  else ⟨s.fence t p, .ok, beBytes 1 (setSize (s.heldLines t)) ++ beBytes 2 (fencedEntries t s).length⟩

/-- FENCE_PORT (08 R142). -/
def execFencePort (p t : Port) (s : State) : Host.Outcome State Fault Refusal :=
  .next (takeRequest (.withRole .supervisor) p (.fencePort p t) (fencePortOwner p t) s)

/-! ## Quotas and status -/

/-- The sum of the quotas of the ports other than one (08 R144). -/
def otherQuotas (t : Port) (s : State) : Nat := s.quotaSum - (s.port t).quota

/-- SET_QUOTA's owner: the three checks in order (08 R144). -/
def setQuotaOwner (p t : Port) (quota : Nat) (s : State) : Answer :=
  if !supervisorAllows p s then refuse s .notRole []
  else if quota < s.usage t then refuse s .inUse (beBytes 2 (s.usage t))
  else if Config.slots < quota + otherQuotas t s then refuse s .quota (beBytes 2 (otherQuotas t s))
  else
    let s1 := s.modifyPort t fun ps => { ps with quota := quota }
    ⟨s1, .ok, quotaBytes s1 ++ beBytes 2 s1.freeSlots⟩

/-- SET_QUOTA (08 R144). -/
def execSetQuota (p t : Port) (quota : Nat) (s : State) : Host.Outcome State Fault Refusal :=
  .next (takeRequest .attached p (.setQuota p t quota) (setQuotaOwner p t quota) s)

/-- The batch target a READ_STATUS shows: 0 when not ARMED (11 R174). -/
def targetBytes (b : Batch) : List Byte := beBytes 4 ((b.target.map BitVec.toNat).getD 0)

/-- READ_STATUS's owner (08 R145, 11 R174). -/
def readStatusOwner (p : Port) (s : State) : Answer :=
  let ps := s.port p
  ⟨s, .ok,
   [portByte p, ps.session.byte] ++ roleBytes s ++ [ps.batch.state.byte] ++ targetBytes ps.batch ++
     beBytes 1 ps.batch.staged.length ++ beBytes 1 (setSize (s.heldLines p)) ++ beBytes 2 ps.quota ++ beBytes 2 (s.usage p) ++
     beBytes 1 ps.fifo.length ++ beBytes 2 ps.retirement.length ++ beBytes 1 ps.log.length ++ beBytes 1 ps.losses ++
     beBytes 1 (setSize ps.subscription) ++ beBytes 1 (setSize ps.arms)⟩

/-- READ_STATUS (08 R145). -/
def execReadStatus (p : Port) (s : State) : Host.Outcome State Fault Refusal :=
  .next (takeRequest .reading p (.readStatus p) (readStatusOwner p) s)

end Sys2Proof.Machine
end

