-- ==== Sys2Proof/Machine/Queue.lean ====
section
/-! DEFINITION. The commands of the action queue and of the executor: SUBMIT, CANCEL, CANCEL_LINES, READ_QUEUE,
READ_COMPLETIONS, and the executor's events DUE_EVENT and REPORT_MOVE (chapters 3 and 4). -/

namespace Sys2Proof.Machine

/-! ## SUBMIT -/

/-- Check 1: the line a descriptor names is leased by the requester; NOTE names none (03 R56). -/
def lineIsHeld (p : Port) (x : Descriptor) (s : State) : Bool :=
  match descLine x.action with
  | some l => s.holds p l
  | none => true

/-- Check 4: some time of the admission is TOO_FAR: the due time, or a PULSE's TRAIL time (03 R56). -/
def someTimeTooFar (x : Descriptor) (mc : Time) : Bool :=
  tooFar mc x.dueTime ||
    (match x.action with
     | .pulse _ w => tooFar mc (trailTime x.dueTime w)
     | _ => false)

/-- Check 5: the admission would take the requester's usage above its quota (03 R52, R56). -/
def overQuota (p : Port) (x : Descriptor) (s : State) : Bool := decide ((s.port p).quota < s.usage p + descSlots x)

/-- The data of a QUOTA reply: quota and usage (03 R56). -/
def quotaData (p : Port) (s : State) : List Byte := beBytes 2 (s.port p).quota ++ beBytes 2 (s.usage p)

/-- A port as its SUBMIT is admitted: where the due time is reached, which late_ok allows, the guard will not see an edge
that is delivered from now on (07 R127). -/
def PortState.admitting (x : Descriptor) (mc : Time) (ps : PortState) : PortState :=
  match x.guard with
  | some g => if reached mc x.dueTime then { ps with lateGuard := some ⟨x.tag, g.channel, .quiet⟩ } else ps
  | none => ps

/-- The admission of a descriptor into PENDING (03 R56). An entry whose due time is reached is placed behind the others that
have fallen due, and is taken with them by due events of their own (03 R48, 04 R66, log entry 27). -/
def State.admitEntries (s : State) (p : Port) (x : Descriptor) : State :=
  (s.enqueue (descEntries p x)).modifyPort p (PortState.admitting x s.mc)

/-- SUBMIT's owner: the five checks in order, then the admission. The reply is formed from the state at admission, before
the entry is taken (03 R48, R56). -/
def submitOwner (p : Port) (x : Descriptor) (s : State) : Answer :=
  if !lineIsHeld p x s then refuse s .notOwner []
  else if s.tagLive p x.tag then refuse s .dupTag []
  else if reached s.mc x.dueTime && !x.lateOk then refuse s .late []
  else if someTimeTooFar x s.mc then refuse s .tooFar []
  else if overQuota p x s then refuse s .quota (quotaData p s)
  else ⟨s.admitEntries p x, .ok, beBytes 2 (s.usage p + descSlots x) ++ beBytes 1 (descSlots x)⟩

/-- SUBMIT (03 R56). -/
def execSubmit (p : Port) (x : Descriptor) (s : State) : Host.Outcome State Fault Refusal :=
  .next (takeRequest .attached p (.submit p x) (submitOwner p x) s)

/-! ## Cancelling -/

/-- The requester's STAGED entries that bear the tag. -/
def stagedTagged (p : Port) (tag : Half) (s : State) : List Entry := (s.port p).batch.staged.filter fun e => e.tag == tag

/-- The requester's PENDING entries that bear the tag, in queue order. -/
def pendingTagged (p : Port) (tag : Half) (s : State) : List Entry := (s.pendingOf p).filter fun e => e.tag == tag

/-- The STAGED entries that bear the tag leave the batch (03 R58, 05 R88). -/
def PortState.unstage (tag : Half) (ps : PortState) : PortState :=
  { ps with batch := { ps.batch with staged := ps.batch.staged.filter fun e => e.tag != tag } }

/-- CANCEL's owner (03 R58). -/
def cancelOwner (p : Port) (tag : Half) (s : State) : Answer :=
  let staged := stagedTagged p tag s
  let waiting := pendingTagged p tag s
  if !staged.isEmpty && (s.port p).batch.state == .armed then refuse s .batchArmed []
  else if staged.isEmpty && waiting.isEmpty then refuse s .notFound []
  else
    ⟨(s.retireAll waiting .cancelled).modifyPort p (PortState.unstage tag), .ok,
     beBytes 1 waiting.length ++ beBytes 1 staged.length⟩

/-- CANCEL (03 R58). -/
def execCancel (p : Port) (tag : Half) (s : State) : Host.Outcome State Fault Refusal :=
  .next (takeRequest .attached p (.cancel p tag) (cancelOwner p tag) s)

/-- The requester's PENDING entries on the named lines, in queue order (03 R61). -/
def pendingOnLines (p : Port) (lines : LineSet) (s : State) : List Entry := (s.pendingOf p).filter (namesLineIn lines)

/-- CANCEL_LINES' owner (03 R61). -/
def cancelLinesOwner (p : Port) (lines : LineSet) (s : State) : Answer :=
  ⟨s.retireAll (pendingOnLines p lines s) .cancelled, .ok, beBytes 2 (pendingOnLines p lines s).length⟩

/-- CANCEL_LINES (03 R61). -/
def execCancelLines (p : Port) (lines : LineSet) (s : State) : Host.Outcome State Fault Refusal :=
  .next (takeRequest .attached p (.cancelLines p lines) (cancelLinesOwner p lines) s)

/-! ## Reading -/

/-- READ_QUEUE's owner (03 R64, 11 R174). -/
def readQueueOwner (p : Port) (s : State) : Answer :=
  let ps := s.port p
  ⟨s, .ok,
   beBytes 2 ps.quota ++ beBytes 1 ps.batch.staged.length ++ beBytes 2 (s.pendingOf p).length ++
     beBytes 2 ps.retirement.length ++ beBytes 1 ps.fifo.length ++ beBytes 2 s.freeSlots ++ quotaBytes s⟩

/-- READ_QUEUE (03 R64). -/
def execReadQueue (p : Port) (s : State) : Host.Outcome State Fault Refusal :=
  .next (takeRequest .reading p (.readQueue p) (readQueueOwner p) s)

/-- The FIFO loses its oldest records, and reports move into the room (04 R81 steps 1 and 2). -/
def PortState.popRecords (n : Nat) (ps : PortState) : PortState := { ps with fifo := ps.fifo.drop n }.moveReports

/-- READ_COMPLETIONS' owner (04 R81). -/
def readCompletionsOwner (p : Port) (count : Nat) (s : State) : Answer :=
  let taken := (s.port p).fifo.take count
  let after := (s.port p).popRecords count
  ⟨s.modifyPort p (PortState.popRecords count), .ok,
   beBytes 1 taken.length ++ beBytes 2 (after.fifo.length + after.retirement.length) ++ (taken.map completionBytes).flatten⟩

/-- READ_COMPLETIONS (04 R81). -/
def execReadCompletions (p : Port) (count : Nat) (s : State) : Host.Outcome State Fault Refusal :=
  .next (takeRequest .reading p (.readCompletions p count) (readCompletionsOwner p count) s)

/-! ## The executor's events -/

/-- DUE_EVENT: the executor takes the entry that stands first among those fallen due (04 R66, R67). -/
def execDueEvent (s : State) : Host.Outcome State Fault Refusal := .next (if s.inReset then s else s.takeDue)

/-- REPORT_MOVE: reports move into the port's completion FIFO while it has room (04 R77). -/
def execReportMove (p : Port) (s : State) : Host.Outcome State Fault Refusal :=
  .next (if s.inReset then s else s.modifyPort p PortState.moveReports)

end Sys2Proof.Machine
end

