-- ==== Sys2Proof/Machine/Staging.lean ====
section
/-! DEFINITION. The staging areas: STAGE, COMMIT_BATCH, DISCARD_BATCH, and the validation of an ARMED batch at its frame
boundary (chapter 5). -/

namespace Sys2Proof.Machine

/-! ## Commands -/

/-- Entries join the tail of the staged list (05 R86). -/
def PortState.addStaged (es : List Entry) (ps : PortState) : PortState :=
  { ps with batch := { ps.batch with staged := ps.batch.staged ++ es } }

/-- STAGE's owner: the four checks in order, then the staging (05 R85, R86). -/
def stageOwner (p : Port) (x : Descriptor) (s : State) : Answer :=
  let slotsStaged := (s.port p).batch.staged.length
  if (s.port p).batch.state == .armed then refuse s .batchArmed []
  else if s.tagLive p x.tag then refuse s .dupTag []
  else if overQuota p x s then refuse s .quota (quotaData p s)
  else if Config.batchSlots < slotsStaged + descSlots x then refuse s .batchFull (beBytes 1 slotsStaged)
  else
    ⟨s.modifyPort p (PortState.addStaged (descEntries p x)), .ok,
     beBytes 2 (s.usage p + descSlots x) ++ beBytes 1 (descSlots x) ++ beBytes 1 (slotsStaged + descSlots x)⟩

/-- STAGE (05 R85, R86). -/
def execStage (p : Port) (x : Descriptor) (s : State) : Host.Outcome State Fault Refusal :=
  .next (takeRequest .attached p (.stage p x) (stageOwner p x) s)

/-- Frames ahead: absent means 1 (05 R89). -/
def framesAheadOf (framesAhead : Option Byte) : Nat :=
  match framesAhead with
  | none => 1
  | some n => n.toNat

/-- The target frame index: the current index plus frames ahead, modulo 2^32 (05 R90). -/
def targetIndex (framesAhead : Option Byte) (s : State) : FrameIndex :=
  s.frameIndex + BitVec.ofNat 32 (framesAheadOf framesAhead)

/-- The batch becomes ARMED for a target (05 R90). -/
def PortState.arm (t : FrameIndex) (ps : PortState) : PortState := { ps with batch := { ps.batch with target := some t } }

/-- COMMIT_BATCH's owner (05 R89, R90). -/
def commitBatchOwner (p : Port) (framesAhead : Option Byte) (s : State) : Answer :=
  if framesAheadOf framesAhead = 0 then refuse s .badFrame []
  else
    match (s.port p).batch.state with
    | .empty => refuse s .batchEmpty []
    | .armed => refuse s .batchArmed []
    | .opened =>
      ⟨s.modifyPort p (PortState.arm (targetIndex framesAhead s)), .ok,
       beBytes 4 (targetIndex framesAhead s).toNat ++ beBytes 1 (s.port p).batch.staged.length⟩

/-- COMMIT_BATCH (05 R89, R90). -/
def execCommitBatch (p : Port) (framesAhead : Option Byte) (s : State) : Host.Outcome State Fault Refusal :=
  .next (takeRequest .attached p (.commitBatch p framesAhead) (commitBatchOwner p framesAhead) s)

/-- DISCARD_BATCH's owner (05 R97). -/
def discardBatchOwner (p : Port) (s : State) : Answer :=
  ⟨s.freeBatch p, .ok, beBytes 1 (s.port p).batch.staged.length⟩

/-- DISCARD_BATCH (05 R97). -/
def execDiscardBatch (p : Port) (s : State) : Host.Outcome State Fault Refusal :=
  .next (takeRequest .attached p (.discardBatch p) (discardBatchOwner p) s)

/-! ## Validation -/

/-- The line an entry names is leased by the port; a NOTE names none (05 R93). -/
def entryIsHeld (p : Port) (s : State) (e : Entry) : Bool :=
  match e.action.line? with
  | some l => s.holds p l
  | none => true

/-- The cause an entry fails validation with, if any: NOT_OWNER before LATE (05 R93). -/
def validationCause (p : Port) (s : State) (e : Entry) : Option Outcome :=
  if !entryIsHeld p s e then some .notOwner
  else if acceptable s.mc e.dueTime || (reached s.mc e.dueTime && e.lateOk) then none
  else some .late

/-- An aborted batch's entries retire in staging order, each with its cause or BATCH_ABORTED (05 R95). The causes are those
found against the state before the abort. -/
def State.abortEntries (s : State) (causeOf : Entry → Option Outcome) (es : List Entry) : State :=
  es.foldl (fun acc e => acc.fileReport e ((causeOf e).getD .batchAborted)) s

/-- An ARMED batch is validated and then committed or aborted, as one event (05 R92 to R96). -/
def State.validate (s : State) (p : Port) : State :=
  let es := (s.port p).batch.staged
  if es.all fun e => (validationCause p s e).isNone then
    ((s.freeBatch p).enqueue es).modifyPort p (PortState.raiseBatchDone .committed)
  else
    ((s.freeBatch p).abortEntries (validationCause p s) es).modifyPort p (PortState.raiseBatchDone .aborted)

/-- The port's batch is ARMED for the frame index that stands: its boundary is the one of the present cycle (05 R92). -/
def State.validationDue (s : State) (p : Port) : Bool := (s.port p).batch.target == some s.frameIndex

/-- The validation of a port's batch, where it is due. -/
def State.validateIfDue (s : State) (p : Port) : State := if s.validationDue p then s.validate p else s

/-- BATCH_VALIDATION (05 R92). -/
def execBatchValidation (p : Port) (s : State) : Host.Outcome State Fault Refusal :=
  .next (if s.inReset then s else s.validateIfDue p)

end Sys2Proof.Machine
end

