-- ==== Sys2Proof/Machine/TimeBase.lean ====
section
/-! DEFINITION. The commands of the time base: READ_TIME, STEP_TIME, SET_RATE, SET_FRAME (chapter 1). -/

namespace Sys2Proof.Machine

/-- The snapshot READ_TIME returns (01 R20, 11 R174). -/
def timeSnapshot (p : Port) (s : State) : List Byte :=
  let r := (s.port p).strobe
  timeBytes s.mc ++ beBytes 4 s.frameIndex.toNat ++ beBytes 4 s.framePhase ++ beBytes 4 s.frameLength ++
    beBytes 4 (s.pendingLength.getD 0) ++ slewBytes s.slew ++ timeBytes r.time ++
    [BitVec.ofNat 8 (boolBit r.valid + 2 * boolBit r.overwritten)]

/-- READ_TIME's owner: the snapshot, and the requester's strobe record loses its two indications (01 R20, R21). -/
def readTimeOwner (p : Port) (s : State) : Answer :=
  ⟨s.modifyPort p fun ps => { ps with strobe := ⟨ps.strobe.time, false, false⟩ }, .ok, timeSnapshot p s⟩

/-- READ_TIME (01 R20, R21). -/
def execReadTime (p : Port) (s : State) : Host.Outcome State Fault Refusal :=
  .next (takeRequest .reading p (.readTime p) (readTimeOwner p) s)

/-- A backward step would leave a PENDING entry, other than one that has fallen due, at the bound or beyond it (01 R8). -/
def stepTooFar (offset : Int) (s : State) : Bool :=
  decide (offset < 0) && s.queue.any fun e =>
    !reached s.mc e.dueTime && decide (Config.stepBound ≤ distance (movedBy s.mc offset) e.dueTime)

/-- The PENDING entries a step overtakes, in queue order: those at distances 1 to the offset (01 R10). -/
def overtaken (offset : Int) (s : State) : List Entry :=
  s.queue.filter fun e =>
    decide (0 < distance s.mc e.dueTime) && decide ((distance s.mc e.dueTime : Int) ≤ offset)

/-- A step cancels a slew in progress, with SLEW_DONE CANCELLED at the holder of TIME_AUTHORITY (01 R12). -/
def State.cancelSlew (s : State) : State :=
  if s.slew.isSome then
    let s1 := { s with slew := none }
    match s.timeAuthority with
    | some h => s1.modifyPort h (PortState.raiseSlewDone .cancelled)
    | none => s1
  else s

/-- The overtaken entries are taken in queue order; one that its LEAD's failed guard has retired is not (04 R73, R74). -/
def State.sweep (s : State) (es : List Entry) : State :=
  es.foldl (fun acc e => if e ∈ acc.queue then acc.takeEntry e else acc) s

/-- The part of a step that follows the taking of entries already due: MC moves, the slew is cancelled, the STEP records are
offered, and the overtaken entries are swept or skipped (01 R9, R10, R12, R13, 04 R73, R75, 06 R116). -/
def State.stepMove (s : State) (offset : Int) (mode : StepMode) : State :=
  let es := overtaken offset s
  let s1 := (({ s with mc := movedBy s.mc offset }).cancelSlew).offerStep offset
  match mode with
  | .sweep => s1.sweep es
  | .skip => s1.retireAll es .skipped

/-- STEP_TIME's owner (01 R8 to R13). -/
def stepTimeOwner (offset : Int) (mode : StepMode) (s : State) : Answer :=
  if stepTooFar offset s then refuse s .tooFar []
  else
    let s1 := s.takeAllDue
    let s2 := s1.stepMove offset mode
    ⟨s2, .ok, timeBytes (movedBy s.mc offset) ++ beBytes 2 (overtaken offset s1).length⟩

/-- STEP_TIME (01 R8). -/
def execStepTime (p : Port) (offset : Int) (mode : StepMode) (s : State) : Host.Outcome State Fault Refusal :=
  .next (takeRequest (.withRole .timeAuthority) p (.stepTime p offset mode) (stepTimeOwner offset mode) s)

/-- The slew a SET_RATE leaves (01 R14). -/
def slewOfRate (interval : Int) (count : Nat) : Option Slew :=
  if interval = 0 then none else some ⟨interval, count, 0⟩

/-- SET_RATE's owner (01 R14). -/
def setRateOwner (interval : Int) (count : Nat) (s : State) : Answer :=
  ⟨{ s with slew := slewOfRate interval count }, .ok, slewBytes (slewOfRate interval count)⟩

/-- SET_RATE (01 R14). -/
def execSetRate (p : Port) (interval : Int) (count : Nat) (s : State) : Host.Outcome State Fault Refusal :=
  .next (takeRequest (.withRole .timeAuthority) p (.setRate p interval count) (setRateOwner interval count) s)

/-- SET_FRAME's owner: the reply names the boundary at which the length will be adopted (01 R7). -/
def setFrameOwner (length : Nat) (s : State) : Answer :=
  ⟨{ s with pendingLength := some length }, .ok, beBytes 4 (s.frameIndex + 1).toNat⟩

/-- SET_FRAME (01 R7). -/
def execSetFrame (p : Port) (length : Nat) (s : State) : Host.Outcome State Fault Refusal :=
  .next (takeRequest (.withRole .timeAuthority) p (.setFrame p length) (setFrameOwner length) s)

end Sys2Proof.Machine
end

