-- ==== Sys2Proof/Machine/Takings.lean ====
section
/-! DEFINITION. The taking of a checked frame in the cycle that owes it: the request that the frame carries, taken by its
owner (10 R164). -/

namespace Sys2Proof.Machine

/-- A request, taken by its owner; nothing for a command that is no request. -/
def execRequest (i : Instr) (s : State) : Host.Outcome State Fault Refusal :=
  match i with
  | .powerOnReset => .next s
  | .increment _ => .next s
  | .correctionCycle _ => .next s
  | .slewDone _ => .next s
  | .frameBoundary => .next s
  | .batchValidation _ => .next s
  | .leaseExpiry _ => .next s
  | .dueEvent => .next s
  | .reportMove _ => .next s
  | .strobeEdge _ => .next s
  | .edgeDelivery _ => .next s
  | .requestTransaction _ _ => .next s
  | .unknownTransaction _ _ _ => .next s
  | .frameCheck _ => .next s
  | .fetchTransaction _ _ => .next s
  | .readTime p => execReadTime p s
  | .stepTime p offset mode => execStepTime p offset mode s
  | .setRate p interval count => execSetRate p interval count s
  | .setFrame p length => execSetFrame p length s
  | .acquireLines p lines term failsafe => execAcquireLines p lines term failsafe s
  | .renewLines p lines => execRenewLines p lines s
  | .releaseLines p lines => execReleaseLines p lines s
  | .revokeLines p lines => execRevokeLines p lines s
  | .forceLines p lines level => execForceLines p lines level s
  | .unforceLines p lines => execUnforceLines p lines s
  | .readLines p => execReadLines p s
  | .submit p desc => execSubmit p desc s
  | .cancel p tag => execCancel p tag s
  | .cancelLines p lines => execCancelLines p lines s
  | .readQueue p => execReadQueue p s
  | .readCompletions p count => execReadCompletions p count s
  | .stage p desc => execStage p desc s
  | .commitBatch p framesAhead => execCommitBatch p framesAhead s
  | .discardBatch p => execDiscardBatch p s
  | .configInput p channels depth select => execConfigInput p channels depth select s
  | .subscribe p channels => execSubscribe p channels s
  | .readCaptures p count => execReadCaptures p count s
  | .clearArms p channels => execClearArms p channels s
  | .readArms p => execReadArms p s
  | .openPort p => execOpenPort p s
  | .closePort p => execClosePort p s
  | .claimRole p role => execClaimRole p role s
  | .releaseRole p role => execReleaseRole p role s
  | .fencePort p target => execFencePort p target s
  | .setQuota p target quota => execSetQuota p target quota s
  | .readStatus p => execReadStatus p s
  | .readEvents p clear => execReadEvents p clear s
  | .setEventMask p mask => execSetEventMask p mask s
  | .resetAsserted => .next s
  | .channelSample _ => .next s

/-- The frame in hand of a port that the cycle before has checked is taken; with no such frame nothing happens (10 R164). -/
def State.takeFrame (s : State) (p : Port) : State :=
  match (s.port p).owedRequest p with
  | none => s
  | some i =>
    match execRequest i s with
    | .next t => t
    | .fault _ => s
    | .refused _ => s

end Sys2Proof.Machine
end

