-- ==== Sys2Proof/Machine/Clock.lean ====
section
/-! DEFINITION. Reset, the REFCLK cycle and the events that the time base takes by itself: RESET_ASSERTED, POWER_ON_RESET,
INCREMENT, CORRECTION_CYCLE, SLEW_DONE, FRAME_BOUNDARY, STROBE_EDGE (chapter 1). -/

namespace Sys2Proof.Machine

/-! ## Reset -/

/-- A link as RST_N moves: a CS_N that is low is ignored until it next rises (10 R157). -/
def Link.acrossReset : Link → Link
  | .idle => .idle
  | .receiving => .ignored
  | .dropping => .ignored
  | .ignored => .ignored

/-- A port as RST_N goes low: the transaction, the frame in hand and what CS_N has yet to change are abandoned, and MISO is
not driven (10 R157, R169). -/
def PortState.abandon (ps : PortState) : PortState :=
  let back := match ps.engine with
    | .receiving left => left.engine
    | .executing => if ps.reply.isSome then .replyHeld else .idle
    | .idle => .idle
    | .replyHeld => .replyHeld
  { ps with frame := none, link := ps.link.acrossReset, risen := [], engine := back, miso := [] }

/-- The part as RST_N goes low. -/
def State.asserted (s : State) : State := { s.mapPorts fun _ ps => ps.abandon with inReset := true }

/-- RESET_ASSERTED: RST_N goes low, and the pins show it at once (10 R169, 02 R23, 09 R149). -/
def execResetAsserted (s : State) : Host.Outcome State Fault Refusal := .next s.asserted.showPins

/-- A port on release: its power-on values, with the synchroniser stages as they stand (01 R18), and a CS_N that is low ignored
until it next rises (10 R157). -/
def PortState.released (ps : PortState) : PortState :=
  { PortState.atReset with
    strobeStage1 := ps.strobeStage1, strobeStage2 := ps.strobeStage2, link := ps.link.acrossReset }

/-- The part on release: every block at its power-on value. The synchroniser stages sample while RST_N is low, so they
stay (01 R18, 06 R101), and so do the commands that wait. -/
def State.released (s : State) : State :=
  { State.reset with
    inStage1 := s.inStage1
    inStage2 := s.inStage2
    ports := s.ports.map fun _ ps => ps.released
    pending := s.pending }

/-- POWER_ON_RESET: release of RST_N (01 R2). -/
def execPowerOnReset (s : State) : Host.Outcome State Fault Refusal := .next s.released

/-! ## Events of a cycle -/

/-- A recognised rising edge on a STROBE pin: the record latches MC, and STROBE is raised (01 R18). -/
def PortState.latchStrobe (now : Time) (ps : PortState) : PortState :=
  ({ ps with
     strobeRose := false
     strobe := ⟨now, true, ps.strobe.overwritten || ps.strobe.valid⟩ }).raise .strobe

/-- The strobe edge recognised in the present cycle is taken, if the port has one. -/
def State.takeStrobe (s : State) (p : Port) : State :=
  if (s.port p).strobeRose then s.modifyPort p (PortState.latchStrobe s.mc) else s

/-- STROBE_EDGE (01 R18). -/
def execStrobeEdge (p : Port) (s : State) : Host.Outcome State Fault Refusal :=
  .next (if s.inReset then s else s.takeStrobe p)

/-- The frame boundary of the present cycle is handed to the event sets: FRAME_BOUNDARY at every ATTACHED port (01 R6). -/
def State.handBoundary (s : State) : State :=
  if s.boundaryToHand then ({ s with boundaryToHand := false }).raiseAttached .frameBoundary else s

/-- FRAME_BOUNDARY: the handing of the boundary that the cycle's increment has made (01 R5, R6). -/
def execFrameBoundary (s : State) : Host.Outcome State Fault Refusal := .next (if s.inReset then s else s.handBoundary)

/-- What the blocks other than the request engines still owe of the present cycle is taken: samples, strobe edges, the handing
of a boundary, batch validations, expiries, and the entries that have fallen due (log entry 2). -/
def State.finishBlocks (s : State) : State :=
  let s1 := (List.finRange 16).foldl State.sampleChannel s
  let s2 := Port.all.foldl State.takeStrobe s1
  let s3 := s2.handBoundary
  let s4 := Port.all.foldl State.validateIfDue s3
  let s5 := (List.finRange 16).foldl State.expireLease s4
  s5.takeAllDue

/-- The frames that the cycle before has checked are taken, and every rising CS_N that has passed its synchroniser is
recognised (10 R157, R164, log entry 2). -/
def State.finishLinks (s : State) : State := Port.all.foldl State.recogniseAll (Port.all.foldl State.takeFrame s)

/-- The events that the present cycle still owes are taken (log entry 2). -/
def State.finishCycle (s : State) : State := s.finishLinks.finishBlocks

/-! ## The cycle -/

/-- A rising CS_N passes one more stage of its synchroniser (10 R162). -/
def Rise.shift (r : Rise) : Rise := { r with stage := min 2 (r.stage + 1) }

/-- A port's synchronisers in one REFCLK cycle: the stages of STROBE shift, with a rising edge of the synchronised level
recognised unless the port is in reset or the cycle is the first after release (01 R18), and those of CS_N pass its rising
edges on (10 R162). The cycle of an admission, or of a frame's checks, ends with it (03 R48, 10 R164). -/
def PortState.synchronise (recognise : Bool) (pin : Bool) (ps : PortState) : PortState :=
  { ps with
    strobeStage1 := pin
    strobeStage2 := ps.strobeStage1
    strobeRose := recognise && ps.strobeStage1 && !ps.strobeStage2
    risen := ps.risen.map Rise.shift
    lateGuard := none
    checkedNow := false }

/-- Every synchroniser takes its pin in one REFCLK cycle (01 R18, 06 R101, 10 R162). The operand is the level that the first
stage takes as the cycle begins, so that a cycle's sample is the operand of the INCREMENT before: DESIGN CHOICE, log
entry 29. -/
def State.synchronise (s : State) (pins : Pins) : State :=
  { (s.mapPorts fun p ps => ps.synchronise (!s.inReset && !s.freshRelease) pins.strobes[p.index]) with
    inStage1 := pins.ins
    inStage2 := s.inStage1 }

/-- The slew's count and correction, the advance of MC, and the fall of every finite remaining term (01 R1, R15, R16,
02 R28). -/
def State.advance (s : State) : State :=
  let n := slewIncrement s.slew
  let s1 := (s.mapLines fun _ r => { r with lease := r.lease.map fun x => { x with term := x.term.fall n } })
  let s2 := { s1 with mc := s.mc + BitVec.ofNat 48 n, slew := slewAfter s.slew }
  if slewEnds s.slew then
    match s.timeAuthority with
    | some h => s2.modifyPort h (PortState.raiseSlewDone .complete)
    | none => s2
  else s2

/-- Frame phase advances by the increment; at the frame length a boundary occurs with its effects (01 R5). -/
def State.advanceFrame (s : State) (n : Nat) : State :=
  if s.frameLength ≤ s.framePhase + n then
    { s with
      framePhase := s.framePhase + n - s.frameLength
      frameIndex := s.frameIndex + 1
      frameLength := s.pendingLength.getD s.frameLength
      pendingLength := none
      boundaryToHand := true }
  else { s with framePhase := s.framePhase + n }

/-- The increment of a cycle as one event (01 R1). -/
def State.increment (s : State) : State := s.advance.advanceFrame (slewIncrement s.slew)

/-- A REFCLK cycle begins once the cycle before owes nothing: the pins show the levels in which that left them, the
synchronisers shift, and the increment is made; every channel's sample is then owed (01 R1, R18, 04 R69, 06 R101,
09 R150). -/
def State.beginCycle (s : State) (pins : Pins) : State :=
  { (s.showPins.synchronise pins).increment with samplesTaken := 0, freshRelease := false }

/-- From one REFCLK cycle to the next: what the cycle before still owes is taken, and the next begins. While RST_N is low only
the synchronisers run (01 R18, 06 R101). -/
def State.cycle (s : State) (pins : Pins) : State :=
  if s.inReset then s.synchronise pins else s.finishCycle.beginCycle pins

/-- INCREMENT: the next REFCLK cycle's increment (01 R1). -/
def execIncrement (pins : Pins) (s : State) : Host.Outcome State Fault Refusal := .next (s.cycle pins)

/-- The next REFCLK cycle is a correction cycle of the slew in progress, once the present cycle owes nothing (01 R15). -/
def State.correctionDue (s : State) : Bool := (s.slew.map Slew.corrects).getD false

/-- CORRECTION_CYCLE: the next REFCLK cycle's increment, where that cycle is a correction cycle (01 R15). -/
def execCorrectionCycle (pins : Pins) (s : State) : Host.Outcome State Fault Refusal :=
  .next (if !s.inReset && s.finishCycle.correctionDue then s.cycle pins else s)

/-- SLEW_DONE: the next REFCLK cycle's increment, where it makes the slew's last correction (01 R16). -/
def execSlewDone (pins : Pins) (s : State) : Host.Outcome State Fault Refusal :=
  .next (if !s.inReset && slewEnds s.finishCycle.slew then s.cycle pins else s)

end Sys2Proof.Machine
end

