-- ==== Sys2Proof/Machine/Dispatch.lean ====
section
/-! DEFINITION. The effect of each command: one arm per constructor of Instr, each a direct call of its meaning. -/

namespace Sys2Proof.Machine

/-- What a command does to the part; the queue of commands stays as it is. -/
def exec (i : Instr) (s : State) : Host.Outcome State Fault Refusal :=
  match i with
  | .powerOnReset => Sys2Proof.Machine.execPowerOnReset s
  | .increment pins => Sys2Proof.Machine.execIncrement pins s
  | .correctionCycle pins => Sys2Proof.Machine.execCorrectionCycle pins s
  | .slewDone pins => Sys2Proof.Machine.execSlewDone pins s
  | .frameBoundary => Sys2Proof.Machine.execFrameBoundary s
  | .batchValidation p => Sys2Proof.Machine.execBatchValidation p s
  | .leaseExpiry l => Sys2Proof.Machine.execLeaseExpiry l s
  | .dueEvent => Sys2Proof.Machine.execDueEvent s
  | .reportMove p => Sys2Proof.Machine.execReportMove p s
  | .strobeEdge p => Sys2Proof.Machine.execStrobeEdge p s
  | .edgeDelivery c => Sys2Proof.Machine.execEdgeDelivery c s
  | .requestTransaction p part => Sys2Proof.Machine.execRequestTransaction p part s
  | .unknownTransaction p first part => Sys2Proof.Machine.execUnknownTransaction p first part s
  | .frameCheck p => Sys2Proof.Machine.execFrameCheck p s
  | .fetchTransaction p part => Sys2Proof.Machine.execFetchTransaction p part s
  | .readTime p => Sys2Proof.Machine.execReadTime p s
  | .stepTime p offset mode => Sys2Proof.Machine.execStepTime p offset mode s
  | .setRate p interval count => Sys2Proof.Machine.execSetRate p interval count s
  | .setFrame p length => Sys2Proof.Machine.execSetFrame p length s
  | .acquireLines p lines term failsafe => Sys2Proof.Machine.execAcquireLines p lines term failsafe s
  | .renewLines p lines => Sys2Proof.Machine.execRenewLines p lines s
  | .releaseLines p lines => Sys2Proof.Machine.execReleaseLines p lines s
  | .revokeLines p lines => Sys2Proof.Machine.execRevokeLines p lines s
  | .forceLines p lines level => Sys2Proof.Machine.execForceLines p lines level s
  | .unforceLines p lines => Sys2Proof.Machine.execUnforceLines p lines s
  | .readLines p => Sys2Proof.Machine.execReadLines p s
  | .submit p desc => Sys2Proof.Machine.execSubmit p desc s
  | .cancel p tag => Sys2Proof.Machine.execCancel p tag s
  | .cancelLines p lines => Sys2Proof.Machine.execCancelLines p lines s
  | .readQueue p => Sys2Proof.Machine.execReadQueue p s
  | .readCompletions p count => Sys2Proof.Machine.execReadCompletions p count s
  | .stage p desc => Sys2Proof.Machine.execStage p desc s
  | .commitBatch p framesAhead => Sys2Proof.Machine.execCommitBatch p framesAhead s
  | .discardBatch p => Sys2Proof.Machine.execDiscardBatch p s
  | .configInput p channels depth select => Sys2Proof.Machine.execConfigInput p channels depth select s
  | .subscribe p channels => Sys2Proof.Machine.execSubscribe p channels s
  | .readCaptures p count => Sys2Proof.Machine.execReadCaptures p count s
  | .clearArms p channels => Sys2Proof.Machine.execClearArms p channels s
  | .readArms p => Sys2Proof.Machine.execReadArms p s
  | .openPort p => Sys2Proof.Machine.execOpenPort p s
  | .closePort p => Sys2Proof.Machine.execClosePort p s
  | .claimRole p role => Sys2Proof.Machine.execClaimRole p role s
  | .releaseRole p role => Sys2Proof.Machine.execReleaseRole p role s
  | .fencePort p target => Sys2Proof.Machine.execFencePort p target s
  | .setQuota p target quota => Sys2Proof.Machine.execSetQuota p target quota s
  | .readStatus p => Sys2Proof.Machine.execReadStatus p s
  | .readEvents p clear => Sys2Proof.Machine.execReadEvents p clear s
  | .setEventMask p mask => Sys2Proof.Machine.execSetEventMask p mask s
  | .resetAsserted => Sys2Proof.Machine.execResetAsserted s
  | .channelSample c => Sys2Proof.Machine.execChannelSample c s

end Sys2Proof.Machine
end

