-- ==== Sys2Proof/Safety.lean ====
section
/-! DEFINITION. What it means for a state of the part to be sound: the laws the spec says hold at every moment, block by
block, and the vocabulary that statements about requests and reports share. -/

namespace Sys2Proof.Machine

/-! ## What one port keeps -/

/-- The lists and counts of a port stay within their sizes (04 R65, 05 R83, 06 R108, R115). -/
abbrev PortState.withinSizes (ps : PortState) : Prop :=
  ps.fifo.length ≤ Config.fifoDepth ∧ ps.log.length ≤ Config.logDepth ∧ ps.losses ≤ Config.lossMax ∧
    ps.batch.staged.length ≤ Config.batchSlots

/-- Whenever a port's retirement order is non-empty, its completion FIFO is full (04 R77). -/
abbrev PortState.reportsMoved (ps : PortState) : Prop := ps.retirement ≠ [] → ps.fifo.length = Config.fifoDepth

/-- A batch is non-empty whenever it is ARMED (05 R83). -/
abbrev PortState.armedHoldsEntries (ps : PortState) : Prop := ps.batch.target ≠ none → ps.batch.staged ≠ []

/-- A flag for a channel outside the subscription set is clear (06 R109, 07 R121). -/
abbrev PortState.armsSubscribed (ps : PortState) : Prop := ps.arms &&& ps.subscription = ps.arms

/-- A stored result is present exactly when its kind is in the event set (09 R146). -/
abbrev PortState.resultsMatch (ps : PortState) : Prop :=
  ps.batchResult.isSome = hasKind ps.events .batchDone ∧ ps.slewResult.isSome = hasKind ps.events .slewDone

/-- What a port outside its session keeps nothing of: a port that is not ATTACHED has no subscription, no set arm flag and
no STAGED entry, and a DETACHED one no report and no record (08 R133). -/
abbrev PortState.sessionEmptied (ps : PortState) : Prop :=
  (ps.session ≠ .attached → ps.subscription = 0 ∧ ps.arms = 0 ∧ ps.batch.staged = []) ∧
    (ps.session = .detached → ps.retirement = [] ∧ ps.fifo = [] ∧ ps.log = [] ∧ ps.losses = 0)

/-- A frame that has passed its checks. -/
def isPassed : FrameVerdict → Bool
  | .passed _ => true
  | _ => false

/-- A rising CS_N that ends a request transaction which was received: its frame is in hand until the edge is
recognised. -/
def RiseChange.endsFrame : RiseChange → Bool
  | .whole => true
  | .aborted => true
  | .dropped => false
  | .unknown => false
  | .fetched => false

/-- The receptions that a port has begun and whose end is not yet recognised: the one on the link, and those whose rising
CS_N waits (10 R157, R160). -/
def PortState.receptions (ps : PortState) : Nat :=
  (ps.risen.filter fun r => r.change.endsFrame).length + (if ps.link = .receiving then 1 else 0)

/-- The engine agrees with the frame in hand, the reply buffer, the link and the rising edges that wait (10 R157, R159,
R160). -/
def PortState.engineAgrees (p : Port) (ps : PortState) : Bool :=
  match ps.engine with
  | .idle => ps.reply.isNone && ps.frame.isNone && ps.receptions == 0
  | .receiving left => ps.frame.isSome && (ps.reply.isNone == (left == .idle)) && ps.receptions == 1
  | .executing =>
    ps.receptions == 0 &&
      (match ps.frame with
       | some bytes => isPassed (checkFrame p bytes)
       | none => false)
  | .replyHeld => ps.reply.isSome && ps.frame.isNone && ps.receptions == 0

/-- The laws that concern one port alone. -/
abbrev PortState.sound (p : Port) (ps : PortState) : Prop :=
  ps.withinSizes ∧ ps.reportsMoved ∧ ps.armedHoldsEntries ∧ ps.armsSubscribed ∧ ps.resultsMatch ∧ ps.sessionEmptied ∧
    ps.engineAgrees p = true

/-- Every port keeps its laws. -/
abbrev State.portsSound (s : State) : Prop := ∀ p, (s.port p).sound p

/-! ## Ranges of the shared blocks -/

/-- A slew in progress has its fields in range (01 R14, R15). -/
abbrev Slew.sound (w : Slew) : Prop :=
  Config.intervalMin ≤ w.interval.natAbs ∧ w.interval.natAbs ≤ Config.intervalMax ∧ 1 ≤ w.left ∧
    w.left ≤ Config.correctionsMax ∧ w.count < w.interval.natAbs

/-- A frame length that SET_FRAME could have set (01 R7). -/
abbrev frameLengthInRange (n : Nat) : Prop := Config.frameLengthMin ≤ n ∧ n ≤ Config.frameLengthMax

/-- The time base: frame phase is below frame length, both lengths are in range, and a slew is in range and has a holder of
TIME_AUTHORITY (01 R5, R7, R14, R17). -/
def State.timeBaseSound (s : State) : Prop :=
  s.framePhase < s.frameLength ∧ frameLengthInRange s.frameLength ∧ (∀ n, s.pendingLength = some n → frameLengthInRange n) ∧
    ∀ w, s.slew = some w → w.sound ∧ s.timeAuthority ≠ none

/-- A lease's term is in range and its remaining term within it (02 section 2.1). -/
def LeaseTerm.sound : LeaseTerm → Prop
  | .unlimited => True
  | .finite t r => Config.termMin ≤ t ∧ t ≤ Config.termMax ∧ r ≤ t

/-- Every lease is in range (02 section 2.1). -/
def State.leasesInRange (s : State) : Prop := ∀ l x, (s.line l).lease = some x → x.term.sound

/-- A channel: depth 1 to 8; a run in progress counts 1 to D - 1 samples of the level opposite to the filtered one
(06 R100). -/
def ChannelState.sound (ch : ChannelState) : Prop :=
  1 ≤ ch.depth ∧ ch.depth ≤ Config.depthMax ∧
    ∀ r, ch.run = some r → r.candidate = invertLevel ch.filtered ∧ 1 ≤ r.count ∧ r.count < ch.depth

/-- Every channel is sound (06 R100). -/
def State.channelsSound (s : State) : Prop := ∀ c : Channel, (s.channels[c]).sound

/-! ## Who may hold what -/

/-- Only ATTACHED ports hold roles and leases, and every PENDING entry belongs to an ATTACHED port that, where the entry
names a line, holds that line's lease (02 R26, R29, 08 R133, R134). -/
def State.holdersAttached (s : State) : Prop :=
  (∀ r p, s.holder r = some p → s.attached p = true) ∧ (∀ l p, s.holds p l = true → s.attached p = true) ∧
    (∀ e ∈ s.queue, s.attached e.port = true) ∧
    ∀ e ∈ s.queue, ∀ l, e.action.line? = some l → s.holds e.port l = true

/-! ## Quotas and tags -/

/-- STAGED and REPORT_WAIT entries stand in their own port's lists (03 R42, 05 R83). -/
def State.entriesAtHome (s : State) : Prop :=
  ∀ p, (∀ e ∈ (s.port p).batch.staged, e.port = p) ∧ ∀ r ∈ (s.port p).retirement, r.entry.port = p

/-- The quota law: every usage is within its quota, and the quotas add up to at most 256 (03 R52). -/
def State.quotaLaw (s : State) : Prop := s.entriesAtHome ∧ (∀ p, s.usage p ≤ (s.port p).quota) ∧ s.quotaSum ≤ Config.slots

/-- The live entries of a port: STAGED, PENDING and REPORT_WAIT (03 R44, R46). -/
def State.liveEntries (s : State) (p : Port) : List Entry :=
  (s.port p).batch.staged ++ s.pendingOf p ++ (s.port p).retirement.map Retired.entry

/-- Two live entries of a port share a tag only as the LEAD and TRAIL of one PULSE (03 R54). -/
def tagsApart (x y : Entry) : Prop :=
  x.tag = y.tag →
    (x.action.isLead = true ∧ y.action.isTrail = true) ∨ (x.action.isTrail = true ∧ y.action.isLead = true)

/-- The tag law (03 R54). -/
def State.tagLaw (s : State) : Prop := s.entriesAtHome ∧ ∀ p, (s.liveEntries p).Pairwise tagsApart

/-! ## Queue order -/

/-- `x` may stand ahead of `y` in the queue order (03 R47). -/
def mayPrecede (mc : Time) (x y : Entry) : Prop :=
  reached mc x.dueTime = true ∨ (reached mc y.dueTime = false ∧ distance mc x.dueTime ≤ distance mc y.dueTime)

/-- The queue order is kept, and every PENDING entry that has not fallen due is below the bound that a backward step keeps
(01 R8, 03 R47). -/
def State.queueOrdered (s : State) : Prop :=
  s.queue.Pairwise (mayPrecede s.mc) ∧
    ∀ e ∈ s.queue, reached s.mc e.dueTime = false → distance s.mc e.dueTime < Config.stepBound

/-! ## Nothing owed -/

/-- The present cycle owes nothing more: every frame that the cycle before has checked, every rising CS_N that has passed its
synchroniser, and every sample, strobe edge, boundary, validation, expiry and due entry of it has been taken (log entry 2). -/
def State.owesNothing (s : State) : Prop :=
  (∀ p, (s.port p).owedRequest p = none) ∧ (∀ p, (s.port p).recognisable = none) ∧
    s.samplesTaken = BitVec.allOnes 16 ∧ (∀ p, (s.port p).strobeRose = false) ∧ s.boundaryToHand = false ∧
    (∀ p, s.validationDue p = false) ∧ s.dueHead = none ∧ ∀ l, s.leaseRunOut l = false

/-! ## Reports -/

/-- What a port will hand out in READ_COMPLETIONS: the records of its completion FIFO, then those its retirement order
will form (04 R77, R81). -/
def PortState.allReports (ps : PortState) : List CompletionRecord := ps.fifo ++ ps.retirement.map Retired.record

/-- The completion record of an entry that retires with an outcome at a time (03 R45, 04 R78). -/
def recordFor (o : Outcome) (now : Time) (e : Entry) : CompletionRecord := (Retired.mk e o now).record

/-- A port as reports join its retirement order and move into its completion FIFO as far as there is room:
COMPLETION_READY is raised where the FIFO goes from empty to holding records (04 R76, R77, R79). -/
def PortState.takeReports (rs : List Retired) (ps : PortState) : PortState :=
  let waiting := ps.retirement ++ rs
  let room := Config.fifoDepth - ps.fifo.length
  if rs = [] then ps
  else
    { ps with
      fifo := ps.fifo ++ (waiting.take room).map Retired.record
      retirement := waiting.drop room
      events := if ps.fifo = [] ∧ ps.session ≠ .detached then ps.events ||| EventKind.completionReady.mask else ps.events }

/-- Every PENDING entry that has a property retires with one outcome, in queue order, in one event: it leaves the queue
order, and its report joins its own port's retirement order (03 R45, 04 R76). -/
def State.retiring (s : State) (gone : Entry → Bool) (o : Outcome) : State :=
  { s with
    queue := s.queue.filter fun e => !gone e
    ports := s.ports.map fun q ps =>
      ps.takeReports ((s.queue.filter fun e => gone e && e.port == q).map fun e => ⟨e, o, s.mc⟩) }

/-- The line records after the leases on a set of lines end (02 R29). -/
def State.linesAfterEnds (s : State) (m : LineSet) : Vector LineRecord 16 :=
  Vector.ofFn fun l : Line =>
    match (s.line l).lease with
    | some x => if m[l] then ⟨none, failsafeLevel x.failsafe (s.line l).shadow, (s.line l).force⟩ else s.line l
    | none => s.line l

/-- An entry placed in the queue order: behind every entry that has fallen due, and, where its own due time is not reached,
behind every entry no farther away; ahead of all others (03 R47, R48). -/
def placed (mc : Time) (e : Entry) (queue : List Entry) : List Entry :=
  queue.filter (standsAhead mc e) ++ e :: queue.filter fun x => !standsAhead mc e x

/-- The values that the spec gives every block on release of RST_N (01 R2, R18, 02 R23, 03 R42, 04 R65, 05 R83, 06 R100,
R104, R108, 07 R120, 08 R133, 09 R146, R149, 10 R157, R159): no line and no ATTN_N active, no transaction on a link and no
rising CS_N waiting, the first cycle after release still to come, and no channel sampled yet. -/
def State.hasReleaseValues (t : State) : Prop :=
  (t.inReset = false ∧ t.freshRelease = true ∧ t.mc = 0 ∧ t.framePhase = 0 ∧ t.frameIndex = 0 ∧ t.frameLength = 100000 ∧ t.pendingLength = none ∧
      t.slew = none) ∧
    (∀ l, t.line l = ⟨none, .low, none⟩ ∧ t.outPin l = .low ∧ t.outsShown[l] = false) ∧
    t.queue = [] ∧
    (∀ c : Channel, (t.channels[c]).depth = 3 ∧ (t.channels[c]).select = .none ∧ (t.channels[c]).run = none ∧
      (t.channels[c]).sampled = false) ∧
    (t.timeAuthority = none ∧ t.supervisor = none) ∧
    ∀ p, (t.port p).session = .detached ∧ (t.port p).quota = 64 ∧ t.usage p = 0 ∧ (t.port p).strobe = ⟨0, false, false⟩ ∧
      ((t.port p).retirement = [] ∧ (t.port p).fifo = []) ∧
      ((t.port p).batch = ⟨[], none⟩ ∧ (t.port p).batch.state = .empty) ∧
      ((t.port p).subscription = 0 ∧ (t.port p).log = [] ∧ (t.port p).losses = 0 ∧ (t.port p).arms = 0) ∧
      ((t.port p).events = 0 ∧ (t.port p).batchResult = none ∧ (t.port p).slewResult = none ∧ (t.port p).mask = 0 ∧
        t.attnPin p = .high ∧ (t.port p).attnShown = .high) ∧
      (t.port p).engine = .idle ∧ (t.port p).frame = none ∧ (t.port p).reply = none ∧ (t.port p).lastExecuted = none ∧
      (t.port p).overrun = false ∧ ((t.port p).link = .idle ∨ (t.port p).link = .ignored) ∧ (t.port p).risen = []

/-! ## Requests and their admission -/

/-- The summary of who may send which request (08 R135): the requester, whether a DETACHED and a FENCED port may, and the
required role. None for a command that is no request. -/
def admissionRow : Instr → Option (Port × Bool × Bool × Option Role)
  | .readTime p => some (p, false, true, none)
  | .stepTime p _ _ => some (p, false, false, some .timeAuthority)
  | .setRate p _ _ => some (p, false, false, some .timeAuthority)
  | .setFrame p _ => some (p, false, false, some .timeAuthority)
  | .acquireLines p _ _ _ => some (p, false, false, none)
  | .renewLines p _ => some (p, false, false, none)
  | .releaseLines p _ => some (p, false, false, none)
  | .revokeLines p _ => some (p, false, false, some .supervisor)
  | .forceLines p _ _ => some (p, false, false, some .supervisor)
  | .unforceLines p _ => some (p, false, false, some .supervisor)
  | .readLines p => some (p, false, false, none)
  | .submit p _ => some (p, false, false, none)
  | .cancel p _ => some (p, false, false, none)
  | .cancelLines p _ => some (p, false, false, none)
  | .readQueue p => some (p, false, true, none)
  | .readCompletions p _ => some (p, false, true, none)
  | .stage p _ => some (p, false, false, none)
  | .commitBatch p _ => some (p, false, false, none)
  | .discardBatch p => some (p, false, false, none)
  | .configInput p _ _ _ => some (p, false, false, none)
  | .subscribe p _ => some (p, false, false, none)
  | .readCaptures p _ => some (p, false, true, none)
  | .clearArms p _ => some (p, false, false, none)
  | .readArms p => some (p, false, false, none)
  | .openPort p => some (p, true, false, none)
  | .closePort p => some (p, false, true, none)
  | .claimRole p _ => some (p, false, false, none)
  | .releaseRole p _ => some (p, false, false, none)
  | .fencePort p _ => some (p, false, false, some .supervisor)
  | .setQuota p _ _ => some (p, false, false, none)
  | .readStatus p => some (p, false, true, none)
  | .readEvents p _ => some (p, true, true, none)
  | .setEventMask p _ => some (p, true, true, none)
  | .powerOnReset => none
  | .increment _ => none
  | .correctionCycle _ => none
  | .slewDone _ => none
  | .frameBoundary => none
  | .batchValidation _ => none
  | .leaseExpiry _ => none
  | .dueEvent => none
  | .reportMove _ => none
  | .strobeEdge _ => none
  | .edgeDelivery _ => none
  | .requestTransaction _ _ => none
  | .unknownTransaction _ _ _ => none
  | .frameCheck _ => none
  | .fetchTransaction _ _ => none
  | .resetAsserted => none
  | .channelSample _ => none

/-- The request is taken from the frame in hand of its port, and the session and roles allow it (08 R135, 10 R164). -/
def State.takes (s : State) (i : Instr) : Prop :=
  match admissionRow i with
  | none => False
  | some (p, whenDetached, whenFenced, role) =>
    s.awaits p i = true ∧
      ((s.port p).session = .attached ∨ ((s.port p).session = .detached ∧ whenDetached = true) ∨
        ((s.port p).session = .fenced ∧ whenFenced = true)) ∧
      ∀ r, role = some r → s.holder r = some p

/-- The end of the taking of port `p`'s frame in hand, over the state that the command's effects leave: the reply is recorded
and placed, and the frame in hand is gone (10 R164, R165). -/
def State.answered (s effect : State) (p : Port) (r : ResultCode) (data : List Byte) : State :=
  effect.finishTaking p (s.frameBytes p) r data

/-! ## Commands in sequence -/

/-- Commands run one after another, each as an event of its own. -/
def runAll : List Instr → State → Host.Outcome State Fault Refusal
  | [], s => .next s
  | c :: cs, s =>
    match exec c s with
    | .next t => runAll cs t
    | stop => stop

/-- The due events of every entry that may have fallen due, one for each PENDING entry (01 R11, 04 R66): once the entry that
stands first has not fallen due, a due event does nothing. -/
def dueEvents (s : State) : List Instr := List.replicate s.queue.length .dueEvent

/-- The row that recognises a rising CS_N with its change (10 R157). -/
def recognitionRow (p : Port) : RiseChange → Instr
  | .whole => .frameCheck p
  | .aborted => .requestTransaction p .recognised
  | .dropped => .requestTransaction p .recognised
  | .unknown => .unknownTransaction p 0x00 .recognised
  | .fetched => .fetchTransaction p .recognised

/-- The rows that recognise the rising edges of a port's CS_N that have passed both stages, oldest first. -/
def recognitionRows (s : State) (p : Port) : List Instr :=
  ((s.port p).risen.takeWhile fun r => decide (2 ≤ r.stage)).map fun r => recognitionRow p r.change

/-- The rows that a cycle may still owe but for its due events, in the order in which INCREMENT takes them (log entry 2): the
requests that the cycle before has checked, the recognitions of rising CS_N, the samples, the strobe edges, the handing of
the boundary, the batch validations and the expiries. -/
def owedRows (s : State) : List Instr :=
  (Port.all.filterMap fun p => (s.port p).owedRequest p) ++ Port.all.flatMap (recognitionRows s) ++
    (List.finRange 16).map .channelSample ++ Port.all.map .strobeEdge ++ [.frameBoundary] ++ Port.all.map .batchValidation ++
    (List.finRange 16).map .leaseExpiry

/-- The present cycle of a state ends in another: the rows that it owes run, and then the due events of what has fallen
due (log entry 2). -/
def State.endsIn (s t : State) : Prop :=
  ∃ u, runAll (owedRows s) s = .next u ∧ runAll (dueEvents u) u = .next t

/-! ## Capture records and steps -/

/-- A port as a capture record is offered to its log: with room it is accepted at the tail, with the losses that stand
before it, and without it is counted; CAPTURE_READY is raised where the log was empty, CAPTURE_LOSS where the loss count
leaves 0 (06 R112, R113, R114). -/
def PortState.offered (body : CaptureBody) (time : Time) (ps : PortState) : PortState :=
  if ps.log.length < 32 then
    { ps with
      log := ps.log ++ [⟨body, time, if ps.losses = 0 then none else some ps.losses⟩]
      losses := 0
      events := if ps.log = [] then ps.events ||| EventKind.captureReady.mask else ps.events }
  else
    { ps with
      losses := if ps.losses < 255 then ps.losses + 1 else ps.losses
      events := if ps.losses = 0 then ps.events ||| EventKind.captureLoss.mask else ps.events }

/-- The port's SUBMIT has admitted the entry in the present cycle with its due time reached, and since then what is named has
been delivered on its guard's channel (07 R127). -/
def PortState.sinceAdmission (ps : PortState) (e : Entry) (after : EdgeAfter) : Prop :=
  ∃ g, ps.lateGuard = some g ∧ g.tag = e.tag ∧ g.after = after

/-- The arm flag of a channel is set for the guard of an entry: it is set, and not by an edge alone that was delivered after
an admission that found the due time reached (07 R124, R127). -/
def PortState.setFor (ps : PortState) (e : Entry) (c : Channel) : Prop := ps.arms[c] = true ∧ ¬ ps.sinceAdmission e .unseen

/-- A port whose arm flag has passed an entry's guard test: PEEK and no guard leave the flag, and CONSUME clears it, unless an
edge delivered after such an admission has set it again (07 R124, R127). -/
def PortState.guardPassed (e : Entry) (ps : PortState) : PortState :=
  { ps with arms := match e.guard, ps.lateGuard with
      | some ⟨c, .consume⟩, some g =>
        if g.tag = e.tag ∧ g.after = .again then ps.arms else ps.arms &&& ~~~(BitVec.twoPow 16 c.val)
      | some ⟨c, .consume⟩, none => ps.arms &&& ~~~(BitVec.twoPow 16 c.val)
      | _, _ => ps.arms }

/-- The state in which a step has moved MC and told of it: a slew in progress is cancelled, with SLEW_DONE CANCELLED at the
holder of TIME_AUTHORITY, and the STEP record is offered to the log of every ATTACHED port at the post-step MC; no entry
that the step overtakes has been taken yet (01 R9, R12, R13). -/
def State.moved (s : State) (offset : Int) : State :=
  let now := s.mc + BitVec.ofInt 48 offset
  { s with
    mc := now
    slew := none
    ports := s.ports.map fun q ps =>
      let told : PortState :=
        if s.slew ≠ none ∧ s.timeAuthority = some q then
          { ps with events := ps.events ||| EventKind.slewDone.mask, slewResult := some .cancelled }
        else ps
      if ps.session = .attached then told.offered (.step offset) now else told }

/-- The entries that a step of an offset overtakes: those at a distance of 1 to the offset before it (01 R10). -/
def passedBy (mc : Time) (offset : Int) (e : Entry) : Bool :=
  decide (0 < distance mc e.dueTime) && decide ((distance mc e.dueTime : Int) ≤ offset)

end Sys2Proof.Machine
end

