-- ==== Sys2Proof/Certificates/Slice0/Obligations.lean ====
section
/-! DEFINITION. The statements for the provers. Each request's statement is about the request taken from the frame in hand of
its port with its session and roles in order (`State.takes`), and names the whole next state: the state that the command's
effects leave, with the reply recorded and placed over it (`State.answered`, which `ReplyPlacement` spells out). -/

open Sys2Proof Sys2Proof.Machine

/-! ## The step and the queue of commands -/

/-- A step takes the command at the front of the queue and runs it on the state with the queue's rest; with no command
waiting the part idles (the model's choice, log entry 18). -/
def Obligations.StepTakesFrontCommandOrIdles : Prop :=
  (∀ (c : Instr) (rest : List Instr) (s : State), s.pending = c :: rest → step s = exec c { s with pending := rest }) ∧
  ∀ s : State, s.pending = [] → step s = .next s

/-- No command ends in a fault or a refusal, in any state, and none touches the queue of commands. -/
def Obligations.EveryCommandAnswersNext : Prop :=
  ∀ (c : Instr) (s : State), ∃ t, exec c s = .next t ∧ t.pending = s.pending

/-- An event that is not due, or a request that no frame in hand carries or that was checked in the present cycle, leaves
the part as it is, and so does the recognition of a rising CS_N that brings another change or that has not passed both stages
of its synchroniser, for which it needs two REFCLK cycles: the model's choice, log entries 1, 3, 4, 8 and 28. Whether the next
cycle is a correction cycle is read from the slew in which the present cycle ends. -/
def Obligations.EventsNotDueDoNothing : Prop :=
  ∀ s : State,
    (∀ pins u, s.endsIn u → u.slew = none →
      exec (.correctionCycle pins) s = .next s ∧ exec (.slewDone pins) s = .next s) ∧
    (∀ pins u w, s.endsIn u → u.slew = some w → w.count + 1 < w.interval.natAbs →
      exec (.correctionCycle pins) s = .next s) ∧
    (∀ pins u w, s.endsIn u → u.slew = some w → (w.count + 1 < w.interval.natAbs ∨ 1 < w.left) →
      exec (.slewDone pins) s = .next s) ∧
    (s.boundaryToHand = false → exec .frameBoundary s = .next s) ∧
    (∀ p, (s.port p).batch.target ≠ some s.frameIndex → exec (.batchValidation p) s = .next s) ∧
    (∀ l, s.leaseRunOut l = false → exec (.leaseExpiry l) s = .next s) ∧
    (s.dueHead = none → exec .dueEvent s = .next s) ∧
    (∀ p, (s.port p).strobeRose = false → exec (.strobeEdge p) s = .next s) ∧
    (∀ c, s.qualifyingEdgeDue c = false → exec (.edgeDelivery c) s = .next s) ∧
    (∀ c : Channel, s.samplesTaken[c] = true → exec (.channelSample c) s = .next s) ∧
    (let waits (p : Port) (change : RiseChange) : Prop :=
       ∀ r rest, (s.port p).risen = r :: rest → r.change ≠ change ∨ r.stage < 2
     ∀ p,
       (waits p .whole → exec (.frameCheck p) s = .next s) ∧
       (waits p .aborted → waits p .dropped → exec (.requestTransaction p .recognised) s = .next s) ∧
       (waits p .unknown → ∀ first, exec (.unknownTransaction p first .recognised) s = .next s) ∧
       (waits p .fetched → exec (.fetchTransaction p .recognised) s = .next s)) ∧
    (∀ i p x, admissionRow i = some (p, x) →
      (s.awaits p i = false ∨ (s.port p).engine ≠ .executing ∨ (s.port p).checkedNow = true) → exec i s = .next s)

/-! ## Reset -/

/-- Release of RST_N gives every block the values the spec states, with the synchroniser stages at the pins' recent levels:
the first cycle after release is still to come, every link is idle, one whose CS_N is low being ignored until it next rises,
and no channel has been sampled. The state after reset has the same values, with no command waiting. -/
def Obligations.ReleaseValues : Prop :=
  (∀ s : State, ∃ t, exec .powerOnReset s = .next t ∧ t.hasReleaseValues ∧ t.pending = s.pending ∧
     t.inStage1 = s.inStage1 ∧ t.inStage2 = s.inStage2 ∧
     ∀ p, (t.port p).strobeStage1 = (s.port p).strobeStage1 ∧ (t.port p).strobeStage2 = (s.port p).strobeStage2 ∧
       ((s.port p).link = .idle → (t.port p).link = .idle) ∧ ((s.port p).link ≠ .idle → (t.port p).link = .ignored)) ∧
  State.reset.hasReleaseValues ∧ (∀ p, (State.reset.port p).link = .idle) ∧ State.reset.pending = []

/-- While RST_N is low: pins LOW, ATTN_N high, no transaction, no rising CS_N waiting and no frame in hand, what the shared
blocks and the sessions hold kept until release, REFCLK cycles moving the synchronisers alone, the transactions on a link
moving CS_N alone, and every other event doing nothing (log entry 16; the pins' fields: log entry 15; where a part of a
transaction leaves CS_N: log entry 9). A link that carries a transaction in reset, which no run reaches, stays as it is. -/
def Obligations.ResetHoldsThePart : Prop :=
  (∀ s : State, ∃ t, exec .resetAsserted s = .next t ∧ t = { s with inReset := true, outsShown := 0, ports := t.ports } ∧
     (∀ l, t.outPin l = .low ∧ t.outsShown[l] = false) ∧
     ∀ p, t.attnPin p = .high ∧ (t.port p).attnShown = .high ∧ (t.port p).risen = [] ∧
       (t.port p).link = (if (s.port p).link = .idle then .idle else .ignored) ∧
       (t.port p).frame = none ∧ (t.port p).miso = [] ∧
       t.port p = { s.port p with
         link := (t.port p).link, risen := (t.port p).risen, frame := (t.port p).frame, miso := (t.port p).miso
         attnShown := (t.port p).attnShown, engine := (t.port p).engine }) ∧
  ∀ s : State, s.inReset = true →
    (∀ pins : Pins, exec (.increment pins) s = .next
      { s with
        inStage1 := pins.ins
        inStage2 := s.inStage1
        ports := s.ports.map fun p ps =>
          { ps with
            strobeStage1 := pins.strobes[p.index], strobeStage2 := ps.strobeStage1, strobeRose := false
            risen := ps.risen.map fun r => { r with stage := min 2 (r.stage + 1) }, lateGuard := none
            checkedNow := false } }) ∧
    (let csN (p : Port) (low : Bool) : Host.Outcome State Fault Refusal :=
       .next (s.modifyPort p fun ps => { ps with
         link := if ps.link = .idle ∨ ps.link = .ignored then (if low then .ignored else .idle) else ps.link })
     ∀ p : Port,
       exec (.requestTransaction p .begins) s = csN p true ∧
       (∀ b, exec (.requestTransaction p (.byte b)) s = .next s) ∧
       (∀ bits, exec (.requestTransaction p (.csRises bits)) s = csN p false) ∧
       (∀ rest bits, exec (.requestTransaction p (.whole rest bits)) s = csN p false) ∧
       exec (.requestTransaction p .recognised) s = .next s ∧
       (∀ first further, exec (.unknownTransaction p first (.clocked further)) s = csN p false) ∧
       (∀ first, exec (.unknownTransaction p first .recognised) s = .next s) ∧
       (∀ bytes, exec (.fetchTransaction p (.clocked bytes)) s = csN p false) ∧
       exec (.fetchTransaction p .recognised) s = .next s) ∧
    ∀ c, c ≠ .powerOnReset → c ≠ .resetAsserted → (∀ pins, c ≠ .increment pins) →
      (∀ p part, c ≠ .requestTransaction p part) → (∀ p first part, c ≠ .unknownTransaction p first part) →
      (∀ p part, c ≠ .fetchTransaction p part) → exec c s = .next s

/-! ## The time base -/

/-- The increment of a cycle moves MC, the frame and the slew from where the cycle before ends; where that cycle owes the
taking of no request, that is where they stand. A correction is made where the count plus one is at least the interval's
magnitude, which in reachable states is where it reaches it: the model's choice, log entry 26. -/
def Obligations.IncrementMovesClockFrameAndSlew : Prop :=
  (∀ (pins : Pins) (s : State), s.inReset = false → ∃ u t, s.endsIn u ∧ exec (.increment pins) s = .next t ∧
    let n : Nat := match u.slew with
      | none => 1
      | some w => if w.interval.natAbs ≤ w.count + 1 then (if 0 < w.interval then 2 else 0) else 1
    t.mc = u.mc + BitVec.ofNat 48 n ∧
    (u.framePhase + n < u.frameLength → t.framePhase = u.framePhase + n ∧ t.frameIndex = u.frameIndex ∧
      t.frameLength = u.frameLength ∧ t.pendingLength = u.pendingLength ∧ t.boundaryToHand = false) ∧
    (u.frameLength ≤ u.framePhase + n → t.framePhase = u.framePhase + n - u.frameLength ∧
      t.frameIndex = u.frameIndex + 1 ∧ t.frameLength = u.pendingLength.getD u.frameLength ∧ t.pendingLength = none ∧
      t.boundaryToHand = true) ∧
    (u.slew = none → t.slew = none) ∧
    ∀ w, u.slew = some w →
      (w.count + 1 < w.interval.natAbs → t.slew = some { w with count := w.count + 1 }) ∧
      (w.interval.natAbs ≤ w.count + 1 → 1 < w.left → t.slew = some { w with left := w.left - 1, count := 0 }) ∧
      (w.interval.natAbs ≤ w.count + 1 → w.left ≤ 1 → t.slew = none)) ∧
  ∀ s u : State, s.inReset = false → (∀ p, (s.port p).owedRequest p = none) → s.endsIn u →
    u.mc = s.mc ∧ u.slew = s.slew ∧ u.timeAuthority = s.timeAuthority ∧ u.framePhase = s.framePhase ∧
      u.frameIndex = s.frameIndex ∧ u.frameLength = s.frameLength ∧ u.pendingLength = s.pendingLength

/-- What a cycle owes INCREMENT takes as the rows themselves would, in one order: the requests that the cycle before has
checked, the recognitions of rising CS_N, the samples, the strobe edges, the boundary, the validations, the expiries and the
entries that have fallen due (the model's choice, log entry 2); every frame that awaits its owner is taken with them. The rest
of what a cycle does once nothing more is owed: the pins show the levels in which the cycle left them (log entry 15),
remaining terms fall by the increment, the synchronisers take their pins and pass rising CS_N edges on, every sample becomes
owed (log entry 3), a frame that was checked in the cycle is due to be taken in the next (log entry 7), a slew that ends
raises SLEW_DONE COMPLETE at the holder of TIME_AUTHORITY, and nothing else changes. -/
def Obligations.IncrementLeavesTheRest : Prop :=
  (∀ (pins : Pins) (s : State), s.inReset = false →
    ∃ t, s.endsIn t ∧ t.owesNothing ∧ exec (.increment pins) s = exec (.increment pins) t ∧
      ∀ p i, s.awaits p i = true → (t.port p).engine = .replyHeld ∧ (t.port p).frame = none) ∧
  ∀ (pins : Pins) (s : State), s.inReset = false → s.owesNothing → ∃ t, exec (.increment pins) s = .next t ∧
    t = { s with
      freshRelease := false, mc := t.mc, framePhase := t.framePhase, frameIndex := t.frameIndex
      frameLength := t.frameLength, pendingLength := t.pendingLength, slew := t.slew, boundaryToHand := t.boundaryToHand
      lines := t.lines, outsShown := t.outsShown, inStage1 := pins.ins, inStage2 := s.inStage1, samplesTaken := 0
      ports := t.ports } ∧
    (∀ l, t.outsShown[l] = decide (s.outPin l = .high) ∧ t.line l = { s.line l with
      lease := (s.line l).lease.map fun x => { x with term := match x.term with
        | .unlimited => .unlimited
        | .finite term r => .finite term (r - (t.mc - s.mc).toNat) } }) ∧
    ∀ p,
      let synced : PortState := { s.port p with
        strobeStage1 := pins.strobes[p.index], strobeStage2 := (s.port p).strobeStage1
        strobeRose := !s.freshRelease && (s.port p).strobeStage1 && !(s.port p).strobeStage2
        risen := (s.port p).risen.map fun r => { r with stage := min 2 (r.stage + 1) }
        attnShown := s.attnPin p, lateGuard := none, checkedNow := false }
      (¬ (s.timeAuthority = some p ∧ s.slew ≠ none ∧ t.slew = none) → t.port p = synced) ∧
      (s.timeAuthority = some p → s.slew ≠ none → t.slew = none → (s.port p).session ≠ .detached →
        t.port p = { synced with
          events := (s.port p).events ||| EventKind.slewDone.mask, slewResult := some .complete })

/-- A correction cycle is the increment of its cycle, with MC moved by 2 or held; the cycle of the last correction ends
the slew, with SLEW_DONE COMPLETE at the holder of TIME_AUTHORITY. A correction cycle is one where the count plus one is at
least the interval's magnitude, which in reachable states is where it reaches it: the model's choice, log entry 26. The slew
is that in which the cycle before ends. -/
def Obligations.CorrectionCyclesAndTheLastOne : Prop :=
  (∀ (pins : Pins) (w : Slew) (s u : State), s.inReset = false → s.endsIn u → u.slew = some w →
     w.interval.natAbs ≤ w.count + 1 →
     ∃ t, exec (.correctionCycle pins) s = .next t ∧ exec (.increment pins) s = .next t ∧
       (0 < w.interval → t.mc = u.mc + 2) ∧ (w.interval ≤ 0 → t.mc = u.mc)) ∧
  ∀ (pins : Pins) (w : Slew) (h : Port) (s u : State), s.inReset = false → s.endsIn u → u.slew = some w →
    w.interval.natAbs ≤ w.count + 1 → w.left ≤ 1 → u.timeAuthority = some h → (u.port h).session ≠ .detached →
    ∃ t, exec (.slewDone pins) s = .next t ∧ exec (.increment pins) s = .next t ∧ t.slew = none ∧
      hasKind (t.port h).events .slewDone = true ∧ (t.port h).slewResult = some .complete

/-- The handing of a frame boundary raises FRAME_BOUNDARY at every ATTACHED port, whatever its mask, and at no other; a
recognised strobe edge latches MC and raises STROBE. -/
def Obligations.BoundaryAndStrobeEvents : Prop :=
  (∀ s : State, s.inReset = false → s.boundaryToHand = true →
     exec .frameBoundary s = .next
       { s with
         boundaryToHand := false
         ports := s.ports.map fun _ ps =>
           if ps.session = .attached then { ps with events := ps.events ||| EventKind.frameBoundary.mask } else ps }) ∧
  ∀ (p : Port) (s : State), s.inReset = false → (s.port p).strobeRose = true →
    exec (.strobeEdge p) s = .next (s.modifyPort p fun ps =>
      { ps with
        strobeRose := false
        strobe := ⟨s.mc, true, ps.strobe.overwritten || ps.strobe.valid⟩
        events := if ps.session = .detached then ps.events else ps.events ||| EventKind.strobe.mask })

/-- READ_TIME returns the snapshot and clears the requester's two strobe indications, and nothing else changes. -/
def Obligations.ReadTimeResult : Prop :=
  ∀ (p : Port) (s : State), s.takes (.readTime p) →
    exec (.readTime p) s = .next (s.answered
      (s.modifyPort p fun ps => { ps with strobe := ⟨ps.strobe.time, false, false⟩ }) p .ok
      (timeBytes s.mc ++ beBytes 4 s.frameIndex.toNat ++ beBytes 4 s.framePhase ++ beBytes 4 s.frameLength ++
        beBytes 4 (s.pendingLength.getD 0) ++
        (match s.slew with
         | none => [0, 0, 0, 0, 0, 0]
         | some w => intervalBytes w.interval ++ beBytes 3 w.left) ++
        timeBytes (s.port p).strobe.time ++
        [(if (s.port p).strobe.valid then 1 else 0) + (if (s.port p).strobe.overwritten then 2 else 0)]))

/-- A backward step that would leave a waiting entry at the bound or beyond is refused TOO_FAR and changes nothing, the
entries already due among it. A step that is taken first has every entry that has fallen due taken, as due events of their
own at the MC before the step; it then moves MC, cancels a slew with SLEW_DONE CANCELLED, answers with the post-step MC and
the number of entries overtaken (the model's choice of count, log entry 24), and leaves frames, leases, forces, channels,
batches and strobe records as they are. -/
def Obligations.StepTimeRefusedOrTaken : Prop :=
  (∀ (p : Port) (offset : Int) (mode : StepMode) (e : Entry) (s : State), s.takes (.stepTime p offset mode) → offset < 0 →
     e ∈ s.queue → reached s.mc e.dueTime = false →
     2 ^ 46 + 2 ^ 40 ≤ distance (s.mc + BitVec.ofInt 48 offset) e.dueTime →
     exec (.stepTime p offset mode) s = .next (s.answered s p .tooFar [])) ∧
  ∀ (p : Port) (offset : Int) (mode : StepMode) (s : State), s.takes (.stepTime p offset mode) →
    stepTooFar offset s = false →
    ∃ d u, runAll (dueEvents s) s = .next d ∧ d.dueHead = none ∧ d.mc = s.mc ∧
      exec (.stepTime p offset mode) s = .next (s.answered u p .ok
        (timeBytes (s.mc + BitVec.ofInt 48 offset) ++ beBytes 2 (d.queue.filter (passedBy s.mc offset)).length)) ∧
      u = { s with
        mc := s.mc + BitVec.ofInt 48 offset, slew := none, lines := u.lines, queue := u.queue, ports := u.ports } ∧
      (∀ l, (u.line l).lease = (s.line l).lease ∧ (u.line l).force = (s.line l).force) ∧
      (∀ q, (u.port q).batch = (s.port q).batch ∧ (u.port q).strobe = (s.port q).strobe ∧
        (u.port q).subscription = (s.port q).subscription ∧ (u.port q).quota = (s.port q).quota ∧
        (u.port q).session = (s.port q).session) ∧
      (s.slew ≠ none → hasKind (u.port p).events .slewDone = true ∧ (u.port p).slewResult = some .cancelled) ∧
      ∀ q, s.slew = none ∨ q ≠ p → (u.port q).slewResult = (s.port q).slewResult

/-- A SKIP step: the entries that have fallen due are first taken by due events; MC then moves, a slew is cancelled and the
STEP record offered to each ATTACHED port's log (`State.moved`); and every overtaken entry retires SKIPPED at the post-step
MC, in queue order, with no guard tested, no line moved and no note delivered. The reply counts every overtaken entry
(the model's choice, log entry 24). -/
def Obligations.SkipStepRetiresOvertaken : Prop :=
  ∀ (p : Port) (offset : Int) (s : State), s.takes (.stepTime p offset .skip) → stepTooFar offset s = false →
    ∃ d, runAll (dueEvents s) s = .next d ∧ d.dueHead = none ∧
      exec (.stepTime p offset .skip) s = .next
        (s.answered ((d.moved offset).retiring (passedBy d.mc offset) .skipped) p .ok
          (timeBytes (s.mc + BitVec.ofInt 48 offset) ++ beBytes 2 (d.queue.filter (passedBy d.mc offset)).length)) ∧
      ((d.moved offset).retiring (passedBy d.mc offset) .skipped).lines = d.lines

/-- A SWEEP step: the entries that have fallen due are first taken by due events; MC then moves, a slew is cancelled and the
STEP record offered to each ATTACHED port's log (`State.moved`); and behind it the overtaken entries are taken by due events
of their own at the post-step MC, in queue order: guards tested, actions applied, notes delivered, reports filed. None of
them waits any longer, nothing new waits, and an entry that was not overtaken still waits, unless it is the TRAIL of a LEAD
that retired GUARD_FALSE in the sweep. The reply counts every overtaken entry (the model's choice, log entry 24). -/
def Obligations.SweepStepTakesOvertaken : Prop :=
  ∀ (p : Port) (offset : Int) (s : State), s.takes (.stepTime p offset .sweep) → stepTooFar offset s = false →
    s.queueOrdered → s.tagLaw →
    ∃ d u, runAll (dueEvents s) s = .next d ∧ d.dueHead = none ∧
      runAll (dueEvents (d.moved offset)) (d.moved offset) = .next u ∧
      exec (.stepTime p offset .sweep) s = .next (s.answered u p .ok
        (timeBytes (s.mc + BitVec.ofInt 48 offset) ++ beBytes 2 (d.queue.filter (passedBy d.mc offset)).length)) ∧
      u.queue.Sublist d.queue ∧ (∀ e ∈ u.queue, passedBy d.mc offset e = false) ∧
      ∀ e ∈ d.queue, passedBy d.mc offset e = false →
        e ∈ u.queue ∨ ∃ lead ∈ d.queue, passedBy d.mc offset lead = true ∧ lead.action.isLead = true ∧
          isTrailOf lead e = true ∧ recordFor .guardFalse u.mc lead ∈ (u.port e.port).allReports

/-- SET_RATE starts, replaces or stops a slew, and the reply carries the slew state after it; SET_FRAME records the
pending frame length, and the reply names the boundary that adopts it. -/
def Obligations.RateAndFrameCommands : Prop :=
  (∀ (p : Port) (k : Int) (n : Nat) (s : State), s.takes (.setRate p k n) →
     (k ≠ 0 → exec (.setRate p k n) s = .next (s.answered { s with slew := some ⟨k, n, 0⟩ } p .ok
       (intervalBytes k ++ beBytes 3 n))) ∧
     (k = 0 → exec (.setRate p k n) s = .next (s.answered { s with slew := none } p .ok [0, 0, 0, 0, 0, 0]))) ∧
  ∀ (p : Port) (length : Nat) (s : State), s.takes (.setFrame p length) →
    exec (.setFrame p length) s = .next (s.answered { s with pendingLength := some length } p .ok
      (beBytes 4 (s.frameIndex + 1).toNat))

/-- The classes of a time against MC: reached, acceptable and TOO_FAR, exactly one of which holds. -/
def Obligations.TimeClasses : Prop :=
  ∀ mc t : Time,
    (reached mc t = true ↔ (t - mc).toNat = 0 ∨ 2 ^ 47 < (t - mc).toNat) ∧
    (acceptable mc t = true ↔ 0 < (t - mc).toNat ∧ (t - mc).toNat < 2 ^ 46) ∧
    (tooFar mc t = true ↔ 2 ^ 46 ≤ (t - mc).toNat ∧ (t - mc).toNat ≤ 2 ^ 47) ∧
    ((reached mc t = true ∧ acceptable mc t = false ∧ tooFar mc t = false) ∨
      (reached mc t = false ∧ acceptable mc t = true ∧ tooFar mc t = false) ∨
      (reached mc t = false ∧ acceptable mc t = false ∧ tooFar mc t = true))

/-! ## Output lines and leases -/

/-- The level of each pin is the force when one is present, else the shadow level, and LOW while RST_N is low.
FORCE_LINES replaces the named forces and the pins follow; shadow levels, leases and the queue stay. -/
def Obligations.ForceLinesAndPins : Prop :=
  (∀ (s : State) (l : Line),
     (s.inReset = true → s.outPin l = .low) ∧
     (s.inReset = false → ∀ f, (s.line l).force = some f → s.outPin l = f) ∧
     (s.inReset = false → (s.line l).force = none → s.outPin l = (s.line l).shadow)) ∧
  ∀ (p : Port) (lines : LineSet) (level : Level) (s : State), s.takes (.forceLines p lines level) →
    ∃ u, exec (.forceLines p lines level) s = .next (s.answered u p .ok
        (maskBytes (bitsWhere fun l => lines[l] || (s.line l).force.isSome))) ∧
      u = { s with lines := u.lines } ∧
      ∀ l, u.line l = (if lines[l] then { s.line l with force := some level } else s.line l) ∧
        (lines[l] = true → s.inReset = false → u.outPin l = level)

/-- ACQUIRE_LINES: refused HELD with the lines in the way, or every named line leased anew with the shadow level, the
force and the queue untouched. -/
def Obligations.AcquireLinesResult : Prop :=
  ∀ (p : Port) (lines : LineSet) (term : Option Nat) (f : Failsafe) (s : State), s.takes (.acquireLines p lines term f) →
    let inTheWay := bitsWhere fun l => lines[l] && s.heldByOther p l
    (inTheWay ≠ 0 → exec (.acquireLines p lines term f) s = .next (s.answered s p .held (maskBytes inTheWay))) ∧
    (inTheWay = 0 → exec (.acquireLines p lines term f) s = .next (s.answered
      (s.mapLines fun l r =>
        if lines[l] then
          { r with lease := some ⟨p, (match term with | none => .unlimited | some t => .finite t t), f⟩ }
        else r)
      p .ok (maskBytes (bitsWhere fun l => lines[l] || s.holds p l))))

/-- RENEW_LINES: refused NOT_OWNER with the lines not held, or every named lease's remaining term set to its term. -/
def Obligations.RenewLinesResult : Prop :=
  ∀ (p : Port) (lines : LineSet) (s : State), s.takes (.renewLines p lines) →
    let notHeld := bitsWhere fun l => lines[l] && !s.holds p l
    (notHeld ≠ 0 → exec (.renewLines p lines) s = .next (s.answered s p .notOwner (maskBytes notHeld))) ∧
    (notHeld = 0 → exec (.renewLines p lines) s = .next (s.answered
      (s.mapLines fun l r =>
        if lines[l] then
          { r with lease := r.lease.map fun x => { x with term := match x.term with
            | .unlimited => .unlimited
            | .finite t _ => .finite t t } }
        else r)
      p .ok (beBytes 1 (setSize lines))))

/-- RELEASE_LINES: refused NOT_OWNER with the lines not held, or every named lease ended, with the PENDING entries on
those lines retired CANCELLED in queue order and no event, so that no named line is leased any longer. A requester
that is not ATTACHED is refused at admission, and an empty line set is BAD_FIELD at the frame checks. -/
def Obligations.ReleaseLinesResult : Prop :=
  (∀ (p : Port) (lines : LineSet) (s : State), s.takes (.releaseLines p lines) →
    let notHeld := bitsWhere fun l => lines[l] && !s.holds p l
    (notHeld ≠ 0 → exec (.releaseLines p lines) s = .next (s.answered s p .notOwner (maskBytes notHeld))) ∧
    (notHeld = 0 → exec (.releaseLines p lines) s = .next (s.answered
      { s.retiring (namesLineIn lines) .cancelled with lines := s.linesAfterEnds lines } p .ok
      (beBytes 2 (s.queue.filter (namesLineIn lines)).length)) ∧
      ∀ l : Line, lines[l] = true → (s.linesAfterEnds lines)[l].lease = none)) ∧
  (∀ (p : Port) (lines : LineSet) (s : State), s.awaits p (.releaseLines p lines) = true →
    ((s.port p).session = .detached → exec (.releaseLines p lines) s = .next (s.answered s p .notAttached [])) ∧
    ((s.port p).session = .fenced → exec (.releaseLines p lines) s = .next (s.answered s p .fenced []))) ∧
  ∀ p, decodeCommand p .releaseLines [0, 0] = none

/-- REVOKE_LINES ends the named leases of any port, with the entries on them retired REVOKED and LEASE_REVOKED raised at
each former holder; named lines without a lease are passed over. An ATTACHED requester without SUPERVISOR is refused
NOT_ROLE, and an empty line set is BAD_FIELD at the frame checks. -/
def Obligations.RevokeLinesResult : Prop :=
  (∀ (p : Port) (lines : LineSet) (s : State), s.takes (.revokeLines p lines) →
    let leased := bitsWhere fun l => lines[l] && (s.line l).lease.isSome
    let u := s.retiring (namesLineIn leased) .revoked
    exec (.revokeLines p lines) s = .next (s.answered
      { u with
        lines := s.linesAfterEnds leased
        ports := u.ports.map fun q ps =>
          if (∃ l : Line, lines[l] = true ∧ s.holds q l = true) ∧ ps.session ≠ .detached then
            { ps with events := ps.events ||| EventKind.leaseRevoked.mask }
          else ps }
      p .ok (maskBytes leased ++ beBytes 2 (s.queue.filter (namesLineIn leased)).length))) ∧
  (∀ (p : Port) (lines : LineSet) (s : State), s.awaits p (.revokeLines p lines) = true →
    (s.port p).session = .attached → s.supervisor ≠ some p →
    exec (.revokeLines p lines) s = .next (s.answered s p .notRole [])) ∧
  ∀ p, decodeCommand p .revokeLines [0, 0] = none

/-- A lease whose remaining term has reached 0 expires: it ends with the entries on its line retired EXPIRED, and
LEASE_EXPIRED is raised at the former holder. -/
def Obligations.LeaseExpiryEndsTheLease : Prop :=
  ∀ (l : Line) (x : Lease) (term : Nat) (s : State), s.inReset = false → (s.line l).lease = some x →
    x.term = .finite term 0 →
    let one : LineSet := BitVec.twoPow 16 l.val
    let u : State := { s.retiring (namesLineIn one) .expired with lines := s.linesAfterEnds one }
    exec (.leaseExpiry l) s = .next (u.modifyPort x.holder fun ps =>
      if ps.session = .detached then ps else { ps with events := ps.events ||| EventKind.leaseExpired.mask })

/-- UNFORCE_LINES, for every requester: at an ATTACHED port that holds SUPERVISOR every named force becomes absent, the
pin shows the shadow level, and the reply carries the lines still forced; without the role it is refused NOT_ROLE;
and an empty line set is BAD_FIELD at the frame checks. -/
def Obligations.UnforceLinesResult : Prop :=
  (∀ (p : Port) (lines : LineSet) (s : State), s.awaits p (.unforceLines p lines) = true →
    (s.port p).session = .attached →
    (s.supervisor = some p →
      ∃ u, exec (.unforceLines p lines) s = .next (s.answered u p .ok
          (maskBytes (bitsWhere fun l => !lines[l] && (s.line l).force.isSome))) ∧
        u = { s with lines := u.lines } ∧
        ∀ l, u.line l = (if lines[l] then { s.line l with force := none } else s.line l) ∧
          (lines[l] = true → s.inReset = false → u.outPin l = (s.line l).shadow)) ∧
    (s.supervisor ≠ some p → exec (.unforceLines p lines) s = .next (s.answered s p .notRole []))) ∧
  ∀ p, decodeCommand p .unforceLines [0, 0] = none

/-- READ_LINES, READ_QUEUE and READ_STATUS return their snapshots and change nothing else. READ_LINES carries ten bytes a
line: whether it is leased, with holder, failsafe and UNLIMITED; its levels; and its term and remaining term. -/
def Obligations.SnapshotCommands : Prop :=
  (∀ (p : Port) (s : State), s.takes (.readLines p) →
     let holder (h : Port) : Byte := match h with
       | .a => 0x00
       | .b => 0x02
       | .c => 0x04
       | .d => 0x06
     let failsafe (f : Failsafe) : Byte := match f with
       | .low => 0x00
       | .high => 0x08
       | .hold => 0x10
     let levels (r : LineRecord) : Byte :=
       (if r.shadow = .high then 0x01 else 0) + (if r.force = none then 0 else 0x02) +
         (if r.force = some .high then 0x04 else 0) +
         (if r.force = some .high ∨ (r.force = none ∧ r.shadow = .high) then 0x08 else 0)
     let record (r : LineRecord) : List Byte := match r.lease with
       | none => [0x00, levels r, 0, 0, 0, 0, 0, 0, 0, 0]
       | some ⟨h, .unlimited, f⟩ => [0x21 + holder h + failsafe f, levels r, 0, 0, 0, 0, 0, 0, 0, 0]
       | some ⟨h, .finite term left, f⟩ => [0x01 + holder h + failsafe f, levels r] ++ beBytes 4 term ++ beBytes 4 left
     exec (.readLines p) s = .next (s.answered s p .ok (((List.finRange 16).map fun l => record (s.line l)).flatten))) ∧
  (∀ (p : Port) (s : State), s.takes (.readQueue p) →
     exec (.readQueue p) s = .next (s.answered s p .ok
       (beBytes 2 (s.port p).quota ++ beBytes 1 (s.port p).batch.staged.length ++
         beBytes 2 (s.queue.filter fun e => e.port == p).length ++ beBytes 2 (s.port p).retirement.length ++
         beBytes 1 (s.port p).fifo.length ++
         beBytes 2 (256 - (s.usage .a + s.usage .b + s.usage .c + s.usage .d)) ++
         beBytes 2 (s.port .a).quota ++ beBytes 2 (s.port .b).quota ++ beBytes 2 (s.port .c).quota ++
         beBytes 2 (s.port .d).quota))) ∧
  ∀ (p : Port) (s : State), s.takes (.readStatus p) →
    let ps := s.port p
    exec (.readStatus p) s = .next (s.answered s p .ok
      ([portByte p, if ps.session = .attached then 0x01 else 0x02, holderByte s.timeAuthority, holderByte s.supervisor,
          match ps.batch.state with
          | .empty => 0x00
          | .opened => 0x01
          | .armed => 0x02] ++
        beBytes 4 ((ps.batch.target.map BitVec.toNat).getD 0) ++ beBytes 1 ps.batch.staged.length ++
        beBytes 1 (setSize (bitsWhere fun l => s.holds p l)) ++ beBytes 2 ps.quota ++ beBytes 2 (s.usage p) ++
        beBytes 1 ps.fifo.length ++ beBytes 2 ps.retirement.length ++ beBytes 1 ps.log.length ++ beBytes 1 ps.losses ++
        beBytes 1 (setSize ps.subscription) ++ beBytes 1 (setSize ps.arms)))

/-! ## The action queue and the executor -/

/-- SUBMIT's five checks, in their order: the first that fails forms the reply, and nothing else changes. -/
def Obligations.SubmitRefusalsInOrder : Prop :=
  ∀ (p : Port) (x : Descriptor) (s : State), s.takes (.submit p x) →
    let notOwner := ∃ l, descLine x.action = some l ∧ s.holds p l = false
    let dupTag := ∃ e ∈ s.liveEntries p, e.tag = x.tag
    let late := reached s.mc x.dueTime = true ∧ x.lateOk = false
    let far := tooFar s.mc x.dueTime = true ∨ ∃ l w, x.action = .pulse l w ∧ tooFar s.mc (x.dueTime + w.zeroExtend 48) = true
    let above := (s.port p).quota < s.usage p + descSlots x
    (notOwner → exec (.submit p x) s = .next (s.answered s p .notOwner [])) ∧
    (¬ notOwner → dupTag → exec (.submit p x) s = .next (s.answered s p .dupTag [])) ∧
    (¬ notOwner → ¬ dupTag → late → exec (.submit p x) s = .next (s.answered s p .late [])) ∧
    (¬ notOwner → ¬ dupTag → ¬ late → far → exec (.submit p x) s = .next (s.answered s p .tooFar [])) ∧
    (¬ notOwner → ¬ dupTag → ¬ late → ¬ far → above →
      exec (.submit p x) s = .next (s.answered s p .quota (beBytes 2 (s.port p).quota ++ beBytes 2 (s.usage p))))

/-- A SUBMIT that passes its checks puts its entry, or the LEAD and then the TRAIL of a PULSE, in queue order, and answers from
the state at admission. Where its due time is reached, which late_ok allows, the entry stands behind the others that have
fallen due and is taken in its turn by a due event; its guard sees the edges delivered so far, and none delivered later (the
model's reading: log entry 27). Nothing else changes, and nothing is taken. -/
def Obligations.SubmitAdmits : Prop :=
  ∀ (p : Port) (x : Descriptor) (s : State), s.takes (.submit p x) → s.queueOrdered →
    (∀ l, descLine x.action = some l → s.holds p l = true) → (∀ e ∈ s.liveEntries p, e.tag ≠ x.tag) →
    (reached s.mc x.dueTime = false ∨ x.lateOk = true) → tooFar s.mc x.dueTime = false →
    (∀ l w, x.action = .pulse l w → tooFar s.mc (x.dueTime + w.zeroExtend 48) = false) →
    s.usage p + descSlots x ≤ (s.port p).quota →
    let entry (a : EntryAction) (due : Time) (g : Option Guard) : Entry := ⟨p, x.tag, a, due, g, x.report, x.lateOk⟩
    let noted : Option LateGuard := match x.guard with
      | some g => if reached s.mc x.dueTime = true then some ⟨x.tag, g.channel, .quiet⟩ else (s.port p).lateGuard
      | none => (s.port p).lateGuard
    let admits (queue : List Entry) : Prop :=
      exec (.submit p x) s = .next (s.answered
        { s with queue := queue, ports := s.ports.set p { s.port p with lateGuard := noted } } p .ok
        (beBytes 2 (s.usage p + descSlots x) ++ [BitVec.ofNat 8 (descSlots x)]))
    let one (a : EntryAction) : Prop := admits (placed s.mc (entry a x.dueTime x.guard) s.queue)
    match x.action with
    | .set l => one (.set l)
    | .clear l => one (.clear l)
    | .toggle l => one (.toggle l)
    | .note v ts => one (.note v ts)
    | .pulse l w => admits (placed s.mc (entry (.trail l) (x.dueTime + w.zeroExtend 48) none)
        (placed s.mc (entry (.lead l) x.dueTime x.guard) s.queue))

/-- CANCEL: refused BATCH_ARMED or NOT_FOUND, or the requester's PENDING entries with the tag retired CANCELLED and its
STAGED ones freed, with the two counts in the reply. CANCEL_LINES retires the requester's PENDING entries on the
named lines CANCELLED, and leaves lines and leases alone. -/
def Obligations.CancelCommands : Prop :=
  (∀ (p : Port) (tag : Half) (s : State), s.takes (.cancel p tag) →
     let staged := (s.port p).batch.staged.filter fun e => e.tag == tag
     let waiting : Entry → Bool := fun e => e.port == p && e.tag == tag
     (staged ≠ [] → (s.port p).batch.state = .armed →
       exec (.cancel p tag) s = .next (s.answered s p .batchArmed [])) ∧
     (staged = [] → s.queue.filter waiting = [] → exec (.cancel p tag) s = .next (s.answered s p .notFound [])) ∧
     ((staged = [] ∨ (s.port p).batch.state ≠ .armed) → (staged ≠ [] ∨ s.queue.filter waiting ≠ []) →
       exec (.cancel p tag) s = .next (s.answered
         ((s.retiring waiting .cancelled).modifyPort p fun ps =>
           { ps with batch := { ps.batch with staged := ps.batch.staged.filter fun e => e.tag != tag } })
         p .ok (beBytes 1 (s.queue.filter waiting).length ++ beBytes 1 staged.length)))) ∧
  ∀ (p : Port) (lines : LineSet) (s : State), s.takes (.cancelLines p lines) →
    let gone : Entry → Bool := fun e => e.port == p && namesLineIn lines e
    exec (.cancelLines p lines) s = .next (s.answered (s.retiring gone .cancelled) p .ok
      (beBytes 2 (s.queue.filter gone).length))

/-- READ_COMPLETIONS pops up to count records, oldest first, moves reports into the room, and counts what is still
queued; each record is 17 bytes, with the codes of its kind, part and outcome. A report movement fills the FIFO from the
oldest of the retirement order, raising COMPLETION_READY where it was empty. -/
def Obligations.CompletionFifoCommands : Prop :=
  (∀ (p : Port) (count : Nat) (s : State), s.takes (.readCompletions p count) → (s.port p).reportsMoved →
     (s.port p).fifo.length ≤ 32 →
     let kind (r : CompletionRecord) : Byte := match r.kind with
       | .set => 0x00
       | .clear => 0x01
       | .toggle => 0x02
       | .pulse => 0x03
       | .note => 0x04
     let part (r : CompletionRecord) : Byte := match r.part with
       | .none => 0x00
       | .lead => 0x10
       | .trail => 0x20
     let line (r : CompletionRecord) : Byte := match r.line with
       | some l => BitVec.ofNat 8 l.val
       | none => 0xFF
     let outcome (r : CompletionRecord) : Byte := match r.outcome with
       | .done => 0x00
       | .masked => 0x01
       | .guardFalse => 0x02
       | .cancelled => 0x03
       | .expired => 0x04
       | .revoked => 0x05
       | .skipped => 0x06
       | .fenced => 0x07
       | .late => 0x08
       | .notOwner => 0x09
       | .batchAborted => 0x0A
     let bytes (r : CompletionRecord) : List Byte :=
       beBytes 2 r.tag.toNat ++ [kind r + part r, line r, outcome r] ++ beBytes 6 r.dueTime.toNat ++
         beBytes 6 r.actualTime.toNat
     exec (.readCompletions p count) s = .next (s.answered
       (s.modifyPort p fun ps =>
         { ps with fifo := (ps.allReports.drop count).take 32, retirement := ps.retirement.drop count })
       p .ok
       (beBytes 1 (min count (s.port p).fifo.length) ++ beBytes 2 ((s.port p).allReports.drop count).length ++
         (((s.port p).fifo.take count).map bytes).flatten))) ∧
  ∀ (p : Port) (s : State), s.inReset = false →
    let room := 32 - (s.port p).fifo.length
    exec (.reportMove p) s = .next (s.modifyPort p fun ps =>
      { ps with
        fifo := ps.fifo ++ (ps.retirement.take room).map Retired.record
        retirement := ps.retirement.drop room
        events := if ps.fifo = [] ∧ ps.retirement ≠ [] ∧ ps.session ≠ .detached then
          ps.events ||| EventKind.completionReady.mask else ps.events })

/-- The due event of a line entry whose guard is absent or finds its flag set: the shadow level takes the action, a CONSUME
guard clears its flag, and the entry retires DONE, or MASKED where the line is forced, with MC as its actual time. For a late_ok
entry admitted with its due time reached, an edge delivered since the admission alone does not set the flag for the guard,
and one that has set it again leaves it set (log entry 27). -/
def Obligations.DueLineEntryIsApplied : Prop :=
  ∀ (e : Entry) (rest : List Entry) (l : Line) (s : State), s.inReset = false → s.queue = e :: rest →
    reached s.mc e.dueTime = true → e.action.line? = some l →
    (∀ g, e.guard = some g → (s.port e.port).setFor e g.channel) →
    let level : Level := match e.action with
      | .set _ => .high
      | .lead _ => .high
      | .clear _ => .low
      | .trail _ => .low
      | .toggle _ => invertLevel (s.line l).shadow
      | .note _ _ => (s.line l).shadow
    let outcome : Machine.Outcome := if (s.line l).force = none then .done else .masked
    exec .dueEvent s = .next
      { s with
        queue := rest
        lines := s.lines.set l { s.line l with shadow := level }
        ports := s.ports.set e.port
          (let held := (s.port e.port).guardPassed e
           if outcome = .done ∧ e.report = .faultsOnly then held else held.takeReports [⟨e, outcome, s.mc⟩]) }

/-- The due event of an entry whose guard finds its flag clear, or set by an edge alone that was delivered after an admission
that found its due time reached (log entry 27): it retires GUARD_FALSE with nothing applied and the flag as it was, and a LEAD's
TRAIL retires GUARD_FALSE behind it in the same event. -/
def Obligations.DueEntryWithClearFlagFails : Prop :=
  ∀ (e : Entry) (rest : List Entry) (g : Guard) (s : State), s.inReset = false → s.queue = e :: rest →
    reached s.mc e.dueTime = true → e.guard = some g →
    ((s.port e.port).arms[g.channel] = false ∨ (s.port e.port).sinceAdmission e .unseen) →
    (e.action.isLead = false →
      exec .dueEvent s = .next { s with
        queue := rest, ports := s.ports.set e.port ((s.port e.port).takeReports [⟨e, .guardFalse, s.mc⟩]) }) ∧
    (e.action.isLead = true → rest.find? (isTrailOf e) = none →
      exec .dueEvent s = .next { s with
        queue := rest, ports := s.ports.set e.port ((s.port e.port).takeReports [⟨e, .guardFalse, s.mc⟩]) }) ∧
    ∀ trail, e.action.isLead = true → rest.find? (isTrailOf e) = some trail →
      exec .dueEvent s = .next { s with
        queue := rest.erase trail
        ports := s.ports.set e.port
          ((s.port e.port).takeReports [⟨e, .guardFalse, s.mc⟩, ⟨trail, .guardFalse, s.mc⟩]) }

/-- The due event of a NOTE whose guard is absent or finds its flag set: a CONSUME guard clears the issuer's flag and a PEEK
guard leaves it; each ATTACHED target's log is offered the record at MC, with CAPTURE_READY or CAPTURE_LOSS as the log and
the loss count stand; and the NOTE retires DONE. An edge delivered after an admission that found the due time reached counts
as for a line entry (log entry 27). -/
def Obligations.DueNoteIsDelivered : Prop :=
  ∀ (e : Entry) (rest : List Entry) (v : Half) (targets : PortSet) (s : State), s.inReset = false → s.queue = e :: rest →
    reached s.mc e.dueTime = true → e.action = .note v targets →
    (∀ g, e.guard = some g → (s.port e.port).setFor e g.channel) →
    exec .dueEvent s = .next
      { s with
        queue := rest
        ports := s.ports.map fun q ps =>
          let tested := if q = e.port then ps.guardPassed e else ps
          let told := if ps.session = .attached ∧ targets[q.index] = true then tested.offered (.note e.port v) s.mc else tested
          if q = e.port ∧ e.report = .always then told.takeReports [⟨e, .done, s.mc⟩] else told }

/-! ## Batches -/

/-- STAGE's four checks in their order, and the staging: the entry, or LEAD then TRAIL, joins the tail of the list. -/
def Obligations.StageResult : Prop :=
  ∀ (p : Port) (x : Descriptor) (s : State), s.takes (.stage p x) →
    let armed := (s.port p).batch.state = .armed
    let dupTag := ∃ e ∈ s.liveEntries p, e.tag = x.tag
    let above := (s.port p).quota < s.usage p + descSlots x
    let full := 16 < (s.port p).batch.staged.length + descSlots x
    (armed → exec (.stage p x) s = .next (s.answered s p .batchArmed [])) ∧
    (¬ armed → dupTag → exec (.stage p x) s = .next (s.answered s p .dupTag [])) ∧
    (¬ armed → ¬ dupTag → above →
      exec (.stage p x) s = .next (s.answered s p .quota (beBytes 2 (s.port p).quota ++ beBytes 2 (s.usage p)))) ∧
    (¬ armed → ¬ dupTag → ¬ above → full →
      exec (.stage p x) s = .next (s.answered s p .batchFull (beBytes 1 (s.port p).batch.staged.length))) ∧
    (¬ armed → ¬ dupTag → ¬ above → ¬ full →
      exec (.stage p x) s = .next (s.answered
        (s.modifyPort p fun ps =>
          { ps with batch := { ps.batch with staged := ps.batch.staged ++ descEntries p x } })
        p .ok
        (beBytes 2 (s.usage p + descSlots x) ++ beBytes 1 (descSlots x) ++
          beBytes 1 ((s.port p).batch.staged.length + descSlots x))))

/-- COMMIT_BATCH: BAD_FRAME before BATCH_EMPTY and BATCH_ARMED; from OPEN the batch becomes ARMED for the current frame
index plus frames ahead. DISCARD_BATCH frees every staged entry with no report and clears the target. -/
def Obligations.CommitAndDiscardBatch : Prop :=
  (∀ (p : Port) (ahead : Option Byte) (s : State), s.takes (.commitBatch p ahead) →
     let n := (ahead.getD 1).toNat
     let target := s.frameIndex + BitVec.ofNat 32 n
     (n = 0 → exec (.commitBatch p ahead) s = .next (s.answered s p .badFrame [])) ∧
     (n ≠ 0 → (s.port p).batch.state = .empty →
       exec (.commitBatch p ahead) s = .next (s.answered s p .batchEmpty [])) ∧
     (n ≠ 0 → (s.port p).batch.state = .armed →
       exec (.commitBatch p ahead) s = .next (s.answered s p .batchArmed [])) ∧
     (n ≠ 0 → (s.port p).batch.state = .opened →
       exec (.commitBatch p ahead) s = .next (s.answered
         (s.modifyPort p fun ps => { ps with batch := { ps.batch with target := some target } }) p .ok
         (beBytes 4 target.toNat ++ beBytes 1 (s.port p).batch.staged.length)))) ∧
  ∀ (p : Port) (s : State), s.takes (.discardBatch p) →
    exec (.discardBatch p) s = .next (s.answered (s.modifyPort p fun ps => { ps with batch := ⟨[], none⟩ }) p .ok
      (beBytes 1 (s.port p).batch.staged.length))

/-- The validation of an ARMED batch at its boundary: with no cause found every entry becomes PENDING in staging order
and BATCH_DONE COMMITTED is raised; with one found every entry retires in staging order, with its own cause or
BATCH_ABORTED, and BATCH_DONE ABORTED is raised. -/
def Obligations.BatchValidationResult : Prop :=
  ∀ (p : Port) (s : State), s.inReset = false → (s.port p).batch.target = some s.frameIndex → s.queueOrdered →
    (∀ e ∈ (s.port p).batch.staged, e.port = p) → (s.port p).session ≠ .detached →
    let staged := (s.port p).batch.staged
    let notOwner : Entry → Prop := fun e => ∃ l, e.action.line? = some l ∧ s.holds p l = false
    let late : Entry → Prop := fun e =>
      ¬ (acceptable s.mc e.dueTime = true ∨ (reached s.mc e.dueTime = true ∧ e.lateOk = true))
    let freed : PortState := { s.port p with batch := ⟨[], none⟩ }
    ((∀ e ∈ staged, ¬ notOwner e ∧ ¬ late e) →
      exec (.batchValidation p) s = .next
        { s with
          queue := staged.foldl (fun queue e => placed s.mc e queue) s.queue
          ports := s.ports.set p
            { freed with events := freed.events ||| EventKind.batchDone.mask, batchResult := some .committed } }) ∧
    ((∃ e ∈ staged, notOwner e ∨ late e) →
      ∃ rs : List Retired,
        let told := freed.takeReports rs
        rs.map Retired.entry = staged ∧
        (∀ r ∈ rs, r.actualTime = s.mc ∧ (notOwner r.entry → r.outcome = .notOwner) ∧
          (¬ notOwner r.entry → late r.entry → r.outcome = .late) ∧
          (¬ notOwner r.entry → ¬ late r.entry → r.outcome = .batchAborted)) ∧
        exec (.batchValidation p) s = .next
          { s with
            ports := s.ports.set p
              { told with events := told.events ||| EventKind.batchDone.mask, batchResult := some .aborted } })

/-! ## Input capture and arm flags -/

/-- The filter of a channel on the cycle's sample, where it makes no edge; the sample is taken once in the cycle. -/
def Obligations.SampleWithoutEdge : Prop :=
  ∀ (c : Channel) (s : State), s.inReset = false → s.samplesTaken[c] = false →
    let ch := s.channels[c]
    let x := levelFromBool s.inStage2[c]
    let leaves (ch' : ChannelState) := exec (.channelSample c) s = .next
      { s with channels := s.channels.set c ch', samplesTaken := s.samplesTaken ||| BitVec.twoPow 16 c.val }
    (ch.sampled = false → leaves { ch with filtered := x, sampled := true, run := none }) ∧
    (ch.sampled = true → x = ch.filtered → leaves { ch with run := none }) ∧
    (ch.sampled = true → x ≠ ch.filtered → ch.run = none → 2 ≤ ch.depth → leaves { ch with run := some ⟨x, 1, s.mc⟩ }) ∧
    ∀ r, ch.sampled = true → x ≠ ch.filtered → ch.run = some r → r.count + 1 < ch.depth →
      leaves { ch with run := some { r with count := r.count + 1 } }

/-- A sample that completes a run, or at depth 1 shows the other level, changes the filtered level; an edge that
qualifies sets each ATTACHED subscriber's arm flag and is offered to its log, stamped with the first sample's time,
and an edge that does not qualify does nothing more. A late guard on the channel keeps whether the edge found the flag clear
or set (log entry 27). -/
def Obligations.EdgeIsDeliveredToSubscribers : Prop :=
  ∀ (c : Channel) (time : Time) (s : State), s.inReset = false → s.samplesTaken[c] = false →
    (s.channels[c]).sampled = true → levelFromBool s.inStage2[c] = invertLevel (s.channels[c]).filtered →
    (((s.channels[c]).run = none ∧ (s.channels[c]).depth = 1 ∧ time = s.mc) ∨
      ∃ n, (s.channels[c]).run = some ⟨invertLevel (s.channels[c]).filtered, n, time⟩ ∧ n + 1 = (s.channels[c]).depth) →
    let ch := s.channels[c]
    let edge : Edge := match ch.filtered with | .low => .rise | .high => .fall
    let qualifies := ch.select = .both ∨ (ch.select = .rise ∧ edge = .rise) ∨ (ch.select = .fall ∧ edge = .fall)
    let after : State :=
      { s with
        channels := s.channels.set c { ch with filtered := invertLevel ch.filtered, run := none }
        samplesTaken := s.samplesTaken ||| BitVec.twoPow 16 c.val }
    (¬ qualifies → exec (.channelSample c) s = .next after) ∧
    (qualifies →
      ∃ t, exec (.channelSample c) s = .next t ∧ exec (.edgeDelivery c) s = .next t ∧
        t = { after with ports := t.ports } ∧
        ∀ q,
          let ps := s.port q
          (¬ (ps.session = .attached ∧ ps.subscription[c] = true) → t.port q = ps) ∧
          (ps.session = .attached → ps.subscription[c] = true →
            t.port q =
              ({ ps with
                 arms := ps.arms ||| BitVec.twoPow 16 c.val
                 lateGuard := ps.lateGuard.map fun g =>
                   if g.channel ≠ c then g
                   else { g with after := if ps.arms[c] = true ∧ g.after ≠ .unseen then .again else .unseen } } :
                PortState).offered (.edge c edge) time))

/-- CONFIG_INPUT: refused NOT_ROLE where another port holds SUPERVISOR; else every named channel is configured, its run
restarted and its filtered level kept. -/
def Obligations.ConfigInputResult : Prop :=
  ∀ (p : Port) (channels : ChannelSet) (depth : Nat) (select : EdgeSelect) (s : State),
    s.takes (.configInput p channels depth select) →
    (∀ h, s.supervisor = some h → h ≠ p →
      exec (.configInput p channels depth select) s = .next (s.answered s p .notRole [])) ∧
    ((s.supervisor = none ∨ s.supervisor = some p) →
      exec (.configInput p channels depth select) s = .next (s.answered
        { s with channels := Vector.ofFn fun c : Channel =>
            if channels[c] then ⟨depth, select, (s.channels[c]).filtered, (s.channels[c]).sampled, none⟩
            else s.channels[c] }
        p .ok (maskBytes (bitsWhere fun c => (s.channels[c]).filtered == .high))))

/-- SUBSCRIBE replaces the set, keeps the flags of the channels that stay, and clears the rest; CLEAR_ARMS clears the
named flags and answers with those it cleared; READ_ARMS shows flags and subscriptions and changes nothing else. -/
def Obligations.SubscriptionAndArmFlagCommands : Prop :=
  (∀ (p : Port) (channels : ChannelSet) (s : State), s.takes (.subscribe p channels) →
     exec (.subscribe p channels) s = .next (s.answered
       (s.modifyPort p fun ps =>
         { ps with subscription := channels, arms := ps.arms &&& (ps.subscription &&& channels) })
       p .ok
       (maskBytes channels ++ maskBytes (bitsWhere fun c => (s.channels[c]).filtered == .high) ++
         maskBytes (bitsWhere fun c => (s.channels[c]).select != .none)))) ∧
  (∀ (p : Port) (channels : ChannelSet) (s : State), s.takes (.clearArms p channels) →
    exec (.clearArms p channels) s = .next (s.answered
      (s.modifyPort p fun ps => { ps with arms := ps.arms &&& ~~~channels }) p .ok
      (maskBytes ((s.port p).arms &&& channels)))) ∧
  ∀ (p : Port) (s : State), s.takes (.readArms p) →
    exec (.readArms p) s = .next (s.answered s p .ok (maskBytes (s.port p).arms ++ maskBytes (s.port p).subscription))

/-- READ_CAPTURES pops up to count records, oldest first; the loss count, subscriptions and flags stay. Each record is 14
bytes: its kind, what was lost before it, what its kind carries, and its time. -/
def Obligations.ReadCapturesResult : Prop :=
  ∀ (p : Port) (count : Nat) (s : State), s.takes (.readCaptures p count) →
    let port (q : Port) : Byte := match q with
      | .a => 0x00
      | .b => 0x01
      | .c => 0x02
      | .d => 0x03
    let direction (d : Edge) : Byte := match d with
      | .rise => 0x00
      | .fall => 0x01
    let bytes (r : CaptureRecord) : List Byte :=
      let lost : Byte := match r.lostBefore with
        | none => 0x00
        | some n => BitVec.ofNat 8 n
      (match r.body with
       | .edge c d => [0x01, lost, BitVec.ofNat 8 c.val, direction d, 0, 0, 0, 0]
       | .note q v => [0x02, lost, port q] ++ beBytes 2 v.toNat ++ [0, 0, 0]
       | .step offset => [0x03, lost] ++ beBytes 6 (BitVec.ofInt 48 offset).toNat) ++
        beBytes 6 r.time.toNat
    exec (.readCaptures p count) s = .next (s.answered (s.modifyPort p fun ps => { ps with log := ps.log.drop count })
      p .ok
      (beBytes 1 (min count (s.port p).log.length) ++ beBytes 1 ((s.port p).log.length - count) ++
        beBytes 1 (s.port p).losses ++ (((s.port p).log.take count).map bytes).flatten))

/-! ## Sessions, roles and quotas -/

/-- The admission check: NOT_ATTACHED or FENCED where the session does not allow the request, then NOT_ROLE; the request
does not reach its owner. -/
def Obligations.AdmissionRefusals : Prop :=
  ∀ (i : Instr) (p : Port) (whenDetached whenFenced : Bool) (role : Option Role) (s : State),
    admissionRow i = some (p, whenDetached, whenFenced, role) → s.awaits p i = true →
    ((s.port p).session = .detached → whenDetached = false → exec i s = .next (s.answered s p .notAttached [])) ∧
    ((s.port p).session = .fenced → whenFenced = false → exec i s = .next (s.answered s p .fenced [])) ∧
    ∀ r, role = some r → (s.port p).session = .attached → s.holder r ≠ some p →
      exec i s = .next (s.answered s p .notRole [])

/-- OPEN from DETACHED makes the port ATTACHED and changes nothing else; from ATTACHED it is refused ALREADY_OPEN. -/
def Obligations.OpenResult : Prop :=
  ∀ (p : Port) (s : State), s.takes (.openPort p) →
    ((s.port p).session = .attached → exec (.openPort p) s = .next (s.answered s p .alreadyOpen [])) ∧
    ((s.port p).session = .detached →
      exec (.openPort p) s = .next (s.answered (s.modifyPort p fun ps => { ps with session := .attached }) p .ok
        ([portByte p] ++ beBytes 2 (s.port p).quota ++ [holderByte s.timeAuthority, holderByte s.supervisor] ++
          beBytes 2 (s.port p).mask.toNat)))

/-- CLOSE tears the session down in one event: roles and leases gone, the lines at their failsafes, nothing of the port
PENDING, staged, waiting or logged, and the quota kept. -/
def Obligations.CloseTearsDown : Prop :=
  ∀ (p : Port) (s : State), s.takes (.closePort p) →
    (∀ e ∈ s.queue, ∀ l, e.action.line? = some l → s.holds e.port l = true) →
    ∃ u n m, exec (.closePort p) s = .next (s.answered u p .ok (beBytes 2 n ++ beBytes 2 m)) ∧
      n = (s.queue.filter fun e => e.port == p).length ∧
      m = (s.port p).retirement.length + (s.port p).fifo.length + n ∧
      u = { s with
        slew := if s.timeAuthority = some p then none else s.slew
        timeAuthority := if s.timeAuthority = some p then none else s.timeAuthority
        supervisor := if s.supervisor = some p then none else s.supervisor
        lines := s.linesAfterEnds (bitsWhere fun l => s.holds p l)
        queue := s.queue.filter fun e => e.port != p
        ports := u.ports } ∧
      (u.port p = { s.port p with
        session := .detached, strobe := ⟨0, false, false⟩, retirement := [], fifo := [], batch := ⟨[], none⟩
        subscription := 0, log := [], losses := 0, arms := 0, events := 0, batchResult := none, slewResult := none
        mask := 0 }) ∧
      ∀ q, q ≠ p → u.port q =
        if (s.timeAuthority = some p ∨ s.supervisor = some p) ∧ (s.port q).session = .attached then
          { s.port q with events := (s.port q).events ||| EventKind.roleChanged.mask }
        else s.port q

/-- CLAIM_ROLE grants a free role, with ROLE_CHANGED at the other ATTACHED ports; it changes nothing for the holder, and
is refused HELD where another port holds the role. RELEASE_ROLE frees a role the requester holds, cancelling a slew
without SLEW_DONE for TIME_AUTHORITY; a role it does not hold is NOT_ROLE. -/
def Obligations.RoleCommands : Prop :=
  (∀ (p : Port) (r : Role) (s : State), s.takes (.claimRole p r) →
     let holders (u : State) : List Byte := [holderByte u.timeAuthority, holderByte u.supervisor]
     let told := s.ports.map fun q ps =>
       if ps.session = .attached ∧ q ≠ p then { ps with events := ps.events ||| EventKind.roleChanged.mask } else ps
     (s.holder r = none →
       ∃ u, exec (.claimRole p r) s = .next (s.answered u p .ok (holders u)) ∧
         u = (match r with
           | .timeAuthority => { s with timeAuthority := some p, ports := told }
           | .supervisor => { s with supervisor := some p, ports := told })) ∧
     (s.holder r = some p → exec (.claimRole p r) s = .next (s.answered s p .ok (holders s))) ∧
     ∀ h, s.holder r = some h → h ≠ p → exec (.claimRole p r) s = .next (s.answered s p .held (holders s))) ∧
  ∀ (p : Port) (r : Role) (s : State), s.takes (.releaseRole p r) →
    let told := s.ports.map fun q ps =>
      if ps.session = .attached ∧ q ≠ p then { ps with events := ps.events ||| EventKind.roleChanged.mask } else ps
    (s.holder r ≠ some p → exec (.releaseRole p r) s = .next (s.answered s p .notRole [])) ∧
    (s.holder r = some p →
      ∃ u, exec (.releaseRole p r) s = .next (s.answered u p .ok [holderByte u.timeAuthority, holderByte u.supervisor]) ∧
        u = (match r with
          | .timeAuthority => { s with timeAuthority := none, slew := none, ports := told }
          | .supervisor => { s with supervisor := none, ports := told }))

/-- FENCE_PORT: SELF and NOT_ATTACHED in that order; else the target becomes FENCED, loses roles, leases, batch,
subscriptions and flags, and its PENDING entries retire FENCED in queue order. -/
def Obligations.FencePortResult : Prop :=
  ∀ (p target : Port) (s : State), s.takes (.fencePort p target) →
    (∀ e ∈ s.queue, ∀ l, e.action.line? = some l → s.holds e.port l = true) →
    (target = p → exec (.fencePort p target) s = .next (s.answered s p .self [])) ∧
    (target ≠ p → (s.port target).session ≠ .attached →
      exec (.fencePort p target) s = .next (s.answered s p .notAttached [])) ∧
    (target ≠ p → (s.port target).session = .attached →
      ∃ u, exec (.fencePort p target) s = .next (s.answered u p .ok
          (beBytes 1 (setSize (bitsWhere fun l => s.holds target l)) ++
            beBytes 2 (s.queue.filter fun e => e.port == target).length)) ∧
        u = { s with
          slew := if s.timeAuthority = some target then none else s.slew
          timeAuthority := if s.timeAuthority = some target then none else s.timeAuthority
          supervisor := if s.supervisor = some target then none else s.supervisor
          lines := s.linesAfterEnds (bitsWhere fun l => s.holds target l)
          queue := s.queue.filter fun e => e.port != target
          ports := u.ports } ∧
        (let told := (s.port target).takeReports
          ((s.queue.filter fun e => e.port == target).map fun e => ⟨e, .fenced, s.mc⟩)
         u.port target = { told with
          session := .fenced, batch := ⟨[], none⟩, subscription := 0, arms := 0
          events := told.events ||| EventKind.portFenced.mask }) ∧
        ∀ q, q ≠ target → u.port q =
          if (s.timeAuthority = some target ∨ s.supervisor = some target) ∧ (s.port q).session = .attached ∧ q ≠ p then
            { s.port q with events := (s.port q).events ||| EventKind.roleChanged.mask }
          else s.port q)

/-- SET_QUOTA's three checks in their order, and the setting. -/
def Obligations.SetQuotaResult : Prop :=
  ∀ (p target : Port) (quota : Nat) (s : State), s.takes (.setQuota p target quota) →
    let barred := ∃ h, s.supervisor = some h ∧ h ≠ p
    let inUse := quota < s.usage target
    let others := s.quotaSum - (s.port target).quota
    let above := 256 < quota + others
    let q (x : Port) : Nat := if x = target then quota else (s.port x).quota
    (barred → exec (.setQuota p target quota) s = .next (s.answered s p .notRole [])) ∧
    (¬ barred → inUse →
      exec (.setQuota p target quota) s = .next (s.answered s p .inUse (beBytes 2 (s.usage target)))) ∧
    (¬ barred → ¬ inUse → above → exec (.setQuota p target quota) s = .next (s.answered s p .quota (beBytes 2 others))) ∧
    (¬ barred → ¬ inUse → ¬ above →
      exec (.setQuota p target quota) s = .next (s.answered
        (s.modifyPort target fun ps => { ps with quota := quota }) p .ok
        (beBytes 2 (q .a) ++ beBytes 2 (q .b) ++ beBytes 2 (q .c) ++ beBytes 2 (q .d) ++
          beBytes 2 (256 - (s.usage .a + s.usage .b + s.usage .c + s.usage .d)))))

/-- A request that acts on its own port and the shared blocks leaves the state of every other port as it was. -/
def Obligations.OtherPortsAreUndisturbed : Prop :=
  ∀ (i : Instr) (p q : Port) (s t : State),
    (∃ x, admissionRow i = some (p, x)) →
    (∀ offset mode, i ≠ .stepTime p offset mode) → (∀ lines, i ≠ .releaseLines p lines) →
    (∀ lines, i ≠ .revokeLines p lines) → i ≠ .closePort p → (∀ r, i ≠ .claimRole p r) → (∀ r, i ≠ .releaseRole p r) →
    (∀ target, i ≠ .fencePort p target) → (∀ target n, i ≠ .setQuota p target n) →
    exec i s = .next t → q ≠ p → t.port q = s.port q

/-! ## Events and the attention line -/

/-- READ_EVENTS shows the set as it found it and clears the named kinds it showed, with their results; SET_EVENT_MASK
replaces the mask and leaves the set. The state gives ATTN_N the level low exactly while set and mask share a kind, and
high while RST_N is low. What ATTN_N and the output pins show moves only where a REFCLK cycle ends or RST_N moves, so no
level between two events of a cycle appears on them (the model's reading, log entry 15). -/
def Obligations.EventCommandsAndAttention : Prop :=
  ((∀ (p : Port) (clear : EventSet) (s : State), s.takes (.readEvents p clear) →
     let ps := s.port p
     let cleared (k : EventKind) : Bool := hasKind ps.events k && hasKind clear k
     exec (.readEvents p clear) s = .next (s.answered
       (s.modifyPort p fun ps =>
         { ps with
           events := ps.events &&& ~~~clear
           batchResult := if cleared .batchDone then none else ps.batchResult
           slewResult := if cleared .slewDone then none else ps.slewResult })
       p .ok
       (beBytes 2 ps.events.toNat ++
         [((match ps.batchResult with | none => 0 | some .committed => 1 | some .aborted => 2) +
           (match ps.slewResult with | none => 0 | some .complete => 4 | some .cancelled => 8) : Byte)] ++
         beBytes 2 ps.mask.toNat))) ∧
   ∀ (p : Port) (mask : EventSet) (s : State), s.takes (.setEventMask p mask) →
     exec (.setEventMask p mask) s = .next (s.answered (s.modifyPort p fun ps => { ps with mask := mask }) p .ok
       (beBytes 2 mask.toNat ++ beBytes 2 (s.port p).events.toNat))) ∧
  (∀ (s : State) (p : Port),
    (s.inReset = true → s.attnPin p = .high) ∧
    (s.inReset = false →
      (s.attnPin p = .low ↔ ∃ k, hasKind (s.port p).events k = true ∧ hasKind (s.port p).mask k = true))) ∧
  ∀ (c : Instr) (s t : State), (∀ pins, c ≠ .increment pins ∧ c ≠ .correctionCycle pins ∧ c ≠ .slewDone pins) →
    c ≠ .powerOnReset → c ≠ .resetAsserted → exec c s = .next t →
    t.outsShown = s.outsShown ∧ ∀ p, (t.port p).attnShown = (s.port p).attnShown

/-! ## The request protocol -/

/-- A request transaction on an idle link is received where the engine is IDLE or REPLY_HELD, whole or not, and dropped in
RECEIVING or EXECUTING; a transaction with an unknown first byte changes nothing yet. What their rising CS_N changes waits,
behind what earlier ones left waiting, until it has passed both stages of its synchroniser and is recognised: an aborted
frame is then discarded with the engine back in the state it left and FRAME_ABORTED, a dropped one leaves overrun pending,
and an unknown one raises FRAME_ABORTED (the order of recognition and its two cycles: log entry 28). On a link whose CS_N was
low at release nothing is taken until CS_N rises, which leaves the link idle. -/
def Obligations.RequestAndUnknownTransactions : Prop :=
  (∀ (p : Port) (rest : List Byte) (bits : Fin 8) (s : State), s.inReset = false → (s.port p).link = .idle →
     let ps := s.port p
     let ones := List.replicate (rest.length + 1) (0xFF : Byte)
     let whole := bits = 0 ∧ 1 ≤ rest.length ∧ rest.length = (rest.getD 0 0).toNat + 2
     let gives (ps' : PortState) := exec (.requestTransaction p (.whole rest bits)) s = .next (s.modifyPort p fun _ => ps')
     let received (left : Resting) (change : RiseChange) : PortState :=
       { ps with
         engine := .receiving left, frame := some (0x6D :: rest), miso := ones, risen := ps.risen ++ [⟨change, 0⟩] }
     (ps.engine = .idle → whole → gives (received .idle .whole)) ∧
     (ps.engine = .idle → ¬ whole → gives (received .idle .aborted)) ∧
     (ps.engine = .replyHeld → whole → gives (received .replyHeld .whole)) ∧
     (ps.engine = .replyHeld → ¬ whole → gives (received .replyHeld .aborted)) ∧
     (((∃ left, ps.engine = .receiving left) ∨ ps.engine = .executing) →
       gives { ps with miso := ones, risen := ps.risen ++ [⟨.dropped, 0⟩] })) ∧
  (∀ (p : Port) (first : Byte) (further : Nat) (s : State), s.inReset = false → (s.port p).link = .idle → first ≠ 0x6D →
    first ≠ 0x93 →
    exec (.unknownTransaction p first (.clocked further)) s = .next (s.modifyPort p fun ps =>
      { ps with miso := List.replicate (further + 1) 0xFF, risen := ps.risen ++ [⟨.unknown, 0⟩] })) ∧
  (∀ (p : Port) (s : State), s.inReset = false → (s.port p).link = .ignored →
     let freed := s.modifyPort p fun ps => { ps with link := .idle }
     exec (.requestTransaction p .begins) s = .next s ∧
     (∀ b, exec (.requestTransaction p (.byte b)) s = .next s) ∧
     (∀ bits, exec (.requestTransaction p (.csRises bits)) s = .next freed) ∧
     (∀ rest bits, exec (.requestTransaction p (.whole rest bits)) s = .next freed) ∧
     ∀ (first : Byte) (further : Nat), first ≠ 0x6D → first ≠ 0x93 →
       exec (.unknownTransaction p first (.clocked further)) s = .next freed) ∧
  ∀ (p : Port) (r : Rise) (rest : List Rise) (s : State), s.inReset = false → (s.port p).risen = r :: rest → 2 ≤ r.stage →
    (∀ left, r.change = .aborted → (s.port p).engine = .receiving left →
      exec (.requestTransaction p .recognised) s = .next (s.modifyPort p fun ps =>
        { ps with
          risen := rest
          frame := none
          engine := match left with
            | .idle => .idle
            | .replyHeld => .replyHeld
          events := ps.events ||| EventKind.frameAborted.mask })) ∧
    (r.change = .dropped →
      exec (.requestTransaction p .recognised) s = .next (s.modifyPort p fun ps =>
        { ps with risen := rest, overrun := true })) ∧
    (∀ first : Byte, r.change = .unknown → first ≠ 0x6D → first ≠ 0x93 →
      exec (.unknownTransaction p first .recognised) s = .next (s.modifyPort p fun ps =>
        { ps with risen := rest, events := ps.events ||| EventKind.frameAborted.mask }))

/-- A transaction clocked part by part ends as the same transaction taken whole. A whole frame received on a link with no
other rising CS_N waiting is answered by the fourth REFCLK cycle after its own: the reply buffer then holds a reply, with the
frame's sequence unless it repeats the last executed one, and the engine is in REPLY_HELD, whatever the other ports owe. -/
def Obligations.TransactionInParts : Prop :=
  (∀ (p : Port) (rest : List Byte) (bits : Fin 8) (s : State),
    (s.port p).link = .idle ∨ (s.port p).link = .ignored →
    ∃ t, exec (.requestTransaction p (.whole rest bits)) s = .next t ∧
      runAll (([RequestPart.begins] ++ rest.map RequestPart.byte ++ [RequestPart.csRises bits]).map
        (.requestTransaction p)) s = .next t) ∧
  ∀ (p : Port) (rest : List Byte) (s : State) (a b c d : Pins), s.inReset = false → (s.port p).link = .idle →
    (s.port p).risen = [] → ((s.port p).engine = .idle ∨ (s.port p).engine = .replyHeld) →
    1 ≤ rest.length → rest.length = (rest.getD 0 0).toNat + 2 →
    ∃ t e, runAll [.requestTransaction p (.whole rest 0), .increment a, .increment b, .increment c, .increment d] s =
        .next t ∧
      (t.port p).engine = .replyHeld ∧ (t.port p).frame = none ∧ (t.port p).reply = some e ∧
      (e.repeated = true ∨ e.reply.sequence = (if (rest.getD 0 0).toNat = 0 then 0 else rest.getD 1 0))

/-- The checks of a frame whose rising CS_N is recognised: the first of checks 1 to 4 that fails is answered at once with no
data, a repeat of the last executed frame is answered from the record with REPEATED, and any other frame goes to
EXECUTING, to be taken once the next REFCLK cycle has begun and not before. A frame answered at its check is no longer in
hand (log entry 13), and the recognition is an event of its own (log entry 28). -/
def Obligations.FrameCheckResult : Prop :=
  ∀ (p : Port) (left : Resting) (bytes : List Byte) (r : Rise) (rest : List Rise) (s : State), s.inReset = false →
    (s.port p).risen = r :: rest → r.change = .whole → 2 ≤ r.stage →
    (s.port p).engine = .receiving left → (s.port p).frame = some bytes →
    let ps : PortState := { s.port p with risen := rest }
    let gives (ps' : PortState) := exec (.frameCheck p) s = .next (s.modifyPort p fun _ => ps')
    let n := (bytes.getD 1 0).toNat
    let crc := bytes.getD (n + 2) 0
    let code := if n < 2 then 0 else bytes.getD 3 0
    let sequence := if n = 0 then 0 else bytes.getD 2 0
    let params := (bytes.drop 4).take (n - 2)
    let refused (r : ResultCode) := gives (({ ps with frame := none }).placeReply ⟨sequence, code, r, []⟩ false)
    let crcOk := crc8 ((bytes.drop 1).take (n + 1)) = crc
    (¬ crcOk → refused .badCrc) ∧
    (crcOk → n < 2 → refused .badLength) ∧
    (crcOk → 2 ≤ n → Cmd.ofCode code = none → refused .unknownCommand) ∧
    ∀ c, crcOk → 2 ≤ n → Cmd.ofCode code = some c →
      (c.sizeOk (n - 2) = false → refused .badLength) ∧
      (c.sizeOk (n - 2) = true → decodeCommand p c params = none → refused .badField) ∧
      (c.sizeOk (n - 2) = true → decodeCommand p c params ≠ none →
        (∀ x, ps.lastExecuted = some x → x.sequence = sequence → x.crc = crc →
          gives (({ ps with frame := none }).placeReply x.reply true)) ∧
        ((∀ x, ps.lastExecuted = some x → ¬ (x.sequence = sequence ∧ x.crc = crc)) →
          gives { ps with engine := .executing, checkedNow := true } ∧
          ∀ i, decodeCommand p c params = some i → ∀ t, exec (.frameCheck p) s = .next t →
            t.awaits p i = false ∧ ((∀ x ∈ rest, x.change.endsFrame = false) →
              ∀ (pins : Pins) (u : State), exec (.increment pins) t = .next u → u.awaits p i = true)))

/-- Every placement of a reply: the indicators are formed from the state just before it, the reply replaces what the
buffer held, fetched is no, overrun pending is no, and REPLY_READY is raised in every session state. -/
def Obligations.ReplyPlacement : Prop :=
  (∀ (reply : Reply) (repeated : Bool) (ps : PortState),
    let unread := match ps.reply with
      | some b => !b.fetched
      | none => false
    ps.placeReply reply repeated = { ps with
      reply := some ⟨reply, repeated, unread, ps.overrun, false⟩, overrun := false, engine := .replyHeld
      events := ps.events ||| EventKind.replyReady.mask }) ∧
  ∀ (s u : State) (p : Port) (bytes : List Byte) (r : ResultCode) (data : List Byte), (s.port p).frame = some bytes →
    2 ≤ (bytes.getD 1 0).toNat →
    let reply : Reply := ⟨bytes.getD 2 0, bytes.getD 3 0, r, data⟩
    s.answered u p r data = u.modifyPort p fun ps =>
      ({ ps with lastExecuted := some ⟨bytes.getD 2 0, bytes.getD ((bytes.getD 1 0).toNat + 2) 0, reply⟩, frame := none }
        ).placeReply reply false

/-- A fetch: the status byte by the engine state, the reply frame with its result code and indicators after READY, ones
beyond. A READY fetch that reaches the reply's CRC leaves its rising CS_N waiting, and once that is recognised the reply is
fetched and REPLY_READY is cleared; any other changes only what MISO carried (a fetch as one event: log entry 10; the
recognition as another: log entry 28). On a link whose CS_N was low at release a fetch is not taken, and its rising CS_N
leaves the link idle. -/
def Obligations.FetchResult : Prop :=
  (∀ (p : Port) (clocked : Nat) (s : State), s.inReset = false → (s.port p).link = .idle → 0 < clocked →
    let ps := s.port p
    let gives (ps' : PortState) := exec (.fetchTransaction p (.clocked clocked)) s = .next (s.modifyPort p fun _ => ps')
    let drives (bytes : List Byte) : List Byte := ((0xFF : Byte) :: bytes ++ List.replicate clocked 0xFF).take clocked
    let code (r : ResultCode) : Byte := match r with
      | .ok => 0x00
      | .badCrc => 0x01
      | .badLength => 0x02
      | .unknownCommand => 0x03
      | .badField => 0x04
      | .notAttached => 0x10
      | .alreadyOpen => 0x11
      | .fenced => 0x12
      | .notRole => 0x13
      | .held => 0x14
      | .self => 0x15
      | .notOwner => 0x20
      | .quota => 0x21
      | .dupTag => 0x22
      | .late => 0x23
      | .tooFar => 0x24
      | .notFound => 0x25
      | .inUse => 0x26
      | .batchFull => 0x30
      | .batchArmed => 0x31
      | .batchEmpty => 0x32
      | .badFrame => 0x33
    (ps.engine = .idle → gives { ps with miso := drives [0x4E] }) ∧
    (((∃ left, ps.engine = .receiving left) ∨ ps.engine = .executing) → gives { ps with miso := drives [0x5A] }) ∧
    ∀ b, ps.engine = .replyHeld → ps.reply = some b →
      let run := [BitVec.ofNat 8 (4 + b.reply.data.length), b.reply.sequence, b.reply.command, code b.reply.result,
        (if b.repeated then 1 else 0) + (if b.replyLost then 2 else 0) + (if b.overrun then 4 else 0)] ++ b.reply.data
      let frame := run ++ [crc8 run]
      (clocked < frame.length + 2 → gives { ps with miso := drives (0xA5 :: frame) }) ∧
      (frame.length + 2 ≤ clocked → gives { ps with
        miso := drives (0xA5 :: frame), risen := ps.risen ++ [⟨.fetched, 0⟩] })) ∧
  (∀ (p : Port) (clocked : Nat) (s : State), s.inReset = false → (s.port p).link = .ignored →
    exec (.fetchTransaction p (.clocked clocked)) s = .next (s.modifyPort p fun ps => { ps with link := .idle })) ∧
  ∀ (p : Port) (r : Rise) (rest : List Rise) (s : State), s.inReset = false → (s.port p).risen = r :: rest →
    r.change = .fetched → 2 ≤ r.stage →
    exec (.fetchTransaction p .recognised) s = .next (s.modifyPort p fun ps =>
      { ps with
        risen := rest
        reply := ps.reply.map fun (b : ReplyEntry) => { b with fetched := true }
        events := ps.events &&& ~~~EventKind.replyReady.mask })

/-! ## Bytes -/

/-- The CRC-8 as its generator divides: the register starts at 0xFF, each byte is combined in, and eight shifts follow. -/
def Obligations.CrcFollowsItsGenerator : Prop :=
  crc8 [] = 0xFF ∧
  (∀ (bytes : List Byte) (b : Byte),
    let shift (r : Byte) : Byte := if r[7] then (r <<< 1) ^^^ 0x2F else r <<< 1
    crc8 (bytes ++ [b]) = (shift^[8]) (crc8 bytes ^^^ b)) ∧
  (∀ (p : Port) (bytes : List Byte),
    checkFrame p bytes = .badCrc ↔
      crc8 ((bytes.drop 1).take ((bytes.getD 1 0).toNat + 1)) ≠ bytes.getD ((bytes.getD 1 0).toNat + 2) 0) ∧
  (∀ b : ReplyEntry, b.frame = b.frame.dropLast ++ [crc8 b.frame.dropLast]) ∧
  crc8 [0x02] = 0x1C ∧ crc8 [0x02, 0x00] = 0x45 ∧ crc8 [0x02, 0x00, 0x10] = 0xDB

/-- A few frames written out from the layouts stand for the requests they name. -/
def Obligations.FramesReadAsTheirRequests : Prop :=
  checkFrame .a [0x6D, 0x02, 0x00, 0x10, 0xDB] = .passed (.readTime .a) ∧
  decodeCommand .c .submit [0x00, 0x15, 0x03, 0x05, 0x00, 0x00, 0x00, 0x00, 0xC4, 0xE0, 0x00, 0x00, 0xC8, 0xAA, 0xBB,
      0xFF, 0x00, 0x00, 0x00] =
    some (.submit .c ⟨21, .pulse 5 200, 50400, none, .always, false⟩) ∧
  decodeCommand .b .stepTime [0xFF, 0xFF, 0xFF, 0xFF, 0xFE, 0xD4, 0x01] = some (.stepTime .b (-300) .skip) ∧
  decodeCommand .b .stepTime [0, 0, 0, 0, 0, 0, 0x00] = none ∧
  decodeCommand .d .acquireLines [0x00, 0x18, 0xFE, 0, 0, 0, 0] = some (.acquireLines .d 0x0018 none .hold) ∧
  decodeCommand .d .acquireLines [0x00, 0x18, 0x01, 0, 0, 0x03, 0xE7] = none ∧
  decodeCommand .a .setEventMask [0x20, 0x00] = none ∧
  decodeCommand .a .fencePort [0xFE] = some (.fencePort .a .c)

/-- Every well-formed request, laid out in its parameters, is read back as itself, and its frame passes checks 1 to 4. -/
def Obligations.RequestsReadBackAsSent : Prop :=
  ∀ (i : Instr) (p : Port) (c : Cmd) (params : List Byte) (sequence : Byte), i.wellFormed = true →
    encodeCommand i = some (p, c, params) →
    Cmd.ofCode c.code = some c ∧ c.sizeOk params.length = true ∧ decodeCommand p c params = some i ∧
      frameWhole (requestFrame sequence i) = true ∧ checkFrame p (requestFrame sequence i) = .passed i

/-! ## Laws that every step keeps -/

/-- The laws of the ports, with who may hold what and where entries stand: sizes, the report law, batches, arm flags,
results, sessions and engines, kept by every step. -/
def Obligations.PortLawsAreKept : Prop :=
  ∀ s t : State, s.portsSound → s.holdersAttached → s.entriesAtHome → step s = .next t →
    t.portsSound ∧ t.holdersAttached ∧ t.entriesAtHome

/-- The ranges of the time base, of leases and of channels, kept by every step. -/
def Obligations.RangeLawsAreKept : Prop :=
  (∀ s t : State, s.timeBaseSound → step s = .next t → t.timeBaseSound) ∧
  ∀ s t : State, s.leasesInRange → s.channelsSound → step s = .next t → t.leasesInRange ∧ t.channelsSound

/-- The quota law, kept by every step: no port's live entries exceed its quota, and the quotas add up to at most 256. -/
def Obligations.QuotaLawIsKept : Prop :=
  ∀ s t : State, s.quotaLaw → step s = .next t → t.quotaLaw

/-- The tag law, kept by every step. -/
def Obligations.TagLawIsKept : Prop :=
  ∀ s t : State, s.tagLaw → step s = .next t → t.tagLaw

/-- The queue order and the bound on waiting entries, kept by every step. -/
def Obligations.QueueOrderIsKept : Prop :=
  ∀ s t : State, s.queueOrdered → step s = .next t → t.queueOrdered

/-- All these laws hold right after reset. -/
def Obligations.LawsHoldAtReset : Prop :=
  State.reset.portsSound ∧ State.reset.holdersAttached ∧ State.reset.entriesAtHome ∧ State.reset.timeBaseSound ∧
    State.reset.leasesInRange ∧ State.reset.channelsSound ∧ State.reset.quotaLaw ∧ State.reset.tagLaw ∧
    State.reset.queueOrdered
end

