-- ==== Sys2Proof/Laws/Sets.lean ====
section
/-! SUPPORT. Membership in the sets that stand for lines and channels. -/

namespace Sys2Proof.Machine

@[simp] theorem bitsWhere_getElem (f : Fin 16 → Bool) (l : Fin 16) : (bitsWhere f)[l] = f l := by
  simp [bitsWhere]

theorem set_ext {a b : BitVec 16} (h : ∀ l : Fin 16, a[l] = b[l]) : a = b := by
  apply BitVec.eq_of_getElem_eq
  intro i hi
  exact h ⟨i, hi⟩

theorem bitsWhere_eq_zero (f : Fin 16 → Bool) : bitsWhere f = 0 ↔ ∀ l, f l = false := by
  constructor
  · intro h l
    rw [← bitsWhere_getElem f l, h]; simp
  · intro h
    apply set_ext
    intro l
    rw [bitsWhere_getElem, h l]; simp

theorem twoPow_getElem (l k : Fin 16) : (BitVec.twoPow 16 l.val)[k] = decide (k = l) := by
  simp only [Fin.getElem_fin, BitVec.getElem_twoPow, decide_eq_decide]
  constructor
  · intro h; exact Fin.ext h
  · intro h; rw [h]

end Sys2Proof.Machine
end

