-- ==== Sys2Proof/Laws/Capture.lean ====
section
/-! SUPPORT. What CONFIG_INPUT leaves of a channel, and what the sample of a channel leaves. -/

namespace Sys2Proof.Machine

theorem State.configure_eq (s : State) (channels : ChannelSet) (depth : Nat) (select : EdgeSelect) :
    s.configure channels depth select =
      { s with channels := Vector.ofFn fun c : Channel =>
          if channels[c] then ⟨depth, select, (s.channels[c]).filtered, (s.channels[c]).sampled, none⟩ else s.channels[c] } := by
  unfold State.configure
  with_reducible rfl

theorem State.configure_channel (s : State) (channels : ChannelSet) (depth : Nat) (select : EdgeSelect) (c : Channel) :
    (s.configure channels depth select).channels[c] =
      if channels[c] then ⟨depth, select, (s.channels[c]).filtered, (s.channels[c]).sampled, none⟩ else s.channels[c] := by
  rw [State.configure_eq]
  exact Vector.getElem_ofFn ..

/-- CONFIG_INPUT keeps every filtered level. -/
theorem State.configure_highChannels (s : State) (channels : ChannelSet) (depth : Nat) (select : EdgeSelect) :
    (s.configure channels depth select).highChannels = bitsWhere fun c => (s.channels[c]).filtered == .high := by
  apply set_ext; intro c
  unfold State.highChannels
  rw [bitsWhere_getElem, bitsWhere_getElem, State.configure_channel]
  split <;> rfl

/-! ## The filter -/

theorem ChannelState.take_first (ch : ChannelState) (x : Level) (now : Time) (h : ch.sampled = false) :
    ch.take x now = ({ ch with filtered := x, sampled := true, run := none }, none) := by
  simp [ChannelState.take, h]

theorem ChannelState.take_same (ch : ChannelState) (now : Time) (h : ch.sampled = true) :
    ch.take ch.filtered now = ({ ch with run := none }, none) := by
  obtain ⟨depth, select, filtered, sampled, run⟩ := ch
  subst h
  cases run <;> simp [ChannelState.take]

theorem ChannelState.take_starts (ch : ChannelState) (x : Level) (now : Time) (h : ch.sampled = true)
    (hx : x ≠ ch.filtered) (hr : ch.run = none) (hd : 2 ≤ ch.depth) :
    ch.take x now = ({ ch with run := some ⟨x, 1, now⟩ }, none) := by
  simp only [ChannelState.take, h, Bool.not_true, Bool.false_eq_true, ↓reduceIte, hr, if_neg hx,
    if_neg (show ¬ ch.depth ≤ 1 by omega)]

theorem ChannelState.take_goesOn (ch : ChannelState) (x : Level) (now : Time) (r : FilterRun) (h : ch.sampled = true)
    (hx : x ≠ ch.filtered) (hr : ch.run = some r) (hd : r.count + 1 < ch.depth) :
    ch.take x now = ({ ch with run := some { r with count := r.count + 1 } }, none) := by
  simp only [ChannelState.take, h, Bool.not_true, Bool.false_eq_true, ↓reduceIte, hr, if_neg hx, if_pos hd]

theorem ChannelState.take_edgeAtOnce (ch : ChannelState) (x : Level) (now : Time) (h : ch.sampled = true)
    (hx : x ≠ ch.filtered) (hr : ch.run = none) (hd : ch.depth ≤ 1) :
    ch.take x now = ({ ch with filtered := x, run := none }, some now) := by
  obtain ⟨depth, select, filtered, sampled, run⟩ := ch
  simp only at h hx hr hd
  subst h hr
  simp [ChannelState.take, hx, hd]

theorem ChannelState.take_edgeCompletes (ch : ChannelState) (x : Level) (now : Time) (r : FilterRun)
    (h : ch.sampled = true) (hx : x ≠ ch.filtered) (hr : ch.run = some r) (hd : ch.depth ≤ r.count + 1) :
    ch.take x now = ({ ch with filtered := r.candidate, run := none }, some r.firstTime) := by
  simp only [ChannelState.take, h, Bool.not_true, Bool.false_eq_true, ↓reduceIte, hr, if_neg hx,
    if_neg (show ¬ r.count + 1 < ch.depth by omega)]

/-- The sample of a channel whose sample of the cycle is still owed, where it makes no edge. -/
theorem State.sampleChannel_noEdge (s : State) (c : Channel) (ho : s.sampleOwed c = true)
    (hn : (s.sampleResult c).2 = none) : s.sampleChannel c = s.storeSample c := by
  simp [State.sampleChannel, ho, hn]

/-- The sample of a channel that makes an edge: the edge is delivered where it qualifies. -/
theorem State.sampleChannel_edge (s : State) (c : Channel) (t : Time) (ho : s.sampleOwed c = true)
    (hn : (s.sampleResult c).2 = some t) :
    s.sampleChannel c =
      if qualifies (s.channels[c]).select (edgeTo (s.sampleResult c).1.filtered) then
        (s.storeSample c).deliverEdge c (edgeTo (s.sampleResult c).1.filtered) t
      else s.storeSample c := by
  simp [State.sampleChannel, ho, hn]

end Sys2Proof.Machine
end

