-- ==== Sys2Proof/Laws/Events.lean ====
section
/-! SUPPORT. Membership in event sets after a raise and after a clearing. -/

namespace Sys2Proof.Machine

theorem EventKind.bit_injective {j k : EventKind} (h : j.bit = k.bit) : j = k := by
  cases j <;> cases k <;> first | rfl | (exact absurd h (by decide))

theorem hasKind_mask (j k : EventKind) : hasKind k.mask j = decide (j = k) := by
  unfold hasKind EventKind.mask
  rw [Fin.getElem_fin, BitVec.getElem_twoPow, decide_eq_decide]
  exact ⟨fun h => EventKind.bit_injective (Fin.ext h), fun h => by rw [h]⟩

theorem hasKind_or (a b : EventSet) (j : EventKind) : hasKind (a ||| b) j = (hasKind a j || hasKind b j) := by
  unfold hasKind; rw [Fin.getElem_fin, BitVec.getElem_or]; rfl

theorem hasKind_and (a b : EventSet) (j : EventKind) : hasKind (a &&& b) j = (hasKind a j && hasKind b j) := by
  unfold hasKind; rw [Fin.getElem_fin, BitVec.getElem_and]; rfl

theorem hasKind_not (a : EventSet) (j : EventKind) : hasKind (~~~a) j = !hasKind a j := by
  unfold hasKind; rw [Fin.getElem_fin, BitVec.getElem_not]; rfl

@[simp] theorem hasKind_zero (j : EventKind) : hasKind 0 j = false := by
  unfold hasKind; simp

/-- A raise adds its own kind and no other. -/
theorem hasKind_raise (m : EventSet) (j k : EventKind) : hasKind (m ||| k.mask) j = (hasKind m j || decide (j = k)) := by
  rw [hasKind_or, hasKind_mask]

theorem EventKind.bit_surjective : ∀ i : Fin 13, ∃ k : EventKind, k.bit = i
  | 0 => ⟨.replyReady, rfl⟩
  | 1 => ⟨.frameAborted, rfl⟩
  | 2 => ⟨.completionReady, rfl⟩
  | 3 => ⟨.captureReady, rfl⟩
  | 4 => ⟨.captureLoss, rfl⟩
  | 5 => ⟨.leaseExpired, rfl⟩
  | 6 => ⟨.leaseRevoked, rfl⟩
  | 7 => ⟨.batchDone, rfl⟩
  | 8 => ⟨.slewDone, rfl⟩
  | 9 => ⟨.frameBoundary, rfl⟩
  | 10 => ⟨.strobe, rfl⟩
  | 11 => ⟨.portFenced, rfl⟩
  | 12 => ⟨.roleChanged, rfl⟩

/-- Two sets with the same kinds are the same set. -/
theorem eventSet_ext {a b : EventSet} (h : ∀ k, hasKind a k = hasKind b k) : a = b := by
  apply BitVec.eq_of_getElem_eq
  intro i hi
  obtain ⟨k, hk⟩ := EventKind.bit_surjective ⟨i, hi⟩
  have h1 : ∀ j : Fin 13, k.bit = j → a[j] = b[j] := fun j hj => hj ▸ h k
  exact h1 ⟨i, hi⟩ hk

end Sys2Proof.Machine
end

