-- ==== Sys2Proof/Laws/State.lean ====
section
/-! SUPPORT. Every field of the state after each of the three basic updates, and one port or line read after one is written.
All hold by computation; later proofs cite them instead of unfolding an update. -/

namespace Sys2Proof.Machine

/-! ## The port file -/

@[simp] theorem PortFile.get_set_same (f : PortFile) (p : Port) (x : PortState) : (f.set p x).get p = x := by
  cases p <;> rfl

@[simp] theorem PortFile.get_set_ne (f : PortFile) {p q : Port} (x : PortState) (h : q ≠ p) :
    (f.set p x).get q = f.get q := by
  cases p <;> cases q <;> first | rfl | exact absurd rfl h

theorem PortFile.get_set (f : PortFile) (p q : Port) (x : PortState) :
    (f.set p x).get q = if q = p then x else f.get q := by
  cases p <;> cases q <;> rfl

@[simp] theorem PortFile.get_map (g : Port → PortState → PortState) (f : PortFile) (p : Port) :
    (f.map g).get p = g p (f.get p) := by
  cases p <;> rfl

theorem PortFile.ext_get {f g : PortFile} (h : ∀ p, f.get p = g.get p) : f = g := by
  have ha := h .a; have hb := h .b; have hc := h .c; have hd := h .d
  cases f; cases g; simp only [PortFile.get] at ha hb hc hd; subst ha hb hc hd; rfl

/-- A port file is the set of its own port's state. -/
@[simp] theorem PortFile.set_get (f : PortFile) (p : Port) : f.set p (f.get p) = f := by
  cases p <;> rfl

@[simp] theorem PortFile.set_set (f : PortFile) (p : Port) (x y : PortState) : (f.set p x).set p y = f.set p y := by
  cases p <;> rfl

/-! ## modifyPort -/

@[simp] theorem State.modifyPort_inReset (s : State) (p : Port) (g : PortState → PortState) : (s.modifyPort p g).inReset = s.inReset := rfl
@[simp] theorem State.modifyPort_freshRelease (s : State) (p : Port) (g : PortState → PortState) : (s.modifyPort p g).freshRelease = s.freshRelease := rfl
@[simp] theorem State.modifyPort_mc (s : State) (p : Port) (g : PortState → PortState) : (s.modifyPort p g).mc = s.mc := rfl
@[simp] theorem State.modifyPort_framePhase (s : State) (p : Port) (g : PortState → PortState) : (s.modifyPort p g).framePhase = s.framePhase := rfl
@[simp] theorem State.modifyPort_frameIndex (s : State) (p : Port) (g : PortState → PortState) : (s.modifyPort p g).frameIndex = s.frameIndex := rfl
@[simp] theorem State.modifyPort_frameLength (s : State) (p : Port) (g : PortState → PortState) : (s.modifyPort p g).frameLength = s.frameLength := rfl
@[simp] theorem State.modifyPort_pendingLength (s : State) (p : Port) (g : PortState → PortState) : (s.modifyPort p g).pendingLength = s.pendingLength := rfl
@[simp] theorem State.modifyPort_slew (s : State) (p : Port) (g : PortState → PortState) : (s.modifyPort p g).slew = s.slew := rfl
@[simp] theorem State.modifyPort_boundaryToHand (s : State) (p : Port) (g : PortState → PortState) : (s.modifyPort p g).boundaryToHand = s.boundaryToHand := rfl
@[simp] theorem State.modifyPort_lines (s : State) (p : Port) (g : PortState → PortState) : (s.modifyPort p g).lines = s.lines := rfl
@[simp] theorem State.modifyPort_outsShown (s : State) (p : Port) (g : PortState → PortState) : (s.modifyPort p g).outsShown = s.outsShown := rfl
@[simp] theorem State.modifyPort_queue (s : State) (p : Port) (g : PortState → PortState) : (s.modifyPort p g).queue = s.queue := rfl
@[simp] theorem State.modifyPort_channels (s : State) (p : Port) (g : PortState → PortState) : (s.modifyPort p g).channels = s.channels := rfl
@[simp] theorem State.modifyPort_inStage1 (s : State) (p : Port) (g : PortState → PortState) : (s.modifyPort p g).inStage1 = s.inStage1 := rfl
@[simp] theorem State.modifyPort_inStage2 (s : State) (p : Port) (g : PortState → PortState) : (s.modifyPort p g).inStage2 = s.inStage2 := rfl
@[simp] theorem State.modifyPort_samplesTaken (s : State) (p : Port) (g : PortState → PortState) : (s.modifyPort p g).samplesTaken = s.samplesTaken := rfl
@[simp] theorem State.modifyPort_timeAuthority (s : State) (p : Port) (g : PortState → PortState) : (s.modifyPort p g).timeAuthority = s.timeAuthority := rfl
@[simp] theorem State.modifyPort_supervisor (s : State) (p : Port) (g : PortState → PortState) : (s.modifyPort p g).supervisor = s.supervisor := rfl
@[simp] theorem State.modifyPort_pending (s : State) (p : Port) (g : PortState → PortState) : (s.modifyPort p g).pending = s.pending := rfl

/-! ## mapPorts -/

@[simp] theorem State.mapPorts_inReset (s : State) (g : Port → PortState → PortState) : (s.mapPorts g).inReset = s.inReset := rfl
@[simp] theorem State.mapPorts_freshRelease (s : State) (g : Port → PortState → PortState) : (s.mapPorts g).freshRelease = s.freshRelease := rfl
@[simp] theorem State.mapPorts_mc (s : State) (g : Port → PortState → PortState) : (s.mapPorts g).mc = s.mc := rfl
@[simp] theorem State.mapPorts_framePhase (s : State) (g : Port → PortState → PortState) : (s.mapPorts g).framePhase = s.framePhase := rfl
@[simp] theorem State.mapPorts_frameIndex (s : State) (g : Port → PortState → PortState) : (s.mapPorts g).frameIndex = s.frameIndex := rfl
@[simp] theorem State.mapPorts_frameLength (s : State) (g : Port → PortState → PortState) : (s.mapPorts g).frameLength = s.frameLength := rfl
@[simp] theorem State.mapPorts_pendingLength (s : State) (g : Port → PortState → PortState) : (s.mapPorts g).pendingLength = s.pendingLength := rfl
@[simp] theorem State.mapPorts_slew (s : State) (g : Port → PortState → PortState) : (s.mapPorts g).slew = s.slew := rfl
@[simp] theorem State.mapPorts_boundaryToHand (s : State) (g : Port → PortState → PortState) : (s.mapPorts g).boundaryToHand = s.boundaryToHand := rfl
@[simp] theorem State.mapPorts_lines (s : State) (g : Port → PortState → PortState) : (s.mapPorts g).lines = s.lines := rfl
@[simp] theorem State.mapPorts_outsShown (s : State) (g : Port → PortState → PortState) : (s.mapPorts g).outsShown = s.outsShown := rfl
@[simp] theorem State.mapPorts_queue (s : State) (g : Port → PortState → PortState) : (s.mapPorts g).queue = s.queue := rfl
@[simp] theorem State.mapPorts_channels (s : State) (g : Port → PortState → PortState) : (s.mapPorts g).channels = s.channels := rfl
@[simp] theorem State.mapPorts_inStage1 (s : State) (g : Port → PortState → PortState) : (s.mapPorts g).inStage1 = s.inStage1 := rfl
@[simp] theorem State.mapPorts_inStage2 (s : State) (g : Port → PortState → PortState) : (s.mapPorts g).inStage2 = s.inStage2 := rfl
@[simp] theorem State.mapPorts_samplesTaken (s : State) (g : Port → PortState → PortState) : (s.mapPorts g).samplesTaken = s.samplesTaken := rfl
@[simp] theorem State.mapPorts_timeAuthority (s : State) (g : Port → PortState → PortState) : (s.mapPorts g).timeAuthority = s.timeAuthority := rfl
@[simp] theorem State.mapPorts_supervisor (s : State) (g : Port → PortState → PortState) : (s.mapPorts g).supervisor = s.supervisor := rfl
@[simp] theorem State.mapPorts_pending (s : State) (g : Port → PortState → PortState) : (s.mapPorts g).pending = s.pending := rfl

/-! ## mapLines -/

@[simp] theorem State.mapLines_inReset (s : State) (g : Line → LineRecord → LineRecord) : (s.mapLines g).inReset = s.inReset := by simp only [State.mapLines]
@[simp] theorem State.mapLines_freshRelease (s : State) (g : Line → LineRecord → LineRecord) : (s.mapLines g).freshRelease = s.freshRelease := by simp only [State.mapLines]
@[simp] theorem State.mapLines_mc (s : State) (g : Line → LineRecord → LineRecord) : (s.mapLines g).mc = s.mc := by simp only [State.mapLines]
@[simp] theorem State.mapLines_framePhase (s : State) (g : Line → LineRecord → LineRecord) : (s.mapLines g).framePhase = s.framePhase := by simp only [State.mapLines]
@[simp] theorem State.mapLines_frameIndex (s : State) (g : Line → LineRecord → LineRecord) : (s.mapLines g).frameIndex = s.frameIndex := by simp only [State.mapLines]
@[simp] theorem State.mapLines_frameLength (s : State) (g : Line → LineRecord → LineRecord) : (s.mapLines g).frameLength = s.frameLength := by simp only [State.mapLines]
@[simp] theorem State.mapLines_pendingLength (s : State) (g : Line → LineRecord → LineRecord) : (s.mapLines g).pendingLength = s.pendingLength := by simp only [State.mapLines]
@[simp] theorem State.mapLines_slew (s : State) (g : Line → LineRecord → LineRecord) : (s.mapLines g).slew = s.slew := by simp only [State.mapLines]
@[simp] theorem State.mapLines_boundaryToHand (s : State) (g : Line → LineRecord → LineRecord) : (s.mapLines g).boundaryToHand = s.boundaryToHand := by simp only [State.mapLines]
@[simp] theorem State.mapLines_outsShown (s : State) (g : Line → LineRecord → LineRecord) : (s.mapLines g).outsShown = s.outsShown := by simp only [State.mapLines]
@[simp] theorem State.mapLines_queue (s : State) (g : Line → LineRecord → LineRecord) : (s.mapLines g).queue = s.queue := by simp only [State.mapLines]
@[simp] theorem State.mapLines_channels (s : State) (g : Line → LineRecord → LineRecord) : (s.mapLines g).channels = s.channels := by simp only [State.mapLines]
@[simp] theorem State.mapLines_inStage1 (s : State) (g : Line → LineRecord → LineRecord) : (s.mapLines g).inStage1 = s.inStage1 := by simp only [State.mapLines]
@[simp] theorem State.mapLines_inStage2 (s : State) (g : Line → LineRecord → LineRecord) : (s.mapLines g).inStage2 = s.inStage2 := by simp only [State.mapLines]
@[simp] theorem State.mapLines_samplesTaken (s : State) (g : Line → LineRecord → LineRecord) : (s.mapLines g).samplesTaken = s.samplesTaken := by simp only [State.mapLines]
@[simp] theorem State.mapLines_timeAuthority (s : State) (g : Line → LineRecord → LineRecord) : (s.mapLines g).timeAuthority = s.timeAuthority := by simp only [State.mapLines]
@[simp] theorem State.mapLines_supervisor (s : State) (g : Line → LineRecord → LineRecord) : (s.mapLines g).supervisor = s.supervisor := by simp only [State.mapLines]
@[simp] theorem State.mapLines_ports (s : State) (g : Line → LineRecord → LineRecord) : (s.mapLines g).ports = s.ports := by simp only [State.mapLines]
@[simp] theorem State.mapLines_pending (s : State) (g : Line → LineRecord → LineRecord) : (s.mapLines g).pending = s.pending := by simp only [State.mapLines]

@[simp] theorem State.modifyPort_port_same (s : State) (p : Port) (g : PortState → PortState) :
    (s.modifyPort p g).port p = g (s.port p) := PortFile.get_set_same ..

@[simp] theorem State.modifyPort_port_ne (s : State) {p q : Port} (g : PortState → PortState) (h : q ≠ p) :
    (s.modifyPort p g).port q = s.port q := PortFile.get_set_ne _ _ h

theorem State.modifyPort_port (s : State) (p q : Port) (g : PortState → PortState) :
    (s.modifyPort p g).port q = if q = p then g (s.port p) else s.port q := PortFile.get_set ..

@[simp] theorem State.mapPorts_port (s : State) (g : Port → PortState → PortState) (p : Port) :
    (s.mapPorts g).port p = g p (s.port p) := PortFile.get_map ..

@[simp] theorem State.mapLines_port (s : State) (g : Line → LineRecord → LineRecord) (p : Port) :
    (s.mapLines g).port p = s.port p := by simp only [State.mapLines, State.port]

@[simp] theorem State.modifyPort_line (s : State) (p : Port) (g : PortState → PortState) (l : Line) :
    (s.modifyPort p g).line l = s.line l := rfl

@[simp] theorem State.mapPorts_line (s : State) (g : Port → PortState → PortState) (l : Line) :
    (s.mapPorts g).line l = s.line l := rfl

@[simp] theorem State.mapLines_line (s : State) (g : Line → LineRecord → LineRecord) (l : Line) :
    (s.mapLines g).line l = g l (s.line l) := by
  simp [State.line, State.mapLines]

/-- Two changes of one port's state are one. -/
theorem State.modifyPort_modifyPort (s : State) (p : Port) (g h : PortState → PortState) :
    (s.modifyPort p g).modifyPort p h = s.modifyPort p fun ps => h (g ps) := by
  cases p <;> rfl

/-- A change of one port's state is known by what it makes of the state the port has. -/
theorem State.modifyPort_congr (s : State) (p : Port) {g h : PortState → PortState} (he : g (s.port p) = h (s.port p)) :
    s.modifyPort p g = s.modifyPort p h := by
  have he' : g (s.ports.get p) = h (s.ports.get p) := he
  unfold State.modifyPort; rw [he']

/-- A change of one port that leaves the state the port has as it is changes nothing. -/
theorem State.modifyPort_same (s : State) (p : Port) {g : PortState → PortState} (h : g (s.port p) = s.port p) :
    s.modifyPort p g = s := by
  rw [State.modifyPort_congr s p (h := id) h]
  cases p <;> rfl

end Sys2Proof.Machine
end

