-- ==== Sys2Proof/Laws/Reports.lean ====
section
/-! SUPPORT. What raising, report movement, filing and retirement do, each said once. -/

namespace Sys2Proof.Machine

/-! ## Raising -/

theorem PortState.raise_eq (k : EventKind) (ps : PortState) :
    ps.raise k = if records ps.session k then { ps with events := ps.events ||| k.mask } else ps := rfl

theorem PortState.raise_kept (k : EventKind) (ps : PortState) (h : keptDetached k = true) :
    ps.raise k = { ps with events := ps.events ||| k.mask } := by
  cases hs : ps.session <;> simp [PortState.raise, records, hs, h]

theorem PortState.raise_attached (k : EventKind) (ps : PortState) (h : ps.session = .attached) :
    ps.raise k = { ps with events := ps.events ||| k.mask } := by
  simp [PortState.raise, records, h]

theorem PortState.raise_notDetached (k : EventKind) (ps : PortState) (h : ps.session ≠ .detached) :
    ps.raise k = { ps with events := ps.events ||| k.mask } := by
  cases hs : ps.session <;> simp_all [PortState.raise, records]

theorem PortState.raise_not_kept (k : EventKind) (ps : PortState) (h : keptDetached k = false) :
    ps.raise k = if ps.session = .detached then ps else { ps with events := ps.events ||| k.mask } := by
  cases hs : ps.session <;> simp [PortState.raise, records, hs, h]

/-- A raise changes the event set at most. -/
theorem PortState.raise_frame (k : EventKind) (ps : PortState) : ps.raise k = { ps with events := (ps.raise k).events } := by
  unfold PortState.raise; split <;> rfl

/-! ## Capture records -/

/-- Everything the offer of a capture record can do. -/
theorem PortState.offer_eq (body : CaptureBody) (time : Time) (ps : PortState) :
    ps.offer body time =
      if ps.log.length < Config.logDepth then
        { ps with
          log := ps.log ++ [⟨body, time, if ps.losses = 0 then none else some ps.losses⟩], losses := 0
          events := if ps.log = [] ∧ ps.session ≠ .detached then ps.events ||| EventKind.captureReady.mask else ps.events }
      else
        { ps with
          losses := if ps.losses < Config.lossMax then ps.losses + 1 else ps.losses
          events := if ps.losses = 0 ∧ ps.session ≠ .detached then ps.events ||| EventKind.captureLoss.mask
            else ps.events } := by
  unfold PortState.offer
  rw [PortState.raise_not_kept _ _ rfl, PortState.raise_not_kept _ _ rfl]
  split
  · cases ps.log <;> by_cases hs : ps.session = .detached <;> simp [hs]
  · by_cases hl : ps.losses = 0 <;> by_cases hs : ps.session = .detached <;> simp [hl, hs]

/-- What the offer does at an ATTACHED port. -/
theorem PortState.offer_attached (body : CaptureBody) (time : Time) (ps : PortState) (h : ps.session = .attached) :
    ps.offer body time = ps.offered body time := by
  have hs : ps.session ≠ .detached := by rw [h]; exact Session.noConfusion
  have e1 : Config.logDepth = 32 := rfl
  have e2 : Config.lossMax = 255 := rfl
  rw [PortState.offer_eq, e1, e2]
  simp only [PortState.offered, hs, ne_eq, not_false_eq_true, and_true]

/-! ## Report movement -/

theorem PortState.takeReports_nil (ps : PortState) : ps.takeReports [] = ps := by
  simp [PortState.takeReports]

theorem PortState.takeReports_eq (rs : List Retired) (ps : PortState) (h : rs ≠ []) :
    ps.takeReports rs =
      { ps with
        fifo := ps.fifo ++ ((ps.retirement ++ rs).take (Config.fifoDepth - ps.fifo.length)).map Retired.record
        retirement := (ps.retirement ++ rs).drop (Config.fifoDepth - ps.fifo.length)
        events := if ps.fifo = [] ∧ ps.session ≠ .detached then ps.events ||| EventKind.completionReady.mask
          else ps.events } := by
  simp [PortState.takeReports, h]

/-- One report filed and moved is one report taken. -/
theorem PortState.moveReports_append (r : Retired) (ps : PortState) :
    ({ ps with retirement := ps.retirement ++ [r] } : PortState).moveReports = ps.takeReports [r] := by
  rw [PortState.takeReports_eq _ _ (by simp)]
  unfold PortState.moveReports
  rcases hf : ps.fifo with _ | ⟨c, cs⟩
  · have hne : ((ps.retirement ++ [r]).take (Config.fifoDepth - 0)).isEmpty = false := by
      simp [Config.fifoDepth]
    simp only [List.length_nil, List.isEmpty_nil, hne, Bool.not_false, Bool.and_self, ↓reduceIte, List.nil_append,
      true_and]
    rw [PortState.raise_not_kept _ _ rfl]
    cases hs : ps.session <;> simp
  · simp

/-- The reports of two events taken one after the other are the reports of both taken together. -/
theorem PortState.takeReports_append (rs rs' : List Retired) (ps : PortState) :
    (ps.takeReports rs).takeReports rs' = ps.takeReports (rs ++ rs') := by
  by_cases h : rs = []
  · subst h; simp [PortState.takeReports_nil]
  by_cases h' : rs' = []
  · subst h'; simp [PortState.takeReports_nil]
  rw [PortState.takeReports_eq _ _ h, PortState.takeReports_eq _ _ h', PortState.takeReports_eq _ _ (by simp [h])]
  generalize hw : ps.retirement ++ rs = w
  have hwne : w ≠ [] := by rw [← hw]; simp [h]
  have hw2 : ps.retirement ++ (rs ++ rs') = w ++ rs' := by rw [← hw, List.append_assoc]
  simp only [hw2]
  generalize hroom : Config.fifoDepth - ps.fifo.length = room
  have hlen : Config.fifoDepth - (ps.fifo ++ (w.take room).map Retired.record).length = room - w.length := by
    simp only [List.length_append, List.length_map, List.length_take]; omega
  rw [hlen]
  have hfifo : (ps.fifo ++ (w.take room).map Retired.record) ++
      ((w.drop room ++ rs').take (room - w.length)).map Retired.record =
      ps.fifo ++ ((w ++ rs').take room).map Retired.record := by
    rw [List.append_assoc, ← List.map_append]
    congr 2
    by_cases hc : w.length ≤ room
    · simp [List.take_append, List.drop_eq_nil_of_le hc]
    · have h0 : room - w.length = 0 := by omega
      simp [List.take_append, h0]
  have hret : (w.drop room ++ rs').drop (room - w.length) = (w ++ rs').drop room := by
    by_cases hc : w.length ≤ room
    · simp [List.drop_append, List.drop_eq_nil_of_le hc]
    · have h0 : room - w.length = 0 := by omega
      simp [List.drop_append, h0]
  rw [hfifo, hret]
  congr 1
  by_cases hf : ps.fifo = []
  · have : room ≠ 0 := by rw [← hroom, hf]; simp [Config.fifoDepth]
    simp [hf, hwne, this]
  · simp [hf]

/-- What reports taken add to what a port will hand out. -/
theorem PortState.takeReports_allReports (rs : List Retired) (ps : PortState) :
    (ps.takeReports rs).allReports = ps.allReports ++ rs.map Retired.record := by
  by_cases h : rs = []
  · subst h; simp [PortState.takeReports_nil]
  · rw [PortState.takeReports_eq _ _ h]
    simp only [PortState.allReports, List.append_assoc, ← List.map_append, List.take_append_drop]

/-- Reports taken are reports kept: none is lost between the FIFO and the retirement order. -/
theorem PortState.takeReports_length (rs : List Retired) (ps : PortState) :
    (ps.takeReports rs).retirement.length + (ps.takeReports rs).fifo.length =
      ps.retirement.length + ps.fifo.length + rs.length := by
  have := congrArg List.length (PortState.takeReports_allReports rs ps)
  simp only [PortState.allReports, List.length_append, List.length_map] at this
  omega

/-- Reports taken change the FIFO, the retirement order and the event set at most. -/
theorem PortState.takeReports_frame (rs : List Retired) (ps : PortState) :
    ps.takeReports rs =
      { ps with
        fifo := (ps.takeReports rs).fifo
        retirement := (ps.takeReports rs).retirement
        events := (ps.takeReports rs).events } := by
  by_cases h : rs = []
  · subst h; simp [PortState.takeReports_nil]
  · rw [PortState.takeReports_eq _ _ h]

@[simp] theorem PortState.takeReports_session (rs : List Retired) (ps : PortState) :
    (ps.takeReports rs).session = ps.session := by rw [takeReports_frame]

@[simp] theorem PortState.takeReports_batch (rs : List Retired) (ps : PortState) :
    (ps.takeReports rs).batch = ps.batch := by rw [takeReports_frame]

@[simp] theorem PortState.takeReports_arms (rs : List Retired) (ps : PortState) :
    (ps.takeReports rs).arms = ps.arms := by rw [takeReports_frame]

@[simp] theorem PortState.takeReports_log (rs : List Retired) (ps : PortState) :
    (ps.takeReports rs).log = ps.log := by rw [takeReports_frame]

@[simp] theorem PortState.takeReports_losses (rs : List Retired) (ps : PortState) :
    (ps.takeReports rs).losses = ps.losses := by rw [takeReports_frame]

@[simp] theorem PortState.takeReports_quota (rs : List Retired) (ps : PortState) :
    (ps.takeReports rs).quota = ps.quota := by rw [takeReports_frame]

/-! ## Filing and retirement -/

/-- Everything filing can do. -/
theorem State.fileReport_eq (s : State) (e : Entry) (o : Outcome) :
    s.fileReport e o =
      if o = .done ∧ e.report = .faultsOnly then s
      else s.modifyPort e.port (PortState.takeReports [⟨e, o, s.mc⟩]) := by
  unfold State.fileReport
  split
  · rfl
  · congr 1; funext ps; exact PortState.moveReports_append ..

/-- Everything a retirement can do. -/
theorem State.retire_eq (s : State) (e : Entry) (o : Outcome) :
    s.retire e o =
      if o = .done ∧ e.report = .faultsOnly then { s with queue := s.queue.erase e }
      else ({ s with queue := s.queue.erase e } : State).modifyPort e.port (PortState.takeReports [⟨e, o, s.mc⟩]) := by
  unfold State.retire; rw [State.fileReport_eq]

/-- One report at one port, as a change of all ports. -/
theorem State.modifyPort_takeReports (s : State) (p : Port) (r : Retired) :
    s.modifyPort p (PortState.takeReports [r]) =
      s.mapPorts fun q ps => ps.takeReports (if q = p then [r] else []) := by
  unfold State.modifyPort State.mapPorts
  congr 1
  apply PortFile.ext_get
  intro q
  rw [PortFile.get_set, PortFile.get_map]
  by_cases h : q = p
  · subst h; simp
  · simp [h, PortState.takeReports_nil]

/-- Entries of a list whose reports go to one port. -/
def reportsFor (es : List Entry) (o : Outcome) (now : Time) (q : Port) : List Retired :=
  (es.filter fun e => e.port == q).map fun e => ⟨e, o, now⟩

/-- Everything the retirement of several entries can do, for an outcome that is always reported. -/
theorem State.retireAll_eq (s : State) (es : List Entry) (o : Outcome) (ho : o ≠ .done) :
    s.retireAll es o =
      { s with
        queue := es.foldl List.erase s.queue
        ports := s.ports.map fun q ps => ps.takeReports (reportsFor es o s.mc q) } := by
  induction es generalizing s with
  | nil =>
    have : s.ports = s.ports.map fun q ps => ps.takeReports (reportsFor [] o s.mc q) := by
      apply PortFile.ext_get; intro q; simp [reportsFor, PortState.takeReports_nil]
    simp only [State.retireAll, List.foldl_nil, ← this]
  | cons e es ih =>
    have hstep : s.retireAll (e :: es) o = (s.retire e o).retireAll es o := rfl
    rw [hstep, ih, State.retire_eq, if_neg (by simp [ho]), State.modifyPort_takeReports]
    simp only [State.mapPorts, List.foldl_cons]
    congr 1
    apply PortFile.ext_get
    intro q
    simp only [PortFile.get_map, PortState.takeReports_append]
    congr 1
    by_cases h : q = e.port
    · subst h; simp [reportsFor]
    · have h' : (e.port == q) = false := by simpa using fun hc => h hc.symm
      simp [reportsFor, h, h']

/-- Erasing every entry that has a property leaves the entries that have not. -/
theorem foldl_erase_filter (f : Entry → Bool) (q : List Entry) :
    (q.filter f).foldl List.erase q = q.filter fun e => !f e := by
  have key : ∀ (es q : List Entry) (x : Entry), x ∉ es → es.foldl List.erase (x :: q) = x :: es.foldl List.erase q := by
    intro es
    induction es with
    | nil => intro q x _; rfl
    | cons e es ih =>
      intro q x hx
      have hne : x ≠ e := fun hc => hx (by simp [hc])
      have hx' : x ∉ es := fun hc => hx (by simp [hc])
      rw [List.foldl_cons, List.erase_cons_tail (by simpa using hne), ih _ _ hx', List.foldl_cons]
  induction q with
  | nil => rfl
  | cons a q ih =>
    by_cases h : f a
    · rw [List.filter_cons_of_pos h, List.foldl_cons, List.erase_cons_head, ih, List.filter_cons_of_neg (by simp [h])]
    · rw [List.filter_cons_of_neg h, key _ _ _ (by simp [List.mem_filter, h]), ih,
        List.filter_cons_of_pos (by simp [h])]

/-- The PENDING entries with a property retire together. -/
theorem State.retireAll_filter (s : State) (f : Entry → Bool) (o : Outcome) (ho : o ≠ .done) :
    s.retireAll (s.queue.filter f) o = s.retiring f o := by
  rw [State.retireAll_eq _ _ _ ho, foldl_erase_filter]
  unfold State.retiring
  congr 1
  apply PortFile.ext_get
  intro q
  simp only [PortFile.get_map, reportsFor, List.filter_filter]
  congr 2
  apply List.filter_congr
  intro e _
  exact Bool.and_comm ..

end Sys2Proof.Machine
end

