-- ==== Sys2Proof/Laws/Lines.lean ====
section
/-! SUPPORT. What a change of every line record and a lease end do. -/

namespace Sys2Proof.Machine

theorem State.lines_ext {a b : Vector LineRecord 16} (h : ∀ l : Line, a[l] = b[l]) : a = b := by
  apply Vector.ext
  intro i hi
  exact h ⟨i, hi⟩

theorem State.linesAfterEnds_getElem (s : State) (m : LineSet) (l : Line) :
    (s.linesAfterEnds m)[l] =
      match (s.line l).lease with
      | some x => if m[l] then ⟨none, failsafeLevel x.failsafe (s.line l).shadow, (s.line l).force⟩ else s.line l
      | none => s.line l := by
  exact Vector.getElem_ofFn ..

/-- A line record after the leases on a set of lines end, read off directly. -/
theorem State.linesAfterEnds_eq (s : State) (m : LineSet) :
    s.linesAfterEnds m = (s.mapLines fun l r => if m[l] then r.leaseEnded else r).lines := by
  apply State.lines_ext
  intro l
  rw [State.linesAfterEnds_getElem]
  have h : (s.mapLines fun l r => if m[l] then r.leaseEnded else r).lines[l] =
      if m[l] then (s.line l).leaseEnded else s.line l := State.mapLines_line ..
  rw [h]
  unfold LineRecord.leaseEnded
  cases (s.line l).lease <;> by_cases hm : m[l] <;> simp [hm]

/-- Retirement of PENDING entries reads nothing of the lines and changes nothing of them. -/
theorem State.retiring_lines (s : State) (f : Entry → Bool) (o : Outcome) (lines : Vector LineRecord 16) :
    State.retiring { s with lines := lines } f o = { s.retiring f o with lines := lines } := by
  unfold State.retiring; rfl

/-- Only lines that are leased are ended. -/
theorem State.linesAfterEnds_leasedIn (s : State) (m : LineSet) : s.linesAfterEnds (s.leasedIn m) = s.linesAfterEnds m := by
  apply State.lines_ext
  intro l
  simp only [State.linesAfterEnds_getElem, State.leasedIn, bitsWhere_getElem]
  cases h : (s.line l).lease <;> simp

/-- Everything the end of the leases on a set of lines can do. -/
theorem State.endLeases_eq (s : State) (m : LineSet) (o : Outcome) (ho : o ≠ .done) :
    s.endLeases m o =
      { s.retiring (namesLineIn (s.leasedIn m)) o with lines := s.linesAfterEnds m } := by
  unfold State.endLeases
  have h1 : (s.mapLines fun l r => if m[l] then r.leaseEnded else r) = { s with lines := s.linesAfterEnds m } := by
    rw [State.linesAfterEnds_eq]; simp only [State.mapLines]
  have h2 : s.entriesOn m =
      (State.queue { s with lines := s.linesAfterEnds m }).filter (namesLineIn (s.leasedIn m)) := rfl
  rw [h1, h2, State.retireAll_filter _ _ _ ho, State.retiring_lines]

end Sys2Proof.Machine
end

