-- ==== Sys2Proof/Laws/Frames.lean ====
section
/-! SUPPORT. What the executor and the events of a cycle may change at most: two relations between a state and a later one,
with one lemma per operation. -/

namespace Sys2Proof.Machine

/-! ## Taking entries -/

/-- The port differs in its reports, its event set, its arm flags and its log at most; the event set only grows, and not by
a kind that carries a result. -/
structure PortState.onlyTakes (ps ps' : PortState) : Prop where
  rest : ps' = { ps with
    retirement := ps'.retirement, fifo := ps'.fifo, log := ps'.log, losses := ps'.losses, arms := ps'.arms
    events := ps'.events }
  events : ∀ k, hasKind ps.events k = true → hasKind ps'.events k = true
  results : hasKind ps'.events .batchDone = hasKind ps.events .batchDone ∧
    hasKind ps'.events .slewDone = hasKind ps.events .slewDone

theorem PortState.onlyTakes.refl (ps : PortState) : ps.onlyTakes ps := ⟨rfl, fun _ h => h, rfl, rfl⟩

theorem PortState.onlyTakes.trans {a b c : PortState} (h : a.onlyTakes b) (h' : b.onlyTakes c) : a.onlyTakes c where
  rest := by
    have h1 := h.rest; have h2 := h'.rest
    rw [h2] at ⊢; rw [h1]
  events k hk := h'.events k (h.events k hk)
  results := ⟨h'.results.1.trans h.results.1, h'.results.2.trans h.results.2⟩

/-- A change within the relation that raises one kind without a result at most. -/
theorem PortState.onlyTakes.of_raise {ps ps' : PortState} (k : EventKind) (hb : k ≠ .batchDone) (hs : k ≠ .slewDone)
    (hrest : ps' = { ps with
      retirement := ps'.retirement, fifo := ps'.fifo, log := ps'.log, losses := ps'.losses, arms := ps'.arms
      events := ps'.events })
    (he : ps'.events = ps.events ∨ ps'.events = ps.events ||| k.mask) : ps.onlyTakes ps' where
  rest := hrest
  events j hj := by rcases he with he | he <;> simp [he, hasKind_raise, hj]
  results := by rcases he with he | he <;> simp [he, hasKind_raise, hb.symm, hs.symm]

/-- The state differs in shadow levels, the queue order and the ports' reports at most, and the queue only loses entries. -/
structure State.onlyTakes (s t : State) : Prop where
  rest : t = { s with lines := t.lines, queue := t.queue, ports := t.ports }
  line : ∀ l, (t.line l).lease = (s.line l).lease ∧ (t.line l).force = (s.line l).force
  queue : t.queue.Sublist s.queue
  port : ∀ q, (s.port q).onlyTakes (t.port q)

theorem State.onlyTakes.refl (s : State) : s.onlyTakes s :=
  ⟨rfl, fun _ => ⟨rfl, rfl⟩, List.Sublist.refl _, fun _ => .refl _⟩

theorem State.onlyTakes.trans {a b c : State} (h : a.onlyTakes b) (h' : b.onlyTakes c) : a.onlyTakes c where
  rest := by
    have h1 := h.rest; have h2 := h'.rest
    rw [h2]; rw [h1]
  line l := ⟨(h'.line l).1.trans (h.line l).1, (h'.line l).2.trans (h.line l).2⟩
  queue := h'.queue.trans h.queue
  port q := (h.port q).trans (h'.port q)

theorem PortState.onlyTakes.takeReports (rs : List Retired) (ps : PortState) : ps.onlyTakes (ps.takeReports rs) := by
  by_cases h : rs = []
  · subst h; rw [PortState.takeReports_nil]; exact .refl _
  · rw [PortState.takeReports_eq _ _ h]
    exact .of_raise .completionReady (by decide) (by decide) rfl (by dsimp only; split <;> simp)

theorem PortState.onlyTakes.raise (k : EventKind) (hb : k ≠ .batchDone) (hs : k ≠ .slewDone) (ps : PortState) :
    ps.onlyTakes (ps.raise k) := by
  unfold PortState.raise
  split
  · exact .of_raise k hb hs rfl (Or.inr rfl)
  · exact .refl _

theorem PortState.onlyTakes.offer (b : CaptureBody) (t : Time) (ps : PortState) : ps.onlyTakes (ps.offer b t) := by
  rw [PortState.offer_eq]
  split
  · exact .of_raise .captureReady (by decide) (by decide) rfl (by dsimp only; split <;> simp)
  · exact .of_raise .captureLoss (by decide) (by decide) rfl (by dsimp only; split <;> simp)

/-- A change of arm flags is within the relation. -/
theorem PortState.onlyTakes.arms (ps : PortState) (m : ChannelSet) : ps.onlyTakes { ps with arms := m } :=
  ⟨rfl, fun _ h => h, rfl, rfl⟩

/-- A change of one port within the relation. -/
theorem State.onlyTakes.modifyPort (s : State) (p : Port) (g : PortState → PortState)
    (h : (s.port p).onlyTakes (g (s.port p))) : s.onlyTakes (s.modifyPort p g) where
  rest := rfl
  line _ := ⟨rfl, rfl⟩
  queue := List.Sublist.refl _
  port q := by
    rw [State.modifyPort_port]; split
    · next h' => subst h'; exact h
    · exact .refl _

/-- A change of every port within the relation. -/
theorem State.onlyTakes.mapPorts (s : State) (g : Port → PortState → PortState)
    (h : ∀ q, (s.port q).onlyTakes (g q (s.port q))) : s.onlyTakes (s.mapPorts g) where
  rest := rfl
  line _ := ⟨rfl, rfl⟩
  queue := List.Sublist.refl _
  port q := by rw [State.mapPorts_port]; exact h q

theorem State.onlyTakes.fileReport (s : State) (e : Entry) (o : Outcome) : s.onlyTakes (s.fileReport e o) := by
  rw [State.fileReport_eq]; split
  · exact .refl _
  · exact .modifyPort _ _ _ (.takeReports ..)

theorem State.onlyTakes.erase (s : State) (e : Entry) : s.onlyTakes { s with queue := s.queue.erase e } :=
  ⟨rfl, fun _ => ⟨rfl, rfl⟩, List.erase_sublist, fun _ => .refl _⟩

theorem State.onlyTakes.retire (s : State) (e : Entry) (o : Outcome) : s.onlyTakes (s.retire e o) :=
  (State.onlyTakes.erase s e).trans (.fileReport ..)

theorem State.onlyTakes.retireAll (s : State) (es : List Entry) (o : Outcome) : s.onlyTakes (s.retireAll es o) := by
  induction es generalizing s with
  | nil => exact .refl _
  | cons e es ih => exact (State.onlyTakes.retire s e o).trans (ih _)

theorem State.onlyTakes.guardTest (s s1 : State) (e : Entry) (h : s.guardTest e = some s1) : s.onlyTakes s1 := by
  unfold State.guardTest at h
  split at h
  · cases h; exact .refl _
  · split at h
    · split at h
      · cases h; exact .modifyPort _ _ _ (.arms ..)
      · cases h; exact .refl _
    · cases h

theorem State.applyLevel_line (s : State) (l k : Line) (g : Level → Level) :
    (s.applyLevel l g).1.line k = if k = l then { s.line l with shadow := g (s.line l).shadow } else s.line k := by
  simp only [State.applyLevel, State.line, Fin.getElem_fin, Vector.getElem_set]
  by_cases h : k = l
  · subst h; simp
  · rw [if_neg h, if_neg]; exact fun hc => h (Fin.ext hc.symm)

theorem State.onlyTakes.applyLevel (s : State) (l : Line) (g : Level → Level) : s.onlyTakes (s.applyLevel l g).1 where
  rest := rfl
  line k := by
    rw [State.applyLevel_line]; split
    · next h => subst h; exact ⟨rfl, rfl⟩
    · exact ⟨rfl, rfl⟩
  queue := List.Sublist.refl _
  port q := .refl _

theorem State.onlyTakes.deliverNote (s : State) (p : Port) (v : Half) (ts : PortSet) (now : Time) :
    s.onlyTakes (s.deliverNote p v ts now) :=
  .mapPorts _ _ fun q => by split <;> first | exact .offer .. | exact .refl _

theorem State.onlyTakes.applyAction (s : State) (e : Entry) : s.onlyTakes (s.applyAction e).1 := by
  unfold State.applyAction
  split <;> first | exact .applyLevel .. | exact .deliverNote ..

theorem State.onlyTakes.takeEntry (s : State) (e : Entry) : s.onlyTakes (s.takeEntry e) := by
  unfold State.takeEntry
  split
  · unfold State.retireGuardFalse
    split
    · dsimp only
      split
      · exact (State.onlyTakes.retire ..).trans (.retire ..)
      · exact .retire ..
    · exact .retire ..
  · next h => exact ((State.onlyTakes.guardTest _ _ _ h).trans (.applyAction ..)).trans (.retire ..)

theorem State.onlyTakes.takeDue (s : State) : s.onlyTakes s.takeDue := by
  unfold State.takeDue; split
  · exact .refl _
  · exact .takeEntry ..

theorem State.onlyTakes.takeDueTimes (n : Nat) (s : State) : s.onlyTakes (s.takeDueTimes n) := by
  induction n generalizing s with
  | zero => exact .refl _
  | succ n ih => exact (State.onlyTakes.takeDue s).trans (ih _)

theorem State.onlyTakes.takeAllDue (s : State) : s.onlyTakes s.takeAllDue := .takeDueTimes ..

/-! ## The events of a cycle -/

/-- The port differs in what the events of a cycle may change: the lists and counts of its session, the strobe record, the arm
flags with the late guard, and the event set with BATCH_DONE's result. -/
def PortState.onlyWork (ps ps' : PortState) : Prop :=
  ps' = { ps with
    strobe := ps'.strobe, strobeRose := ps'.strobeRose, retirement := ps'.retirement, fifo := ps'.fifo, batch := ps'.batch
    log := ps'.log, losses := ps'.losses, arms := ps'.arms, lateGuard := ps'.lateGuard, events := ps'.events
    batchResult := ps'.batchResult }

theorem PortState.onlyWork.refl (ps : PortState) : ps.onlyWork ps := rfl

theorem PortState.onlyWork.trans {a b c : PortState} (h : a.onlyWork b) (h' : b.onlyWork c) : a.onlyWork c := by
  unfold PortState.onlyWork at *
  rw [h'] at ⊢; rw [h]

/-- The setting of an arm flag is within the relation. -/
theorem PortState.onlyWork.setArm (c : Channel) (ps : PortState) : ps.onlyWork (ps.setArm c) := rfl

/-- The admission of an entry changes a port's late guard at most. -/
theorem PortState.admitting_eq (x : Descriptor) (mc : Time) (ps : PortState) :
    ps.admitting x mc = { ps with lateGuard := (ps.admitting x mc).lateGuard } := by
  unfold PortState.admitting
  split
  · split <;> rfl
  · rfl

theorem PortState.onlyWork.admitting (x : Descriptor) (mc : Time) (ps : PortState) : ps.onlyWork (ps.admitting x mc) := by
  unfold PortState.onlyWork
  rw [PortState.admitting_eq]

theorem PortState.onlyTakes.work {ps ps' : PortState} (h : ps.onlyTakes ps') : ps.onlyWork ps' := by
  have := h.rest
  unfold PortState.onlyWork
  rw [this]

/-- The state differs in what the events of a cycle may change. -/
structure State.onlyWork (s t : State) : Prop where
  rest : t = { s with
    boundaryToHand := t.boundaryToHand, lines := t.lines, queue := t.queue, channels := t.channels
    samplesTaken := t.samplesTaken, ports := t.ports }
  port : ∀ q, (s.port q).onlyWork (t.port q)

theorem State.onlyWork.refl (s : State) : s.onlyWork s := ⟨rfl, fun _ => .refl _⟩

theorem State.onlyWork.trans {a b c : State} (h : a.onlyWork b) (h' : b.onlyWork c) : a.onlyWork c where
  rest := by
    have h1 := h.rest; have h2 := h'.rest
    rw [h2]; rw [h1]
  port q := (h.port q).trans (h'.port q)

theorem State.onlyTakes.work {s t : State} (h : s.onlyTakes t) : s.onlyWork t where
  rest := by have := h.rest; rw [this]
  port q := (h.port q).work

/-- A change of one port within the relation. -/
theorem State.onlyWork.modifyPort (s : State) (p : Port) (g : PortState → PortState)
    (h : (s.port p).onlyWork (g (s.port p))) : s.onlyWork (s.modifyPort p g) where
  rest := rfl
  port q := by
    rw [State.modifyPort_port]; split
    · next h' => subst h'; exact h
    · exact .refl _

/-- A change of every port within the relation. -/
theorem State.onlyWork.mapPorts (s : State) (g : Port → PortState → PortState)
    (h : ∀ q, (s.port q).onlyWork (g q (s.port q))) : s.onlyWork (s.mapPorts g) where
  rest := rfl
  port q := by rw [State.mapPorts_port]; exact h q

theorem State.onlyWork.mapLines (s : State) (g : Line → LineRecord → LineRecord) : s.onlyWork (s.mapLines g) where
  rest := by simp only [State.mapLines]
  port q := by rw [State.mapLines_port]; exact .refl _

theorem State.onlyWork.fold {α : Type} (f : State → α → State) (h : ∀ (s : State) x, s.onlyWork (f s x)) (xs : List α) (s : State) :
    s.onlyWork (xs.foldl f s) := by
  induction xs generalizing s with
  | nil => exact .refl _
  | cons x xs ih => exact (h s x).trans (ih _)

theorem State.onlyWork.storeSample (s : State) (c : Channel) : s.onlyWork (s.storeSample c) := ⟨rfl, fun _ => .refl _⟩

theorem State.onlyWork.deliverEdge (s : State) (c : Channel) (e : Edge) (now : Time) : s.onlyWork (s.deliverEdge c e now) :=
  .mapPorts _ _ fun q => by
    split
    · exact (PortState.onlyWork.setArm ..).trans (PortState.onlyTakes.offer ..).work
    · exact .refl _

theorem State.onlyWork.sampleChannel (s : State) (c : Channel) : s.onlyWork (s.sampleChannel c) := by
  unfold State.sampleChannel
  split
  · split
    · split
      · exact (State.onlyWork.storeSample s c).trans (.deliverEdge ..)
      · exact .storeSample ..
    · exact .storeSample ..
  · exact .refl _

theorem State.onlyWork.takeStrobe (s : State) (p : Port) : s.onlyWork (s.takeStrobe p) := by
  unfold State.takeStrobe
  split
  · refine .modifyPort _ _ _ ?_
    unfold PortState.latchStrobe PortState.onlyWork PortState.raise
    split <;> rfl
  · exact .refl _

theorem State.onlyWork.handBoundary (s : State) : s.onlyWork s.handBoundary := by
  unfold State.handBoundary
  split
  · have h1 : s.onlyWork { s with boundaryToHand := false } := ⟨rfl, fun _ => .refl _⟩
    refine h1.trans (.mapPorts _ _ fun q => ?_)
    split
    · exact (PortState.onlyTakes.raise _ (by decide) (by decide) _).work
    · exact .refl _
  · exact .refl _

theorem State.onlyWork.freeBatch (s : State) (p : Port) : s.onlyWork (s.freeBatch p) := .modifyPort _ _ _ rfl

/-- Entries that enter PENDING change the queue order at most. -/
theorem State.enqueue_eq (s : State) (es : List Entry) :
    s.enqueue es = { s with queue := es.foldl (fun queue e => insertEntry s.mc e queue) s.queue } := by
  induction es generalizing s with
  | nil => rfl
  | cons e es ih => exact ih _

theorem State.onlyWork.enqueue (s : State) (es : List Entry) : s.onlyWork (s.enqueue es) := by
  rw [State.enqueue_eq]; exact ⟨rfl, fun _ => .refl _⟩

theorem State.onlyWork.raiseBatchDone (s : State) (p : Port) (r : BatchResult) :
    s.onlyWork (s.modifyPort p (PortState.raiseBatchDone r)) :=
  .modifyPort _ _ _ (by unfold PortState.raiseBatchDone PortState.onlyWork; split <;> rfl)

theorem State.onlyWork.abortEntries (s : State) (f : Entry → Option Outcome) (es : List Entry) :
    s.onlyWork (s.abortEntries f es) :=
  .fold _ (fun s e => (State.onlyTakes.fileReport s e _).work) _ _

theorem State.onlyWork.validateIfDue (s : State) (p : Port) : s.onlyWork (s.validateIfDue p) := by
  unfold State.validateIfDue
  split
  · unfold State.validate
    dsimp only
    split
    · exact ((State.onlyWork.freeBatch ..).trans (.enqueue ..)).trans (.raiseBatchDone ..)
    · exact ((State.onlyWork.freeBatch ..).trans (.abortEntries ..)).trans (.raiseBatchDone ..)
  · exact .refl _

theorem State.onlyWork.endLeases (s : State) (m : LineSet) (o : Outcome) : s.onlyWork (s.endLeases m o) :=
  (State.onlyWork.mapLines ..).trans (State.onlyTakes.retireAll ..).work

theorem State.onlyWork.expireLease (s : State) (l : Line) : s.onlyWork (s.expireLease l) := by
  unfold State.expireLease
  split
  · split
    · exact (State.onlyWork.endLeases ..).trans (.modifyPort _ _ _ (PortState.onlyTakes.raise _ (by decide) (by decide) _).work)
    · exact .refl _
  · exact .refl _

/-- What every event of a cycle keeps, the taking of all that the blocks still owe keeps. -/
theorem State.finishBlocks_keeps (P : State → Prop) (hsample : ∀ s c, P s → P (s.sampleChannel c))
    (hstrobe : ∀ s p, P s → P (s.takeStrobe p)) (hboundary : ∀ s, P s → P s.handBoundary)
    (hvalidate : ∀ s p, P s → P (s.validateIfDue p)) (hexpire : ∀ s l, P s → P (s.expireLease l))
    (hdue : ∀ s, P s → P s.takeAllDue) (s : State) (h : P s) : P s.finishBlocks := by
  have fold : ∀ {α : Type} (f : State → α → State) (_ : ∀ s x, P s → P (f s x)) (xs : List α) (s : State), P s →
      P (xs.foldl f s) := by
    intro α f hf xs
    induction xs with
    | nil => exact fun _ h => h
    | cons x xs ih => exact fun s h => ih _ (hf _ _ h)
  unfold State.finishBlocks
  exact hdue _ (fold _ hexpire _ _ (fold _ hvalidate _ _ (hboundary _ (fold _ hstrobe _ _ (fold _ hsample _ _ h)))))

/-- What the events that the blocks still owe may change. -/
theorem State.onlyWork.finishBlocks (s : State) : s.onlyWork s.finishBlocks :=
  State.finishBlocks_keeps (fun t => s.onlyWork t) (fun _ _ h => h.trans (.sampleChannel ..))
    (fun _ _ h => h.trans (.takeStrobe ..)) (fun _ h => h.trans (.handBoundary ..))
    (fun _ _ h => h.trans (.validateIfDue ..)) (fun _ _ h => h.trans (.expireLease ..))
    (fun _ h => h.trans (State.onlyTakes.takeAllDue _).work) s (.refl _)

/-! ## A boundary is handed once -/

theorem State.onlyTakes.boundary {s t : State} (h : s.onlyTakes t) : t.boundaryToHand = s.boundaryToHand :=
  (congrArg State.boundaryToHand h.rest :)

theorem State.abortEntries_onlyTakes (s : State) (f : Entry → Option Outcome) (es : List Entry) :
    s.onlyTakes (s.abortEntries f es) := by
  induction es generalizing s with
  | nil => exact .refl _
  | cons e es ih => exact (State.onlyTakes.fileReport s e _).trans (ih _)

theorem State.validateIfDue_boundary (s : State) (p : Port) : (s.validateIfDue p).boundaryToHand = s.boundaryToHand := by
  unfold State.validateIfDue State.validate
  split
  · dsimp only
    split
    · rw [State.modifyPort_boundaryToHand, State.enqueue_eq]; rfl
    · rw [State.modifyPort_boundaryToHand, (State.abortEntries_onlyTakes _ _ _).boundary]; rfl
  · rfl

theorem State.expireLease_boundary (s : State) (l : Line) : (s.expireLease l).boundaryToHand = s.boundaryToHand := by
  unfold State.expireLease
  split
  · split
    · unfold State.raise State.endLeases
      rw [State.modifyPort_boundaryToHand, (State.onlyTakes.retireAll ..).boundary, State.mapLines_boundaryToHand]
    · rfl
  · rfl

/-- Once the blocks owe nothing more, no boundary waits to be handed. -/
theorem State.finishBlocks_boundary (s : State) : s.finishBlocks.boundaryToHand = false := by
  have fold : ∀ {α : Type} (f : State → α → State) (_ : ∀ s x, (f s x).boundaryToHand = s.boundaryToHand) (xs : List α)
      (s : State), (xs.foldl f s).boundaryToHand = s.boundaryToHand := by
    intro α f hf xs
    induction xs with
    | nil => exact fun _ => rfl
    | cons x xs ih => exact fun s => (ih _).trans (hf _ _)
  unfold State.finishBlocks
  dsimp only
  rw [(State.onlyTakes.takeAllDue _).boundary, fold _ State.expireLease_boundary, fold _ State.validateIfDue_boundary]
  unfold State.handBoundary
  split
  · rfl
  · next h => simpa using h

/-! ## A cycle that owes nothing -/

/-- With no rising edge that has passed both stages, no number of recognitions does anything. -/
theorem PortState.recogniseTimes_none (p : Port) (n : Nat) (ps : PortState) (h : ps.recognisable = none) :
    ps.recogniseTimes p n = ps := by
  induction n with
  | zero => rfl
  | succ n ih =>
    have : ps.recogniseNext p = ps := by simp only [PortState.recogniseNext, h]
    rw [PortState.recogniseTimes, this, ih]

/-- Nothing is taken where nothing is owed. -/
theorem State.finishCycle_owesNothing (s : State) (h : s.owesNothing) : s.finishCycle = s := by
  have fold : ∀ {α : Type} (f : State → α → State) (xs : List α) (_ : ∀ x ∈ xs, f s x = s), xs.foldl f s = s := by
    intro α f xs
    induction xs with
    | nil => exact fun _ => rfl
    | cons x xs ih =>
      intro hf
      rw [List.foldl_cons, hf x (by simp)]
      exact ih fun y hy => hf y (by simp [hy])
  obtain ⟨ht, hr, h1, h2, h3, h4, h5, h6⟩ := h
  have t1 : Port.all.foldl State.takeFrame s = s := fold _ _ fun p _ => by simp only [State.takeFrame, ht p]
  have t2 : Port.all.foldl State.recogniseAll s = s := fold _ _ fun p _ =>
    State.modifyPort_same _ _ (PortState.recogniseTimes_none _ _ _ (hr p))
  have e1 : (List.finRange 16).foldl State.sampleChannel s = s := fold _ _ fun c _ => by
    have : s.sampleOwed c = false := by
      unfold State.sampleOwed
      rw [h1, Fin.getElem_fin, BitVec.getElem_allOnes]; rfl
    simp [State.sampleChannel, this]
  have e2 : Port.all.foldl State.takeStrobe s = s := fold _ _ fun _ _ => by simp [State.takeStrobe, h2]
  have e3 : s.handBoundary = s := by simp [State.handBoundary, h3]
  have e4 : Port.all.foldl State.validateIfDue s = s := fold _ _ fun _ _ => by simp [State.validateIfDue, h4]
  have e5 : s.takeAllDue = s := by
    unfold State.takeAllDue
    generalize s.queue.length = n
    induction n with
    | zero => rfl
    | succ n ih =>
      have : s.takeDue = s := by simp [State.takeDue, h5]
      rw [State.takeDueTimes, this, ih]
  have e6 : (List.finRange 16).foldl State.expireLease s = s := fold _ _ fun l _ => by
    have := h6 l
    unfold State.leaseRunOut at this
    unfold State.expireLease
    split <;> simp_all
  unfold State.finishCycle State.finishLinks State.finishBlocks
  dsimp only
  rw [t1, t2, e1, e2, e3, e4, e6, e5]

end Sys2Proof.Machine
end

