-- ==== Sys2Proof/Laws/Cycle.lean ====
section
/-! SUPPORT. The increment of a REFCLK cycle, part by part, and the cycle as a whole. -/

namespace Sys2Proof.Machine

/-- The increment moves MC and the slew, and changes leases and, where a slew ends, one port at most. -/
theorem State.advance_rest (s : State) :
    s.advance = { s with
      mc := s.mc + BitVec.ofNat 48 (slewIncrement s.slew), slew := slewAfter s.slew
      lines := s.advance.lines, ports := s.advance.ports } := by
  unfold State.advance
  split
  · split <;> simp only [State.modifyPort, State.mapLines]
  · simp only [State.mapLines]

/-- Every finite remaining term falls by the increment. -/
theorem State.advance_line (s : State) (l : Line) :
    s.advance.line l = { s.line l with
      lease := (s.line l).lease.map fun x => { x with term := x.term.fall (slewIncrement s.slew) } } := by
  have h : s.advance.line l = (s.mapLines fun _ r =>
      { r with lease := r.lease.map fun x => { x with term := x.term.fall (slewIncrement s.slew) } }).line l := by
    unfold State.advance
    split
    · split
      · rw [State.modifyPort_line]; simp only [State.line]
      · simp only [State.line]
    · simp only [State.line]
  rw [h, State.mapLines_line]

/-- A port is told of the end of a slew where it holds TIME_AUTHORITY, and is left alone otherwise. -/
theorem State.advance_port (s : State) (p : Port) :
    s.advance.port p = if slewEnds s.slew = true ∧ s.timeAuthority = some p
      then (s.port p).raiseSlewDone .complete else s.port p := by
  unfold State.advance
  have hp : ∀ (u : State) (m : Time) (w : Option Slew) (g : Line → LineRecord → LineRecord) (q : Port),
      State.port { u.mapLines g with mc := m, slew := w } q = u.port q := by
    intro u m w g q; simp only [State.mapLines, State.port]
  split
  · next h =>
    simp only [h, true_and]
    split
    · next x hx =>
      rw [State.modifyPort_port]
      by_cases hq : p = x
      · subst hq; rw [if_pos rfl, if_pos hx, hp]
      · rw [if_neg hq, if_neg, hp]
        rw [hx]; exact fun hc => hq (Option.some.inj hc).symm
    · next hx =>
      rw [if_neg (by rw [hx]; exact fun hc => by cases hc), hp]
  · next h => rw [if_neg (fun hc => h hc.1), hp]

/-- The frame moves on its own fields. -/
theorem State.advanceFrame_rest (s : State) (n : Nat) :
    s.advanceFrame n = { s with
      framePhase := (s.advanceFrame n).framePhase, frameIndex := (s.advanceFrame n).frameIndex
      frameLength := (s.advanceFrame n).frameLength, pendingLength := (s.advanceFrame n).pendingLength
      boundaryToHand := (s.advanceFrame n).boundaryToHand } := by
  unfold State.advanceFrame; split <;> rfl

/-- The pins show the levels that the state gives them and nothing else changes. -/
theorem State.showPins_rest (s : State) :
    s.showPins = { s with outsShown := s.showPins.outsShown, ports := s.showPins.ports } := rfl

theorem State.showPins_port (s : State) (p : Port) : s.showPins.port p = { s.port p with attnShown := s.attnPin p } :=
  PortFile.get_map ..

theorem State.showPins_out (s : State) (l : Line) : s.showPins.outsShown[l] = (s.outPin l == .high) :=
  bitsWhere_getElem (fun l => s.outPin l == .high) l

/-- The synchronisers take their pins and nothing else changes. -/
theorem State.synchronise_rest (s : State) (pins : Pins) :
    s.synchronise pins = { s with
      inStage1 := pins.ins, inStage2 := s.inStage1, ports := (s.synchronise pins).ports } := rfl

theorem State.synchronise_port (s : State) (pins : Pins) (p : Port) :
    (s.synchronise pins).port p =
      (s.port p).synchronise (!s.inReset && !s.freshRelease) pins.strobes[p.index] := PortFile.get_map ..

/-- The cycle of a part that is not held in reset: the present one ends, and the next begins. -/
theorem State.cycle_eq (s : State) (pins : Pins) (h : s.inReset = false) :
    s.cycle pins = s.finishCycle.beginCycle pins := by
  simp only [State.cycle, h, Bool.false_eq_true, ↓reduceIte]

/-- The beginning of a cycle, part by part. -/
theorem State.beginCycle_eq (f : State) (pins : Pins) :
    f.beginCycle pins =
      { ((f.showPins.synchronise pins).advance.advanceFrame (slewIncrement f.slew)) with
        samplesTaken := 0, freshRelease := false } := rfl

/-- What the beginning of a cycle moves: its own fields, the lines, the ports and the pins. -/
theorem State.beginCycle_rest (f : State) (pins : Pins) :
    f.beginCycle pins = { f with
      freshRelease := false, mc := (f.beginCycle pins).mc, framePhase := (f.beginCycle pins).framePhase
      frameIndex := (f.beginCycle pins).frameIndex, frameLength := (f.beginCycle pins).frameLength
      pendingLength := (f.beginCycle pins).pendingLength, slew := (f.beginCycle pins).slew
      boundaryToHand := (f.beginCycle pins).boundaryToHand, lines := (f.beginCycle pins).lines
      outsShown := f.showPins.outsShown, inStage1 := pins.ins, inStage2 := f.inStage1
      samplesTaken := 0, ports := (f.beginCycle pins).ports } := by
  have he := State.beginCycle_eq f pins
  have a1 := State.showPins_rest f
  have a2 := State.synchronise_rest f.showPins pins
  have a3 := State.advance_rest (f.showPins.synchronise pins)
  have a4 := State.advanceFrame_rest (f.showPins.synchronise pins).advance (slewIncrement f.slew)
  generalize (f.showPins.synchronise pins).advance.advanceFrame (slewIncrement f.slew) = T at *
  generalize (f.showPins.synchronise pins).advance = A at *
  generalize f.showPins.synchronise pins = B at *
  generalize f.showPins = C at *
  generalize f.beginCycle pins = D at *
  rw [a4, a3, a2, a1] at he
  rw [he]

/-- A port as a cycle begins: its pin shows the level in which the cycle before left it, its synchronisers take their pins,
and the end of a slew is told to the holder of TIME_AUTHORITY. -/
theorem State.beginCycle_port (f : State) (pins : Pins) (p : Port) :
    (f.beginCycle pins).port p =
      let synced := ({ f.port p with attnShown := f.attnPin p } : PortState).synchronise (!f.inReset && !f.freshRelease)
        pins.strobes[p.index]
      if slewEnds f.slew = true ∧ f.timeAuthority = some p then synced.raiseSlewDone .complete else synced := by
  have he := State.beginCycle_eq f pins
  have a0 := State.advance_port (f.showPins.synchronise pins) p
  rw [State.synchronise_port, State.showPins_port] at a0
  have a4 := State.advanceFrame_rest (f.showPins.synchronise pins).advance (slewIncrement f.slew)
  generalize (f.showPins.synchronise pins).advance.advanceFrame (slewIncrement f.slew) = T at *
  generalize (f.showPins.synchronise pins).advance = A at *
  have e1 : (f.showPins.synchronise pins).slew = f.slew := by rw [State.synchronise_rest, State.showPins_rest]
  have e2 : (f.showPins.synchronise pins).timeAuthority = f.timeAuthority := by
    rw [State.synchronise_rest, State.showPins_rest]
  have e3 : f.showPins.inReset = f.inReset := by rw [State.showPins_rest]
  have e4 : f.showPins.freshRelease = f.freshRelease := by rw [State.showPins_rest]
  rw [e1, e2, e3, e4] at a0
  have h1 : (f.beginCycle pins).port p = T.port p := by rw [he]; rfl
  have h2 : T.port p = A.port p := (congrArg (fun u => State.port u p) a4 :)
  exact (h1.trans h2).trans a0

/-- A line as a cycle begins: the remaining term of a finite lease falls by the increment. -/
theorem State.beginCycle_line (f : State) (pins : Pins) (l : Line) :
    (f.beginCycle pins).line l = { f.line l with
      lease := (f.line l).lease.map fun x => { x with term := x.term.fall (slewIncrement f.slew) } } := by
  have he := State.beginCycle_eq f pins
  have a0 := State.advance_line (f.showPins.synchronise pins) l
  have a4 := State.advanceFrame_rest (f.showPins.synchronise pins).advance (slewIncrement f.slew)
  generalize (f.showPins.synchronise pins).advance.advanceFrame (slewIncrement f.slew) = T at *
  generalize (f.showPins.synchronise pins).advance = A at *
  have e1 : (f.showPins.synchronise pins).slew = f.slew := by rw [State.synchronise_rest, State.showPins_rest]
  have e2 : (f.showPins.synchronise pins).line l = f.line l := by rw [State.synchronise_rest, State.showPins_rest]; rfl
  rw [e1, e2] at a0
  have h1 : (f.beginCycle pins).line l = T.line l := by rw [he]; rfl
  have h2 : T.line l = A.line l := (congrArg (fun u => State.line u l) a4 :)
  exact (h1.trans h2).trans a0

/-- The shared fields that the beginning of a cycle reads and moves. -/
theorem State.beginCycle_clock (f : State) (pins : Pins) :
    (f.beginCycle pins).mc = f.mc + BitVec.ofNat 48 (slewIncrement f.slew) ∧
    (f.beginCycle pins).slew = slewAfter f.slew ∧ (f.beginCycle pins).timeAuthority = f.timeAuthority ∧
    (f.beginCycle pins).supervisor = f.supervisor ∧ (f.beginCycle pins).inReset = f.inReset ∧
    (f.beginCycle pins).pending = f.pending := by
  have he := State.beginCycle_eq f pins
  have a1 := State.showPins_rest f
  have a2 := State.synchronise_rest f.showPins pins
  have a3 := State.advance_rest (f.showPins.synchronise pins)
  have a4 := State.advanceFrame_rest (f.showPins.synchronise pins).advance (slewIncrement f.slew)
  generalize (f.showPins.synchronise pins).advance.advanceFrame (slewIncrement f.slew) = T at *
  generalize (f.showPins.synchronise pins).advance = A at *
  generalize f.showPins.synchronise pins = B at *
  generalize f.showPins = C at *
  rw [a1] at a2
  rw [a2] at a3
  rw [a3] at a4
  rw [he]
  refine ⟨?_, ?_, ?_, ?_, ?_, ?_⟩ <;> dsimp only <;> rw [a4]

/-- How the beginning of a cycle moves the frame. -/
theorem State.beginCycle_frame (f : State) (pins : Pins) :
    (f.framePhase + slewIncrement f.slew < f.frameLength →
      (f.beginCycle pins).framePhase = f.framePhase + slewIncrement f.slew ∧
      (f.beginCycle pins).frameIndex = f.frameIndex ∧ (f.beginCycle pins).frameLength = f.frameLength ∧
      (f.beginCycle pins).pendingLength = f.pendingLength ∧ (f.beginCycle pins).boundaryToHand = f.boundaryToHand) ∧
    (f.frameLength ≤ f.framePhase + slewIncrement f.slew →
      (f.beginCycle pins).framePhase = f.framePhase + slewIncrement f.slew - f.frameLength ∧
      (f.beginCycle pins).frameIndex = f.frameIndex + 1 ∧
      (f.beginCycle pins).frameLength = f.pendingLength.getD f.frameLength ∧
      (f.beginCycle pins).pendingLength = none ∧ (f.beginCycle pins).boundaryToHand = true) := by
  have he := State.beginCycle_eq f pins
  have a1 := State.showPins_rest f
  have a2 := State.synchronise_rest f.showPins pins
  have a3 := State.advance_rest (f.showPins.synchronise pins)
  generalize (f.showPins.synchronise pins).advance = A at *
  generalize f.showPins.synchronise pins = B at *
  generalize f.showPins = C at *
  rw [a1] at a2
  rw [a2] at a3
  have b1 : A.framePhase = f.framePhase := (congrArg State.framePhase a3 :)
  have b2 : A.frameLength = f.frameLength := (congrArg State.frameLength a3 :)
  have b3 : A.frameIndex = f.frameIndex := (congrArg State.frameIndex a3 :)
  have b4 : A.pendingLength = f.pendingLength := (congrArg State.pendingLength a3 :)
  have b5 : A.boundaryToHand = f.boundaryToHand := (congrArg State.boundaryToHand a3 :)
  rw [he]
  unfold State.advanceFrame
  rw [b1, b2]
  refine ⟨fun hlt => ?_, fun hle => ?_⟩
  · rw [if_neg (by omega)]; exact ⟨rfl, b3, rfl, b4, b5⟩
  · rw [if_pos hle, b3, b4]; exact ⟨rfl, rfl, rfl, rfl, rfl⟩

end Sys2Proof.Machine
end

