-- ==== Sys2Proof/Laws/Time.lean ====
section
/-! SUPPORT. The classes of a time as conditions on its distance from MC, and how distances move. -/

namespace Sys2Proof.Machine

theorem distance_lt (mc t : Time) : distance mc t < 2 ^ 48 := (t - mc).isLt

theorem reached_iff (mc t : Time) : reached mc t = true ↔ distance mc t = 0 ∨ 2 ^ 47 < distance mc t := by
  rw [reached, Bool.or_eq_true, beq_iff_eq, decide_eq_true_iff]; rfl

theorem not_reached_iff (mc t : Time) : reached mc t = false ↔ 0 < distance mc t ∧ distance mc t ≤ 2 ^ 47 := by
  rw [← Bool.not_eq_true, reached_iff]; omega

theorem tooFar_iff (mc t : Time) : tooFar mc t = true ↔ 2 ^ 46 ≤ distance mc t ∧ distance mc t ≤ 2 ^ 47 := by
  rw [tooFar, Bool.and_eq_true, decide_eq_true_iff, decide_eq_true_iff]; rfl

theorem not_tooFar_iff (mc t : Time) : tooFar mc t = false ↔ distance mc t < 2 ^ 46 ∨ 2 ^ 47 < distance mc t := by
  rw [← Bool.not_eq_true, tooFar_iff]; omega

theorem acceptable_iff (mc t : Time) : acceptable mc t = true ↔ 0 < distance mc t ∧ distance mc t < 2 ^ 46 := by
  rw [acceptable, Bool.and_eq_true, decide_eq_true_iff, decide_eq_true_iff]; rfl

/-- An advance of MC lowers a distance by the same amount, modulo 2^48 (01 R4). -/
theorem distance_advance (mc t : Time) (n : Nat) (hn : n < 2 ^ 48) :
    distance (mc + BitVec.ofNat 48 n) t = if n ≤ distance mc t then distance mc t - n else distance mc t + 2 ^ 48 - n := by
  unfold distance
  have h1 := mc.isLt; have h2 := t.isLt
  simp only [BitVec.toNat_sub, BitVec.toNat_add, BitVec.toNat_ofNat, Nat.mod_eq_of_lt hn]
  split <;> omega

/-- A step of MC by a signed offset lowers a distance by the offset, where the result is a distance (01 R9, R10). -/
theorem distance_moved (mc t : Time) (offset : Int) (h0 : 0 ≤ (distance mc t : Int) - offset)
    (h1 : (distance mc t : Int) - offset < 2 ^ 48) :
    (distance (movedBy mc offset) t : Int) = distance mc t - offset := by
  unfold distance movedBy at *
  simp only [BitVec.toNat_sub, BitVec.toNat_add, BitVec.toNat_ofInt] at *
  have hm := mc.isLt
  have ht := t.isLt
  generalize mc.toNat = m at *
  generalize t.toNat = n at *
  omega

/-- A step that passes a time leaves it behind MC, by what is left of the offset (01 R9, R10). -/
theorem distance_passed (mc t : Time) (offset : Int) (h0 : (distance mc t : Int) - offset < 0)
    (h1 : -(2 ^ 48) ≤ (distance mc t : Int) - offset) :
    (distance (movedBy mc offset) t : Int) = distance mc t - offset + 2 ^ 48 := by
  unfold distance movedBy at *
  simp only [BitVec.toNat_sub, BitVec.toNat_add, BitVec.toNat_ofInt] at *
  have hm := mc.isLt
  have ht := t.isLt
  generalize mc.toNat = m at *
  generalize t.toNat = n at *
  omega

end Sys2Proof.Machine
end

