-- ==== Sys2Proof/Laws/Queue.lean ====
section
/-! SUPPORT. The queue order: where an entry enters, and that the order and its bound survive. -/

namespace Sys2Proof.Machine

/-! ## Entering -/

theorem standsAhead_iff (mc : Time) (e x : Entry) : standsAhead mc e x = true ↔ mayPrecede mc x e := by
  unfold standsAhead mayPrecede
  simp only [Bool.or_eq_true, Bool.and_eq_true, Bool.not_eq_true', decide_eq_true_eq]

/-- Of two entries neither reached before the other is farther: what does not stand ahead may follow. -/
theorem mayPrecede_of_not (mc : Time) (e x : Entry) (h : standsAhead mc e x = false) : mayPrecede mc e x := by
  unfold standsAhead at h
  simp only [Bool.or_eq_false_iff, Bool.and_eq_false_iff, Bool.not_eq_false', decide_eq_false_iff_not] at h
  obtain ⟨h1, h2 | h2⟩ := h
  · exact Or.inl h2
  · exact Or.inr ⟨h1, by omega⟩

/-- What stands ahead of an entry stands at the front of an ordered queue. -/
theorem standsAhead_front {mc : Time} {e x y : Entry} (hxy : mayPrecede mc x y) (hy : standsAhead mc e y = true) :
    standsAhead mc e x = true := by
  rw [standsAhead_iff] at *
  unfold mayPrecede at *
  rcases hxy with h | ⟨h, h'⟩
  · exact Or.inl h
  · rcases hy with hy | ⟨hy, hy'⟩
    · rw [h] at hy; cases hy
    · exact Or.inr ⟨hy, by omega⟩

theorem takeWhile_eq_filter {α : Type} {R : α → α → Prop} (f : α → Bool) (hf : ∀ x y, R x y → f y = true → f x = true)
    (l : List α) (h : l.Pairwise R) : l.takeWhile f = l.filter f ∧ l.dropWhile f = l.filter fun x => !f x := by
  induction l with
  | nil => exact ⟨rfl, rfl⟩
  | cons a l ih =>
    rw [List.pairwise_cons] at h
    obtain ⟨h1, h2⟩ := ih h.2
    by_cases ha : f a = true
    · simp [ha, h1, h2]
    · have hn : ∀ x ∈ l, f x = false := fun x hx => by
        rw [← Bool.not_eq_true]; exact fun hc => ha (hf a x (h.1 x hx) hc)
      have e1 : l.filter f = [] := List.filter_eq_nil_iff.2 fun x hx => by simp [hn x hx]
      have e2 : (l.filter fun x => !f x) = l := List.filter_eq_self.2 fun x hx => by simp [hn x hx]
      simp [ha, e1, e2]

/-- In an ordered queue an entry enters behind all that stands ahead of it and before all else. -/
theorem insertEntry_eq_placed (mc : Time) (e : Entry) (queue : List Entry) (h : queue.Pairwise (mayPrecede mc)) :
    insertEntry mc e queue = placed mc e queue := by
  obtain ⟨h1, h2⟩ := takeWhile_eq_filter (standsAhead mc e) (fun _ _ => standsAhead_front) queue h
  rw [insertEntry, h1, h2, placed]

theorem placed_pairwise (mc : Time) (e : Entry) (queue : List Entry) (h : queue.Pairwise (mayPrecede mc)) :
    (placed mc e queue).Pairwise (mayPrecede mc) := by
  unfold placed
  rw [List.pairwise_append, List.pairwise_cons]
  refine ⟨h.filter _, ⟨fun x hx => ?_, h.filter _⟩, fun x hx y hy => ?_⟩
  · exact mayPrecede_of_not _ _ _ (by simpa using (List.mem_filter.1 hx).2)
  · have hx1 := (standsAhead_iff ..).1 (List.mem_filter.1 hx).2
    rcases List.mem_cons.1 hy with hy | hy
    · subst hy; exact hx1
    · have hy1 := mayPrecede_of_not mc e y (by simpa using (List.mem_filter.1 hy).2)
      have hy2 : reached mc y.dueTime = false := by
        have := (List.mem_filter.1 hy).2
        unfold standsAhead at this
        cases hr : reached mc y.dueTime <;> simp_all
      unfold mayPrecede at *
      rcases hx1 with h1 | ⟨h1, h1'⟩
      · exact Or.inl h1
      · rcases hy1 with h2 | ⟨h2, h2'⟩
        · rw [h1] at h2; cases h2
        · exact Or.inr ⟨h2, by omega⟩

theorem mem_placed (mc : Time) (e x : Entry) (queue : List Entry) : x ∈ placed mc e queue ↔ x = e ∨ x ∈ queue := by
  unfold placed
  simp only [List.mem_append, List.mem_filter, List.mem_cons]
  cases standsAhead mc e x <;> tauto

theorem insertEntry_perm (mc : Time) (e : Entry) (queue : List Entry) : (insertEntry mc e queue).Perm (e :: queue) := by
  unfold insertEntry
  refine List.perm_middle.trans ?_
  rw [List.takeWhile_append_dropWhile]

/-! ## Leaving -/

theorem State.fileReport_queue (s : State) (e : Entry) (o : Outcome) : (s.fileReport e o).queue = s.queue := by
  rw [State.fileReport_eq]; split <;> rfl

theorem State.retire_queue (s : State) (e : Entry) (o : Outcome) : (s.retire e o).queue = s.queue.erase e :=
  State.fileReport_queue ..

/-- What the guard of an entry meets where an edge since its admission is not seen (07 R127). -/
theorem PortState.edgeAfter_iff (ps : PortState) (e : Entry) (after : EdgeAfter) (h : after ≠ .quiet) :
    ps.edgeAfter e = after ↔ ps.sinceAdmission e after := by
  unfold PortState.edgeAfter PortState.sinceAdmission
  cases hl : ps.lateGuard with
  | none => simp [h.symm]
  | some g => by_cases ht : g.tag = e.tag <;> simp [ht, h.symm]

/-- The guard of an entry passes on the flags that are set for it. -/
theorem PortState.guardSees_iff (ps : PortState) (e : Entry) (c : Channel) : ps.guardSees e c = true ↔ ps.setFor e c := by
  unfold PortState.guardSees PortState.setFor
  rw [← PortState.edgeAfter_iff ps e .unseen (by decide)]
  simp

/-- A test whose guard is absent or finds its flag set passes, and leaves the flag as its mode says. -/
theorem State.guardTest_passes (s : State) (e : Entry)
    (h : ∀ g, e.guard = some g → (s.port e.port).setFor e g.channel) :
    s.guardTest e = some (s.modifyPort e.port (PortState.guardPassed e)) := by
  have same : ∀ g : PortState → PortState, g (s.port e.port) = s.port e.port → s.modifyPort e.port g = s := fun g hg => by
    unfold State.modifyPort
    have : s.ports.get e.port = s.port e.port := rfl
    rw [this, hg, ← this, PortFile.set_get]
  unfold State.guardTest
  cases hg : e.guard with
  | none => simp only; rw [same _ (by simp only [PortState.guardPassed, hg])]
  | some g =>
    obtain ⟨c, mode⟩ := g
    simp only [(PortState.guardSees_iff ..).2 (h _ hg), if_true]
    cases mode with
    | peek => simp only; rw [same _ (by simp only [PortState.guardPassed, hg])]
    | consume =>
      simp only [Option.some.injEq]
      refine State.modifyPort_congr _ _ ?_
      unfold PortState.consumeArm PortState.guardPassed PortState.edgeAfter
      rw [hg]
      cases hl : (s.port e.port).lateGuard with
      | none => simp
      | some g => by_cases ht : g.tag = e.tag <;> simp [ht]

/-- A test whose guard finds its flag clear, or set only by an edge it does not see, fails. -/
theorem State.guardTest_fails (s : State) (e : Entry) (g : Guard) (hg : e.guard = some g)
    (h : (s.port e.port).arms[g.channel] = false ∨ (s.port e.port).sinceAdmission e .unseen) : s.guardTest e = none := by
  unfold State.guardTest
  rw [hg]
  have : (s.port e.port).guardSees e g.channel = false := by
    rw [Bool.eq_false_iff, ne_eq, PortState.guardSees_iff]
    rintro ⟨h1, h2⟩
    rcases h with h | h
    · rw [h] at h1; cases h1
    · exact h2 h
  simp [this]

theorem State.guardTest_queue (s s1 : State) (e : Entry) (h : s.guardTest e = some s1) : s1.queue = s.queue := by
  unfold State.guardTest at h
  split at h
  · cases h; rfl
  · split at h
    · split at h <;> (cases h; rfl)
    · cases h

theorem State.applyAction_queue (s : State) (e : Entry) : (s.applyAction e).1.queue = s.queue := by
  unfold State.applyAction; split <;> rfl

/-- What the taking of an entry leaves of the queue order: the entry leaves it, and the TRAIL of a LEAD whose guard failed
with it. -/
theorem State.takeEntry_queue (s : State) (e : Entry) :
    (s.takeEntry e).queue = s.queue.erase e ∨
      ∃ t, e.action.isLead = true ∧ (s.queue.erase e).find? (isTrailOf e) = some t ∧
        (s.takeEntry e).queue = (s.queue.erase e).erase t := by
  unfold State.takeEntry
  split
  · unfold State.retireGuardFalse
    split
    · next h =>
      dsimp only
      split
      · next t ht =>
        rw [State.retire_queue] at ht
        exact Or.inr ⟨t, h, ht, by rw [State.retire_queue, State.retire_queue]⟩
      · exact Or.inl (State.retire_queue ..)
    · exact Or.inl (State.retire_queue ..)
  · next h =>
    left
    dsimp only
    rw [State.retire_queue, State.applyAction_queue, State.guardTest_queue _ _ _ h]

/-- The taking of a PENDING entry makes the queue order shorter. -/
theorem State.takeEntry_length (s : State) (e : Entry) (h : e ∈ s.queue) :
    (s.takeEntry e).queue.length < s.queue.length := by
  have h1 : (s.queue.erase e).length < s.queue.length := by
    rw [List.length_erase_of_mem h]
    have := List.length_pos_of_mem h
    omega
  rcases State.takeEntry_queue s e with h2 | ⟨t, _, _, h2⟩
  · rw [h2]; exact h1
  · rw [h2]; exact lt_of_le_of_lt List.length_erase_le h1

theorem State.dueHead_some (s : State) (e : Entry) (h : s.dueHead = some e) :
    e ∈ s.queue ∧ reached s.mc e.dueTime = true := by
  unfold State.dueHead at h
  split at h
  · cases h
  · next hq =>
    split at h
    · next hr => cases h; exact ⟨by rw [hq]; simp, hr⟩
    · cases h

/-- After all entries that had fallen due are taken, none heads the queue order. -/
theorem State.takeAllDue_dueHead (s : State) : s.takeAllDue.dueHead = none := by
  have key : ∀ (n : Nat) (s : State), s.queue.length ≤ n ∨ s.dueHead = none → (s.takeDueTimes n).dueHead = none := by
    intro n
    induction n with
    | zero =>
      rintro s (h | h)
      · have : s.queue = [] := List.eq_nil_of_length_eq_zero (by omega)
        simp [State.takeDueTimes, State.dueHead, this]
      · exact h
    | succ n ih =>
      intro s h
      refine ih _ ?_
      unfold State.takeDue
      split
      · next hn => exact Or.inr hn
      · next e he =>
        have h1 := State.takeEntry_length s e (State.dueHead_some s e he).1
        refine Or.inl ?_
        rcases h with h | h
        · omega
        · rw [h] at he; cases he
  exact key _ _ (Or.inl le_rfl)

/-- In an ordered queue whose head has not fallen due nothing has. -/
theorem State.none_reached (s : State) (h : s.queue.Pairwise (mayPrecede s.mc)) (hd : s.dueHead = none) :
    ∀ e ∈ s.queue, reached s.mc e.dueTime = false := by
  unfold State.dueHead at hd
  split at hd
  · next hq => intro e he; rw [hq] at he; cases he
  · next x rest hq =>
    have hx : reached s.mc x.dueTime = false := by
      rw [← Bool.not_eq_true]; intro hc; rw [if_pos hc] at hd; cases hd
    rw [hq, List.pairwise_cons] at h
    intro e he
    rw [hq] at he
    rcases List.mem_cons.1 he with he | he
    · rw [he]; exact hx
    · rcases h.1 e he with h1 | h1
      · rw [hx] at h1; cases h1
      · exact h1.1

end Sys2Proof.Machine
end

