-- ==== Sys2Proof/Laws/Requests.lean ====
section
/-! SUPPORT. The taking of a request: what the admission check answers, and what the taking comes to in each case. -/

namespace Sys2Proof.Machine

/-! ## Admission -/

/-- A request is admitted where the session allows it and the port holds the role it requires. -/
theorem admission_eq_none (x : Access) (p : Port) (s : State)
    (hs : (s.port p).session = .attached ∨ ((s.port p).session = .detached ∧ x.whenDetached = true) ∨
      ((s.port p).session = .fenced ∧ x.whenFenced = true))
    (hr : ∀ r, x.role = some r → s.holder r = some p) : admission x p s = none := by
  have hrole : (match x.role with
      | none => none
      | some r => if s.holder r = some p then none else some ResultCode.notRole) = none := by
    cases hx : x.role with
    | none => rfl
    | some r => simp [hr r hx]
  unfold admission
  rcases hs with h | ⟨h, h'⟩ | ⟨h, h'⟩
  · rw [h]; exact hrole
  · rw [h]; simp only [h', ↓reduceIte]; exact hrole
  · rw [h]; simp only [h', ↓reduceIte]; exact hrole

theorem admission_detached (x : Access) (p : Port) (s : State) (h : (s.port p).session = .detached)
    (hd : x.whenDetached = false) : admission x p s = some .notAttached := by
  simp [admission, h, hd]

theorem admission_fenced (x : Access) (p : Port) (s : State) (h : (s.port p).session = .fenced)
    (hd : x.whenFenced = false) : admission x p s = some .fenced := by
  simp [admission, h, hd]

theorem admission_notRole (x : Access) (p : Port) (s : State) (r : Role) (h : (s.port p).session = .attached)
    (hx : x.role = some r) (hr : s.holder r ≠ some p) : admission x p s = some .notRole := by
  simp [admission, h, hx, hr]

/-! ## Taking -/

/-- A request that no frame in hand carries does nothing. -/
theorem takeRequest_idle (x : Access) (p : Port) (i : Instr) (owner : State → Answer) (s : State)
    (h : s.awaits p i = false) : takeRequest x p i owner s = s := by
  simp [takeRequest, h]

/-- A request that is admitted is answered by its owner. -/
theorem takeRequest_admitted (x : Access) (p : Port) (i : Instr) (owner : State → Answer) (s : State)
    (h : s.awaits p i = true) (ha : admission x p s = none) :
    takeRequest x p i owner s = s.answered (owner s).state p (owner s).result (owner s).data := by
  simp [takeRequest, h, answerOf, ha, State.answered]

/-- A request that is not admitted is answered by the refusal, with no data and no effect. -/
theorem takeRequest_refused (x : Access) (p : Port) (i : Instr) (owner : State → Answer) (s : State) (r : ResultCode)
    (h : s.awaits p i = true) (ha : admission x p s = some r) : takeRequest x p i owner s = s.answered s p r [] := by
  simp [takeRequest, h, answerOf, ha, State.answered, refuse]

/-- Where a request is taken, its owner answers it. -/
theorem takeRequest_taken (p : Port) (whenDetached whenFenced : Bool) (role : Option Role) (i : Instr)
    (owner : State → Answer) (s : State) (hrow : admissionRow i = some (p, whenDetached, whenFenced, role))
    (h : s.takes i) :
    takeRequest ⟨whenDetached, whenFenced, role⟩ p i owner s =
      s.answered (owner s).state p (owner s).result (owner s).data := by
  unfold State.takes at h
  rw [hrow] at h
  exact takeRequest_admitted _ _ _ _ _ h.1 (admission_eq_none _ _ _ h.2.1 h.2.2)

/-! ## What the taking of a request presupposes -/

theorem State.takes_awaits (s : State) (i : Instr) (p : Port) (d f : Bool) (role : Option Role)
    (hrow : admissionRow i = some (p, d, f, role)) (h : s.takes i) : s.awaits p i = true := by
  unfold State.takes at h; rw [hrow] at h; exact h.1

theorem State.takes_attached (s : State) (i : Instr) (p : Port) (role : Option Role)
    (hrow : admissionRow i = some (p, false, false, role)) (h : s.takes i) : (s.port p).session = .attached := by
  unfold State.takes at h; rw [hrow] at h
  rcases h.2.1 with h | ⟨_, h⟩ | ⟨_, h⟩
  · exact h
  · exact absurd h (by decide)
  · exact absurd h (by decide)

theorem State.takes_role (s : State) (i : Instr) (p : Port) (d f : Bool) (r : Role)
    (hrow : admissionRow i = some (p, d, f, some r)) (h : s.takes i) : s.holder r = some p := by
  unfold State.takes at h; rw [hrow] at h; exact h.2.2 r rfl

/-- A port owes the taking of a request exactly where its engine is EXECUTING with the request's frame in hand, checked in
an earlier cycle. -/
theorem PortState.owedRequest_eq_some (p : Port) (ps : PortState) (i : Instr) :
    ps.owedRequest p = some i ↔
      ps.engine = .executing ∧ ps.checkedNow = false ∧ ∃ bytes, ps.frame = some bytes ∧ checkFrame p bytes = .passed i := by
  unfold PortState.owedRequest
  split
  · next bytes he hf =>
    rw [he, hf]
    cases ps.checkedNow with
    | true => simp
    | false =>
      cases hc : checkFrame p bytes <;> simp [hc]
  · next hn =>
    constructor
    · exact fun h => nomatch h
    · rintro ⟨he, -, bytes, hf, -⟩
      exact absurd hf (hn bytes he)

/-- A port with no frame in hand owes the taking of no request. -/
theorem PortState.owedRequest_none (p : Port) (ps : PortState) (h : ps.frame = none) : ps.owedRequest p = none := by
  unfold PortState.owedRequest
  split
  · next hf => rw [h] at hf; cases hf
  · rfl

theorem State.awaits_eq_true (s : State) (p : Port) (i : Instr) :
    s.awaits p i = true ↔ s.inReset = false ∧ (s.port p).owedRequest p = some i := by
  simp [State.awaits]

/-- The command of a frame that has passed its checks. -/
theorem checkFrame_passed {p : Port} {bytes : List Byte} {i : Instr} (h : checkFrame p bytes = .passed i) :
    ∃ c, decodeCommand p c (frameParams bytes) = some i := by
  unfold checkFrame at h
  split at h
  · cases h
  split at h
  · cases h
  split at h
  · cases h
  split at h
  · cases h
  split at h
  · cases h
  · next hj => cases h; exact ⟨_, hj⟩

/-- The command of a port's frame is a request of that port. -/
theorem decodeFields_requester {p : Port} {c : Cmd} {params : List Byte} {i : Instr}
    (h : decodeFields p c params = some i) : ∃ x, admissionRow i = some (p, x) := by
  have done : ∀ {α : Type} (o : Option α) (f : α → Instr), (∀ a, ∃ x, admissionRow (f a) = some (p, x)) →
      o.map f = some i → ∃ x, admissionRow i = some (p, x) := by
    intro α o f hf ho
    rw [Option.map_eq_some_iff] at ho
    obtain ⟨a, _, rfl⟩ := ho
    exact hf a
  have one : ∀ {j : Instr}, (∃ x, admissionRow j = some (p, x)) → some j = some i → ∃ x, admissionRow i = some (p, x) := by
    intro j hj he; cases he; exact hj
  have none : ∀ {o : Option Instr}, o = Option.none → o = some i → ∃ x, admissionRow i = some (p, x) := by
    intro o ho he; rw [ho] at he; cases he
  cases c
  case submit => exact done _ _ (fun _ => ⟨_, rfl⟩) h
  case stage => exact done _ _ (fun _ => ⟨_, rfl⟩) h
  all_goals
    rcases params with _ | ⟨_, _ | ⟨_, _ | ⟨_, _ | ⟨_, _ | ⟨_, _ | ⟨_, _ | ⟨_, _ | ⟨_, _⟩⟩⟩⟩⟩⟩⟩⟩
    all_goals first
      | exact none rfl h
      | exact one ⟨_, rfl⟩ h
      | exact done _ _ (fun _ => ⟨_, rfl⟩) h

/-- What a port owes is a request of its own. -/
theorem PortState.owedRequest_requester {p : Port} {ps : PortState} {i : Instr} (h : ps.owedRequest p = some i) :
    ∃ x, admissionRow i = some (p, x) := by
  obtain ⟨-, -, bytes, -, hc⟩ := (PortState.owedRequest_eq_some p ps i).1 h
  obtain ⟨c, hd⟩ := checkFrame_passed hc
  unfold decodeCommand at hd
  exact decodeFields_requester (Option.filter_eq_some_iff.1 hd).1

/-- A frame in hand that awaits its owner carries a well-formed request. -/
theorem State.awaits_wellFormed (s : State) (p : Port) (i : Instr) (h : s.awaits p i = true) : i.wellFormed = true := by
  obtain ⟨-, -, bytes, -, hc⟩ := (PortState.owedRequest_eq_some _ _ _).1 ((State.awaits_eq_true s p i).1 h).2
  obtain ⟨c, hd⟩ := checkFrame_passed hc
  unfold decodeCommand at hd
  exact (Option.filter_eq_some_iff.1 hd).2

/-- No request is taken while RST_N is low. -/
theorem State.awaits_inReset (s : State) (p : Port) (i : Instr) (h : s.inReset = true) : s.awaits p i = false := by
  simp [State.awaits, h]

/-- A request, taken by its owner, is the request's row. -/
theorem execRequest_eq (i : Instr) (s : State) {x : Port × Bool × Bool × Option Role} (h : admissionRow i = some x) :
    execRequest i s = exec i s := by
  cases i <;> first | rfl | cases h

/-- The state that a taking answers over keeps everything outside the port of the frame. -/
theorem State.answered_port_ne (s u : State) {p q : Port} (r : ResultCode) (data : List Byte) (h : q ≠ p) :
    (s.answered u p r data).port q = u.port q := by
  simp [State.answered, State.finishTaking, h]

end Sys2Proof.Machine
end

