-- ==== Sys2Proof/Laws/Keeps.lean ====
section
/-! SUPPORT. What a step can do, said once: a property that every operation below keeps, every step keeps. -/

namespace Sys2Proof.Machine

/-- Where the admission check lets a request through, the session and the roles are in order. -/
theorem admission_none (d f : Bool) (role : Option Role) (p : Port) (s : State)
    (h : admission ⟨d, f, role⟩ p s = none) :
    ((s.port p).session = .attached ∨ ((s.port p).session = .detached ∧ d = true) ∨
      ((s.port p).session = .fenced ∧ f = true)) ∧ ∀ r, role = some r → s.holder r = some p := by
  have hrole : (match role with
      | none => none
      | some r => if s.holder r = some p then none else some ResultCode.notRole) = none →
      ∀ r, role = some r → s.holder r = some p := by
    intro hm r hr
    subst hr
    by_contra hc
    simp [hc] at hm
  unfold admission at h
  dsimp only at h
  split at h
  · next hs => exact ⟨Or.inl hs, hrole h⟩
  · next hs =>
    split at h
    · next hd => exact ⟨Or.inr (Or.inl ⟨hs, hd⟩), hrole h⟩
    · cases h
  · next hs =>
    split at h
    · next hf => exact ⟨Or.inr (Or.inr ⟨hs, hf⟩), hrole h⟩
    · cases h

/-- What the owner of a request keeps where it is taken, and what the end of a taking makes of it, holds after the request. -/
theorem takeRequest_keeps (P Q : State → Prop) (p : Port) (d f : Bool) (role : Option Role) (i : Instr)
    (owner : State → Answer) (s : State) (hrow : admissionRow i = some (p, d, f, role))
    (hidle : s.awaits p i = false → P s → Q s)
    (hfinish : ∀ (u : State) r data, P u → Q (u.finishTaking p (s.frameBytes p) r data))
    (howner : s.takes i → P s → P (owner s).state) (h : P s) : Q (takeRequest ⟨d, f, role⟩ p i owner s) := by
  unfold takeRequest
  split
  · next ha =>
    dsimp only
    refine hfinish _ _ _ ?_
    unfold answerOf
    split
    · exact h
    · next hn =>
      refine howner ?_ h
      unfold State.takes
      rw [hrow]
      exact ⟨ha, admission_none _ _ _ _ _ hn⟩
  · next ha => exact hidle (by simpa using ha) h

/-- A property that the effects of every request's owner keep, and the taking of what has fallen due. -/
structure KeepsOwners (P : State → Prop) : Prop where
  due : ∀ s : State, P s → P s.takeDue
  readTime : ∀ (s : State) (p : Port), s.takes (.readTime p) → P s → P (readTimeOwner p s).state
  stepTime : ∀ (s : State) (p : Port) (offset : Int) (mode : StepMode), s.takes (.stepTime p offset mode) →
    stepTooFar offset s = false → P s → P s.takeAllDue → P (s.takeAllDue.stepMove offset mode)
  setRate : ∀ (s : State) (p : Port) (k : Int) (n : Nat), s.takes (.setRate p k n) → P s → P (setRateOwner k n s).state
  setFrame : ∀ (s : State) (p : Port) (n : Nat), s.takes (.setFrame p n) → P s → P (setFrameOwner n s).state
  acquire : ∀ (s : State) (p : Port) (m : LineSet) (t : Option Nat) (f : Failsafe), s.takes (.acquireLines p m t f) →
    linesInTheWay p m s = 0 → P s → P (s.grant p m t f)
  renew : ∀ (s : State) (p : Port) (m : LineSet), s.takes (.renewLines p m) → linesNotHeld p m s = 0 → P s → P (s.renew m)
  release : ∀ (s : State) (p : Port) (m : LineSet), s.takes (.releaseLines p m) → P s → P (s.endLeases m .cancelled)
  revoke : ∀ (s : State) (p : Port) (m : LineSet), s.takes (.revokeLines p m) → P s → P (revokeLinesOwner m s).state
  force : ∀ (s : State) (m : LineSet) (f : Option Level), P s → P (s.setForce m f)
  submit : ∀ (s : State) (p : Port) (x : Descriptor), s.takes (.submit p x) → lineIsHeld p x s = true →
    s.tagLive p x.tag = false → someTimeTooFar x s.mc = false → overQuota p x s = false → P s →
    P (s.enqueue (descEntries p x))
  admitting : ∀ (s : State) (p : Port) (x : Descriptor) (mc : Time), P s → P (s.modifyPort p (PortState.admitting x mc))
  cancel : ∀ (s : State) (p : Port) (tag : Half), s.takes (.cancel p tag) →
    (stagedTagged p tag s = [] ∨ (s.port p).batch.target = none) → P s →
    P ((s.retireAll (pendingTagged p tag s) .cancelled).modifyPort p (PortState.unstage tag))
  cancelLines : ∀ (s : State) (p : Port) (m : LineSet), s.takes (.cancelLines p m) → P s →
    P (s.retireAll (pendingOnLines p m s) .cancelled)
  readCompletions : ∀ (s : State) (p : Port) (n : Nat), s.takes (.readCompletions p n) → P s →
    P (s.modifyPort p (PortState.popRecords n))
  stage : ∀ (s : State) (p : Port) (x : Descriptor), s.takes (.stage p x) → s.tagLive p x.tag = false →
    overQuota p x s = false → (s.port p).batch.staged.length + descSlots x ≤ Config.batchSlots → P s →
    P (s.modifyPort p (PortState.addStaged (descEntries p x)))
  commit : ∀ (s : State) (p : Port) (n : Option Byte) (t : FrameIndex), s.takes (.commitBatch p n) →
    (s.port p).batch.state = .opened → P s → P (s.modifyPort p (PortState.arm t))
  discard : ∀ (s : State) (p : Port), s.takes (.discardBatch p) → P s → P (s.freeBatch p)
  configure : ∀ (s : State) (p : Port) (m : ChannelSet) (n : Nat) (e : EdgeSelect), s.takes (.configInput p m n e) →
    P s → P (s.configure m n e)
  subscribe : ∀ (s : State) (p : Port) (m : ChannelSet), s.takes (.subscribe p m) → P s → P (subscribeOwner p m s).state
  readCaptures : ∀ (s : State) (p : Port) (n : Nat), s.takes (.readCaptures p n) → P s → P (readCapturesOwner p n s).state
  clearArms : ∀ (s : State) (p : Port) (m : ChannelSet), s.takes (.clearArms p m) → P s → P (clearArmsOwner p m s).state
  openPort : ∀ (s : State) (p : Port), s.takes (.openPort p) → s.attached p = false → P s →
    P (s.modifyPort p fun ps => { ps with session := .attached })
  closePort : ∀ (s : State) (p : Port), s.takes (.closePort p) → P s → P (closePortOwner p s).state
  claimRole : ∀ (s : State) (p : Port) (r : Role), s.takes (.claimRole p r) → s.holder r = none → P s →
    P ((s.giveRole r p).raiseRoleChanged p)
  releaseRole : ∀ (s : State) (p : Port) (r : Role), s.takes (.releaseRole p r) → P s → P (s.dropRole r p)
  fencePort : ∀ (s : State) (p t : Port), s.takes (.fencePort p t) → t ≠ p → s.attached t = true → P s → P (s.fence t p)
  setQuota : ∀ (s : State) (p t : Port) (n : Nat), s.takes (.setQuota p t n) → s.usage t ≤ n →
    n + otherQuotas t s ≤ Config.slots → P s → P (s.modifyPort t fun ps => { ps with quota := n })
  readEvents : ∀ (s : State) (p : Port) (m : EventSet), P s → P (readEventsOwner p m s).state
  setEventMask : ∀ (s : State) (p : Port) (m : EventSet), P s → P (setEventMaskOwner p m s).state

/-- A property that every operation of the part keeps within a REFCLK cycle: all but release, reset and the cycle itself. -/
structure KeepsInCycle (P : State → Prop) : Prop extends KeepsOwners P where
  sample : ∀ (s : State) (c : Channel), P s → P (s.sampleChannel c)
  strobe : ∀ (s : State) (p : Port), P s → P (s.takeStrobe p)
  boundary : ∀ s : State, P s → P s.handBoundary
  validate : ∀ (s : State) (p : Port), s.validationDue p = true → P s → P (s.validate p)
  expire : ∀ (s : State) (l : Line), P s → P (s.expireLease l)
  moveReports : ∀ (s : State) (p : Port), P s → P (s.modifyPort p PortState.moveReports)
  ignored : ∀ (s : State) (p : Port) (low : Option Bool), P s → P (s.modifyPort p (PortState.moveIgnored low))
  request : ∀ (s : State) (p : Port) (part : RequestPart), P s → P (s.modifyPort p (PortState.clockRequest part))
  unknown : ∀ (s : State) (p : Port) (first : Byte) (part : UnknownPart),
    P s → P (s.modifyPort p (PortState.unknownTransaction first part))
  check : ∀ (s : State) (p : Port), P s → P (s.modifyPort p (PortState.checkInHand p))
  fetch : ∀ (s : State) (p : Port) (part : FetchPart), P s → P (s.modifyPort p (PortState.fetch part))
  finish : ∀ (s : State) (p : Port) (bytes : List Byte) (r : ResultCode) (data : List Byte), P s →
    P (s.finishTaking p bytes r data)

namespace KeepsOwners

variable {P : State → Prop}

theorem takeAllDue (k : KeepsOwners P) (s : State) (h : P s) : P s.takeAllDue := by
  unfold State.takeAllDue
  generalize s.queue.length = n
  induction n generalizing s with
  | zero => exact h
  | succ n ih => exact ih _ (k.due s h)

/-- Every request does, to what every owner's effects keep, what the end of its port's takings does. -/
theorem request (k : KeepsOwners P) (Q : State → Prop) {i : Instr} {p : Port} {d f : Bool} {role : Option Role}
    (hrow : admissionRow i = some (p, d, f, role)) (s t : State) (hidle : s.awaits p i = false → P s → Q s)
    (hfinish : ∀ (u : State) r data, P u → Q (u.finishTaking p (s.frameBytes p) r data)) (h : P s)
    (ht : Machine.exec i s = .next t) : Q t := by
  have req : ∀ (q : Port) (d f : Bool) (role : Option Role) (owner : State → Answer),
      admissionRow i = some (q, d, f, role) → (s.takes i → P s → P (owner s).state) →
      Q (takeRequest ⟨d, f, role⟩ q i owner s) := by
    intro q d f role owner hq ho
    cases hrow.symm.trans hq
    exact takeRequest_keeps P Q p d f role i owner s hrow hidle hfinish ho h
  cases i <;> first
    | (replace hrow : (none : Option (Port × Bool × Bool × Option Role)) = some (p, d, f, role) := hrow
       cases hrow)
    | (have ht' := Host.Outcome.next.inj ht; clear ht; subst ht')
  case readTime p => exact req p _ _ _ _ rfl fun hh => k.readTime s p hh
  case stepTime p offset mode =>
    refine req p _ _ _ _ rfl fun hh hp => ?_
    unfold stepTimeOwner
    split
    · exact h
    · next hf => exact k.stepTime s p offset mode hh (by simpa using hf) h (k.takeAllDue s h)
  case setRate p n c => exact req p _ _ _ _ rfl fun hh => k.setRate s p n c hh
  case setFrame p n => exact req p _ _ _ _ rfl fun hh => k.setFrame s p n hh
  case acquireLines p m t f =>
    refine req p _ _ _ _ rfl fun hh hp => ?_
    unfold acquireLinesOwner
    split
    · exact h
    · next hf => exact k.acquire s p m t f hh (by simpa using hf) h
  case renewLines p m =>
    refine req p _ _ _ _ rfl fun hh hp => ?_
    unfold renewLinesOwner
    split
    · exact h
    · next hf => exact k.renew s p m hh (by simpa using hf) h
  case releaseLines p m =>
    refine req p _ _ _ _ rfl fun hh hp => ?_
    unfold releaseLinesOwner
    split
    · exact h
    · exact k.release s p m hh h
  case revokeLines p m => exact req p _ _ _ _ rfl fun hh => k.revoke s p m hh
  case forceLines p m f => exact req p _ _ _ _ rfl fun _ _ => k.force s m (some f) h
  case unforceLines p m => exact req p _ _ _ _ rfl fun _ _ => k.force s m none h
  case readLines p => exact req p _ _ _ _ rfl fun _ _ => h
  case submit p x =>
    refine req p _ _ _ _ rfl fun hh hp => ?_
    unfold submitOwner
    split
    · exact h
    split
    · exact h
    split
    · exact h
    split
    · exact h
    split
    · exact h
    · next h1 h2 h3 h4 h5 =>
      have ha := k.submit s p x hh (by simpa using h1) (by simpa using h2) (by simpa using h4) (by simpa using h5) h
      show P (s.admitEntries p x)
      exact k.admitting _ p x s.mc ha
  case cancel p tag =>
    refine req p _ _ _ _ rfl fun hh hp => ?_
    unfold cancelOwner
    dsimp only
    split
    · exact h
    split
    · exact h
    · next h1 h2 =>
      refine k.cancel s p tag hh ?_ h
      by_cases hs : stagedTagged p tag s = []
      · exact Or.inl hs
      · refine Or.inr ?_
        by_contra hc
        apply h1
        have : ((s.port p).batch.state == .armed) = true := by
          unfold Batch.state; rw [if_pos (Option.isSome_iff_ne_none.2 hc)]; rfl
        simp [this, hs]
  case cancelLines p m => exact req p _ _ _ _ rfl fun hh => k.cancelLines s p m hh
  case readQueue p => exact req p _ _ _ _ rfl fun _ _ => h
  case readCompletions p n => exact req p _ _ _ _ rfl fun hh => k.readCompletions s p n hh
  case stage p x =>
    refine req p _ _ _ _ rfl fun hh hp => ?_
    unfold stageOwner
    dsimp only
    split
    · exact h
    split
    · exact h
    split
    · exact h
    split
    · exact h
    · next h1 h2 h3 h4 => exact k.stage s p x hh (by simpa using h2) (by simpa using h3) (Nat.not_lt.1 h4) h
  case commitBatch p n =>
    refine req p _ _ _ _ rfl fun hh hp => ?_
    unfold commitBatchOwner
    split
    · exact h
    split
    · exact h
    · exact h
    · next ho => exact k.commit s p n _ hh ho h
  case discardBatch p => exact req p _ _ _ _ rfl fun hh => k.discard s p hh
  case configInput p m n e =>
    refine req p _ _ _ _ rfl fun hh hp => ?_
    unfold configInputOwner
    split
    · exact h
    · exact k.configure s p m n e hh h
  case subscribe p m => exact req p _ _ _ _ rfl fun hh => k.subscribe s p m hh
  case readCaptures p n => exact req p _ _ _ _ rfl fun hh => k.readCaptures s p n hh
  case clearArms p m => exact req p _ _ _ _ rfl fun hh => k.clearArms s p m hh
  case readArms p => exact req p _ _ _ _ rfl fun _ _ => h
  case openPort p =>
    refine req p _ _ _ _ rfl fun hh hp => ?_
    unfold openPortOwner
    split
    · exact h
    · next ha => exact k.openPort s p hh (by simpa using ha) h
  case closePort p => exact req p _ _ _ _ rfl fun hh => k.closePort s p hh
  case claimRole p r =>
    refine req p _ _ _ _ rfl fun hh hp => ?_
    unfold claimRoleOwner
    split
    · next hn => exact k.claimRole s p r hh hn h
    · split
      · exact h
      · exact h
  case releaseRole p r =>
    refine req p _ _ _ _ rfl fun hh hp => ?_
    unfold releaseRoleOwner
    split
    · exact h
    · exact k.releaseRole s p r hh h
  case fencePort p t =>
    refine req p _ _ _ _ rfl fun hh hp => ?_
    unfold fencePortOwner
    split
    · exact h
    split
    · exact h
    · next h1 h2 => exact k.fencePort s p t hh h1 (by simpa using h2) h
  case setQuota p t n =>
    refine req p _ _ _ _ rfl fun hh hp => ?_
    unfold setQuotaOwner
    split
    · exact h
    split
    · exact h
    split
    · exact h
    · next h1 h2 h3 => exact k.setQuota s p t n hh (Nat.not_lt.1 h2) (Nat.not_lt.1 h3) h
  case readStatus p => exact req p _ _ _ _ rfl fun _ _ => h
  case readEvents p m => exact req p _ _ _ _ rfl fun _ _ => k.readEvents s p m h
  case setEventMask p m => exact req p _ _ _ _ rfl fun _ _ => k.setEventMask s p m h

end KeepsOwners

namespace KeepsInCycle

variable {P : State → Prop}

theorem validateIfDue (k : KeepsInCycle P) (s : State) (p : Port) (h : P s) : P (s.validateIfDue p) := by
  unfold State.validateIfDue
  split
  · next hd => exact k.validate s p hd h
  · exact h

/-- A request taken in the cycle that owes it. -/
theorem takeFrame (k : KeepsInCycle P) (s : State) (p : Port) (h : P s) : P (s.takeFrame p) := by
  unfold State.takeFrame
  split
  · exact h
  · next i hi =>
    obtain ⟨x, hx⟩ := PortState.owedRequest_requester hi
    split
    · next t ht =>
      rw [execRequest_eq i s hx] at ht
      exact k.toKeepsOwners.request P hx s t (fun _ h => h) (fun u r d hu => k.finish u p _ r d hu) h ht
    · exact h
    · exact h

/-- The recognition of a rising CS_N is one of the rows that recognise one. -/
theorem recogniseNext (k : KeepsInCycle P) (s : State) (p : Port) (h : P s) :
    P (s.modifyPort p (PortState.recogniseNext p)) := by
  have row : ∀ g : PortState → PortState, (s.port p).recogniseNext p = g (s.port p) → P (s.modifyPort p g) →
      P (s.modifyPort p (PortState.recogniseNext p)) := fun g hg hp => by rwa [State.modifyPort_congr s p hg]
  have hr : ∀ c, (s.port p).recognisable = c → (s.port p).recogniseNext p = match c with
      | none => s.port p
      | some .whole => (s.port p).checkInHand p
      | some .aborted => (s.port p).requestRecognised
      | some .dropped => (s.port p).requestRecognised
      | some .unknown => (s.port p).unknownRecognised
      | some .fetched => (s.port p).fetchRecognised := fun c hc => by subst hc; rfl
  cases hc : (s.port p).recognisable with
  | none => rw [State.modifyPort_same s p (hr _ hc)]; exact h
  | some c =>
    cases c
    · exact row _ (hr _ hc) (k.check s p h)
    · exact row _ (hr _ hc) (k.request s p .recognised h)
    · exact row _ (hr _ hc) (k.request s p .recognised h)
    · exact row _ (hr _ hc) (k.unknown s p 0x00 .recognised h)
    · exact row _ (hr _ hc) (k.fetch s p .recognised h)

theorem recogniseAll (k : KeepsInCycle P) (s : State) (p : Port) (h : P s) : P (s.recogniseAll p) := by
  unfold State.recogniseAll
  generalize (s.port p).risen.length = n
  induction n generalizing s with
  | zero => rwa [State.modifyPort_same s p rfl]
  | succ n ih =>
    have := ih _ (k.recogniseNext s p h)
    rwa [State.modifyPort_modifyPort] at this

theorem finishBlocks (k : KeepsInCycle P) (s : State) (h : P s) : P s.finishBlocks :=
  State.finishBlocks_keeps P k.sample k.strobe k.boundary k.validateIfDue k.expire k.takeAllDue s h

theorem finishLinks (k : KeepsInCycle P) (s : State) (h : P s) : P s.finishLinks := by
  have fold : ∀ (f : State → Port → State) (_ : ∀ u p, P u → P (f u p)) (xs : List Port) (u : State), P u →
      P (xs.foldl f u) := by
    intro f hf xs
    induction xs with
    | nil => exact fun _ h => h
    | cons x xs ih => exact fun u hu => ih _ (hf _ _ hu)
  exact fold _ k.recogniseAll _ _ (fold _ k.takeFrame _ _ h)

theorem finishCycle (k : KeepsInCycle P) (s : State) (h : P s) : P s.finishCycle :=
  k.finishBlocks _ (k.finishLinks s h)

/-- The commands that move RST_N or run a REFCLK cycle. -/
def startsCycle : Instr → Bool
  | .powerOnReset => true
  | .resetAsserted => true
  | .increment _ => true
  | .correctionCycle _ => true
  | .slewDone _ => true
  | _ => false

/-- Every other command keeps what every operation within a cycle keeps. -/
theorem exec (k : KeepsInCycle P) (i : Instr) (hi : startsCycle i = false) (s t : State) (h : P s)
    (ht : Machine.exec i s = .next t) : P t := by
  have ite : ∀ (b : Bool) (u : State), P u → P (if b then s else u) := by
    intro b u hu; cases b <;> [exact hu; exact h]
  rcases hrow : admissionRow i with _ | ⟨p, d, f, role⟩
  swap
  · exact k.toKeepsOwners.request P hrow s t (fun _ h => h) (fun u r x hu => k.finish u p _ r x hu) h ht
  cases i <;> first
    | (replace hrow : (none : Option (Port × Bool × Bool × Option Role)) = none := hrow
       have ht' := Host.Outcome.next.inj ht; clear ht hrow; subst ht')
    | cases hrow
  case powerOnReset => cases hi
  case increment pins => cases hi
  case correctionCycle pins => cases hi
  case slewDone pins => cases hi
  case frameBoundary => exact ite _ _ (k.boundary s h)
  case batchValidation p => exact ite _ _ (k.validateIfDue s p h)
  case leaseExpiry l => exact ite _ _ (k.expire s l h)
  case dueEvent => exact ite _ _ (k.due s h)
  case reportMove p => exact ite _ _ (k.moveReports s p h)
  case strobeEdge p => exact ite _ _ (k.strobe s p h)
  case edgeDelivery c => exact ite _ _ (by split <;> [exact k.sample s c h; exact h])
  case requestTransaction p part => split <;> [exact k.ignored s p _ h; exact k.request s p part h]
  case unknownTransaction p first part => split <;> [exact k.ignored s p _ h; exact k.unknown s p first part h]
  case frameCheck p => exact ite _ _ (k.check s p h)
  case fetchTransaction p part => split <;> [exact k.ignored s p _ h; exact k.fetch s p part h]
  case resetAsserted => cases hi
  case channelSample c => exact ite _ _ (k.sample s c h)
end KeepsInCycle

/-- A property that every operation of the part keeps, the beginning of a cycle where no entry that has fallen due waits. -/
structure Keeps (P : State → Prop) : Prop extends KeepsInCycle P where
  released : ∀ s : State, P s → P s.released
  asserted : ∀ s : State, P s → P s.asserted
  showPins : ∀ s : State, P s → P s.showPins
  synchronise : ∀ (s : State) (pins : Pins), P s → P (s.synchronise pins)
  beginCycle : ∀ (s : State) (pins : Pins), s.dueHead = none → P s → P (s.beginCycle pins)

namespace Keeps

variable {P : State → Prop}

theorem cycle (k : Keeps P) (s : State) (pins : Pins) (h : P s) : P (s.cycle pins) := by
  unfold State.cycle
  split
  · exact k.synchronise s pins h
  · exact k.beginCycle _ pins (State.takeAllDue_dueHead _) (k.finishCycle s h)

/-- Every command keeps what every operation keeps. -/
theorem exec (k : Keeps P) (i : Instr) (s t : State) (h : P s) (ht : Machine.exec i s = .next t) : P t := by
  by_cases hi : KeepsInCycle.startsCycle i = false
  · exact k.toKeepsInCycle.exec i hi s t h ht
  · cases i <;> first
      | exact absurd rfl hi
      | (have ht' := Host.Outcome.next.inj ht; clear ht; subst ht')
    case powerOnReset => exact k.released s h
    case increment pins => exact k.cycle s pins h
    case correctionCycle pins => split <;> [exact k.cycle s pins h; exact h]
    case slewDone pins => split <;> [exact k.cycle s pins h; exact h]
    case resetAsserted => exact k.showPins _ (k.asserted s h)

/-- Every step keeps what every operation keeps, where the queue of commands has no part in it. -/
theorem step (k : Keeps P) (hq : ∀ (s : State) (q : List Instr), P s → P { s with pending := q }) (s t : State) (h : P s)
    (ht : Machine.step s = .next t) : P t := by
  unfold Machine.step at ht
  split at ht
  · cases ht; exact h
  · exact k.exec _ _ _ (hq s _ h) ht

end Keeps

end Sys2Proof.Machine
end

