-- ==== Sys2Proof/Laws/Protocol.lean ====
section
/-! SUPPORT. What happens on a port's link changes that port's protocol state and its event set at most: one relation between
a port's state and a later one, with one lemma per operation, and the recognition of a rising CS_N in each case. -/

namespace Sys2Proof.Machine

/-- A part of a transaction that leaves CS_N where it is changes nothing on an ignored link. -/
@[simp] theorem PortState.moveIgnored_none (ps : PortState) : ps.moveIgnored none = ps := by
  have h : ps.link.moveIgnored none = ps.link := by cases ps.link <;> rfl
  unfold PortState.moveIgnored
  rw [h]

/-- Where a move leaves CS_N settles an ignored link; a link that carries a transaction is left alone (10 R157). -/
theorem PortState.moveIgnored_some (low : Bool) (ps : PortState) :
    ps.moveIgnored (some low) = { ps with
      link := if ps.link = .idle ∨ ps.link = .ignored then (if low then .ignored else .idle) else ps.link } := by
  have h : ps.link.moveIgnored (some low) =
      if ps.link = .idle ∨ ps.link = .ignored then (if low then .ignored else .idle) else ps.link := by
    cases ps.link <;> cases low <;> rfl
  unfold PortState.moveIgnored
  rw [h]

/-- The port differs in its protocol state, its link and its event set at most, and in the event set not by a kind that
carries a result. -/
structure PortState.onlyTalks (ps ps' : PortState) : Prop where
  rest : ps' = { ps with
    engine := ps'.engine, frame := ps'.frame, checkedNow := ps'.checkedNow, reply := ps'.reply
    lastExecuted := ps'.lastExecuted, overrun := ps'.overrun, link := ps'.link, risen := ps'.risen, miso := ps'.miso, events := ps'.events }
  results : hasKind ps'.events .batchDone = hasKind ps.events .batchDone ∧
    hasKind ps'.events .slewDone = hasKind ps.events .slewDone

namespace PortState.onlyTalks

theorem refl (ps : PortState) : ps.onlyTalks ps := ⟨rfl, rfl, rfl⟩

theorem trans {a b c : PortState} (h : a.onlyTalks b) (h' : b.onlyTalks c) : a.onlyTalks c where
  rest := by
    have h1 := h.rest; have h2 := h'.rest
    rw [h2] at ⊢; rw [h1]
  results := ⟨h'.results.1.trans h.results.1, h'.results.2.trans h.results.2⟩

/-- A change that leaves the event set alone. -/
theorem of_rest {ps ps' : PortState} (h : ps' = { ps with
    engine := ps'.engine, frame := ps'.frame, checkedNow := ps'.checkedNow, reply := ps'.reply
    lastExecuted := ps'.lastExecuted, overrun := ps'.overrun, link := ps'.link, risen := ps'.risen, miso := ps'.miso }) : ps.onlyTalks ps' := by
  have he : ps'.events = ps.events := (congrArg PortState.events h :)
  exact ⟨by rw [he]; exact h, by rw [he], by rw [he]⟩

theorem raise (k : EventKind) (hb : k ≠ .batchDone) (hs : k ≠ .slewDone) (ps : PortState) : ps.onlyTalks (ps.raise k) := by
  unfold PortState.raise
  split
  · exact ⟨rfl, by simp [hasKind_raise, hb.symm], by simp [hasKind_raise, hs.symm]⟩
  · exact refl _

theorem riseTaken (ps : PortState) : ps.onlyTalks ps.riseTaken := of_rest rfl

theorem csRises (c : RiseChange) (ps : PortState) : ps.onlyTalks (ps.csRises c) := of_rest rfl

theorem moveIgnored (low : Option Bool) (ps : PortState) : ps.onlyTalks (ps.moveIgnored low) := of_rest rfl

theorem requestBegins (ps : PortState) : ps.onlyTalks ps.requestBegins := by
  unfold PortState.requestBegins
  split
  · exact refl _
  · exact refl _
  · exact refl _
  · split <;> exact of_rest rfl

theorem requestByte (b : Byte) (ps : PortState) : ps.onlyTalks (ps.requestByte b) := by
  unfold PortState.requestByte
  split <;> exact of_rest rfl

theorem requestEnds (bits : Fin 8) (ps : PortState) : ps.onlyTalks (ps.requestEnds bits) := by
  unfold PortState.requestEnds
  split
  · exact refl _
  · exact moveIgnored ..
  · exact csRises ..
  · exact csRises ..

theorem abortFrame (ps : PortState) : ps.onlyTalks ps.abortFrame := by
  unfold PortState.abortFrame
  dsimp only
  exact (of_rest rfl).trans (raise _ (by decide) (by decide) _)

theorem requestRecognised (ps : PortState) : ps.onlyTalks ps.requestRecognised := by
  unfold PortState.requestRecognised
  split
  · exact (riseTaken ps).trans (abortFrame _)
  · exact of_rest rfl
  · exact refl _

theorem clockRequest (part : RequestPart) (ps : PortState) : ps.onlyTalks (ps.clockRequest part) := by
  have fold : ∀ (bs : List Byte) (ps : PortState), ps.onlyTalks (bs.foldl (fun acc b => acc.requestByte b) ps) := by
    intro bs
    induction bs with
    | nil => exact fun _ => refl _
    | cons b bs ih => exact fun ps => (requestByte b ps).trans (ih _)
  cases part with
  | begins => exact requestBegins ps
  | byte b => exact requestByte b ps
  | csRises bits => exact requestEnds bits ps
  | whole rest bits =>
    unfold PortState.clockRequest
    dsimp only
    split
    · exact ((requestBegins ps).trans (fold _ _)).trans (requestEnds ..)
    · exact moveIgnored ..
    · exact refl _
    · exact refl _
  | recognised => exact requestRecognised ps

theorem unknownTransaction (first : Byte) (part : UnknownPart) (ps : PortState) :
    ps.onlyTalks (ps.unknownTransaction first part) := by
  unfold PortState.unknownTransaction
  split
  · exact refl _
  · cases part with
    | clocked further =>
      unfold PortState.unknownClocked
      dsimp only
      split
      · exact of_rest rfl
      · exact moveIgnored ..
      · exact refl _
      · exact refl _
    | recognised =>
      unfold PortState.unknownRecognised
      dsimp only
      split
      · exact (riseTaken ps).trans (raise _ (by decide) (by decide) _)
      · exact refl _

theorem placeReply (reply : Reply) (repeated : Bool) (ps : PortState) : ps.onlyTalks (ps.placeReply reply repeated) := by
  unfold PortState.placeReply
  dsimp only
  exact (of_rest rfl).trans (raise _ (by decide) (by decide) _)

theorem checkBytes (p : Port) (bytes : List Byte) (ps : PortState) : ps.onlyTalks (ps.checkBytes p bytes) := by
  have refuse : ∀ r, ps.onlyTalks (ps.refuseFrame bytes r) := fun r => by
    unfold PortState.refuseFrame
    exact (of_rest rfl).trans (placeReply ..)
  unfold PortState.checkBytes
  split
  · exact refuse _
  · exact refuse _
  · exact refuse _
  · exact refuse _
  · unfold PortState.acceptFrame
    split
    · split
      · exact (of_rest rfl).trans (placeReply ..)
      · exact of_rest rfl
    · exact of_rest rfl

theorem checkReceived (p : Port) (ps : PortState) : ps.onlyTalks (ps.checkReceived p) := by
  unfold PortState.checkReceived
  split
  · exact checkBytes ..
  · exact refl _

theorem checkInHand (p : Port) (ps : PortState) : ps.onlyTalks (ps.checkInHand p) := by
  unfold PortState.checkInHand
  split
  · exact (riseTaken ps).trans (checkReceived ..)
  · exact refl _

theorem clearReplyReady (ps : PortState) : ps.onlyTalks (ps.clearEvents EventKind.replyReady.mask) where
  rest := rfl
  results := by
    have hb : hasKind EventKind.replyReady.mask .batchDone = false := by decide
    have hs : hasKind EventKind.replyReady.mask .slewDone = false := by decide
    simp only [PortState.clearEvents, hasKind_and, hasKind_not, hb, hs, Bool.not_false, Bool.and_true, and_self]

theorem fetch (part : FetchPart) (ps : PortState) : ps.onlyTalks (ps.fetch part) := by
  cases part with
  | clocked n =>
    unfold PortState.fetch PortState.fetchClocked
    dsimp only
    split
    · split
      · exact refl _
      · split <;> exact of_rest rfl
    · exact moveIgnored ..
    · exact refl _
    · exact refl _
  | recognised =>
    unfold PortState.fetch PortState.fetchRecognised
    dsimp only
    split
    · exact (of_rest rfl).trans (clearReplyReady _)
    · exact refl _

theorem abandon (ps : PortState) : ps.onlyTalks ps.abandon := of_rest rfl

/-- The end of a taking, at its own port. -/
theorem finishTaking (s : State) (p q : Port) (bytes : List Byte) (r : ResultCode) (data : List Byte) :
    (s.port q).onlyTalks ((s.finishTaking p bytes r data).port q) := by
  unfold State.finishTaking
  dsimp only
  rw [State.modifyPort_port]
  split
  · next h => subst h; exact (of_rest rfl).trans (placeReply ..)
  · exact refl _

end PortState.onlyTalks

end Sys2Proof.Machine
end

