-- ==== Sys2Proof/Laws/Roles.lean ====
section
/-! SUPPORT. What the loss of roles does, and who holds the lines that PENDING entries name. -/

namespace Sys2Proof.Machine

/-! ## Roles -/

/-- ROLE_CHANGED goes to every ATTACHED port but the one that caused the change (08 R141). -/
theorem State.raiseRoleChanged_eq (s : State) (cause : Port) :
    s.raiseRoleChanged cause = { s with
      ports := s.ports.map fun q ps =>
        if ps.session = .attached ∧ q ≠ cause then { ps with events := ps.events ||| EventKind.roleChanged.mask } else ps } := by
  unfold State.raiseRoleChanged State.mapPorts
  congr 1
  apply PortFile.ext_get; intro q
  rw [PortFile.get_map, PortFile.get_map]
  split
  · next h => rw [PortState.raise_attached _ _ h.1]
  · rfl

/-- Everything the release of a port's roles can do (08 R137 step 1, R142 step 1). -/
theorem State.dropRoles_eq (s : State) (p cause : Port) :
    s.dropRoles p cause = { s with
      slew := if s.timeAuthority = some p then none else s.slew
      timeAuthority := if s.timeAuthority = some p then none else s.timeAuthority
      supervisor := if s.supervisor = some p then none else s.supervisor
      ports := s.ports.map fun q ps =>
        if (s.timeAuthority = some p ∨ s.supervisor = some p) ∧ ps.session = .attached ∧ q ≠ cause then
          { ps with events := ps.events ||| EventKind.roleChanged.mask }
        else ps } := by
  have hid : ∀ f : PortFile, f.map (fun _ ps => ps) = f := fun f => PortFile.ext_get fun q => PortFile.get_map ..
  have hor : ∀ (ps : PortState) (m : EventSet), ps.events ||| m ||| m = ps.events ||| m := by
    intro ps m; rw [BitVec.or_assoc, BitVec.or_self]
  unfold State.dropRoles State.dropTimeAuthority State.dropSupervisor
  dsimp only
  by_cases h1 : s.timeAuthority = some p
  · rw [if_pos h1]
    simp only [State.raiseRoleChanged_eq]
    by_cases h2 : s.supervisor = some p
    · simp only [h1, h2, ↓reduceIte, or_self, true_and]
      congr 1
      apply PortFile.ext_get; intro q
      simp only [PortFile.get_map]
      by_cases hq : (s.ports.get q).session = .attached ∧ q ≠ cause
      · simp only [if_pos hq, hor]
      · simp only [if_neg hq]
    · simp only [h1, h2, ↓reduceIte, or_false, true_and]
  · rw [if_neg h1]
    by_cases h2 : s.supervisor = some p
    · simp only [State.raiseRoleChanged_eq, h1, h2, ↓reduceIte, false_or, true_and]
    · simp only [h1, h2, ↓reduceIte, or_self, false_and, hid]

/-! ## Who holds a line -/

theorem State.holds_congr {s t : State} (h : t.lines = s.lines) (p : Port) (l : Line) : t.holds p l = s.holds p l := by
  unfold State.holds State.line; rw [h]

theorem State.heldLines_congr {s t : State} (h : t.lines = s.lines) (p : Port) : t.heldLines p = s.heldLines p := by
  unfold State.heldLines; simp only [State.holds_congr h]

theorem State.linesAfterEnds_congr {s t : State} (h : t.lines = s.lines) (m : LineSet) :
    t.linesAfterEnds m = s.linesAfterEnds m := by
  unfold State.linesAfterEnds State.line; rw [h]

theorem State.leasedIn_congr {s t : State} (h : t.lines = s.lines) (m : LineSet) : t.leasedIn m = s.leasedIn m := by
  unfold State.leasedIn State.line; rw [h]

theorem State.leasedIn_heldLines (s : State) (p : Port) : s.leasedIn (s.heldLines p) = s.heldLines p := by
  apply set_ext; intro l
  unfold State.leasedIn State.heldLines
  rw [bitsWhere_getElem, bitsWhere_getElem]
  unfold State.holds
  cases (s.line l).lease <;> simp

theorem State.holds_unique (s : State) (p q : Port) (l : Line) (h : s.holds p l = true) (h' : s.holds q l = true) :
    p = q := by
  unfold State.holds at *
  split at h
  · simp_all
  · cases h

/-- An entry on a line that a port holds belongs to that port, where entries stand only on their own ports' lines. -/
theorem State.namesHeld_port (s : State) (p : Port) (e : Entry)
    (he : ∀ l, e.action.line? = some l → s.holds e.port l = true) (h : namesLineIn (s.heldLines p) e = true) :
    e.port = p := by
  unfold namesLineIn at h
  split at h
  · next l hl =>
    unfold State.heldLines at h
    rw [bitsWhere_getElem] at h
    exact State.holds_unique s _ _ l (he l hl) h
  · cases h

end Sys2Proof.Machine
end

