-- ==== Sys2Proof/Laws/Steps.lean ====
section
/-! SUPPORT. What a step of MC changes, part by part (01 R9 to R13). -/

namespace Sys2Proof.Machine

theorem State.cancelSlew_rest (s : State) : s.cancelSlew = { s with slew := none, ports := s.cancelSlew.ports } := by
  unfold State.cancelSlew
  split
  · dsimp only
    split <;> rfl
  · next h =>
    have : s.slew = none := by simpa using h
    rw [← this]

theorem State.cancelSlew_port (s : State) (q : Port) :
    s.cancelSlew.port q = if s.slew ≠ none ∧ s.timeAuthority = some q then (s.port q).raiseSlewDone .cancelled
      else s.port q := by
  unfold State.cancelSlew
  split
  · next h =>
    have h1 : s.slew ≠ none := by intro hc; rw [hc] at h; cases h
    dsimp only
    split
    · next x hx =>
      rw [State.modifyPort_port]
      by_cases hq : q = x
      · subst hq; rw [if_pos rfl, if_pos ⟨h1, hx⟩]; rfl
      · rw [if_neg hq, if_neg]; · rfl
        rintro ⟨_, hc⟩; rw [hx] at hc; exact hq (Option.some.inj hc).symm
    · next hx => rw [if_neg]; · rfl
                 rintro ⟨_, hc⟩; rw [hx] at hc; cases hc
  · next h => rw [if_neg]; rintro ⟨hc, _⟩; exact h (Option.isSome_iff_ne_none.2 hc)

theorem State.offerStep_port (s : State) (offset : Int) (q : Port) :
    (s.offerStep offset).port q =
      if (s.port q).session = .attached then (s.port q).offer (.step offset) s.mc else s.port q := PortFile.get_map ..

theorem State.onlyTakes.offerStep (s : State) (offset : Int) : s.onlyTakes (s.offerStep offset) :=
  .mapPorts _ _ fun q => by split <;> first | exact .offer .. | exact .refl _

theorem State.onlyTakes.sweep (es : List Entry) (s : State) : s.onlyTakes (s.sweep es) := by
  induction es generalizing s with
  | nil => exact .refl _
  | cons e es ih =>
    refine State.onlyTakes.trans (b := if e ∈ s.queue then s.takeEntry e else s) ?_ (ih _)
    split
    · exact .takeEntry ..
    · exact .refl _

/-- A step, before its overtaken entries are taken or skipped: MC, the slew and the ports move, and nothing else. -/
def State.stepBegun (s : State) (offset : Int) : State :=
  (({ s with mc := movedBy s.mc offset }).cancelSlew).offerStep offset

theorem State.stepBegun_rest (s : State) (offset : Int) :
    s.stepBegun offset = { s with
      mc := movedBy s.mc offset, slew := none, ports := (s.stepBegun offset).ports } := by
  have h := (State.onlyTakes.offerStep (({ s with mc := movedBy s.mc offset } : State).cancelSlew) offset).rest
  unfold State.stepBegun
  have h1 : ∀ u : State, u.offerStep offset = { u with ports := (u.offerStep offset).ports } := fun _ => rfl
  rw [h1, State.cancelSlew_rest]

/-- What the beginning of a step does at a port: SLEW_DONE CANCELLED for a slew in progress at the holder of
TIME_AUTHORITY, and the STEP record offered where it is ATTACHED. -/
theorem State.stepBegun_port (s : State) (offset : Int) (q : Port) :
    (s.stepBegun offset).port q =
      let c := if s.slew ≠ none ∧ s.timeAuthority = some q then (s.port q).raiseSlewDone .cancelled else s.port q
      if (s.port q).session = .attached then c.offer (.step offset) (movedBy s.mc offset) else c := by
  have hmc : (State.cancelSlew { s with mc := movedBy s.mc offset }).mc = movedBy s.mc offset := by
    rw [State.cancelSlew_rest]
  have hss : ∀ ps : PortState, (ps.raiseSlewDone .cancelled).session = ps.session := by
    intro ps; unfold PortState.raiseSlewDone; split <;> rfl
  unfold State.stepBegun
  rw [State.offerStep_port, hmc]
  have hc := State.cancelSlew_port { s with mc := movedBy s.mc offset } q
  have hp : State.port { s with mc := movedBy s.mc offset } q = s.port q := rfl
  rw [hp] at hc
  rw [hc]
  dsimp only
  by_cases h : s.slew ≠ none ∧ s.timeAuthority = some q
  · rw [if_pos h, hss]
  · rw [if_neg h]

theorem State.stepMove_sweep (s : State) (offset : Int) :
    s.stepMove offset .sweep = (s.stepBegun offset).sweep (overtaken offset s) := rfl

theorem State.stepMove_skip (s : State) (offset : Int) :
    s.stepMove offset .skip = (s.stepBegun offset).retireAll (overtaken offset s) .skipped := rfl

/-- Everything but MC, the slew, SLEW_DONE's record and what the taking of entries changes stays through a step. -/
theorem State.stepMove_onlyTakes (s : State) (offset : Int) (mode : StepMode) :
    (s.stepBegun offset).onlyTakes (s.stepMove offset mode) := by
  cases mode
  · exact .sweep ..
  · exact .retireAll ..

/-! ## The overtaken entries are gone -/

/-- A sweep takes each entry of its list as often as the list names it. -/
theorem State.sweep_count (es : List Entry) (s : State) (x : Entry) :
    (s.sweep es).queue.count x ≤ s.queue.count x - es.count x := by
  induction es generalizing s with
  | nil => exact le_rfl
  | cons e es ih =>
    have hs : s.sweep (e :: es) = (if e ∈ s.queue then s.takeEntry e else s).sweep es := rfl
    rw [hs]
    refine (ih _).trans ?_
    rw [List.count_cons]
    split
    · have hsub : (s.takeEntry e).queue.Sublist (s.queue.erase e) := by
        rcases State.takeEntry_queue s e with h | ⟨t, _, _, h⟩
        · rw [h]
        · rw [h]; exact List.erase_sublist
      have h1 := hsub.count_le x
      rw [List.count_erase] at h1
      split <;> simp_all <;> omega
    · next hn =>
      by_cases hx : (e == x) = true
      · have : e = x := by simpa using hx
        subst this
        rw [List.count_eq_zero.2 hn]; simp
      · simp [hx]

theorem State.retireAll_queue (es : List Entry) (s : State) (o : Outcome) :
    (s.retireAll es o).queue = es.foldl List.erase s.queue := by
  induction es generalizing s with
  | nil => rfl
  | cons e es ih =>
    have hs : s.retireAll (e :: es) o = (s.retire e o).retireAll es o := rfl
    rw [hs, ih, State.retire_queue, List.foldl_cons]

/-- After a step no overtaken entry is PENDING (01 R10, 04 R73, R75). -/
theorem State.stepMove_gone (s : State) (offset : Int) (mode : StepMode) :
    ∀ e ∈ (s.stepMove offset mode).queue,
      ¬ (0 < distance s.mc e.dueTime ∧ (distance s.mc e.dueTime : Int) ≤ offset) := by
  intro e he hc
  have hq : (s.stepBegun offset).queue = s.queue := by rw [State.stepBegun_rest]
  have hover : (decide (0 < distance s.mc e.dueTime) && decide ((distance s.mc e.dueTime : Int) ≤ offset)) = true := by
    simp [hc.1, hc.2]
  cases mode with
  | sweep =>
    rw [State.stepMove_sweep] at he
    have h1 := State.sweep_count (overtaken offset s) (s.stepBegun offset) e
    have h2 : (overtaken offset s).count e = s.queue.count e := List.count_filter hover
    rw [hq, h2, Nat.sub_self] at h1
    have := List.count_pos_iff.2 he
    omega
  | skip =>
    rw [State.stepMove_skip, State.retireAll_queue, hq] at he
    have h1 : (overtaken offset s).foldl List.erase s.queue = _ := foldl_erase_filter _ _
    rw [h1, List.mem_filter] at he
    rw [hover] at he
    exact absurd he.2 (by decide)

end Sys2Proof.Machine
end

