-- ==== Sys2Proof/Laws/Links.lean ====
section
/-! SUPPORT. What no request's owner and no event of another block touches: RST_N, the queue of commands, and each port's
protocol state and link. With it, what a cycle's takings and recognitions leave owed at the links. -/

namespace Sys2Proof.Machine

/-! ## What stays -/

/-- The port keeps its protocol state, its link and the rising edges that wait (10 R159). -/
structure PortState.keepsLink (ps ps' : PortState) : Prop where
  engine : ps'.engine = ps.engine
  frame : ps'.frame = ps.frame
  checkedNow : ps'.checkedNow = ps.checkedNow
  link : ps'.link = ps.link
  risen : ps'.risen = ps.risen
  reply : ps'.reply = ps.reply
  lastExecuted : ps'.lastExecuted = ps.lastExecuted
  overrun : ps'.overrun = ps.overrun

theorem PortState.keepsLink.refl (ps : PortState) : ps.keepsLink ps := ⟨rfl, rfl, rfl, rfl, rfl, rfl, rfl, rfl⟩

theorem PortState.keepsLink.trans {a b c : PortState} (h : a.keepsLink b) (h' : b.keepsLink c) : a.keepsLink c :=
  ⟨h'.engine.trans h.engine, h'.frame.trans h.frame, h'.checkedNow.trans h.checkedNow, h'.link.trans h.link,
    h'.risen.trans h.risen, h'.reply.trans h.reply, h'.lastExecuted.trans h.lastExecuted, h'.overrun.trans h.overrun⟩

theorem PortState.onlyWork.keepsLink {ps ps' : PortState} (h : ps.onlyWork ps') : ps.keepsLink ps' := by
  unfold PortState.onlyWork at h
  rw [h]; exact ⟨rfl, rfl, rfl, rfl, rfl, rfl, rfl, rfl⟩

theorem PortState.keepsLink.owedRequest {ps ps' : PortState} (h : ps.keepsLink ps') (p : Port) :
    ps'.owedRequest p = ps.owedRequest p := by
  unfold PortState.owedRequest
  rw [h.engine, h.frame, h.checkedNow]

theorem PortState.keepsLink.recognisable {ps ps' : PortState} (h : ps.keepsLink ps') :
    ps'.recognisable = ps.recognisable := by
  unfold PortState.recognisable
  rw [h.risen]

/-- RST_N, the mark of the first cycle after release and the queue of commands stay, and every port keeps its link. -/
structure State.leavesLinks (s t : State) : Prop where
  inReset : t.inReset = s.inReset
  freshRelease : t.freshRelease = s.freshRelease
  pending : t.pending = s.pending
  port : ∀ q, (s.port q).keepsLink (t.port q)

namespace State.leavesLinks

theorem refl (s : State) : s.leavesLinks s := ⟨rfl, rfl, rfl, fun _ => .refl _⟩

theorem trans {a b c : State} (h : a.leavesLinks b) (h' : b.leavesLinks c) : a.leavesLinks c :=
  ⟨h'.inReset.trans h.inReset, h'.freshRelease.trans h.freshRelease, h'.pending.trans h.pending,
    fun q => (h.port q).trans (h'.port q)⟩

theorem of_work {s t : State} (h : s.onlyWork t) : s.leavesLinks t :=
  ⟨(congrArg State.inReset h.rest :), (congrArg State.freshRelease h.rest :), (congrArg State.pending h.rest :),
    fun q => (h.port q).keepsLink⟩

/-- A change of one port within the relation. -/
theorem modifyPort (s : State) (p : Port) (g : PortState → PortState) (h : (s.port p).keepsLink (g (s.port p))) :
    s.leavesLinks (s.modifyPort p g) :=
  ⟨rfl, rfl, rfl, fun q => by
    rw [State.modifyPort_port]; split
    · next hq => subst hq; exact h
    · exact .refl _⟩

/-- A change of every port within the relation. -/
theorem mapPorts (s : State) (g : Port → PortState → PortState) (h : ∀ q, (s.port q).keepsLink (g q (s.port q))) :
    s.leavesLinks (s.mapPorts g) :=
  ⟨rfl, rfl, rfl, fun q => by rw [State.mapPorts_port]; exact h q⟩

theorem fold {α : Type} (f : State → α → State) (h : ∀ (s : State) x, s.leavesLinks (f s x)) (xs : List α) (s : State) :
    s.leavesLinks (xs.foldl f s) := by
  induction xs generalizing s with
  | nil => exact refl _
  | cons x xs ih => exact (h s x).trans (ih _)

theorem raise (k : EventKind) (ps : PortState) : ps.keepsLink (ps.raise k) := by
  unfold PortState.raise
  split <;> exact ⟨rfl, rfl, rfl, rfl, rfl, rfl, rfl, rfl⟩

theorem raiseSlewDone (r : SlewResult) (ps : PortState) : ps.keepsLink (ps.raiseSlewDone r) := by
  unfold PortState.raiseSlewDone
  split <;> exact ⟨rfl, rfl, rfl, rfl, rfl, rfl, rfl, rfl⟩

theorem moveReports (ps : PortState) : ps.keepsLink ps.moveReports := by
  unfold PortState.moveReports
  dsimp only
  split
  · rw [PortState.raise_frame]; exact ⟨rfl, rfl, rfl, rfl, rfl, rfl, rfl, rfl⟩
  · exact ⟨rfl, rfl, rfl, rfl, rfl, rfl, rfl, rfl⟩

theorem retireAll (s : State) (es : List Entry) (o : Outcome) : s.leavesLinks (s.retireAll es o) :=
  of_work (State.onlyTakes.retireAll ..).work

theorem endLeases (s : State) (m : LineSet) (o : Outcome) : s.leavesLinks (s.endLeases m o) :=
  of_work (.endLeases ..)

theorem mapLines (s : State) (g : Line → LineRecord → LineRecord) : s.leavesLinks (s.mapLines g) := of_work (.mapLines ..)

theorem raiseRoleChanged (s : State) (cause : Port) : s.leavesLinks (s.raiseRoleChanged cause) :=
  mapPorts _ _ fun q => by split <;> first | exact raise _ _ | exact .refl _

theorem dropTimeAuthority (s : State) (cause : Port) : s.leavesLinks (s.dropTimeAuthority cause) :=
  trans (b := { s with timeAuthority := none, slew := none }) ⟨rfl, rfl, rfl, fun _ => .refl _⟩ (raiseRoleChanged ..)

theorem dropSupervisor (s : State) (cause : Port) : s.leavesLinks (s.dropSupervisor cause) :=
  trans (b := { s with supervisor := none }) ⟨rfl, rfl, rfl, fun _ => .refl _⟩ (raiseRoleChanged ..)

theorem dropRoles (s : State) (p cause : Port) : s.leavesLinks (s.dropRoles p cause) := by
  have h1 : s.leavesLinks (if s.timeAuthority = some p then s.dropTimeAuthority cause else s) := by
    split <;> [exact dropTimeAuthority ..; exact refl _]
  have h2 : ∀ u : State, u.leavesLinks (if u.supervisor = some p then u.dropSupervisor cause else u) := by
    intro u; split <;> [exact dropSupervisor ..; exact refl _]
  exact h1.trans (h2 _)

theorem fencedOff (ps : PortState) : ps.keepsLink ps.fencedOff :=
  PortState.keepsLink.trans (b := { ps with subscription := 0, arms := 0 })
    ⟨rfl, rfl, rfl, rfl, rfl, rfl, rfl, rfl⟩ (raise _ _)

theorem stepBegun (s : State) (offset : Int) : s.leavesLinks (s.stepBegun offset) := by
  refine ⟨?_, ?_, ?_, fun q => ?_⟩
  · rw [State.stepBegun_rest]
  · rw [State.stepBegun_rest]
  · rw [State.stepBegun_rest]
  · rw [State.stepBegun_port]
    have told : (s.port q).keepsLink (if s.slew ≠ none ∧ s.timeAuthority = some q then
        (s.port q).raiseSlewDone .cancelled else s.port q) := by
      split
      · exact raiseSlewDone _ _
      · exact .refl _
    dsimp only
    split
    · exact told.trans (PortState.onlyTakes.offer ..).work.keepsLink
    · exact told

theorem stepMove (s : State) (offset : Int) (mode : StepMode) : s.leavesLinks (s.stepMove offset mode) :=
  (stepBegun s offset).trans (of_work (State.stepMove_onlyTakes ..).work)

theorem closeWork (s : State) (p : Port) : s.leavesLinks (s.closeWork p) :=
  (((dropRoles s p p).trans (endLeases ..)).trans (of_work (.freeBatch ..))).trans (retireAll ..)

theorem fence (s : State) (t cause : Port) : s.leavesLinks (s.fence t cause) := by
  have h1 := modifyPort s t (fun ps => { ps with session := .fenced }) ⟨rfl, rfl, rfl, rfl, rfl, rfl, rfl, rfl⟩
  unfold State.fence
  dsimp only
  refine ((((h1.trans (dropRoles _ t cause)).trans (mapLines ..)).trans (retireAll ..)).trans
    (of_work (.freeBatch ..))).trans (modifyPort _ _ _ (fencedOff _))

/-- Every request's owner, and the taking of what has fallen due, leave the links alone. -/
theorem owners {P : State → Prop} (hP : ∀ u t : State, u.leavesLinks t → P u → P t) : KeepsOwners P where
  due u h := hP _ _ (of_work (State.onlyTakes.takeDue u).work) h
  readTime u p _ h := hP _ _ (modifyPort u p (fun ps => { ps with strobe := ⟨ps.strobe.time, false, false⟩ })
    ⟨rfl, rfl, rfl, rfl, rfl, rfl, rfl, rfl⟩) h
  stepTime u p o m _ _ _ h := hP _ _ (stepMove ..) h
  setRate u p k n _ h := hP u _ ⟨rfl, rfl, rfl, fun q => .refl (u.port q)⟩ h
  setFrame u p n _ h := hP u _ ⟨rfl, rfl, rfl, fun q => .refl (u.port q)⟩ h
  acquire u p m t f _ _ h := hP _ _ (mapLines ..) h
  renew u p m _ _ h := hP _ _ (mapLines ..) h
  release u p m _ h := hP _ _ (endLeases ..) h
  revoke u p m _ h := hP _ _ ((endLeases u m .revoked).trans (mapPorts _ _ fun q => by
    split <;> first | exact raise _ _ | exact .refl _)) h
  force u m f h := hP _ _ (mapLines ..) h
  submit u p x _ _ _ _ _ h := hP _ _ (of_work (.enqueue ..)) h
  admitting u p x mc h := hP _ _ (of_work (.modifyPort _ _ _ (.admitting ..))) h
  cancel u p tag _ _ h := hP _ _ ((retireAll u _ _).trans (modifyPort _ _ _ ⟨rfl, rfl, rfl, rfl, rfl, rfl, rfl, rfl⟩)) h
  cancelLines u p m _ h := hP _ _ (retireAll ..) h
  readCompletions u p n _ h := hP _ _ (modifyPort _ _ _ (PortState.keepsLink.trans
    (b := { u.port p with fifo := (u.port p).fifo.drop n }) ⟨rfl, rfl, rfl, rfl, rfl, rfl, rfl, rfl⟩ (moveReports _))) h
  stage u p x _ _ _ _ h := hP _ _ (modifyPort _ _ _ ⟨rfl, rfl, rfl, rfl, rfl, rfl, rfl, rfl⟩) h
  commit u p n t _ _ h := hP _ _ (modifyPort _ _ _ ⟨rfl, rfl, rfl, rfl, rfl, rfl, rfl, rfl⟩) h
  discard u p _ h := hP _ _ (of_work (.freeBatch ..)) h
  configure u p m n e _ h := hP _ _ (by rw [State.configure_eq]; exact ⟨rfl, rfl, rfl, fun _ => .refl _⟩) h
  subscribe u p m _ h := hP _ _ (modifyPort u p
    (fun ps => { ps with subscription := m, arms := ps.arms &&& (ps.subscription &&& m) })
    ⟨rfl, rfl, rfl, rfl, rfl, rfl, rfl, rfl⟩) h
  readCaptures u p n _ h := hP _ _ (modifyPort u p (fun ps => { ps with log := ps.log.drop n })
    ⟨rfl, rfl, rfl, rfl, rfl, rfl, rfl, rfl⟩) h
  clearArms u p m _ h := hP _ _ (modifyPort u p (fun ps => { ps with arms := ps.arms &&& ~~~m })
    ⟨rfl, rfl, rfl, rfl, rfl, rfl, rfl, rfl⟩) h
  openPort u p _ _ h := hP _ _ (modifyPort _ _ _ ⟨rfl, rfl, rfl, rfl, rfl, rfl, rfl, rfl⟩) h
  closePort u p _ h := hP _ _ ((closeWork u p).trans (modifyPort _ _ _ ⟨rfl, rfl, rfl, rfl, rfl, rfl, rfl, rfl⟩)) h
  claimRole u p r _ _ h := hP _ _ (trans (b := u.giveRole r p)
    (by cases r <;> exact ⟨rfl, rfl, rfl, fun _ => .refl _⟩) (raiseRoleChanged ..)) h
  releaseRole u p r _ h := hP _ _ (by cases r <;> [exact dropTimeAuthority ..; exact dropSupervisor ..]) h
  fencePort u p t _ _ _ h := hP _ _ (fence ..) h
  setQuota u p t n _ _ _ h := hP _ _ (modifyPort _ _ _ ⟨rfl, rfl, rfl, rfl, rfl, rfl, rfl, rfl⟩) h
  readEvents u p m h := hP _ _ (modifyPort u p _ ⟨rfl, rfl, rfl, rfl, rfl, rfl, rfl, rfl⟩) h
  setEventMask u p m h := hP _ _ (modifyPort u p (fun ps => { ps with mask := m })
    ⟨rfl, rfl, rfl, rfl, rfl, rfl, rfl, rfl⟩) h

/-- No operation within a cycle moves RST_N, the mark of the first cycle after release or the queue of commands. -/
theorem shared (s : State) : KeepsInCycle fun t =>
    t.inReset = s.inReset ∧ t.freshRelease = s.freshRelease ∧ t.pending = s.pending where
  toKeepsOwners := owners fun u t h hu => ⟨h.inReset.trans hu.1, h.freshRelease.trans hu.2.1, h.pending.trans hu.2.2⟩
  sample u c hu := let h := of_work (.sampleChannel u c)
    ⟨h.inReset.trans hu.1, h.freshRelease.trans hu.2.1, h.pending.trans hu.2.2⟩
  strobe u p hu := let h := of_work (.takeStrobe u p)
    ⟨h.inReset.trans hu.1, h.freshRelease.trans hu.2.1, h.pending.trans hu.2.2⟩
  boundary u hu := let h := of_work (.handBoundary u)
    ⟨h.inReset.trans hu.1, h.freshRelease.trans hu.2.1, h.pending.trans hu.2.2⟩
  validate u p hd hu := by
    have h := of_work (.validateIfDue u p)
    unfold State.validateIfDue at h
    rw [if_pos hd] at h
    exact ⟨h.inReset.trans hu.1, h.freshRelease.trans hu.2.1, h.pending.trans hu.2.2⟩
  expire u l hu := let h := of_work (.expireLease u l)
    ⟨h.inReset.trans hu.1, h.freshRelease.trans hu.2.1, h.pending.trans hu.2.2⟩
  moveReports _ _ hu := hu
  ignored _ _ _ hu := hu
  request _ _ _ hu := hu
  unknown _ _ _ _ hu := hu
  check _ _ hu := hu
  fetch _ _ _ hu := hu
  finish _ _ _ _ _ hu := hu

end State.leavesLinks

/-- The end of a cycle moves neither RST_N nor the mark of the first cycle after release nor the queue of commands. -/
theorem State.finishCycle_shared (s : State) : s.finishCycle.inReset = s.inReset ∧
    s.finishCycle.freshRelease = s.freshRelease ∧ s.finishCycle.pending = s.pending :=
  (State.leavesLinks.shared s).finishCycle s ⟨rfl, rfl, rfl⟩

/-! ## The takings that a cycle owes -/

/-- A frame that a cycle owes is taken: its owner leaves the links alone, and the taking then ends. -/
theorem State.takeFrame_some {s : State} {p : Port} {i : Instr} (hr : s.inReset = false)
    (hi : (s.port p).owedRequest p = some i) :
    ∃ u r data, s.leavesLinks u ∧ s.takeFrame p = u.finishTaking p (s.frameBytes p) r data := by
  obtain ⟨⟨d, f, role⟩, hx⟩ := PortState.owedRequest_requester hi
  have ha : s.awaits p i = true := (State.awaits_eq_true s p i).2 ⟨hr, hi⟩
  obtain ⟨t, ht⟩ : ∃ t, exec i s = .next t := by cases i <;> exact ⟨_, rfl⟩
  have he : s.takeFrame p = t := by simp only [State.takeFrame, hi, execRequest_eq i s hx, ht]
  rw [he]
  exact (State.leavesLinks.owners (P := fun t => s.leavesLinks t) fun _ _ h hu => hu.trans h).request
    (fun t => ∃ u r data, s.leavesLinks u ∧ t = u.finishTaking p (s.frameBytes p) r data) hx s t
    (fun hc => absurd (hc.symm.trans ha) (by decide)) (fun u r d hu => ⟨u, r, d, hu, rfl⟩) (.refl s) ht

theorem State.takeFrame_none {s : State} {p : Port} (hi : (s.port p).owedRequest p = none) : s.takeFrame p = s := by
  simp only [State.takeFrame, hi]

/-- A reply placed leaves REPLY_HELD, and nothing else of the link moved. -/
theorem PortState.placeReply_link (reply : Reply) (repeated : Bool) (ps : PortState) :
    (ps.placeReply reply repeated).engine = .replyHeld ∧ (ps.placeReply reply repeated).frame = ps.frame ∧
    (ps.placeReply reply repeated).risen = ps.risen ∧ (ps.placeReply reply repeated).link = ps.link ∧
    ∃ e, (ps.placeReply reply repeated).reply = some e ∧ e.reply = reply ∧ e.repeated = repeated := by
  unfold PortState.placeReply
  dsimp only
  rw [PortState.raise_frame]
  exact ⟨rfl, rfl, rfl, rfl, _, rfl, rfl, rfl⟩

/-- Where a frame is taken the port comes to REPLY_HELD with no frame in hand, the reply that of the frame's sequence, and its
link as it was. -/
theorem State.takeFrame_taken {s : State} {p : Port} {i : Instr} (hr : s.inReset = false)
    (hi : (s.port p).owedRequest p = some i) :
    ((s.takeFrame p).port p).engine = .replyHeld ∧ ((s.takeFrame p).port p).frame = none ∧
    ((s.takeFrame p).port p).risen = (s.port p).risen ∧ ((s.takeFrame p).port p).link = (s.port p).link ∧
    ∃ e, ((s.takeFrame p).port p).reply = some e ∧ e.reply.sequence = frameSequence (s.frameBytes p) := by
  obtain ⟨u, r, d, hu, he⟩ := State.takeFrame_some hr hi
  obtain ⟨h1, h2, h3, h4, e, h5, h6, -⟩ := PortState.placeReply_link
    ⟨frameSequence (s.frameBytes p), frameCode (s.frameBytes p), r, d⟩ false
    { u.port p with
      lastExecuted := some ⟨frameSequence (s.frameBytes p), frameCrc (s.frameBytes p),
        ⟨frameSequence (s.frameBytes p), frameCode (s.frameBytes p), r, d⟩⟩
      frame := none }
  rw [he]
  unfold State.finishTaking
  dsimp only
  rw [State.modifyPort_port_same]
  exact ⟨h1, h2, h3.trans (hu.port p).risen, h4.trans (hu.port p).link, e, h5, by rw [h6]⟩

/-- The taking that a cycle owes at one port leaves every other port's link alone, and its own owing nothing. -/
theorem State.takeFrame_links (s : State) (p : Port) (hr : s.inReset = false) :
    (s.takeFrame p).inReset = false ∧ (∀ q, q ≠ p → (s.port q).keepsLink ((s.takeFrame p).port q)) ∧
    ((s.takeFrame p).port p).risen = (s.port p).risen ∧ ((s.takeFrame p).port p).owedRequest p = none := by
  cases hi : (s.port p).owedRequest p with
  | none => rw [State.takeFrame_none hi]; exact ⟨hr, fun _ _ => .refl _, rfl, hi⟩
  | some i =>
    have ht := State.takeFrame_taken hr hi
    obtain ⟨u, r, d, hu, he⟩ := State.takeFrame_some hr hi
    refine ⟨by rw [he]; exact hu.inReset.trans hr, fun q hq => ?_, ht.2.2.1, PortState.owedRequest_none _ _ ht.2.1⟩
    rw [he]
    unfold State.finishTaking
    dsimp only
    rw [State.modifyPort_port_ne _ _ hq]
    exact hu.port q

/-- What the takings that a cycle owes make of a port's link is what its own taking makes of it. -/
theorem takings_port (s : State) (h : s.inReset = false) (p : Port) (R : PortState → Prop)
    (hR : ∀ x y : PortState, x.keepsLink y → R x → R y)
    (hp : ∀ u : State, u.inReset = false → (s.port p).keepsLink (u.port p) → R ((u.takeFrame p).port p)) :
    (Port.all.foldl State.takeFrame s).inReset = false ∧ R ((Port.all.foldl State.takeFrame s).port p) := by
  have others : ∀ (xs : List Port), p ∉ xs → ∀ u : State, u.inReset = false →
      (xs.foldl State.takeFrame u).inReset = false ∧ (u.port p).keepsLink ((xs.foldl State.takeFrame u).port p) := by
    intro xs
    induction xs with
    | nil => exact fun _ u hu => ⟨hu, .refl _⟩
    | cons x xs ih =>
      intro hx u hu
      rw [List.mem_cons, not_or] at hx
      obtain ⟨k1, k2, -⟩ := State.takeFrame_links u x hu
      obtain ⟨i1, i2⟩ := ih hx.2 _ k1
      exact ⟨i1, (k2 p hx.1).trans i2⟩
  obtain ⟨before, after, hsplit, hb, ha⟩ : ∃ before after : List Port, Port.all = before ++ p :: after ∧ p ∉ before ∧
      p ∉ after := by
    cases p
    · exact ⟨[], [.b, .c, .d], rfl, by decide, by decide⟩
    · exact ⟨[.a], [.c, .d], rfl, by decide, by decide⟩
    · exact ⟨[.a, .b], [.d], rfl, by decide, by decide⟩
    · exact ⟨[.a, .b, .c], [], rfl, by decide, by decide⟩
  rw [hsplit, List.foldl_append, List.foldl_cons]
  obtain ⟨b1, b2⟩ := others before hb s h
  obtain ⟨a1, a2⟩ := others after ha _ (State.takeFrame_links _ p b1).1
  exact ⟨a1, hR _ _ a2 (hp _ b1 b2)⟩

/-! ## The recognitions that a cycle owes -/

/-- What a recognition takes is the oldest rising edge, and it leaves no request to be taken that was not. -/
theorem PortState.recogniseNext_some (p : Port) (ps : PortState) {c : RiseChange} (h : ps.recognisable = some c) :
    (ps.recogniseNext p).risen = ps.risen.tail ∧
      (ps.owedRequest p = none → (ps.recogniseNext p).owedRequest p = none) := by
  have raised : ∀ (k : EventKind) (x : PortState), (x.raise k).risen = x.risen ∧ (x.raise k).frame = x.frame ∧
      (x.raise k).owedRequest p = x.owedRequest p := by
    intro k x; rw [PortState.raise_frame]; exact ⟨rfl, rfl, rfl⟩
  have placed : ∀ (reply : Reply) (r : Bool) (x : PortState), (x.placeReply reply r).risen = x.risen ∧
      (x.placeReply reply r).frame = x.frame := fun reply r x =>
    let h := PortState.placeReply_link reply r x
    ⟨h.2.2.1, h.2.1⟩
  unfold PortState.recogniseNext
  rw [h]
  cases c with
  | whole =>
    simp only [PortState.checkInHand, h]
    have refused : ∀ bytes r (x : PortState), (x.refuseFrame bytes r).risen = x.risen ∧
        (x.refuseFrame bytes r).owedRequest p = none := fun bytes r x =>
      ⟨(placed ..).1, PortState.owedRequest_none _ _ (placed ..).2⟩
    have checked : ∀ x : PortState, (x.checkReceived p).risen = x.risen ∧
        (x.owedRequest p = none → (x.checkReceived p).owedRequest p = none) := by
      intro x
      unfold PortState.checkReceived
      split
      · unfold PortState.checkBytes
        split
        · exact ⟨(refused ..).1, fun _ => (refused ..).2⟩
        · exact ⟨(refused ..).1, fun _ => (refused ..).2⟩
        · exact ⟨(refused ..).1, fun _ => (refused ..).2⟩
        · exact ⟨(refused ..).1, fun _ => (refused ..).2⟩
        · have owed : ({ x with engine := .executing, checkedNow := true } : PortState).owedRequest p = none := by
            unfold PortState.owedRequest; split <;> rfl
          unfold PortState.acceptFrame
          split
          · split
            · exact ⟨(placed ..).1, fun _ => PortState.owedRequest_none _ _ (placed ..).2⟩
            · exact ⟨rfl, fun _ => owed⟩
          · exact ⟨rfl, fun _ => owed⟩
      · exact ⟨rfl, id⟩
    exact checked ps.riseTaken
  | aborted =>
    simp only [PortState.requestRecognised, h, PortState.abortFrame]
    exact ⟨(raised ..).1, fun _ => PortState.owedRequest_none _ _ (raised ..).2.1⟩
  | dropped =>
    simp only [PortState.requestRecognised, h]
    exact ⟨rfl, id⟩
  | unknown =>
    simp only [PortState.unknownRecognised, h]
    exact ⟨(raised ..).1, fun hn => (raised ..).2.2.trans hn⟩
  | fetched =>
    simp only [PortState.fetchRecognised, h]
    exact ⟨rfl, id⟩

/-- As many recognitions as there are rising edges leave none that has passed both stages. -/
theorem PortState.recogniseTimes_all (p : Port) (n : Nat) (ps : PortState) (h : ps.risen.length ≤ n) :
    (ps.recogniseTimes p n).recognisable = none := by
  induction n generalizing ps with
  | zero =>
    have : ps.risen = [] := List.length_eq_zero_iff.1 (by omega)
    simp [PortState.recogniseTimes, PortState.recognisable, this]
  | succ n ih =>
    cases hc : ps.recognisable with
    | none => rw [PortState.recogniseTimes_none _ _ _ hc]; exact hc
    | some c =>
      refine ih _ ?_
      rw [(PortState.recogniseNext_some p ps hc).1, List.length_tail]
      omega

/-- Recognitions leave no request to be taken that was not. -/
theorem PortState.recogniseTimes_owed (p : Port) (n : Nat) (ps : PortState) (h : ps.owedRequest p = none) :
    (ps.recogniseTimes p n).owedRequest p = none := by
  induction n generalizing ps with
  | zero => exact h
  | succ n ih =>
    refine ih _ ?_
    cases hc : ps.recognisable with
    | none => simpa [PortState.recogniseNext, hc] using h
    | some c => exact (PortState.recogniseNext_some p ps hc).2 h

/-- Recognitions leave a port that is in REPLY_HELD with no frame in hand there. -/
theorem PortState.recogniseTimes_held (p : Port) (n : Nat) (ps : PortState) (h : ps.engine = .replyHeld ∧ ps.frame = none) :
    (ps.recogniseTimes p n).engine = .replyHeld ∧ (ps.recogniseTimes p n).frame = none := by
  have raised : ∀ (k : EventKind) (x : PortState), (x.raise k).engine = x.engine ∧ (x.raise k).frame = x.frame := by
    intro k x; rw [PortState.raise_frame]; exact ⟨rfl, rfl⟩
  induction n generalizing ps with
  | zero => exact h
  | succ n ih =>
    refine ih _ ?_
    unfold PortState.recogniseNext
    split
    · exact h
    · next hc =>
      simp only [PortState.checkInHand, hc]
      unfold PortState.checkReceived
      split
      · next he _ => exact nomatch h.1.symm.trans he
      · exact h
    · next hc =>
      simp only [PortState.requestRecognised, hc, PortState.abortFrame]
      have hx : ps.riseTaken.engine = .replyHeld := h.1
      refine ⟨(raised ..).1.trans ?_, (raised ..).2⟩
      rw [hx]
    · next hc => simp only [PortState.requestRecognised, hc]; exact h
    · next hc =>
      simp only [PortState.unknownRecognised, hc]
      exact ⟨(raised ..).1.trans h.1, (raised ..).2.trans h.2⟩
    · next hc => simp only [PortState.fetchRecognised, hc]; exact h

theorem State.recogniseAll_port (s : State) (p q : Port) :
    (s.recogniseAll p).port q = if q = p then (s.port p).recogniseTimes p (s.port p).risen.length else s.port q :=
  State.modifyPort_port ..

/-- What the links of a cycle's end make of a port: the takings, and then the recognitions of its own rising edges. -/
theorem State.finishLinks_port (s : State) (p : Port) :
    s.finishLinks.port p =
      ((Port.all.foldl State.takeFrame s).port p).recogniseTimes p
        ((Port.all.foldl State.takeFrame s).port p).risen.length := by
  unfold State.finishLinks
  generalize Port.all.foldl State.takeFrame s = u
  simp only [Port.all, List.foldl_cons, List.foldl_nil, State.recogniseAll_port]
  cases p <;> rfl

/-- Once the frames that a cycle owes are taken and the rising edges recognised, no port owes either. -/
theorem State.finishLinks_owes (s : State) (h : s.inReset = false) (p : Port) :
    (s.finishLinks.port p).owedRequest p = none ∧ (s.finishLinks.port p).recognisable = none := by
  rw [State.finishLinks_port]
  exact ⟨PortState.recogniseTimes_owed _ _ _
      (takings_port s h p (fun x => x.owedRequest p = none) (fun _ _ hk hx => (hk.owedRequest p).trans hx)
        fun u hu _ => (State.takeFrame_links u p hu).2.2.2).2,
    PortState.recogniseTimes_all _ _ _ (Nat.le_refl _)⟩

/-- The blocks' part of a cycle's end leaves the links as the takings and recognitions left them. -/
theorem State.finishCycle_keepsLink (s : State) (p : Port) : (s.finishLinks.port p).keepsLink (s.finishCycle.port p) :=
  ((State.onlyWork.finishBlocks s.finishLinks).port p).keepsLink

/-- A port that owes no taking and has no rising edge to be recognised keeps its link through the end of a cycle. -/
theorem State.finishCycle_idleLink (s : State) (h : s.inReset = false) (p : Port) (ho : (s.port p).owedRequest p = none)
    (hc : (s.port p).recognisable = none) : (s.port p).keepsLink (s.finishCycle.port p) := by
  have ht := (takings_port s h p (fun x => (s.port p).keepsLink x) (fun _ _ hk hx => hx.trans hk) fun u _ hk => by
    rw [State.takeFrame_none ((hk.owedRequest p).trans ho)]; exact hk).2
  refine PortState.keepsLink.trans ?_ (s.finishCycle_keepsLink p)
  rw [State.finishLinks_port, PortState.recogniseTimes_none _ _ _ (ht.recognisable.trans hc)]
  exact ht

/-- A frame that awaits its owner is taken by the end of the cycle (10 R164). -/
theorem State.finishCycle_taken (s : State) (h : s.inReset = false) (p : Port) {i : Instr}
    (hi : (s.port p).owedRequest p = some i) :
    (s.finishCycle.port p).engine = .replyHeld ∧ (s.finishCycle.port p).frame = none := by
  have ht := (takings_port s h p (fun x => x.engine = .replyHeld ∧ x.frame = none)
    (fun _ _ hk hx => ⟨hk.engine.trans hx.1, hk.frame.trans hx.2⟩) fun u hu hk =>
      let t := State.takeFrame_taken hu ((hk.owedRequest p).trans hi)
      ⟨t.1, t.2.1⟩).2
  have hk := s.finishCycle_keepsLink p
  rw [State.finishLinks_port] at hk
  have hh := PortState.recogniseTimes_held p ((Port.all.foldl State.takeFrame s).port p).risen.length _ ht
  exact ⟨hk.engine.trans hh.1, hk.frame.trans hh.2⟩

/-- The beginning of a cycle moves a port's rising edges on and ends the cycle of its checks, and leaves the rest of its link
alone. -/
theorem State.beginCycle_link (s : State) (pins : Pins) (p : Port) :
    PortState.keepsLink { s.port p with risen := (s.port p).risen.map Rise.shift, checkedNow := false }
      ((s.beginCycle pins).port p) := by
  have hs : PortState.keepsLink { s.port p with risen := (s.port p).risen.map Rise.shift, checkedNow := false }
      (({ s.port p with attnShown := s.attnPin p } : PortState).synchronise (!s.inReset && !s.freshRelease)
        pins.strobes[p.index]) := ⟨rfl, rfl, rfl, rfl, rfl, rfl, rfl, rfl⟩
  rw [State.beginCycle_port]
  dsimp only
  split
  · exact hs.trans (State.leavesLinks.raiseSlewDone _ _)
  · exact hs

end Sys2Proof.Machine
end

