-- ==== Sys2Proof/Laws/Live.lean ====
section
/-! SUPPORT. Live entries of a port only leave, but for admissions, staging and a change of quota: one relation between a state
and a later one, with one lemma per operation. -/

namespace Sys2Proof.Machine

/-- A port's staged list and retirement order only lose entries, and its quota stays. -/
abbrev PortState.sheds (ps ps' : PortState) : Prop :=
  ps'.batch.staged.Sublist ps.batch.staged ∧ ps'.retirement.Sublist ps.retirement ∧ ps'.quota = ps.quota

/-- Live entries only leave between a state and a later one: entries stay in their own port's lists, each port's live
entries are among those it had, and quotas stay. -/
structure State.sheds (s t : State) : Prop where
  home : s.entriesAtHome → t.entriesAtHome
  live : s.entriesAtHome → ∀ p, (t.liveEntries p).Subperm (s.liveEntries p)
  quota : ∀ p, (t.port p).quota = (s.port p).quota

theorem State.sheds.refl (s : State) : State.sheds s s := ⟨id, fun _ _ => List.Subperm.refl _, fun _ => rfl⟩
theorem State.sheds.trans {a b c : State} (h : State.sheds a b) (h' : State.sheds b c) : State.sheds a c :=
  ⟨fun x => h'.home (h.home x), fun x p => (h'.live (h.home x) p).trans (h.live x p), fun p => (h'.quota p).trans
      (h.quota p)⟩

/-- The staged lists, the retirement orders and the queue only lose entries. -/
theorem State.sheds.of_sub {s t : State} (hq : t.queue.Sublist s.queue) (hp : ∀ p, PortState.sheds (s.port p) (t.port
    p)) : State.sheds s t := by
  refine ⟨fun h p => ⟨fun e he => (h p).1 e ((hp p).1.subset he), fun r hr => (h p).2 r ((hp p).2.1.subset hr)⟩, fun
      _ p => ?_, fun p => (hp p).2.2⟩
  unfold State.liveEntries State.pendingOf
  exact (((hp p).1.append (hq.filter _)).append ((hp p).2.1.map _)).subperm

theorem State.sheds.mod (s : State) (p : Port) (g : PortState → PortState) (h : PortState.sheds (s.port p) (g (s.port
    p))) : State.sheds s (s.modifyPort p g) := by
  refine .of_sub (List.Sublist.refl _) fun q => ?_
  rw [State.modifyPort_port]; split
  · next hq => subst hq; exact h
  · exact ⟨List.Sublist.refl _, List.Sublist.refl _, rfl⟩

theorem State.sheds.map (s : State) (g : Port → PortState → PortState) (h : ∀ q, PortState.sheds (s.port q) (g q
    (s.port q))) : State.sheds s (s.mapPorts g) := by
  refine .of_sub (List.Sublist.refl _) fun q => ?_
  rw [State.mapPorts_port]; exact h q

theorem State.sheds.mapLines (s : State) (g : Line → LineRecord → LineRecord) : State.sheds s (s.mapLines g) :=
  .of_sub (by rw [State.mapLines_queue]) fun q =>
      by rw [State.mapLines_port]; exact ⟨List.Sublist.refl _, List.Sublist.refl _, rfl⟩

/-- The queue and the ports stay. -/
theorem State.sheds.same {s t : State} (hq : t.queue = s.queue) (hp : t.ports = s.ports) : State.sheds s t :=
  .of_sub (by rw [hq]) fun q => by unfold State.port; rw [hp]; exact ⟨List.Sublist.refl _, List.Sublist.refl _, rfl⟩

/-- What waits after reports are taken is among what waited and the reports. -/
theorem PortState.takeReports_retirement_sublist (rs : List Retired) (ps : PortState) : (ps.takeReports
    rs).retirement.Sublist (ps.retirement ++ rs) := by
  by_cases h : rs = []
  · subst h; rw [PortState.takeReports_nil, List.append_nil]
  · rw [PortState.takeReports_eq _ _ h]; exact List.drop_sublist _ _

/-- Reports taken for entries that leave the queue or the staged list. -/
theorem State.sheds.takeReports (s : State) (p : Port) (rs : List Retired) (staged' : List Entry) (queue' : List
    Entry) (hr : ∀ r ∈ rs, r.entry.port = p)
   (t : State) (tq : t.queue = queue') (tp : ∀ q, q ≠ p → t.port q = s.port q) (tpp : ∃ ps : PortState, t.port p =
       ps.takeReports rs ∧ ps.retirement = (s.port p).retirement ∧ ps.batch.staged = staged' ∧ ps.quota = (s.port
           p).quota)
   (hst : staged'.Sublist (s.port p).batch.staged) (hqq : queue'.Sublist s.queue)
   (hsub : (staged' ++ queue'.filter (fun e => e.port == p) ++ rs.map Retired.entry).Subperm ((s.port p).batch.staged
       ++ s.queue.filter (fun e => e.port == p))) : State.sheds s t := by
  obtain ⟨ps, e1, e2, e3, e4⟩ := tpp
  have hb : (t.port p).batch.staged = staged' := by rw [e1, PortState.takeReports_batch, e3]
  have hret : (t.port p).retirement.Sublist ((s.port p).retirement ++ rs) :=
      by rw [e1, ← e2]; exact PortState.takeReports_retirement_sublist ..
  refine ⟨fun h q => ?_, fun h q => ?_, fun q => ?_⟩
  · by_cases hq : q = p
    · subst hq
      rw [hb]
      refine ⟨fun e he => (h q).1 e (hst.subset he), fun r hr' => ?_⟩
      rcases List.mem_append.1 (hret.subset hr') with h1 | h1
      · exact (h q).2 r h1
      · exact hr r h1
    · rw [tp q hq]; exact h q
  · unfold State.liveEntries State.pendingOf
    by_cases hq : q = p
    · subst hq
      rw [hb, tq]
      have h1 : ((t.port q).retirement.map Retired.entry).Sublist ((s.port q).retirement.map Retired.entry ++ rs.map
          Retired.entry) := by
        rw [← List.map_append]; exact hret.map _
      refine (((List.Sublist.refl _).append h1).subperm).trans ?_
      have h2 : (staged' ++ queue'.filter (fun e => e.port == q) ++ ((s.port q).retirement.map Retired.entry ++
          rs.map Retired.entry)).Perm
        ((staged' ++ queue'.filter (fun e => e.port == q) ++ rs.map Retired.entry) ++ (s.port q).retirement.map
            Retired.entry) := by
        rw [List.append_assoc _ (rs.map _)]
        exact (List.perm_append_comm).append_left _
      exact h2.subperm.trans (List.subperm_append_right _ |>.2 hsub)
    · rw [tp q hq, tq]
      exact (((List.Sublist.refl _).append (hqq.filter _)).append (List.Sublist.refl _)).subperm
  · by_cases hq : q = p
    · subst hq; rw [e1, PortState.takeReports_quota, e4]
    · rw [tp q hq]

theorem State.sheds.retire (s : State) (e : Entry) (o : Machine.Outcome) (he : e ∈ s.queue) : State.sheds s (s.retire
    e o) := by
  rw [State.retire_eq]
  split
  · exact .of_sub List.erase_sublist fun q => ⟨List.Sublist.refl _, List.Sublist.refl _, rfl⟩
  · refine State.sheds.takeReports s e.port [⟨e, o, s.mc⟩] (s.port e.port).batch.staged (s.queue.erase e) (by simp) _
      rfl (fun q hq => State.modifyPort_port_ne _ _ hq) ⟨s.port e.port, State.modifyPort_port_same .., rfl, rfl, rfl⟩
          (List.Sublist.refl _) List.erase_sublist ?_
    rw [List.append_assoc]
    refine List.Perm.subperm (List.Perm.append_left _ ?_)
    have h1 : (s.queue.filter fun x => x.port == e.port).Perm (e :: (s.queue.erase e).filter fun x => x.port ==
        e.port) := by
      have := (List.perm_cons_erase he).filter (fun x => x.port == e.port)
      rw [List.filter_cons_of_pos (by simp)] at this
      exact this
    refine List.Perm.trans ?_ h1.symm
    exact List.perm_append_singleton _ _

theorem State.sheds.retiring (s : State) (f : Entry → Bool) (o : Machine.Outcome) : State.sheds s (s.retiring f o) := by
  have hp : ∀ q, (s.retiring f o).port q = (s.port q).takeReports ((s.queue.filter fun e => f e && e.port == q).map
      fun e => ⟨e, o, s.mc⟩) := fun q => PortFile.get_map ..
  refine ⟨fun h q => ?_, fun h q => ?_, fun q => by rw [hp, PortState.takeReports_quota]⟩
  · rw [hp, PortState.takeReports_batch]
    refine ⟨(h q).1, fun r hr => ?_⟩
    rcases List.mem_append.1 ((PortState.takeReports_retirement_sublist _ _).subset hr) with h1 | h1
    · exact (h q).2 r h1
    · rw [List.mem_map] at h1
      obtain ⟨e, he, rfl⟩ := h1
      rw [List.mem_filter] at he
      simpa using (by simpa using he.2 : f e = true ∧ e.port = q).2
  · unfold State.liveEntries State.pendingOf
    rw [hp, PortState.takeReports_batch]
    have h1 := (PortState.takeReports_retirement_sublist ((s.queue.filter fun e => f e && e.port == q).map fun e =>
        (⟨e, o, s.mc⟩ : Retired)) (s.port q)).map Retired.entry
    rw [List.map_append, List.map_map] at h1
    have h2 : (Retired.entry ∘ fun e => (⟨e, o, s.mc⟩ : Retired)) = id := rfl
    rw [h2, List.map_id] at h1
    refine (((List.Sublist.refl _).append h1).subperm).trans ?_
    refine List.Perm.subperm ?_
    have hq : (s.retiring f o).queue = s.queue.filter fun e => !f e := rfl
    rw [hq, List.filter_filter, List.append_assoc, List.append_assoc]
    refine List.Perm.append_left _ ?_
    have h3 : ((s.queue.filter fun a => a.port == q && !f a) ++ (s.queue.filter fun e => f e && e.port == q)).Perm
        (s.queue.filter fun e => e.port == q) := by
      have := List.filter_append_perm (fun e => !f e) (s.queue.filter fun e => e.port == q)
      simp only [List.filter_filter, Bool.not_not] at this
      convert this using 3
      · funext a; exact Bool.and_comm ..
    have h4 : ((s.queue.filter fun a => a.port == q && !f a) ++ ((s.port q).retirement.map Retired.entry ++
        (s.queue.filter fun e => f e && e.port == q))).Perm
      (((s.queue.filter fun a => a.port == q && !f a) ++ (s.queue.filter fun e => f e && e.port == q)) ++ (s.port
          q).retirement.map Retired.entry) := by
      rw [List.append_assoc]; exact List.Perm.append_left _ List.perm_append_comm
    exact h4.trans (h3.append_right _)

theorem State.sheds.retireAllF (s : State) (f : Entry → Bool) (o : Machine.Outcome) (ho : o ≠ .done) : State.sheds s
    (s.retireAll (s.queue.filter f) o) := by
  rw [State.retireAll_filter _ _ _ ho]; exact .retiring ..

theorem State.sheds.offer (b : CaptureBody) (t : Time) (ps : PortState) : PortState.sheds ps (ps.offer b t) := by
  rw [PortState.offer_eq]; split <;> exact ⟨List.Sublist.refl _, List.Sublist.refl _, rfl⟩

theorem State.sheds.raise (k : EventKind) (ps : PortState) : PortState.sheds ps (ps.raise k) := by
  unfold PortState.raise; split <;> exact ⟨List.Sublist.refl _, List.Sublist.refl _, rfl⟩

theorem PortState.sheds_refl (ps : PortState) : PortState.sheds ps ps := ⟨List.Sublist.refl _, List.Sublist.refl _, rfl⟩

/-- What happens on the link changes no live entry. -/
theorem PortState.onlyTalks.sheds {ps ps' : PortState} (h : ps.onlyTalks ps') : PortState.sheds ps ps' := by
  unfold PortState.sheds
  rw [h.rest]
  exact PortState.sheds_refl ps

theorem State.sheds.takeEntry (s : State) (e : Entry) (he : e ∈ s.queue) : State.sheds s (s.takeEntry e) := by
  unfold State.takeEntry
  split
  · unfold State.retireGuardFalse
    split
    · dsimp only
      split
      · next t ht => exact (State.sheds.retire s e _ he).trans (.retire _ _ _ (List.mem_of_find?_eq_some ht))
      · exact .retire _ _ _ he
    · exact .retire _ _ _ he
  · next s1 h =>
    have h1 : State.sheds s s1 := by
      unfold State.guardTest at h
      split at h
      · cases h; exact .refl _
      · split at h
        · split at h
          · cases h; exact .mod _ _ _ (PortState.sheds_refl _)
          · cases h; exact .refl _
        · cases h
    have hq : s1.queue = s.queue := State.guardTest_queue _ _ _ h
    have h2 : State.sheds s1 (s1.applyAction e).1 := by
      unfold State.applyAction
      split
      case h_6 =>
        refine .map _ _ fun q => ?_
        split
        · exact State.sheds.offer ..
        · exact PortState.sheds_refl _
      all_goals exact .same rfl rfl
    refine (h1.trans h2).trans (.retire _ _ _ ?_)
    rw [State.applyAction_queue, hq]; exact he

theorem State.sheds.takeDue (s : State) : State.sheds s s.takeDue := by
  unfold State.takeDue; split
  · exact .refl _
  · next e he => exact .takeEntry _ _ (State.dueHead_some _ _ he).1

theorem State.sheds.endLeases (s : State) (m : LineSet) (o : Machine.Outcome) (ho : o ≠ .done) : State.sheds s
    (s.endLeases m o) := by
  rw [State.endLeases_eq _ _ _ ho]
  exact (State.sheds.retiring s _ _).trans (.same rfl rfl)

theorem State.sheds.dropRoles (s : State) (p cause : Port) : State.sheds s (s.dropRoles p cause) := by
  refine .of_sub (by rw [State.dropRoles_eq]) fun q => ?_
  have : (s.dropRoles p cause).port q = if (s.timeAuthority = some p ∨ s.supervisor = some p) ∧ (s.port q).session =
      .attached ∧ q ≠ cause then
          { s.port q with events := (s.port q).events ||| EventKind.roleChanged.mask }
        else s.port q := by rw [State.dropRoles_eq]; exact PortFile.get_map ..
  rw [this]; split <;> exact PortState.sheds_refl _

theorem State.sheds.sweep (es : List Entry) (s : State) : State.sheds s (s.sweep es) := by
  induction es generalizing s with
  | nil => exact .refl _
  | cons e es ih =>
    have : s.sweep (e :: es) = (if e ∈ s.queue then s.takeEntry e else s).sweep es := rfl
    rw [this]
    refine State.sheds.trans ?_ (ih _)
    split
    · next h => exact .takeEntry _ _ h
    · exact .refl _

theorem State.sheds.raiseRole (s : State) (cause : Port) : State.sheds s (s.raiseRoleChanged cause) := by
  refine .map _ _ fun q => ?_
  split
  · exact State.sheds.raise ..
  · exact PortState.sheds_refl _

/-- The PENDING entries of a port after entries of one port enter. -/
theorem State.enqueue_pendingOf (s : State) (es : List Entry) (p : Port) (h : ∀ e ∈ es, e.port = p) (q : Port) :
   ((s.enqueue es).pendingOf q).Perm (if q = p then es ++ s.pendingOf q else s.pendingOf q) := by
  have hperm : ((s.enqueue es).queue).Perm (es ++ s.queue) := by
    rw [State.enqueue_eq]
    dsimp only
    generalize s.queue = qu
    induction es generalizing qu with
    | nil => exact List.Perm.refl _
    | cons e es ih =>
      rw [List.foldl_cons]
      refine (ih (fun x hx => h x (by simp [hx])) _).trans ?_
      exact ((insertEntry_perm ..).append_left es).trans List.perm_middle
  unfold State.pendingOf
  refine (hperm.filter _).trans ?_
  rw [List.filter_append]
  split
  · next hq =>
    rw [List.filter_eq_self.2]
    intro e he; simp [h e he, hq]
  · next hq =>
    rw [List.filter_eq_nil_iff.2]
    · rfl
    · intro e he hc; exact hq (by have := h e he; simp at hc; rw [← hc, this])

/-- What the filing of a report can do to live entries. -/
theorem State.fileReport_sheds (s : State) (e : Entry) (o : Machine.Outcome) : (s.fileReport e o).queue = s.queue ∧
    (∀ q, ((s.fileReport e o).port q).batch = (s.port q).batch ∧ ((s.fileReport e o).port q).quota = (s.port q).quota) ∧
   ∀ q, ((s.fileReport e o).port q).retirement.Sublist ((s.port q).retirement ++ if q = e.port then [⟨e, o, s.mc⟩]
       else []) := by
  rw [State.fileReport_eq]
  split
  · exact ⟨rfl, fun _ => ⟨rfl, rfl⟩, fun q => List.sublist_append_left _ _⟩
  · refine ⟨rfl, fun q => ?_, fun q => ?_⟩
    · rw [State.modifyPort_port]; split
      · next h => subst h; exact ⟨PortState.takeReports_batch .., PortState.takeReports_quota ..⟩
      · exact ⟨rfl, rfl⟩
    · rw [State.modifyPort_port]; split
      · next h => subst h; exact PortState.takeReports_retirement_sublist ..
      · exact List.sublist_append_left _ _

/-- What an abort of entries of one port can do to live entries. -/
theorem State.abortEntries_sheds (es : List Entry) (s : State) (p : Port) (f : Entry → Option Machine.Outcome) (h : ∀
    e ∈ es, e.port = p) :
  (s.abortEntries f es).queue = s.queue ∧ (∀ q, ((s.abortEntries f es).port q).batch = (s.port q).batch ∧
      ((s.abortEntries f es).port q).quota = (s.port q).quota) ∧
   (∀ q, (((s.abortEntries f es).port q).retirement.map Retired.entry).Sublist ((s.port q).retirement.map
       Retired.entry ++ if q = p then es else [])) := by
  induction es generalizing s with
  | nil => exact ⟨rfl, fun _ => ⟨rfl, rfl⟩, fun q => by simp [State.abortEntries]⟩
  | cons e es ih =>
    have hs : s.abortEntries f (e :: es) = (s.fileReport e ((f e).getD .batchAborted)).abortEntries f es := rfl
    rw [hs]
    obtain ⟨a1, a2, a3⟩ := State.fileReport_sheds s e ((f e).getD .batchAborted)
    obtain ⟨b1, b2, b3⟩ := ih (s.fileReport e ((f e).getD .batchAborted)) (fun x hx => h x (by simp [hx]))
    refine ⟨b1.trans a1, fun q => ⟨(b2 q).1.trans (a2 q).1, (b2 q).2.trans (a2 q).2⟩, fun q => ?_⟩
    refine (b3 q).trans ?_
    have := (a3 q).map Retired.entry
    rw [List.map_append] at this
    have hp := h e (by simp)
    by_cases hq : q = p
    · subst hq
      rw [if_pos rfl]
      rw [if_pos rfl]
      rw [if_pos hp.symm] at this
      have h2 := this.append (List.Sublist.refl es)
      simpa using h2
    · rw [if_neg hq]; rw [if_neg hq]
      rw [if_neg (by rw [hp]; exact hq)] at this
      simpa using this

theorem State.sheds.validate (s : State) (p : Port) : State.sheds s (s.validate p) := by
  have hb : ∀ r (ps : PortState), PortState.sheds ps (ps.raiseBatchDone r) := by
    intro r ps; unfold PortState.raiseBatchDone; split <;> exact PortState.sheds_refl _
  have hfp : ∀ q, (s.freeBatch p).port q = if q = p then { s.port p with batch := .cleared } else s.port q := fun q
      => State.modifyPort_port ..
  unfold State.validate
  dsimp only
  split
  · refine State.sheds.trans ?_ (.mod _ _ _ (hb _ _))
    have hport : ∀ q, ((s.freeBatch p).enqueue (s.port p).batch.staged).port q = (s.freeBatch p).port q := by
      intro q; rw [State.enqueue_eq]; rfl
    refine ⟨fun h q => ?_, fun h q => ?_, fun q => ?_⟩
    · rw [hport, hfp]; split
      · next hq => subst hq; exact ⟨fun e he => (by cases he), (h q).2⟩
      · exact h q
    · unfold State.liveEntries
      rw [hport, hfp]
      have hperm := State.enqueue_pendingOf (s.freeBatch p) (s.port p).batch.staged p (h p).1 q
      have e1 : (s.freeBatch p).pendingOf q = s.pendingOf q := rfl
      rw [e1] at hperm
      split
      · next hq =>
        subst hq
        rw [if_pos rfl] at hperm
        refine List.Perm.subperm ?_
        refine List.Perm.append_right _ ?_
        exact hperm
      · next hq =>
        rw [if_neg hq] at hperm
        exact ((hperm.append_left _).append_right _).subperm
    · rw [hport, hfp]; split
      · next hq => subst hq; rfl
      · rfl
  · refine State.sheds.trans ?_ (.mod _ _ _ (hb _ _))
    refine ⟨fun h q => ?_, fun h q => ?_, fun q => ?_⟩
    · obtain ⟨a1, a2, a3⟩ := State.abortEntries_sheds (s.port p).batch.staged (s.freeBatch p) p (validationCause p s)
        (h p).1
      rw [(a2 q).1]
      have hm := (a3 q).subset
      rw [hfp] at *
      refine ⟨?_, fun r hr => ?_⟩
      · split
        · next hq => intro e he; cases he
        · exact (h q).1
      · have := hm (List.mem_map_of_mem hr)
        rcases List.mem_append.1 this with h1 | h1
        · obtain ⟨r', hr', he⟩ := List.mem_map.1 h1
          rw [← he]
          split at hr'
          · next hq => subst hq; exact (h q).2 r' hr'
          · exact (h q).2 r' hr'
        · split at h1
          · next hq => subst hq; exact (h q).1 _ h1
          · cases h1
    · obtain ⟨a1, a2, a3⟩ := State.abortEntries_sheds (s.port p).batch.staged (s.freeBatch p) p (validationCause p s)
        (h p).1
      unfold State.liveEntries State.pendingOf
      rw [a1, (a2 q).1]
      have hm := a3 q
      rw [hfp] at *
      refine (((List.Sublist.refl _).append hm).subperm).trans ?_
      have e1 : (s.freeBatch p).queue = s.queue := rfl
      rw [e1]
      by_cases hq : q = p
      · subst hq
        simp only [↓reduceIte]
        refine List.Perm.subperm ?_
        show (([] ++ s.queue.filter fun (e : Entry) => e.port == q) ++ ((s.port q).retirement.map Retired.entry ++
            (s.port q).batch.staged)).Perm _
        rw [List.nil_append, ← List.append_assoc]
        exact (List.perm_append_comm).trans (by rw [List.append_assoc])
      · simp only [if_neg hq, List.append_nil]; exact List.Subperm.refl _
    · unfold State.abortEntries
      have : ∀ (es : List Entry) (u : State), ((es.foldl (fun acc e => acc.fileReport e ((validationCause p s e).getD
          .batchAborted)) u).port q).quota = (u.port q).quota := by
        intro es
        induction es with
        | nil => exact fun _ => rfl
        | cons e es ih => intro u; exact (ih _).trans ((State.fileReport_sheds u e _).2.1 q).2
      rw [this, hfp]; split
      · next hq => subst hq; rfl
      · rfl

/-- A property that every shedding step keeps, and that release, admission, staging and a change of quota keep, every operation
keeps. -/
theorem sheds_keeps (P : State → Prop) (hsheds : ∀ s t, State.sheds s t → P s → P t) (hrel : ∀ s, P s → P s.released)
   (hsub : ∀ (s : State) (p : Port) (x : Descriptor), s.tagLive p x.tag = false → overQuota p x s = false → P s → P
       (s.enqueue (descEntries p x)))
   (hst : ∀ (s : State) (p : Port) (x : Descriptor), s.tagLive p x.tag = false → overQuota p x s = false → P s → P
       (s.modifyPort p (PortState.addStaged (descEntries p x))))
   (hquota : ∀ (s : State) (_p t : Port) (n : Nat), s.usage t ≤ n → n + otherQuotas t s ≤ Config.slots → P s → P
       (s.modifyPort t fun ps => { ps with quota := n })) : Keeps P where
  released := hrel
  asserted s := hsheds _ _ ((State.sheds.map s (fun _ ps => ps.abandon) fun q => PortState.sheds_refl _).trans (.same
      rfl rfl))
  showPins s := hsheds _ _ (.of_sub (List.Sublist.refl _) fun q => by
    rw [State.showPins_port]; exact PortState.sheds_refl _)
  synchronise s pins := hsheds _ _ ((State.sheds.map s (fun p ps => ps.synchronise (!s.inReset && !s.freshRelease)
      pins.strobes[p.index]) fun q => PortState.sheds_refl _).trans (.same rfl rfl))
  beginCycle f0 pins _ := by
    refine hsheds f0 _ ?_
    rw [State.beginCycle_eq]
    refine State.sheds.trans (b := f0.showPins) (.of_sub (List.Sublist.refl _) fun q => by
      rw [State.showPins_port]; exact PortState.sheds_refl _) ?_
    generalize f0.showPins = f
    have h1 : State.sheds f (f.synchronise pins) := (State.sheds.map f (fun p ps => ps.synchronise (!f.inReset &&
        !f.freshRelease) pins.strobes[p.index]) fun q => PortState.sheds_refl _).trans (.same rfl rfl)
    have h2 : State.sheds (f.synchronise pins) (f.synchronise pins).advance := by
      refine .of_sub (by rw [State.advance_rest]) fun q => ?_
      rw [State.advance_port]; split
      · unfold PortState.raiseSlewDone; split <;> exact PortState.sheds_refl _
      · exact PortState.sheds_refl _
    refine (h1.trans h2).trans ?_
    refine .same ?_ ?_ <;> rw [State.advanceFrame_rest]
  sample s c := by
    refine hsheds _ _ ?_
    have h1 : State.sheds s (s.storeSample c) := .same rfl rfl
    have h2 : ∀ e t, State.sheds (s.storeSample c) ((s.storeSample c).deliverEdge c e t) := by
      intro e t
      refine .map _ _ fun q => ?_
      split
      · exact (State.sheds.offer _ _ _)
      · exact PortState.sheds_refl _
    unfold State.sampleChannel
    split
    · split
      · split
        · exact h1.trans (h2 _ _)
        · exact h1
      · exact h1
    · exact .refl _
  strobe s p := by
    refine hsheds _ _ ?_
    unfold State.takeStrobe
    split
    · exact .mod _ _ _ (State.sheds.raise ..)
    · exact .refl _
  boundary s := by
    refine hsheds _ _ ?_
    unfold State.handBoundary
    split
    · refine .trans (b := { s with boundaryToHand := false }) (.same rfl rfl) (.map _ _ fun q => ?_)
      split
      · exact State.sheds.raise ..
      · exact PortState.sheds_refl _
    · exact .refl _
  validate s p _ := hsheds _ _ (.validate ..)
  due s := hsheds _ _ (.takeDue ..)
  expire s l := by
    refine hsheds _ _ ?_
    unfold State.expireLease
    split
    · split
      · exact (State.sheds.endLeases _ _ _ (by decide)).trans (.mod _ _ _ (State.sheds.raise ..))
      · exact .refl _
    · exact .refl _
  moveReports s p := by
    refine hsheds _ _ (.mod _ _ _ ?_)
    unfold PortState.moveReports PortState.raise
    dsimp only
    refine ⟨?_, List.drop_sublist _ _, ?_⟩
    · split
      · split <;> exact List.Sublist.refl _
      · exact List.Sublist.refl _
    · split
      · split <;> rfl
      · rfl
  ignored s p low := hsheds _ _ (.mod _ _ _ (PortState.onlyTalks.sheds (.moveIgnored ..)))
  request s p part := hsheds _ _ (.mod _ _ _ (PortState.onlyTalks.sheds (.clockRequest ..)))
  unknown s p first part := hsheds _ _ (.mod _ _ _ (PortState.onlyTalks.sheds (.unknownTransaction ..)))
  check s p := hsheds _ _ (.mod _ _ _ (PortState.onlyTalks.sheds (.checkInHand ..)))
  fetch s p part := hsheds _ _ (.mod _ _ _ (PortState.onlyTalks.sheds (.fetch ..)))
  finish s p b r d := hsheds _ _ (.of_sub (List.Sublist.refl _) fun _ => PortState.onlyTalks.sheds (.finishTaking ..))
  readTime s p _ := hsheds _ _ (State.sheds.mod s p (fun ps => { ps with strobe := ⟨ps.strobe.time, false, false⟩ })
      (PortState.sheds_refl _))
  stepTime s p o m _ _ _ := by
    refine hsheds _ _ ?_
    generalize s.takeAllDue = d
    have h1 : State.sheds d (d.stepBegun o) := by
      refine .of_sub (by rw [State.stepBegun_rest]) fun q => ?_
      rw [State.stepBegun_port]
      have hc : ∀ c : PortState, c = (if d.slew ≠ none ∧ d.timeAuthority = some q then (d.port q).raiseSlewDone
          .cancelled else d.port q) → (PortState.sheds (d.port q) c) := by
        rintro c rfl
        split
        · unfold PortState.raiseSlewDone; split <;> exact PortState.sheds_refl _
        · exact PortState.sheds_refl _
      have := hc _ rfl
      dsimp only
      split
      · obtain ⟨a, b, c⟩ := State.sheds.offer (.step o) (movedBy d.mc o) (if d.slew ≠ none ∧ d.timeAuthority = some q
          then (d.port q).raiseSlewDone .cancelled else d.port q)
        exact ⟨a.trans this.1, b.trans this.2.1, c.trans this.2.2⟩
      · exact this
    cases m
    · rw [State.stepMove_sweep]; exact h1.trans (.sweep ..)
    · rw [State.stepMove_skip]
      have hq : (d.stepBegun o).queue = d.queue := by rw [State.stepBegun_rest]
      have : overtaken o d = (d.stepBegun o).queue.filter fun e => decide (0 < distance d.mc e.dueTime) && decide
          ((distance d.mc e.dueTime : Int) ≤ o) := by rw [hq]; rfl
      rw [this]
      exact h1.trans (.retireAllF _ _ _ (by decide))
  setRate s p k n _ := hsheds _ _ (.same rfl rfl)
  setFrame s p n _ := hsheds _ _ (.same rfl rfl)
  acquire s p m t f _ _ := hsheds _ _ (.mapLines ..)
  renew s p m _ _ := hsheds _ _ (.mapLines ..)
  release s p m _ := hsheds _ _ (.endLeases _ _ _ (by decide))
  revoke s p m _ := by
    refine hsheds _ _ ((State.sheds.endLeases s m .revoked (by decide)).trans (.map _ _ fun q => ?_))
    split
    · exact State.sheds.raise ..
    · exact PortState.sheds_refl _
  force s m f := hsheds _ _ (.mapLines ..)
  submit s p x _ _ h1 _ h2 h := hsub s p x h1 h2 h
  admitting s p x mc := hsheds _ _ (.mod _ _ _ (by rw [PortState.admitting_eq]; exact PortState.sheds_refl _))
  cancel s p t _ _ := by
    refine hsheds _ _ ?_
    have : pendingTagged p t s = s.queue.filter fun e => e.tag == t && e.port == p := by
      unfold pendingTagged State.pendingOf; rw [List.filter_filter]
    rw [this]
    refine (State.sheds.retireAllF _ _ _ (by decide)).trans (.mod _ _ _ ⟨List.filter_sublist, List.Sublist.refl _, rfl⟩)
  cancelLines s p m _ := by
    refine hsheds _ _ ?_
    have : pendingOnLines p m s = s.queue.filter fun e => namesLineIn m e && e.port == p := by
      unfold pendingOnLines State.pendingOf; rw [List.filter_filter]
    rw [this]
    exact .retireAllF _ _ _ (by decide)
  readCompletions s p n _ := by
    refine hsheds _ _ (.mod _ _ _ ?_)
    unfold PortState.popRecords PortState.moveReports PortState.raise
    dsimp only
    refine ⟨?_, List.drop_sublist _ _, ?_⟩
    · split
      · split <;> exact List.Sublist.refl _
      · exact List.Sublist.refl _
    · split
      · split <;> rfl
      · rfl
  stage s p x _ h1 h2 _ h := hst s p x h1 h2 h
  commit s p n t _ _ := hsheds _ _ (.mod _ _ _ (PortState.sheds_refl _))
  discard s p _ := hsheds _ _ (.mod _ _ _ ⟨List.nil_sublist _, List.Sublist.refl _, rfl⟩)
  configure s p m n e _ := by rw [State.configure_eq]; exact hsheds _ _ (.same rfl rfl)
  subscribe s p m _ := hsheds _ _ (State.sheds.mod s p (fun ps => { ps with subscription := m, arms := ps.arms &&&
      (ps.subscription &&& m) }) (PortState.sheds_refl _))
  readCaptures s p n _ := hsheds _ _ (State.sheds.mod s p (fun ps => { ps with log := ps.log.drop n })
      (PortState.sheds_refl _))
  clearArms s p m _ := hsheds _ _ (State.sheds.mod s p (fun ps => { ps with arms := ps.arms &&& ~~~m })
      (PortState.sheds_refl _))
  openPort s p _ _ := hsheds _ _ (.mod _ _ _ (PortState.sheds_refl _))
  closePort s p _ := by
    refine hsheds _ _ ?_
    unfold closePortOwner State.closeWork
    dsimp only
    refine State.sheds.trans ?_ (.mod _ _ _ ⟨List.nil_sublist _, List.nil_sublist _, rfl⟩)
    refine State.sheds.trans ?_ (.retireAllF _ _ _ (by decide))
    refine State.sheds.trans ?_ (.mod _ _ _ ⟨List.nil_sublist _, List.Sublist.refl _, rfl⟩)
    exact (State.sheds.dropRoles s p p).trans (.endLeases _ _ _ (by decide))
  claimRole s p r _ _ := by
    refine hsheds _ _ (State.sheds.trans (b := s.giveRole r p) ?_ (.raiseRole ..))
    cases r <;> exact .same rfl rfl
  releaseRole s p r _ := by
    refine hsheds _ _ ?_
    cases r
    · exact State.sheds.trans (b := { s with timeAuthority := none, slew := none }) (.same rfl rfl) (.raiseRole ..)
    · exact State.sheds.trans (b := { s with supervisor := none }) (.same rfl rfl) (.raiseRole ..)
  fencePort s p t _ _ _ := by
    refine hsheds _ _ ?_
    unfold State.fence
    dsimp only
    refine State.sheds.trans ?_ (.mod _ _ _ ?_)
    swap
    · exact State.sheds.raise ..
    refine State.sheds.trans ?_ (.mod _ _ _ ⟨List.nil_sublist _, List.Sublist.refl _, rfl⟩)
    refine State.sheds.trans (b := (s.modifyPort t fun ps => { ps with session := .fenced }).dropRoles t p) ?_ ?_
    · exact (State.sheds.mod _ _ _ (PortState.sheds_refl _)).trans (.dropRoles ..)
    · generalize (s.modifyPort t fun ps => { ps with session := .fenced }).dropRoles t p = d
      refine (State.sheds.mapLines d (fun l r => if d.holds t l then r.leaseEnded else r)).trans ?_
      have : fencedEntries t d = (d.mapLines fun l r => if d.holds t l then r.leaseEnded else r).queue.filter fun e
          => e.port == t || namesLineIn (d.heldLines t) e := by
        rw [State.mapLines_queue]; rfl
      rw [this]
      exact .retireAllF _ _ _ (by decide)
  setQuota s p t n _ h1 h2 h := hquota s p t n h1 h2 h
  readEvents s p m h := hsheds _ _ (State.sheds.mod s p _ (PortState.sheds_refl _)) h
  setEventMask s p m h := hsheds _ _ (State.sheds.mod s p (fun ps => { ps with mask := m }) (PortState.sheds_refl _)) h

end Sys2Proof.Machine
end

