-- ==== Sys2Proof/Laws/Runs.lean ====
section
/-! SUPPORT. Commands run one after another: due events until none is due, and the rows that a cycle owes, each equal to the
operation that takes them together. -/

namespace Sys2Proof.Machine

/-! ## Runs -/

theorem runAll_cons {c : Instr} {s t : State} (cs : List Instr) (h : exec c s = .next t) :
    runAll (c :: cs) s = runAll cs t := by
  simp only [runAll, h]

theorem runAll_append {xs ys : List Instr} {s t : State} (h : runAll xs s = .next t) :
    runAll (xs ++ ys) s = runAll ys t := by
  induction xs generalizing s with
  | nil => cases h; rfl
  | cons c xs ih =>
    obtain ⟨u, hu⟩ : ∃ u, exec c s = .next u := by cases c <;> exact ⟨_, rfl⟩
    rw [runAll_cons _ hu] at h
    rw [List.cons_append, runAll_cons _ hu]
    exact ih h

/-- Rows that each do one operation, which keeps what the row needs. -/
theorem runAll_map {α : Type} (row : α → Instr) (f : State → α → State) (P : State → Prop)
    (hrow : ∀ s x, P s → exec (row x) s = .next (f s x)) (hkeep : ∀ s x, P s → P (f s x)) (xs : List α) (s : State)
    (h : P s) : runAll (xs.map row) s = .next (xs.foldl f s) := by
  induction xs generalizing s with
  | nil => rfl
  | cons x xs ih =>
    rw [List.map_cons, runAll_cons _ (hrow s x h)]
    exact ih _ (hkeep s x h)

theorem State.onlyWork.inReset {s t : State} (h : s.onlyWork t) : t.inReset = s.inReset :=
  (congrArg State.inReset h.rest :)

/-! ## Due events -/

/-- As many takings as there are PENDING entries, or more, take everything that has fallen due. -/
theorem State.takeDueTimes_all (n : Nat) (s : State) (h : s.queue.length ≤ n) : s.takeDueTimes n = s.takeAllDue := by
  have stay : ∀ (n : Nat) (s : State), s.dueHead = none → s.takeDueTimes n = s := by
    intro n s hd
    have : s.takeDue = s := by unfold State.takeDue; rw [hd]
    induction n with
    | zero => rfl
    | succ n ih => rw [State.takeDueTimes, this, ih]
  have key : ∀ (m n : Nat) (s : State), s.queue.length ≤ m → s.queue.length ≤ n → s.takeDueTimes m = s.takeDueTimes n := by
    intro m
    induction m with
    | zero =>
      intro n s hm _
      have hd : s.dueHead = none := by
        have : s.queue = [] := List.length_eq_zero_iff.1 (by omega)
        unfold State.dueHead; rw [this]
      rw [stay n s hd]; rfl
    | succ m ih =>
      intro n s hm hn
      cases hd : s.dueHead with
      | none => rw [stay _ s hd, stay _ s hd]
      | some e =>
        have hl := State.takeEntry_length s e (State.dueHead_some s e hd).1
        have he : s.takeDue = s.takeEntry e := by unfold State.takeDue; rw [hd]
        obtain ⟨n, rfl⟩ : ∃ k, n = k + 1 := ⟨n - 1, by omega⟩
        rw [State.takeDueTimes, State.takeDueTimes, he]
        exact ih n _ (by omega) (by omega)
  exact key n s.queue.length s h (Nat.le_refl _)

theorem runAll_replicate_dueEvent (n : Nat) (s : State) (h : s.inReset = false) :
    runAll (List.replicate n .dueEvent) s = .next (s.takeDueTimes n) := by
  induction n generalizing s with
  | zero => rfl
  | succ n ih =>
    have he : exec .dueEvent s = .next s.takeDue := by simp [exec, execDueEvent, h]
    rw [List.replicate_succ, runAll_cons _ he]
    exact ih _ ((State.onlyTakes.takeDue s).work.inReset.trans h)

/-- The due events of all PENDING entries take every entry that has fallen due. -/
theorem runAll_dueEvents (s : State) (h : s.inReset = false) : runAll (dueEvents s) s = .next s.takeAllDue :=
  runAll_replicate_dueEvent _ _ h

/-! ## The rows that a cycle owes -/

/-- The row of a request that a port owes takes the port's frame. -/
theorem exec_owedRequest {s : State} {p : Port} {i : Instr} (hi : (s.port p).owedRequest p = some i) :
    exec i s = .next (s.takeFrame p) := by
  obtain ⟨x, hx⟩ := PortState.owedRequest_requester hi
  obtain ⟨t, ht⟩ : ∃ t, exec i s = .next t := by cases i <;> exact ⟨_, rfl⟩
  simp only [State.takeFrame, hi, execRequest_eq i s hx, ht]

/-- The requests that a cycle owes, run one after another. -/
theorem runAll_takings (s : State) (h : s.inReset = false) :
    runAll (Port.all.filterMap fun p => (s.port p).owedRequest p) s = .next (Port.all.foldl State.takeFrame s) := by
  have key : ∀ (ps : List Port), ps.Nodup → ∀ u : State, u.inReset = false →
      (∀ q ∈ ps, (u.port q).owedRequest q = (s.port q).owedRequest q) →
      runAll (ps.filterMap fun p => (s.port p).owedRequest p) u = .next (ps.foldl State.takeFrame u) := by
    intro ps
    induction ps with
    | nil => exact fun _ _ _ _ => rfl
    | cons p ps ih =>
      intro hn u hu ho
      rw [List.nodup_cons] at hn
      have hp := ho p (by simp)
      obtain ⟨k1, k2, -⟩ := State.takeFrame_links u p hu
      have rest := ih hn.2 (u.takeFrame p) k1 fun q hq => by
        rw [(k2 q (by rintro rfl; exact hn.1 hq)).owedRequest]
        exact ho q (List.mem_cons_of_mem _ hq)
      cases hi : (s.port p).owedRequest p with
      | none =>
        rw [List.filterMap_cons_none (f := fun p => (s.port p).owedRequest p) hi]
        rw [hi] at hp
        rw [State.takeFrame_none hp] at rest
        rw [List.foldl_cons, State.takeFrame_none hp]
        exact rest
      | some i =>
        rw [List.filterMap_cons_some (f := fun p => (s.port p).owedRequest p) hi, runAll_cons _ (exec_owedRequest (hp.trans hi))]
        exact rest
  exact key Port.all (by decide) s h fun _ _ => rfl

/-- The takings that a cycle owes leave the rising edges alone. -/
theorem takings_risen (s : State) (h : s.inReset = false) (p : Port) :
    (Port.all.foldl State.takeFrame s).inReset = false ∧
      ((Port.all.foldl State.takeFrame s).port p).risen = (s.port p).risen :=
  takings_port s h p (fun x => x.risen = (s.port p).risen) (fun _ _ hk hx => hk.risen.trans hx) fun u hu hk =>
    (State.takeFrame_links u p hu).2.2.1.trans hk.risen

/-- The row that recognises the oldest rising edge, once it has passed both stages, is its recognition. -/
theorem exec_recognitionRow {s : State} {p : Port} {c : RiseChange} (h : s.inReset = false)
    (hc : (s.port p).recognisable = some c) :
    exec (recognitionRow p c) s = .next (s.modifyPort p (PortState.recogniseNext p)) := by
  have row : ∀ {g : PortState → PortState} {i : Instr}, (s.port p).recogniseNext p = g (s.port p) →
      exec i s = .next (s.modifyPort p g) → exec i s = .next (s.modifyPort p (PortState.recogniseNext p)) := by
    intro g i hg he; rw [he, State.modifyPort_congr s p hg]
  have hr : ∀ c, (s.port p).recognisable = some c → (s.port p).recogniseNext p = (match c with
      | .whole => (s.port p).checkInHand p
      | .aborted => (s.port p).requestRecognised
      | .dropped => (s.port p).requestRecognised
      | .unknown => (s.port p).unknownRecognised
      | .fetched => (s.port p).fetchRecognised) := by
    intro c hc
    unfold PortState.recogniseNext
    rw [hc]
    cases c <;> rfl
  have running : ∀ f g : PortState → PortState, s.modifyPort p (if s.inReset then f else g) = s.modifyPort p g := by
    intro f g; rw [h]; rfl
  cases c
  · exact row (g := PortState.checkInHand p) (hr _ hc) (by
      simp only [recognitionRow, exec, execFrameCheck, h, Bool.false_eq_true, ↓reduceIte])
  · exact row (g := PortState.clockRequest .recognised) (hr _ hc)
      (congrArg Host.Outcome.next (running _ _))
  · exact row (g := PortState.clockRequest .recognised) (hr _ hc)
      (congrArg Host.Outcome.next (running _ _))
  · exact row (g := PortState.unknownTransaction 0x00 .recognised) (hr _ hc)
      (congrArg Host.Outcome.next (running _ _))
  · exact row (g := PortState.fetch .recognised) (hr _ hc)
      (congrArg Host.Outcome.next (running _ _))

/-- The recognitions that a cycle owes at a port, run one after another. -/
theorem runAll_recognitionRows (s : State) (p : Port) (h : s.inReset = false) :
    runAll (recognitionRows s p) s = .next (s.recogniseAll p) := by
  have key : ∀ (n : Nat) (u : State), u.inReset = false → (u.port p).risen.length ≤ n →
      runAll (recognitionRows u p) u = .next (u.modifyPort p (PortState.recogniseTimes p n)) := by
    intro n
    induction n with
    | zero =>
      intro u hu hn
      have : (u.port p).risen = [] := List.length_eq_zero_iff.1 (by omega)
      simp only [recognitionRows, this, List.takeWhile_nil, List.map_nil, runAll]
      rw [State.modifyPort_same u p rfl]
    | succ n ih =>
      intro u hu hn
      cases hc : (u.port p).recognisable with
      | none =>
        have : recognitionRows u p = [] := by
          unfold recognitionRows
          unfold PortState.recognisable at hc
          split at hc
          · next hr => rw [hr]; rfl
          · next r rest hr =>
            rw [hr]
            split at hc
            · cases hc
            · next hs => rw [List.takeWhile_cons_of_neg (by simpa using hs)]; rfl
        rw [this, State.modifyPort_same u p (PortState.recogniseTimes_none _ _ _ hc)]
        rfl
      | some c =>
        have hx := exec_recognitionRow hu hc
        have ht := (PortState.recogniseNext_some p _ hc).1
        have hrows : recognitionRows u p =
            recognitionRow p c :: recognitionRows (u.modifyPort p (PortState.recogniseNext p)) p := by
          unfold recognitionRows
          rw [State.modifyPort_port_same, ht]
          unfold PortState.recognisable at hc
          split at hc
          · cases hc
          · next r rest hr =>
            rw [hr]
            split at hc
            · next hs =>
              cases hc
              rw [List.takeWhile_cons_of_pos (by simpa using hs)]
              rfl
            · cases hc
        rw [hrows, runAll_cons _ hx, ih (u.modifyPort p (PortState.recogniseNext p)) hu (by
          rw [State.modifyPort_port_same, ht, List.length_tail]; omega), State.modifyPort_modifyPort]
        rfl
  exact key _ s h (Nat.le_refl _)

/-- The rows that a cycle owes, run one after another, and then the due events of what has fallen due, take what INCREMENT
would take (log entry 2). -/
theorem State.endsIn_finishCycle (s : State) (h : s.inReset = false) : s.endsIn s.finishCycle := by
  -- the recognitions, port by port
  have recognised : ∀ (ps : List Port), ps.Nodup → ∀ u : State, u.inReset = false →
      (∀ q ∈ ps, (u.port q).risen = (s.port q).risen) →
      runAll (ps.flatMap (recognitionRows s)) u = .next (ps.foldl State.recogniseAll u) := by
    intro ps
    induction ps with
    | nil => exact fun _ _ _ _ => rfl
    | cons p ps ih =>
      intro hn u hu ho
      rw [List.nodup_cons] at hn
      have hp : recognitionRows s p = recognitionRows u p := by unfold recognitionRows; rw [ho p (by simp)]
      rw [List.flatMap_cons, hp, runAll_append (runAll_recognitionRows u p hu)]
      refine ih hn.2 (u.recogniseAll p) hu fun q hq => ?_
      rw [State.recogniseAll_port, if_neg (by rintro rfl; exact hn.1 hq)]
      exact ho q (List.mem_cons_of_mem _ hq)
  have running : ∀ u v : State, u.inReset = false →
      (Host.Outcome.next (if u.inReset then u else v) : Host.Outcome State Fault Refusal) = .next v := by
    intro u v hu; rw [hu]; rfl
  let P (u : State) : Prop := u.inReset = false
  have fold : ∀ {α : Type} (f : State → α → State) (_ : ∀ u x, P u → P (f u x)) (xs : List α) (u : State), P u →
      P (xs.foldl f u) := by
    intro α f hf xs
    induction xs with
    | nil => exact fun _ h => h
    | cons x xs ih => exact fun u h => ih _ (hf _ _ h)
  have k1 : ∀ u c, P u → P (u.sampleChannel c) := fun u c hu => (State.onlyWork.sampleChannel u c).inReset.trans hu
  have k2 : ∀ u p, P u → P (u.takeStrobe p) := fun u p hu => (State.onlyWork.takeStrobe u p).inReset.trans hu
  have k3 : ∀ u, P u → P u.handBoundary := fun u hu => (State.onlyWork.handBoundary u).inReset.trans hu
  have k4 : ∀ u p, P u → P (u.validateIfDue p) := fun u p hu => (State.onlyWork.validateIfDue u p).inReset.trans hu
  have k5 : ∀ u l, P u → P (u.expireLease l) := fun u l hu => (State.onlyWork.expireLease u l).inReset.trans hu
  have t0 := (takings_risen s h .a).1
  have PL : P s.finishLinks := fold State.recogniseAll (fun _ _ hu => hu) Port.all _ t0
  have P1 := fold _ k1 (List.finRange 16) _ PL
  have P2 := fold _ k2 Port.all _ P1
  have P3 := k3 _ P2
  have P4 := fold _ k4 Port.all _ P3
  have P5 := fold _ k5 (List.finRange 16) _ P4
  have r0 := recognised Port.all (by decide) _ t0 fun q _ => (takings_risen s h q).2
  have r1 := runAll_map .channelSample State.sampleChannel P
    (fun u c hu => running _ _ hu) k1 (List.finRange 16) _ PL
  have r2 := runAll_map .strobeEdge State.takeStrobe P
    (fun u p hu => running _ _ hu) k2 Port.all _ P1
  have r3 : ∀ u, P u → runAll [.frameBoundary] u = .next u.handBoundary := fun u hu =>
    runAll_cons [] (running _ _ hu)
  have r4 := runAll_map .batchValidation State.validateIfDue P
    (fun u p hu => running _ _ hu) k4 Port.all _ P3
  have r5 := runAll_map .leaseExpiry State.expireLease P
    (fun u l hu => running _ _ hu) k5 (List.finRange 16) _ P4
  refine ⟨_, ?_, runAll_dueEvents _ P5⟩
  unfold owedRows
  rw [List.append_assoc, List.append_assoc, List.append_assoc, List.append_assoc, List.append_assoc,
    runAll_append (runAll_takings s h), runAll_append r0]
  exact (runAll_append r1).trans ((runAll_append r2).trans ((runAll_append (r3 _ P2)).trans ((runAll_append r4).trans r5)))

/-- What the present cycle ends in is one state. -/
theorem State.endsIn_unique {s t : State} (h : s.inReset = false) (ht : s.endsIn t) : t = s.finishCycle := by
  obtain ⟨u, h1, h2⟩ := ht
  obtain ⟨v, k1, k2⟩ := s.endsIn_finishCycle h
  cases h1.symm.trans k1
  exact Host.Outcome.next.inj (h2.symm.trans k2)

end Sys2Proof.Machine
end

