-- ==== Sys2Proof/Laws/Overtaken.lean ====
section
/-! SUPPORT. The overtaken entries of a SWEEP step: taking them one after another is taking all that has fallen due at the
post-step MC, and what becomes of the entries that were not overtaken. -/

namespace Sys2Proof.Machine

/-! ## Taking all that is due -/

theorem State.takeAllDue_none (s : State) (h : s.dueHead = none) : s.takeAllDue = s := by
  unfold State.takeAllDue
  generalize s.queue.length = n
  induction n with
  | zero => rfl
  | succ n ih =>
    have : s.takeDue = s := by simp [State.takeDue, h]
    rw [State.takeDueTimes, this, ih]

theorem State.takeAllDue_head (s : State) (e : Entry) (h : s.dueHead = some e) :
    s.takeAllDue = (s.takeEntry e).takeAllDue := by
  have he := State.dueHead_some s e h
  have hl := State.takeEntry_length s e he.1
  have h1 : s.takeAllDue = s.takeDueTimes (s.queue.length - 1 + 1) := by
    unfold State.takeAllDue
    congr 1
    omega
  rw [h1, State.takeDueTimes]
  have : s.takeDue = s.takeEntry e := by unfold State.takeDue; rw [h]
  rw [this]
  exact State.takeDueTimes_all _ _ (by omega)

theorem State.takeEntry_mc (s : State) (e : Entry) : (s.takeEntry e).mc = s.mc :=
  (congrArg State.mc (State.onlyTakes.takeEntry s e).rest :)

/-! ## The sweep -/

/-- A sublist of a list without duplicates keeps exactly the members that it has. -/
theorem sublist_eq_filter {l l' : List Entry} (h : l'.Sublist l) (hn : l.Nodup) :
    l' = l.filter (fun x => decide (x ∈ l')) := by
  induction h with
  | slnil => rfl
  | @cons l1 l2 a h ih =>
    rw [List.nodup_cons] at hn
    have : a ∉ l1 := fun hc => hn.1 (h.subset hc)
    rw [List.filter_cons_of_neg (by simpa using this)]
    exact ih hn.2
  | @cons_cons l1 l2 a h ih =>
    rw [List.nodup_cons] at hn
    rw [List.filter_cons_of_pos (by simp)]
    congr 1
    rw [ih hn.2]
    apply List.filter_congr
    intro x hx
    have : x ≠ a := by rintro rfl; exact hn.1 hx
    rw [← ih hn.2]; simp [this]

/-- A sweep of the entries that stand first in the queue order and have fallen due, where no other has, takes all that has
fallen due. -/
theorem State.sweep_eq (es : List Entry) (b : State) (post : List Entry) (hn : b.queue.Nodup)
    (hq : b.queue = es.filter (fun x => decide (x ∈ b.queue)) ++ post)
    (h1 : ∀ e ∈ es, reached b.mc e.dueTime = true) (h2 : ∀ e ∈ post, reached b.mc e.dueTime = false) (hes : es.Nodup) :
    b.sweep es = b.takeAllDue := by
  induction es generalizing b post with
  | nil =>
    refine (State.takeAllDue_none b ?_).symm
    unfold State.dueHead
    rw [List.filter_nil, List.nil_append] at hq
    split
    · rfl
    · next x rest hx => rw [if_neg]; rw [h2 x (by rw [← hq, hx]; simp)]; simp
  | cons e es ih =>
    rw [List.nodup_cons] at hes
    have hs : b.sweep (e :: es) = (if e ∈ b.queue then b.takeEntry e else b).sweep es := rfl
    rw [hs]
    by_cases he : e ∈ b.queue
    · rw [if_pos he]
      rw [List.filter_cons_of_pos (by simpa using he)] at hq
      have hd : b.dueHead = some e := by
        unfold State.dueHead
        rw [hq, List.cons_append]
        simp only
        rw [if_pos (h1 e (by simp))]
      rw [State.takeAllDue_head b e hd]
      have hsub : (b.takeEntry e).queue.Sublist (es.filter (fun x => decide (x ∈ b.queue)) ++ post) := by
        have : b.queue.erase e = es.filter (fun x => decide (x ∈ b.queue)) ++ post := by
          conv_lhs => rw [hq]
          rw [List.cons_append, List.erase_cons_head]
        rw [← this]
        rcases State.takeEntry_queue b e with h | ⟨t, _, _, h⟩
        · rw [h]
        · rw [h]; exact List.erase_sublist
      have hn' : (es.filter (fun x => decide (x ∈ b.queue)) ++ post).Nodup := by
        have := hn
        rw [hq, List.cons_append, List.nodup_cons] at this
        exact this.2
      have hsubq : ∀ x ∈ (b.takeEntry e).queue, x ∈ b.queue := fun x hx =>
        (State.onlyTakes.takeEntry b e).queue.subset hx
      have hf := sublist_eq_filter hsub hn'
      rw [List.filter_append, List.filter_filter] at hf
      refine ih (b.takeEntry e) (post.filter fun x => decide (x ∈ (b.takeEntry e).queue)) (hn'.sublist hsub) ?_
        (fun x hx => by rw [State.takeEntry_mc]; exact h1 x (by simp [hx]))
        (fun x hx => by rw [State.takeEntry_mc]; exact h2 x (List.mem_filter.1 hx).1) hes.2
      refine hf.trans ?_
      congr 1
      apply List.filter_congr
      intro x _
      by_cases hx : x ∈ (b.takeEntry e).queue <;> simp [hx]
      exact hsubq x hx
    · rw [if_neg he]
      rw [List.filter_cons_of_neg (by simpa using he)] at hq
      exact ih b post hn hq (fun x hx => h1 x (by simp [hx])) h2 hes.2

/-- Under the tag law no entry stands twice in the queue order. -/
theorem State.queue_nodup (s : State) (h : s.tagLaw) : s.queue.Nodup := by
  rw [List.nodup_iff_count_le_one]
  intro x
  have hp := h.2 x.port
  unfold State.liveEntries at hp
  have h1 := (List.pairwise_append.1 (List.pairwise_append.1 hp).1).2.1
  have h2 : (s.pendingOf x.port).Nodup := by
    refine h1.imp ?_
    rintro a b hab rfl
    rcases hab rfl with ⟨c1, c2⟩ | ⟨c1, c2⟩ <;>
      (cases ha : a.action <;> simp_all [EntryAction.isLead, EntryAction.isTrail])
  have h3 := List.nodup_iff_count_le_one.1 h2 x
  unfold State.pendingOf at h3
  rwa [List.count_filter (by simp)] at h3

/-- The beginning of a step that the ATTACHED holder of TIME_AUTHORITY sends. -/
theorem State.stepBegun_eq_moved (s : State) (p : Port) (offset : Int) (h : s.timeAuthority = some p)
    (ha : (s.port p).session = .attached) : s.stepBegun offset = s.moved offset := by
  rw [State.stepBegun_rest]
  unfold State.moved
  dsimp only
  congr 1
  apply PortFile.ext_get
  intro q
  rw [PortFile.get_map]
  refine (State.stepBegun_port s offset q).trans ?_
  dsimp only
  by_cases hc : s.slew ≠ none ∧ s.timeAuthority = some q
  · have hqp : q = p := by have := hc.2; rw [h] at this; exact (Option.some.inj this).symm
    subst hqp
    have hr : (s.port q).raiseSlewDone .cancelled =
        { s.port q with events := (s.port q).events ||| EventKind.slewDone.mask, slewResult := some .cancelled } := by
      unfold PortState.raiseSlewDone
      rw [if_pos]; rw [ha]; rfl
    have ha' : (s.ports.get q).session = .attached := ha
    rw [if_pos hc, if_pos ha, hr, if_pos hc, if_pos ha']
    exact PortState.offer_attached _ _ _ ha
  · rw [if_neg hc]
    simp only [if_neg hc]
    by_cases hq : (s.port q).session = .attached
    · have hq' : (s.ports.get q).session = .attached := hq
      rw [if_pos hq, if_pos hq']; exact PortState.offer_attached _ _ _ hq
    · have hq' : ¬ (s.ports.get q).session = .attached := hq
      rw [if_neg hq, if_neg hq']; rfl

/-! ## Reports of entries that are taken -/

theorem State.retire_reports (s : State) (e : Entry) (o : Outcome) (q : Port) :
    ∀ r ∈ (s.port q).allReports, r ∈ ((s.retire e o).port q).allReports := by
  intro r hr
  rw [State.retire_eq]
  split
  · exact hr
  · rw [State.modifyPort_port]
    split
    · next h => subst h; rw [PortState.takeReports_allReports]; exact List.mem_append_left _ hr
    · exact hr

theorem State.retire_files (s : State) (e : Entry) (o : Outcome) (ho : o ≠ .done) :
    recordFor o s.mc e ∈ ((s.retire e o).port e.port).allReports := by
  rw [State.retire_eq, if_neg (fun h => ho h.1), State.modifyPort_port_same, PortState.takeReports_allReports]
  exact List.mem_append_right _ (by simp [recordFor])

/-- The taking of an entry removes no report. -/
theorem State.takeEntry_reports (s : State) (e : Entry) (q : Port) :
    ∀ r ∈ (s.port q).allReports, r ∈ ((s.takeEntry e).port q).allReports := by
  intro r hr
  unfold State.takeEntry
  split
  · unfold State.retireGuardFalse
    dsimp only
    split
    · split
      · exact State.retire_reports _ _ _ _ _ (State.retire_reports _ _ _ _ _ hr)
      · exact State.retire_reports _ _ _ _ _ hr
    · exact State.retire_reports _ _ _ _ _ hr
  · next s1 h =>
    dsimp only
    apply State.retire_reports
    have h1 : (s1.port q).allReports = (s.port q).allReports := by
      unfold State.guardTest at h
      split at h
      · cases h; rfl
      · split at h
        · split at h
          · cases h
            rw [State.modifyPort_port]; split
            · next hq => subst hq; rfl
            · rfl
          · cases h; rfl
        · cases h
    have h2 : ((s1.applyAction e).1.port q).allReports = (s1.port q).allReports := by
      unfold State.applyAction
      split <;> try rfl
      unfold State.deliverNote
      rw [State.mapPorts_port]
      split
      · rw [PortState.offer_eq]; split <;> rfl
      · rfl
    rw [h2, h1]; exact hr

theorem State.sweep_reports (es : List Entry) (s : State) (q : Port) :
    ∀ r ∈ (s.port q).allReports, r ∈ ((s.sweep es).port q).allReports := by
  induction es generalizing s with
  | nil => exact fun _ h => h
  | cons e es ih =>
    intro r hr
    have hs : s.sweep (e :: es) = (if e ∈ s.queue then s.takeEntry e else s).sweep es := rfl
    rw [hs]
    refine ih _ r ?_
    split
    · exact State.takeEntry_reports _ _ _ _ hr
    · exact hr

/-- An entry that leaves the queue order as another is taken is the TRAIL of a LEAD that retires GUARD_FALSE. -/
theorem State.takeEntry_removes (s : State) (e x : Entry) (hx : x ∈ s.queue) (hne : x ≠ e)
    (hg : x ∉ (s.takeEntry e).queue) :
    e.action.isLead = true ∧ isTrailOf e x = true ∧
      recordFor .guardFalse s.mc e ∈ ((s.takeEntry e).port x.port).allReports := by
  have h1 : x ∈ s.queue.erase e := (List.mem_erase_of_ne hne).2 hx
  unfold State.takeEntry at hg
  split at hg
  · next hn =>
    have he : s.takeEntry e = s.retireGuardFalse e := by unfold State.takeEntry; rw [hn]
    rw [he]
    unfold State.retireGuardFalse at hg ⊢
    dsimp only at hg ⊢
    split at hg
    · next hl =>
      rw [if_pos hl]
      split at hg
      · next t ht =>
        rw [State.retire_queue, State.retire_queue] at hg
        have hxt : x = t := by
          by_contra hc
          exact hg ((List.mem_erase_of_ne hc).2 h1)
        subst hxt
        have htr := List.find?_some ht
        have hp : x.port = e.port := by
          simp only [isTrailOf, Bool.and_eq_true, beq_iff_eq] at htr; exact htr.1.1
        refine ⟨hl, htr, ?_⟩
        rw [hp]
        exact State.retire_reports _ _ _ _ _ (State.retire_files s e .guardFalse (by decide))
      · rw [State.retire_queue] at hg; exact absurd h1 hg
    · rw [State.retire_queue] at hg; exact absurd h1 hg
  · next hn =>
    dsimp only at hg
    rw [State.retire_queue, State.applyAction_queue, State.guardTest_queue _ _ _ hn] at hg
    exact absurd h1 hg

/-- An entry that a sweep does not name still waits after it, unless it is the TRAIL of a LEAD that the sweep retires
GUARD_FALSE. -/
theorem State.sweep_survivors (es : List Entry) (b : State) (x : Entry) (hx : x ∈ b.queue) (hne : x ∉ es) :
    x ∈ (b.sweep es).queue ∨ ∃ lead ∈ es, lead ∈ b.queue ∧ lead.action.isLead = true ∧ isTrailOf lead x = true ∧
      recordFor .guardFalse (b.sweep es).mc lead ∈ ((b.sweep es).port x.port).allReports := by
  induction es generalizing b with
  | nil => exact Or.inl hx
  | cons e es ih =>
    have hs : b.sweep (e :: es) = (if e ∈ b.queue then b.takeEntry e else b).sweep es := rfl
    rw [hs]
    have hne' : x ∉ es := fun h => hne (by simp [h])
    by_cases he : e ∈ b.queue
    · rw [if_pos he]
      by_cases hxu : x ∈ (b.takeEntry e).queue
      · rcases ih _ hxu hne' with h | ⟨lead, l1, l2, l3⟩
        · exact Or.inl h
        · exact Or.inr ⟨lead, by simp [l1], (State.onlyTakes.takeEntry b e).queue.subset l2, l3⟩
      · obtain ⟨h1, h2, h3⟩ := State.takeEntry_removes b e x hx (fun h => hne (by simp [h])) hxu
        have hmc : ((b.takeEntry e).sweep es).mc = b.mc :=
          (congrArg State.mc (State.onlyTakes.sweep es (b.takeEntry e)).rest :).trans (State.takeEntry_mc b e)
        refine Or.inr ⟨e, by simp, he, h1, h2, ?_⟩
        rw [hmc]
        exact State.sweep_reports _ _ _ _ h3
    · rw [if_neg he]
      rcases ih b hx hne' with h | ⟨lead, l1, l2⟩
      · exact Or.inl h
      · exact Or.inr ⟨lead, by simp [l1], l2⟩

end Sys2Proof.Machine
end

