-- ==== Sys2Proof/Laws/Owed.lean ====
section
/-! SUPPORT. What an event of a cycle leaves owed: nothing that had been taken is owed again, so that once every event that a
cycle owes is taken the cycle owes nothing. -/

namespace Sys2Proof.Machine

/-- Nothing that the cycle no longer owes in the state is owed in the later one; entries that fall due are apart. -/
structure State.settles (s t : State) : Prop where
  work : s.onlyWork t
  sample : ∀ c : Channel, s.samplesTaken[c] = true → t.samplesTaken[c] = true
  strobe : ∀ p, (s.port p).strobeRose = false → (t.port p).strobeRose = false
  boundary : s.boundaryToHand = false → t.boundaryToHand = false
  batch : ∀ p, s.validationDue p = false → t.validationDue p = false
  lease : ∀ l, s.leaseRunOut l = false → t.leaseRunOut l = false

namespace State.settles

theorem refl (s : State) : s.settles s := ⟨.refl _, fun _ h => h, fun _ h => h, id, fun _ h => h, fun _ h => h⟩

theorem trans {a b c : State} (h : a.settles b) (h' : b.settles c) : a.settles c :=
  ⟨h.work.trans h'.work, fun x hx => h'.sample x (h.sample x hx), fun p hp => h'.strobe p (h.strobe p hp),
    fun hb => h'.boundary (h.boundary hb), fun p hp => h'.batch p (h.batch p hp), fun l hl => h'.lease l (h.lease l hl)⟩

theorem fold {α : Type} (f : State → α → State) (h : ∀ (s : State) x, s.settles (f s x)) (xs : List α) (s : State) :
    s.settles (xs.foldl f s) := by
  induction xs generalizing s with
  | nil => exact refl _
  | cons x xs ih => exact (h s x).trans (ih _)

/-- A change that leaves the cycle's own fields, the leases, the strobe edges and the batches' targets alone, or clears
them. -/
theorem of_fields {s t : State} (hw : s.onlyWork t) (hs : ∀ c : Channel, s.samplesTaken[c] = true → t.samplesTaken[c] = true)
    (hb : t.boundaryToHand = s.boundaryToHand ∨ t.boundaryToHand = false)
    (hl : ∀ l, (t.line l).lease = (s.line l).lease ∨ (t.line l).lease = none)
    (hp : ∀ p, ((t.port p).strobeRose = (s.port p).strobeRose ∨ (t.port p).strobeRose = false) ∧
      ((t.port p).batch.target = (s.port p).batch.target ∨ (t.port p).batch.target = none)) : s.settles t := by
  have hi : t.frameIndex = s.frameIndex := (congrArg State.frameIndex hw.rest :)
  refine ⟨hw, hs, fun p h => ?_, fun h => ?_, fun p h => ?_, fun l h => ?_⟩
  · rcases (hp p).1 with h1 | h1
    · exact h1.trans h
    · exact h1
  · rcases hb with h1 | h1
    · exact h1.trans h
    · exact h1
  · unfold State.validationDue at *
    rw [hi]
    rcases (hp p).2 with h1 | h1
    · rw [h1]; exact h
    · rw [h1]; rfl
  · unfold State.leaseRunOut at *
    rcases hl l with h1 | h1
    · rw [h1]; exact h
    · rw [h1]

theorem of_takes {s t : State} (h : s.onlyTakes t) : s.settles t :=
  of_fields h.work (fun c hc => by have : t.samplesTaken = s.samplesTaken := (congrArg State.samplesTaken h.rest :); rwa [this])
    (.inl (congrArg State.boundaryToHand h.rest :)) (fun l => .inl (h.line l).1)
    fun p => ⟨.inl (congrArg PortState.strobeRose (h.port p).rest :),
      .inl (congrArg (fun ps => PortState.batch ps |>.target) (h.port p).rest :)⟩

/-- A change of one port. -/
theorem modifyPort (s : State) (p : Port) (g : PortState → PortState) (hw : (s.port p).onlyWork (g (s.port p)))
    (hr : (g (s.port p)).strobeRose = (s.port p).strobeRose ∨ (g (s.port p)).strobeRose = false)
    (hb : (g (s.port p)).batch.target = (s.port p).batch.target ∨ (g (s.port p)).batch.target = none) :
    s.settles (s.modifyPort p g) := by
  refine of_fields (.modifyPort _ _ _ hw) (fun _ h => h) (.inl rfl) (fun _ => .inl rfl) fun q => ?_
  rw [State.modifyPort_port]
  split
  · next h => subst h; exact ⟨hr, hb⟩
  · exact ⟨.inl rfl, .inl rfl⟩

theorem sampleChannel (s : State) (c : Channel) : s.settles (s.sampleChannel c) := by
  have store : s.settles (s.storeSample c) :=
    of_fields (.storeSample s c) (fun x hx => by
      have : (s.storeSample c).samplesTaken = s.samplesTaken ||| BitVec.twoPow 16 c.val := rfl
      rw [this, Fin.getElem_fin, BitVec.getElem_or]; rw [Fin.getElem_fin] at hx; rw [hx]; rfl)
      (.inl rfl) (fun _ => .inl rfl) fun _ => ⟨.inl rfl, .inl rfl⟩
  have deliver : ∀ (u : State) e now, u.settles (u.deliverEdge c e now) := fun u e now =>
    of_fields (.deliverEdge u c e now) (fun _ h => h) (.inl rfl) (fun _ => .inl rfl) fun q => by
      unfold State.deliverEdge
      rw [State.mapPorts_port]
      split
      · rw [PortState.offer_eq]; split <;> exact ⟨.inl rfl, .inl rfl⟩
      · exact ⟨.inl rfl, .inl rfl⟩
  unfold State.sampleChannel
  split
  · split
    · split
      · exact store.trans (deliver ..)
      · exact store
    · exact store
  · exact refl _

theorem takeStrobe (s : State) (p : Port) : s.settles (s.takeStrobe p) := by
  have hw := State.onlyWork.takeStrobe s p
  unfold State.takeStrobe at *
  split at hw
  · next h =>
    rw [if_pos h]
    refine modifyPort _ _ _ ?_ (.inr ?_) (.inl ?_)
    · have := hw.port p
      rwa [State.modifyPort_port_same] at this
    · unfold PortState.latchStrobe PortState.raise; split <;> rfl
    · unfold PortState.latchStrobe PortState.raise; split <;> rfl
  · next h => rw [if_neg h]; exact refl _

theorem handBoundary (s : State) : s.settles s.handBoundary := by
  have hw := State.onlyWork.handBoundary s
  unfold State.handBoundary at *
  split at hw
  · next h =>
    rw [if_pos h]
    refine of_fields hw (fun _ h => h) (.inr rfl) (fun _ => .inl rfl) fun q => ?_
    unfold State.raiseAttached
    rw [State.mapPorts_port]
    split
    · unfold PortState.raise; split <;> exact ⟨.inl rfl, .inl rfl⟩
    · exact ⟨.inl rfl, .inl rfl⟩
  · next h => rw [if_neg h]; exact refl _

theorem freeBatch (s : State) (p : Port) : s.settles (s.freeBatch p) := modifyPort _ _ _ rfl (.inl rfl) (.inr rfl)

theorem raiseBatchDone (s : State) (p : Port) (r : BatchResult) :
    s.settles (s.modifyPort p (PortState.raiseBatchDone r)) := by
  refine modifyPort _ _ _ ?_ ?_ ?_ <;> unfold PortState.raiseBatchDone <;> split
  all_goals first | rfl | exact .inl rfl

theorem enqueue (s : State) (es : List Entry) : s.settles (s.enqueue es) :=
  of_fields (.enqueue s es) (fun c h => by rw [State.enqueue_eq]; exact h) (.inl (by rw [State.enqueue_eq]))
    (fun l => .inl (by rw [State.enqueue_eq]; rfl)) fun q => by
    have : (s.enqueue es).port q = s.port q := by rw [State.enqueue_eq]; rfl
    rw [this]; exact ⟨.inl rfl, .inl rfl⟩

theorem validateIfDue (s : State) (p : Port) : s.settles (s.validateIfDue p) := by
  unfold State.validateIfDue
  split
  · unfold State.validate
    dsimp only
    split
    · exact ((freeBatch s p).trans (enqueue ..)).trans (raiseBatchDone ..)
    · exact ((freeBatch s p).trans (of_takes (State.abortEntries_onlyTakes ..))).trans (raiseBatchDone ..)
  · exact refl _

theorem expireLease (s : State) (l : Line) : s.settles (s.expireLease l) := by
  unfold State.expireLease
  split
  · split
    · refine trans (b := s.endLeases (BitVec.twoPow 16 l.val) .expired) ?_ ?_
      · refine trans (b := s.mapLines fun k r => if (BitVec.twoPow 16 l.val)[k] then r.leaseEnded else r) ?_
          (of_takes (State.onlyTakes.retireAll ..))
        refine of_fields (.mapLines ..) (fun c h => by rw [State.mapLines_samplesTaken]; exact h)
          (.inl (State.mapLines_boundaryToHand ..)) (fun k => ?_) fun q => ?_
        · rw [State.mapLines_line]
          split
          · unfold LineRecord.leaseEnded; split
            · exact .inl rfl
            · exact .inr rfl
          · exact .inl rfl
        · rw [State.mapLines_port]; exact ⟨.inl rfl, .inl rfl⟩
      · refine modifyPort _ _ _ (PortState.onlyTakes.raise _ (by decide) (by decide) _).work ?_ ?_ <;>
          unfold PortState.raise <;> split <;> exact .inl rfl
    · exact refl _
  · exact refl _

end State.settles

/-! ## Each event is taken -/

theorem State.sampleChannel_taken (s : State) (c : Channel) : (s.sampleChannel c).samplesTaken[c] = true := by
  unfold State.sampleChannel
  have store : (s.storeSample c).samplesTaken[c] = true := by
    have : (s.storeSample c).samplesTaken = s.samplesTaken ||| BitVec.twoPow 16 c.val := rfl
    rw [this, Fin.getElem_fin, BitVec.getElem_or, BitVec.getElem_twoPow]; simp
  split
  · split
    · split
      · exact store
      · exact store
    · exact store
  · next h =>
    unfold State.sampleOwed at h
    simpa using h

theorem State.takeStrobe_taken (s : State) (p : Port) : ((s.takeStrobe p).port p).strobeRose = false := by
  unfold State.takeStrobe
  split
  · rw [State.modifyPort_port_same]
    unfold PortState.latchStrobe PortState.raise
    split <;> rfl
  · next h => simpa using h

theorem State.validateIfDue_taken (s : State) (p : Port) : (s.validateIfDue p).validationDue p = false := by
  unfold State.validateIfDue
  split
  · have hf : (s.freeBatch p).validationDue p = false := by
      unfold State.validationDue State.freeBatch
      rw [State.modifyPort_port_same]
      rfl
    unfold State.validate
    dsimp only
    split
    · exact ((State.settles.enqueue _ _).trans (State.settles.raiseBatchDone _ _ _)).batch p hf
    · exact ((State.settles.of_takes (State.abortEntries_onlyTakes _ _ _)).trans
        (State.settles.raiseBatchDone _ _ _)).batch p hf
  · next h => simpa using h

theorem State.expireLease_taken (s : State) (l : Line) : (s.expireLease l).leaseRunOut l = false := by
  unfold State.expireLease
  split
  · next x hx =>
    split
    · have h1 : ((s.endLeases (BitVec.twoPow 16 l.val) .expired).line l).lease = none := by
        unfold State.endLeases
        rw [((State.onlyTakes.retireAll _ _ _).line l).1, State.mapLines_line, Fin.getElem_fin, BitVec.getElem_twoPow]
        simp only [decide_true, ↓reduceIte]
        unfold LineRecord.leaseEnded
        rw [hx]
      unfold State.leaseRunOut State.raise
      rw [State.modifyPort_line, h1]
    · next h =>
      unfold State.leaseRunOut
      rw [hx]
      simpa using h
  · next h =>
    unfold State.leaseRunOut
    rw [h]

/-! ## The whole cycle -/

/-- Once every event that a cycle owes is taken, it owes nothing. -/
theorem State.finishCycle_owes (s : State) (h : s.inReset = false) : s.finishCycle.owesNothing := by
  have foldAll : ∀ {α : Type} (f : State → α → State) (P : State → α → Prop) (_ : ∀ u x, P (f u x) x)
      (_ : ∀ (u : State) x y, P u x → P (f u y) x) (xs : List α) (u : State), ∀ x ∈ xs, P (xs.foldl f u) x := by
    intro α f P h1 h2 xs
    have stay : ∀ (ys : List α) (u : State) x, P u x → P (ys.foldl f u) x := by
      intro ys
      induction ys with
      | nil => exact fun _ _ h => h
      | cons y ys ih => exact fun u x hx => ih _ _ (h2 _ _ _ hx)
    induction xs with
    | nil => exact fun _ _ h => nomatch h
    | cons y ys ih =>
      intro u x hx
      rcases List.mem_cons.1 hx with rfl | hx
      · exact stay ys _ _ (h1 u x)
      · exact ih _ x hx
  -- the stages of the cycle
  let s0 := s.finishLinks
  let s1 := (List.finRange 16).foldl State.sampleChannel s0
  let s2 := Port.all.foldl State.takeStrobe s1
  let s3 := s2.handBoundary
  let s4 := Port.all.foldl State.validateIfDue s3
  let s5 := (List.finRange 16).foldl State.expireLease s4
  let s6 := s5.takeAllDue
  have k12 : s1.settles s2 := State.settles.fold _ State.settles.takeStrobe _ _
  have k23 : s2.settles s3 := State.settles.handBoundary _
  have k34 : s3.settles s4 := State.settles.fold _ State.settles.validateIfDue _ _
  have k45 : s4.settles s5 := State.settles.fold _ State.settles.expireLease _ _
  have k56 : s5.settles s6 := State.settles.of_takes (State.onlyTakes.takeAllDue _)
  have all : ∀ p : Port, p ∈ Port.all := fun p => by cases p <;> simp [Port.all]
  have links : ∀ p, (s0.port p).keepsLink (s6.port p) := fun p => ((State.onlyWork.finishBlocks s0).port p).keepsLink
  refine (⟨fun p => ?_, fun p => ?_, ?_, fun p => ?_, ?_, fun p => ?_, s5.takeAllDue_dueHead, fun l => ?_⟩ :
    s6.owesNothing)
  · rw [(links p).owedRequest]; exact (s.finishLinks_owes h p).1
  · rw [(links p).recognisable]; exact (s.finishLinks_owes h p).2
  · have hc : ∀ c : Channel, s6.samplesTaken[c] = true := fun c =>
      (((k12.trans k23).trans k34).trans (k45.trans k56)).sample c
        (foldAll State.sampleChannel (fun u c => u.samplesTaken[c] = true) State.sampleChannel_taken
          (fun u x y hx => (State.settles.sampleChannel u y).sample x hx) (List.finRange 16) s0 c (by simp))
    ext i hi
    rw [BitVec.getElem_allOnes]
    simpa using hc ⟨i, hi⟩
  · exact ((k23.trans k34).trans (k45.trans k56)).strobe p
      (foldAll State.takeStrobe (fun u p => (u.port p).strobeRose = false) State.takeStrobe_taken
        (fun u x y hx => (State.settles.takeStrobe u y).strobe x hx) Port.all s1 p (all p))
  · exact s0.finishBlocks_boundary
  · exact (k45.trans k56).batch p
      (foldAll State.validateIfDue (fun u p => u.validationDue p = false) State.validateIfDue_taken
        (fun u x y hx => (State.settles.validateIfDue u y).batch x hx) Port.all s3 p (all p))
  · exact k56.lease l
      (foldAll State.expireLease (fun u l => u.leaseRunOut l = false) State.expireLease_taken
        (fun u x y hx => (State.settles.expireLease u y).lease x hx) (List.finRange 16) s4 l (by simp))

end Sys2Proof.Machine
end

