-- ==== Sys2Proof/Laws/Wire.lean ====
section
/-! SUPPORT. Fields that are written and read again. -/

namespace Sys2Proof

/-! ## Big-endian numbers -/

theorem beValue_append (xs : List Byte) (b : Byte) : beValue (xs ++ [b]) = beValue xs * 256 + b.toNat := by
  simp [beValue, List.foldl_append]

/-- The bytes of a number are the bytes of its upper part and its last byte. -/
theorem beBytes_succ (n v : Nat) : beBytes (n + 1) v = beBytes n (v / 256) ++ [BitVec.ofNat 8 v] := by
  induction n generalizing v with
  | zero => simp [beBytes]
  | succ n ih =>
    rw [beBytes, ih, beBytes]
    rw [List.cons_append, Nat.pow_succ, Nat.mul_comm, Nat.div_div_eq_div_mul]

@[simp] theorem beBytes_length (n v : Nat) : (beBytes n v).length = n := by
  induction n with
  | zero => rfl
  | succ n ih => simp [beBytes, ih]

theorem beValue_beBytes (n v : Nat) (h : v < 256 ^ n) : beValue (beBytes n v) = v := by
  induction n generalizing v with
  | zero => simp at h; subst h; rfl
  | succ n ih =>
    rw [beBytes_succ, beValue_append, ih]
    · simp; omega
    · rw [Nat.pow_succ] at h; omega

theorem bits_beBytes2 (m : BitVec 16) : BitVec.ofNat 16 (beValue (beBytes 2 m.toNat)) = m := by
  rw [beValue_beBytes _ _ (by have := m.isLt; omega), BitVec.ofNat_toNat, BitVec.setWidth_eq]

theorem bits_beBytes3 (m : BitVec 24) : BitVec.ofNat 24 (beValue (beBytes 3 m.toNat)) = m := by
  rw [beValue_beBytes _ _ (by have := m.isLt; omega), BitVec.ofNat_toNat, BitVec.setWidth_eq]

theorem bits_beBytes6 (m : BitVec 48) : BitVec.ofNat 48 (beValue (beBytes 6 m.toNat)) = m := by
  rw [beValue_beBytes _ _ (by have := m.isLt; omega), BitVec.ofNat_toNat, BitVec.setWidth_eq]

theorem beBytes1_eq (v : Nat) : beBytes 1 v = [BitVec.ofNat 8 v] := by simp [beBytes]

/-! ## Fields of fixed length -/

/-- Two bytes of a number, as the list a decoder matches on. -/
theorem beBytes2_eq (v : Nat) : ∃ a b, beBytes 2 v = [a, b] := ⟨_, _, rfl⟩
theorem beBytes3_eq (v : Nat) : ∃ a b c, beBytes 3 v = [a, b, c] := ⟨_, _, _, rfl⟩
theorem beBytes4_eq (v : Nat) : ∃ a b c d, beBytes 4 v = [a, b, c, d] := ⟨_, _, _, _, rfl⟩
theorem beBytes6_eq (v : Nat) : ∃ a b c d e f, beBytes 6 v = [a, b, c, d, e, f] := ⟨_, _, _, _, _, _, rfl⟩

theorem maskOf_beBytes (m : BitVec 16) (a b : Byte) (h : beBytes 2 m.toNat = [a, b]) : maskOf a b = m := by
  rw [maskOf, ← h, bits_beBytes2]

theorem signed48_offsetBytes (offset : Int) (h : offset.natAbs ≤ Config.maxOffset) : signed48 (offsetBytes offset) = offset := by
  have hc : Config.maxOffset = 2 ^ 40 - 1 := rfl
  rw [signed48, offsetBytes, bits_beBytes6, BitVec.toInt_ofInt, Int.bmod_eq_of_le] <;> omega

theorem signed24_intervalBytes (k : Int) (h : k.natAbs ≤ Config.intervalMax) : signed24 (intervalBytes k) = k := by
  have hc : Config.intervalMax = 65535 := rfl
  rw [signed24, intervalBytes, bits_beBytes3, BitVec.toInt_ofInt, Int.bmod_eq_of_le] <;> omega

theorem eventSetOf_beBytes (m : EventSet) (a b : Byte) (h : beBytes 2 m.toNat = [a, b]) : eventSetOf a b = some m := by
  have hm := m.isLt
  unfold eventSetOf
  rw [← h, beValue_beBytes _ _ (by omega), if_pos hm, BitVec.ofNat_toNat, BitVec.setWidth_eq]

/-! ## Single bytes -/

@[simp] theorem modeOf_modeByte (m : StepMode) : modeOf (modeByte m) = some m := by cases m <;> rfl
@[simp] theorem levelOf_levelByte (l : Level) : levelOf (levelByte l) = some l := by cases l <;> rfl
@[simp] theorem roleOf_roleByte (r : Role) : roleOf (roleByte r) = some r := by cases r <;> rfl
@[simp] theorem selectOf_selectByte (e : EdgeSelect) : selectOf (selectByte e) = some e := by cases e <;> rfl
@[simp] theorem portOf_portByte (p : Port) : portOf (portByte p) = p := by cases p <;> rfl
@[simp] theorem reportOf_reportByte (r : Report) : reportOf (reportByte r) = some r := by cases r <;> rfl
@[simp] theorem lateOkOf_lateOkByte (v : Bool) : lateOkOf (lateOkByte v) = some v := by cases v <;> rfl

/-- The lease byte shows of the term only whether there is one. -/
theorem leaseByte_some (t : Nat) (f : Failsafe) : leaseByte (some t) f = BitVec.ofNat 8 (failsafeCode f) := rfl

@[simp] theorem failsafeOf_leaseByte (t : Option Nat) (f : Failsafe) : failsafeOf (leaseByte t f) = some f := by
  cases t
  · cases f <;> rfl
  · rw [leaseByte_some]; cases f <;> rfl

theorem leaseByte_unlimited (t : Option Nat) (f : Failsafe) : (leaseByte t f)[7] = t.isNone := by
  cases t
  · cases f <;> rfl
  · rw [leaseByte_some]; cases f <;> rfl

theorem lineOf_ofNat : ∀ l : Line, lineOf (BitVec.ofNat 8 l.val) = some l := by decide

@[simp] theorem guardOf_guardByte (g : Option Guard) : guardOf (guardByte g) = some g := by
  rcases g with _ | ⟨c, m⟩
  · rfl
  · revert c; cases m <;> decide

/-! ## Descriptors -/

theorem descriptorOf_descriptorBytes (x : Descriptor) : descriptorOf (descriptorBytes x) = some x := by
  obtain ⟨tag, action, due, guard, report, late⟩ := x
  have htag := bits_beBytes2 tag
  have hdue := bits_beBytes6 due
  obtain ⟨t0, t1, ht⟩ := beBytes2_eq tag.toNat
  obtain ⟨d0, d1, d2, d3, d4, d5, hd⟩ := beBytes6_eq due.toNat
  rw [ht] at htag; rw [hd] at hdue
  have key : ∀ kind line w0 w1 w2 v0 v1 targets, descActionOf kind line [w0, w1, w2] [v0, v1] targets = some action →
      descriptorOf ([t0, t1] ++ [kind, line] ++ [d0, d1, d2, d3, d4, d5] ++ [w0, w1, w2] ++ [v0, v1] ++
        [targets, guardByte guard, reportByte report, lateOkByte late]) =
      some ⟨tag, action, due, guard, report, late⟩ := by
    intro kind line w0 w1 w2 v0 v1 targets h
    simp only [descriptorOf, List.cons_append, List.nil_append, h, guardOf_guardByte, reportOf_reportByte,
      lateOkOf_lateOkByte, htag, hdue]
  unfold descriptorBytes
  simp only [ht, hd]
  cases action with
  | set l => exact key _ _ _ _ _ _ _ _ (by simp [descActionOf, descActionBytes, lineOf_ofNat])
  | clear l => exact key _ _ _ _ _ _ _ _ (by simp [descActionOf, descActionBytes, lineOf_ofNat])
  | toggle l => exact key _ _ _ _ _ _ _ _ (by simp [descActionOf, descActionBytes, lineOf_ofNat])
  | pulse l w =>
    obtain ⟨w0, w1, w2, hw⟩ := beBytes3_eq w.toNat
    have := bits_beBytes3 w
    simp only [descActionBytes, hw]
    rw [hw] at this
    exact key _ _ _ _ _ _ _ _ (by simp [descActionOf, lineOf_ofNat, this])
  | note v ts =>
    obtain ⟨v0, v1, hv⟩ := beBytes2_eq v.toNat
    have := bits_beBytes2 v
    simp only [descActionBytes, hv]
    rw [hv] at this
    refine key _ _ _ _ _ _ _ _ ?_
    simp only [descActionOf, this]
    have hts : BitVec.extractLsb' 0 4 (BitVec.zeroExtend 8 ts) = ts := by
      apply BitVec.eq_of_toNat_eq
      have := ts.isLt
      simp [BitVec.toNat_setWidth]; omega
    simp [hts]

end Sys2Proof
end

