-- ==== Sys2Proof/Laws/PerInstr.lean ====
section
/-! SUPPORT. For each command as syntax: a well-formed request, laid out in its parameters, is read back as itself. -/

namespace Sys2Proof.Laws.RoundTrip

/-- The parameters that a well-formed request is laid out in have a size its command may have, and are read back as the
request; a command that is no request has no parameters. -/
def Statement (i : Instr) : Prop :=
  ∀ (p : Port) (c : Cmd) (params : List Byte), i.wellFormed = true → encodeCommand i = some (p, c, params) →
    c.sizeOk params.length = true ∧ decodeCommand p c params = some i

/-- Reading fields back is enough, since the request is well formed. -/
theorem of_fields {i : Instr} {p : Port} {c : Cmd} {params : List Byte} (he : encodeCommand i = some (p, c, params))
    (hs : c.sizeOk params.length = true) (hf : decodeFields p c params = some i) : Statement i := by
  intro p' c' params' hw he'
  rw [he] at he'
  obtain ⟨rfl, rfl, rfl⟩ : p = p' ∧ c = c' ∧ params = params' := by simpa using he'
  exact ⟨hs, by simp [decodeCommand, hf, hw]⟩

/-- The same, with the request's well-formedness at hand. -/
theorem of_fields_wf {i : Instr} {p : Port} {c : Cmd} {params : List Byte} (he : encodeCommand i = some (p, c, params))
    (hs : c.sizeOk params.length = true) (hf : i.wellFormed = true → decodeFields p c params = some i) :
    Statement i := by
  intro p' c' params' hw he'
  exact of_fields he hs (hf hw) p' c' params' hw he'

/-- A descriptor takes 19 bytes. -/
theorem descriptorBytes_size (desc : Descriptor) : Cmd.sizeOk .submit (descriptorBytes desc).length = true := by
  cases desc with
  | mk tag action due guard report late => cases action <;> rfl

theorem powerOnReset : Statement .powerOnReset := by
  intro _ _ _ _ h; cases h

theorem increment (pins : Pins) : Statement (.increment pins) := by
  intro _ _ _ _ h; cases h

theorem correctionCycle (pins : Pins) : Statement (.correctionCycle pins) := by
  intro _ _ _ _ h; cases h

theorem slewDone (pins : Pins) : Statement (.slewDone pins) := by
  intro _ _ _ _ h; cases h

theorem frameBoundary : Statement .frameBoundary := by
  intro _ _ _ _ h; cases h

theorem batchValidation (p : Port) : Statement (.batchValidation p) := by
  intro _ _ _ _ h; cases h

theorem leaseExpiry (l : Line) : Statement (.leaseExpiry l) := by
  intro _ _ _ _ h; cases h

theorem dueEvent : Statement .dueEvent := by
  intro _ _ _ _ h; cases h

theorem reportMove (p : Port) : Statement (.reportMove p) := by
  intro _ _ _ _ h; cases h

theorem strobeEdge (p : Port) : Statement (.strobeEdge p) := by
  intro _ _ _ _ h; cases h

theorem edgeDelivery (c : Channel) : Statement (.edgeDelivery c) := by
  intro _ _ _ _ h; cases h

theorem requestTransaction (p : Port) (part : RequestPart) : Statement (.requestTransaction p part) := by
  intro _ _ _ _ h; cases h

theorem unknownTransaction (p : Port) (first : Byte) (part : UnknownPart) : Statement (.unknownTransaction p first part) := by
  intro _ _ _ _ h; cases h

theorem frameCheck (p : Port) : Statement (.frameCheck p) := by
  intro _ _ _ _ h; cases h

theorem fetchTransaction (p : Port) (part : FetchPart) : Statement (.fetchTransaction p part) := by
  intro _ _ _ _ h; cases h

theorem readTime (p : Port) : Statement (.readTime p) :=
  of_fields rfl rfl rfl

theorem stepTime (p : Port) (offset : Int) (mode : StepMode) : Statement (.stepTime p offset mode) := by
  have hv := signed48_offsetBytes offset
  obtain ⟨a, b, c, d, e, f, h⟩ := beBytes6_eq (BitVec.ofInt 48 offset).toNat
  have ho : offsetBytes offset = [a, b, c, d, e, f] := h
  refine of_fields_wf (p := p) (c := .stepTime) (params := [a, b, c, d, e, f, modeByte mode])
    (by rw [encodeCommand, ho]; rfl) rfl fun hw => ?_
  simp only [Instr.wellFormed, Bool.and_eq_true, decide_eq_true_eq] at hw
  rw [ho] at hv
  have hf : decodeFields p .stepTime [a, b, c, d, e, f, modeByte mode] =
      some (.stepTime p (signed48 [a, b, c, d, e, f]) mode) := by cases mode <;> rfl
  rw [hf, hv hw.2]

theorem setRate (p : Port) (interval : Int) (count : Nat) : Statement (.setRate p interval count) := by
  have hk := signed24_intervalBytes interval
  have hn := beValue_beBytes 3 count
  obtain ⟨a, b, c, h⟩ := beBytes3_eq (BitVec.ofInt 24 interval).toNat
  obtain ⟨d, e, f, h'⟩ := beBytes3_eq count
  have hi : intervalBytes interval = [a, b, c] := h
  refine of_fields_wf (p := p) (c := .setRate) (params := [a, b, c, d, e, f])
    (by rw [encodeCommand, hi, h']; rfl) rfl fun hw => ?_
  have hm : Config.correctionsMax = 16777215 := rfl
  simp only [Instr.wellFormed, rateInRange, Bool.and_eq_true, Bool.or_eq_true, beq_iff_eq, decide_eq_true_eq] at hw
  have hr : interval.natAbs ≤ Config.intervalMax := by
    rcases hw.2 with h0 | h0
    · subst h0; decide
    · exact h0.1.2
  rw [hi] at hk
  rw [h'] at hn
  have hf : decodeFields p .setRate [a, b, c, d, e, f] =
      some (.setRate p (signed24 [a, b, c]) (beValue [d, e, f])) := rfl
  rw [hf, hk hr, hn (by omega)]

theorem setFrame (p : Port) (length : Nat) : Statement (.setFrame p length) := by
  have hn := beValue_beBytes 4 length
  obtain ⟨a, b, c, d, h⟩ := beBytes4_eq length
  refine of_fields_wf (p := p) (c := .setFrame) (params := [a, b, c, d]) (by rw [encodeCommand, h]) rfl fun hw => ?_
  have hm : Config.frameLengthMax = 16777216 := rfl
  simp only [Instr.wellFormed, Bool.and_eq_true, decide_eq_true_eq] at hw
  rw [h] at hn
  exact congrArg (fun n => some (Instr.setFrame p n)) (hn (by omega))

theorem acquireLines (p : Port) (lines : LineSet) (term : Option Nat) (failsafe : Failsafe) :
    Statement (.acquireLines p lines term failsafe) := by
  obtain ⟨a, b, h⟩ := beBytes2_eq lines.toNat
  have hn := beValue_beBytes 4 (term.getD 0)
  obtain ⟨c, d, e, f, h'⟩ := beBytes4_eq (term.getD 0)
  refine of_fields_wf (p := p) (c := .acquireLines) (params := [a, b, leaseByte term failsafe, c, d, e, f])
    (by rw [encodeCommand, h, h']; rfl) rfl fun hw => ?_
  rw [h'] at hn
  have hf : decodeFields p .acquireLines [a, b, leaseByte term failsafe, c, d, e, f] =
      (failsafeOf (leaseByte term failsafe)).map (.acquireLines p (maskOf a b)
        (if (leaseByte term failsafe)[7] then none else some (beValue [c, d, e, f]))) := rfl
  rw [hf, failsafeOf_leaseByte, leaseByte_unlimited, maskOf_beBytes _ _ _ h]
  cases term with
  | none => rfl
  | some t =>
    have hm : Config.termMax = 4294967295 := rfl
    simp only [Instr.wellFormed, Bool.and_eq_true, decide_eq_true_eq] at hw
    rw [hn (by simp only [Option.getD_some]; omega)]
    rfl

theorem renewLines (p : Port) (lines : LineSet) : Statement (.renewLines p lines) := by
  obtain ⟨a, b, h⟩ := beBytes2_eq lines.toNat
  refine of_fields (p := p) (c := .renewLines) (params := [a, b]) (by rw [encodeCommand, h]) rfl ?_
  rw [← maskOf_beBytes lines a b h]; rfl

theorem releaseLines (p : Port) (lines : LineSet) : Statement (.releaseLines p lines) := by
  obtain ⟨a, b, h⟩ := beBytes2_eq lines.toNat
  refine of_fields (p := p) (c := .releaseLines) (params := [a, b]) (by rw [encodeCommand, h]) rfl ?_
  rw [← maskOf_beBytes lines a b h]; rfl

theorem revokeLines (p : Port) (lines : LineSet) : Statement (.revokeLines p lines) := by
  obtain ⟨a, b, h⟩ := beBytes2_eq lines.toNat
  refine of_fields (p := p) (c := .revokeLines) (params := [a, b]) (by rw [encodeCommand, h]) rfl ?_
  rw [← maskOf_beBytes lines a b h]; rfl

theorem forceLines (p : Port) (lines : LineSet) (level : Level) : Statement (.forceLines p lines level) := by
  obtain ⟨a, b, h⟩ := beBytes2_eq lines.toNat
  refine of_fields (p := p) (c := .forceLines) (params := [a, b, levelByte level]) (by rw [encodeCommand, h]; rfl) rfl ?_
  rw [← maskOf_beBytes lines a b h]; cases level <;> rfl

theorem unforceLines (p : Port) (lines : LineSet) : Statement (.unforceLines p lines) := by
  obtain ⟨a, b, h⟩ := beBytes2_eq lines.toNat
  refine of_fields (p := p) (c := .unforceLines) (params := [a, b]) (by rw [encodeCommand, h]) rfl ?_
  rw [← maskOf_beBytes lines a b h]; rfl

theorem readLines (p : Port) : Statement (.readLines p) :=
  of_fields rfl rfl rfl

theorem submit (p : Port) (desc : Descriptor) : Statement (.submit p desc) := by
  refine of_fields (p := p) (c := .submit) (params := descriptorBytes desc) rfl (descriptorBytes_size desc) ?_
  have h : decodeFields p .submit (descriptorBytes desc) = (descriptorOf (descriptorBytes desc)).map (.submit p) := by
    unfold decodeFields; rfl
  rw [h, descriptorOf_descriptorBytes]; rfl

theorem cancel (p : Port) (tag : Half) : Statement (.cancel p tag) := by
  have hb := bits_beBytes2 tag
  obtain ⟨a, b, h⟩ := beBytes2_eq tag.toNat
  refine of_fields (p := p) (c := .cancel) (params := [a, b]) (by rw [encodeCommand, h]) rfl ?_
  rw [h] at hb
  rw [← hb]; rfl

theorem cancelLines (p : Port) (lines : LineSet) : Statement (.cancelLines p lines) := by
  obtain ⟨a, b, h⟩ := beBytes2_eq lines.toNat
  refine of_fields (p := p) (c := .cancelLines) (params := [a, b]) (by rw [encodeCommand, h]) rfl ?_
  rw [← maskOf_beBytes lines a b h]; rfl

theorem readQueue (p : Port) : Statement (.readQueue p) :=
  of_fields rfl rfl rfl

theorem readCompletions (p : Port) (count : Nat) : Statement (.readCompletions p count) := by
  refine of_fields_wf (p := p) (c := .readCompletions) (params := [BitVec.ofNat 8 count])
    (by rw [encodeCommand, beBytes1_eq]) rfl fun hw => ?_
  have hm : Config.readMax = 8 := rfl
  simp only [Instr.wellFormed, Bool.and_eq_true, decide_eq_true_eq] at hw
  have h : (BitVec.ofNat 8 count).toNat = count := by rw [BitVec.toNat_ofNat]; omega
  exact congrArg (fun n => some (Instr.readCompletions p n)) h

theorem stage (p : Port) (desc : Descriptor) : Statement (.stage p desc) := by
  refine of_fields (p := p) (c := .stage) (params := descriptorBytes desc) rfl (descriptorBytes_size desc) ?_
  have h : decodeFields p .stage (descriptorBytes desc) = (descriptorOf (descriptorBytes desc)).map (.stage p) := by
    unfold decodeFields; rfl
  rw [h, descriptorOf_descriptorBytes]; rfl

theorem commitBatch (p : Port) (framesAhead : Option Byte) : Statement (.commitBatch p framesAhead) := by
  cases framesAhead
  · exact of_fields rfl rfl rfl
  · exact of_fields rfl rfl rfl

theorem discardBatch (p : Port) : Statement (.discardBatch p) :=
  of_fields rfl rfl rfl

theorem configInput (p : Port) (channels : ChannelSet) (depth : Nat) (select : EdgeSelect) :
    Statement (.configInput p channels depth select) := by
  obtain ⟨a, b, h⟩ := beBytes2_eq channels.toNat
  refine of_fields_wf (p := p) (c := .configInput) (params := [a, b, BitVec.ofNat 8 depth, selectByte select])
    (by rw [encodeCommand, h, beBytes1_eq]; rfl) rfl fun hw => ?_
  have hm : Config.depthMax = 8 := rfl
  simp only [Instr.wellFormed, Bool.and_eq_true, decide_eq_true_eq] at hw
  have hd : (BitVec.ofNat 8 depth).toNat = depth := by rw [BitVec.toNat_ofNat]; omega
  have hf : decodeFields p .configInput [a, b, BitVec.ofNat 8 depth, selectByte select] =
      some (.configInput p (maskOf a b) (BitVec.ofNat 8 depth).toNat select) := by cases select <;> rfl
  rw [hf, hd, maskOf_beBytes _ _ _ h]

theorem subscribe (p : Port) (channels : ChannelSet) : Statement (.subscribe p channels) := by
  obtain ⟨a, b, h⟩ := beBytes2_eq channels.toNat
  refine of_fields (p := p) (c := .subscribe) (params := [a, b]) (by rw [encodeCommand, h]) rfl ?_
  rw [← maskOf_beBytes channels a b h]; rfl

theorem readCaptures (p : Port) (count : Nat) : Statement (.readCaptures p count) := by
  refine of_fields_wf (p := p) (c := .readCaptures) (params := [BitVec.ofNat 8 count])
    (by rw [encodeCommand, beBytes1_eq]) rfl fun hw => ?_
  have hm : Config.readMax = 8 := rfl
  simp only [Instr.wellFormed, Bool.and_eq_true, decide_eq_true_eq] at hw
  have h : (BitVec.ofNat 8 count).toNat = count := by rw [BitVec.toNat_ofNat]; omega
  exact congrArg (fun n => some (Instr.readCaptures p n)) h

theorem clearArms (p : Port) (channels : ChannelSet) : Statement (.clearArms p channels) := by
  obtain ⟨a, b, h⟩ := beBytes2_eq channels.toNat
  refine of_fields (p := p) (c := .clearArms) (params := [a, b]) (by rw [encodeCommand, h]) rfl ?_
  rw [← maskOf_beBytes channels a b h]; rfl

theorem readArms (p : Port) : Statement (.readArms p) :=
  of_fields rfl rfl rfl

theorem openPort (p : Port) : Statement (.openPort p) :=
  of_fields rfl rfl rfl

theorem closePort (p : Port) : Statement (.closePort p) :=
  of_fields rfl rfl rfl

theorem claimRole (p : Port) (role : Role) : Statement (.claimRole p role) := by
  cases role <;> exact of_fields (p := p) (c := .claimRole) rfl rfl rfl

theorem releaseRole (p : Port) (role : Role) : Statement (.releaseRole p role) := by
  cases role <;> exact of_fields (p := p) (c := .releaseRole) rfl rfl rfl

theorem fencePort (p : Port) (target : Port) : Statement (.fencePort p target) := by
  cases target <;> exact of_fields (p := p) (c := .fencePort) rfl rfl rfl

theorem setQuota (p : Port) (target : Port) (quota : Nat) : Statement (.setQuota p target quota) := by
  have hb := beValue_beBytes 2 quota
  obtain ⟨a, b, h⟩ := beBytes2_eq quota
  refine of_fields_wf (p := p) (c := .setQuota) (params := [portByte target, a, b]) (by rw [encodeCommand, h]; rfl)
    rfl fun hw => ?_
  have hm : Config.slots = 256 := rfl
  simp only [Instr.wellFormed, decide_eq_true_eq] at hw
  rw [h] at hb
  have hf : decodeFields p .setQuota [portByte target, a, b] = some (.setQuota p target (beValue [a, b])) := by
    cases target <;> rfl
  rw [hf, hb (by omega)]

theorem readStatus (p : Port) : Statement (.readStatus p) :=
  of_fields rfl rfl rfl

theorem readEvents (p : Port) (clear : EventSet) : Statement (.readEvents p clear) := by
  obtain ⟨a, b, h⟩ := beBytes2_eq clear.toNat
  refine of_fields (p := p) (c := .readEvents) (params := [a, b]) (by rw [encodeCommand, h]) rfl ?_
  exact congrArg (fun o => o.map (Instr.readEvents p)) (eventSetOf_beBytes clear a b h)

theorem setEventMask (p : Port) (mask : EventSet) : Statement (.setEventMask p mask) := by
  obtain ⟨a, b, h⟩ := beBytes2_eq mask.toNat
  refine of_fields (p := p) (c := .setEventMask) (params := [a, b]) (by rw [encodeCommand, h]) rfl ?_
  exact congrArg (fun o => o.map (Instr.setEventMask p)) (eventSetOf_beBytes mask a b h)

theorem resetAsserted : Statement .resetAsserted := by
  intro _ _ _ _ h; cases h

theorem channelSample (c : Channel) : Statement (.channelSample c) := by
  intro _ _ _ _ h; cases h

end Sys2Proof.Laws.RoundTrip
end

