-- ==== Sys2Proof/Tests/Slice0.lean ====
section
/-! SUPPORT. Small tests of the model: ill-formed commands, frames and words written out from the layouts, examples the spec
works, and, for each statement with hypotheses, states and operands that meet the hypotheses of each of its clauses. -/

open Sys2Proof Sys2Proof.Machine

namespace Sys2Proof.Tests

set_option Elab.async false

/-! ## Ill-formed commands -/

/-- One command that breaks each range of `Instr.wellFormed`. -/
theorem test_illFormed :
    Instr.wellFormed (.unknownTransaction .a 0x6D (.clocked 3)) = false ∧
    Instr.wellFormed (.unknownTransaction .a 0x93 (.clocked 3)) = false ∧
    Instr.wellFormed (.stepTime .a 0 .skip) = false ∧ Instr.wellFormed (.stepTime .a (2 ^ 40) .skip) = false ∧
    Instr.wellFormed (.stepTime .a (-2 ^ 40) .sweep) = false ∧
    Instr.wellFormed (.setRate .a 15 1) = false ∧ Instr.wellFormed (.setRate .a (-65536) 1) = false ∧
    Instr.wellFormed (.setRate .a 16 0) = false ∧ Instr.wellFormed (.setRate .a 16 16777216) = false ∧
    Instr.wellFormed (.setFrame .a 255) = false ∧ Instr.wellFormed (.setFrame .a 16777217) = false ∧
    Instr.wellFormed (.acquireLines .a 0 none .low) = false ∧ Instr.wellFormed (.acquireLines .a 1 (some 999) .low) = false ∧
    Instr.wellFormed (.acquireLines .a 1 (some 4294967296) .low) = false ∧
    Instr.wellFormed (.renewLines .a 0) = false ∧ Instr.wellFormed (.releaseLines .a 0) = false ∧
    Instr.wellFormed (.revokeLines .a 0) = false ∧ Instr.wellFormed (.forceLines .a 0 .low) = false ∧
    Instr.wellFormed (.unforceLines .a 0) = false ∧ Instr.wellFormed (.cancelLines .a 0) = false := by
  decide +kernel

/-- The same, for the commands of queue, batches, channels and quotas. -/
theorem test_illFormed_rest :
    Instr.wellFormed (.submit .a ⟨1, .pulse 0 0, 0, none, .always, false⟩) = false ∧
    Instr.wellFormed (.stage .a ⟨1, .note 0 0, 0, none, .always, false⟩) = false ∧
    Instr.wellFormed (.readCompletions .a 0) = false ∧ Instr.wellFormed (.readCompletions .a 9) = false ∧
    Instr.wellFormed (.configInput .a 0 1 .rise) = false ∧ Instr.wellFormed (.configInput .a 1 0 .rise) = false ∧
    Instr.wellFormed (.configInput .a 1 9 .rise) = false ∧
    Instr.wellFormed (.readCaptures .a 0) = false ∧ Instr.wellFormed (.readCaptures .a 9) = false ∧
    Instr.wellFormed (.clearArms .a 0) = false ∧ Instr.wellFormed (.setQuota .a .b 257) = false := by
  decide +kernel

/-! ## Bytes written out from the layouts -/

/-- The READ_TIME frame of 11 R171 passes the checks, and the encoder makes the same bytes. -/
theorem test_readTime_frame :
    checkFrame .a [0x6D, 0x02, 0x00, 0x10, 0xDB] = .passed (.readTime .a) ∧
    requestFrame 0x00 (.readTime .a) = [0x6D, 0x02, 0x00, 0x10, 0xDB] ∧
    frameWhole [0x6D, 0x02, 0x00, 0x10, 0xDB] = true ∧ frameWhole [0x6D, 0x02, 0x00, 0x10] = false := by
  decide +kernel

/-- The CRC register after each byte of that frame's run (11 R171). -/
theorem test_crc : crc8 [0x02] = 0x1C ∧ crc8 [0x02, 0x00] = 0x45 ∧ crc8 [0x02, 0x00, 0x10] = 0xDB := by decide +kernel

/-- Frames that fail checks 1 to 4, each at its own check. -/
theorem test_frame_refusals :
    checkFrame .a [0x6D, 0x02, 0x00, 0x10, 0xDA] = .badCrc ∧
    checkFrame .a (0x6D :: [0x00] ++ [crc8 [0x00]]) = .badLength ∧
    checkFrame .a (0x6D :: [0x02, 0x00, 0x14] ++ [crc8 [0x02, 0x00, 0x14]]) = .unknownCommand ∧
    checkFrame .a (0x6D :: [0x03, 0x00, 0x10, 0x00] ++ [crc8 [0x03, 0x00, 0x10, 0x00]]) = .badLength ∧
    checkFrame .a (0x6D :: [0x03, 0x00, 0x38, 0x09] ++ [crc8 [0x03, 0x00, 0x38, 0x09]]) = .badField := by
  decide +kernel

/-- A command of every other family, from its parameter bytes (11 R172). -/
theorem test_parameters :
    decodeCommand .b .setRate [0xFF, 0xFF, 0xF0, 0x00, 0x00, 0x02] = some (.setRate .b (-16) 2) ∧
    decodeCommand .b .forceLines [0x80, 0x01, 0x01] = some (.forceLines .b 0x8001 .high) ∧
    decodeCommand .b .cancel [0x12, 0x34] = some (.cancel .b 0x1234) ∧
    decodeCommand .b .commitBatch [] = some (.commitBatch .b none) ∧
    decodeCommand .b .commitBatch [0xFF] = some (.commitBatch .b (some 255)) ∧
    decodeCommand .b .configInput [0x00, 0x20, 0x08, 0x03] = some (.configInput .b 0x0020 8 .both) ∧
    decodeCommand .b .setQuota [0x02, 0x01, 0x00] = some (.setQuota .b .c 256) ∧
    decodeCommand .b .claimRole [0x01] = some (.claimRole .b .supervisor) ∧
    decodeCommand .b .readEvents [0x1F, 0xFF] = some (.readEvents .b 0x1FFF) := by
  decide +kernel

/-- A guarded NOTE, from its 19 bytes (11 R173): CONSUME on IN5, targets A and C. -/
theorem test_note_descriptor :
    descriptorOf [0x00, 0x09, 0x04, 0xFF, 0x00, 0x00, 0x00, 0x00, 0x01, 0x00, 0x00, 0x00, 0x00, 0xBE, 0xEF, 0xF5, 0x95, 0x01,
      0x01] = some ⟨9, .note 0xBEEF 0x5, 256, some ⟨5, .consume⟩, .faultsOnly, true⟩ := by
  decide +kernel

/-- Each boundary of the classes of a time (01 R3). -/
theorem test_classes :
    reached 0 0 = true ∧ acceptable 0 1 = true ∧ acceptable 0 (2 ^ 46 - 1) = true ∧ tooFar 0 (2 ^ 46) = true ∧
    tooFar 0 (2 ^ 47) = true ∧ reached 0 (2 ^ 47 + 1) = true ∧ reached 5 4 = true ∧ acceptable (2 ^ 48 - 1) 3 = true := by
  decide +kernel

/-! ## States to test on -/

/-- The part with port `p` ATTACHED and a request of it in hand, its checks passed. -/
def carrying (i : Instr) (s : State) : State :=
  match encodeCommand i with
  | some (p, _, _) => s.modifyPort p fun ps =>
      { ps with session := .attached, engine := .executing, frame := some (requestFrame 0x10 i) }
  | none => s

/-- `State.takes`, as a check that can be run. -/
def takesNow (s : State) (i : Instr) : Bool :=
  match admissionRow i with
  | none => false
  | some (p, d, f, role) =>
    s.awaits p i &&
      (match (s.port p).session with
       | .attached => true
       | .detached => d
       | .fenced => f) &&
      (match role with
       | none => true
       | some r => s.holder r == some p)

theorem takes_of_takesNow {s : State} {i : Instr} (h : takesNow s i = true) : s.takes i := by
  unfold takesNow at h
  unfold State.takes
  generalize admissionRow i = row at h ⊢
  rcases row with _ | ⟨p, d, f, role⟩
  · cases h
  · simp only [Bool.and_eq_true] at h
    refine ⟨h.1.1, ?_, fun r hr => ?_⟩
    · have h2 := h.1.2
      cases hs : (s.port p).session <;> simp_all
    · have h2 := h.2
      subst hr
      simpa using h2

/-- A port ATTACHED. -/
def attach (p : Port) (s : State) : State := s.modifyPort p fun ps => { ps with session := .attached }

/-- Port A is the time authority. -/
def timed (s : State) : State := { s with timeAuthority := some .a }

/-- A port is the supervisor. -/
def supervised (p : Port) (s : State) : State := { s with supervisor := some p }

/-- OUT3 leased to a port, with this much of a term of 1000 ticks left. -/
def leased (p : Port) (left : Nat) (s : State) : State :=
  { s with lines := s.lines.set 3 ⟨some ⟨p, .finite 1000 left, .high⟩, .low, none⟩ }

/-- OUT3 forced. -/
def forced (s : State) : State := { s with lines := s.lines.set 3 ⟨none, .low, some .high⟩ }

/-- These entries PENDING. -/
def queued (es : List Entry) (s : State) : State := { s with queue := es }

/-- These entries STAGED by port A, with this target. -/
def batched (es : List Entry) (target : Option FrameIndex) (s : State) : State :=
  s.modifyPort .a fun ps => { ps with batch := ⟨es, target⟩ }

/-- A SET of OUT3 by port A. -/
def setAt (tag : Half) (due : Time) : Entry := ⟨.a, tag, .set 3, due, none, .always, false⟩

/-- A SET of OUT3 by port A, guarded by IN2's arm flag. -/
def guardedAt (tag : Half) (due : Time) : Entry := ⟨.a, tag, .set 3, due, some ⟨2, .consume⟩, .always, false⟩

/-- The LEAD of a guarded PULSE on OUT3. -/
def leadAt (tag : Half) (due : Time) : Entry := ⟨.a, tag, .lead 3, due, some ⟨2, .peek⟩, .always, false⟩

/-- The TRAIL of a PULSE on OUT3. -/
def trailAt (tag : Half) (due : Time) : Entry := ⟨.a, tag, .trail 3, due, none, .always, false⟩

/-- A NOTE of port A to ports A and B. -/
def noteAt (tag : Half) (due : Time) : Entry := ⟨.a, tag, .note 0xBEEF 0x3, due, none, .always, false⟩

/-- A descriptor of a SET of OUT3. -/
def setDesc (tag : Half) (due : Time) : Descriptor := ⟨tag, .set 3, due, none, .always, false⟩

/-- A port's log filled. -/
def logFull (p : Port) (s : State) : State :=
  s.modifyPort p fun ps => { ps with log := List.replicate 32 ⟨.step 1, 0, none⟩ }

/-- IN2's channel in this state, its sample of the cycle still owed, with this level at the second stage. -/
def sampling (ch : ChannelState) (level : BitVec 16) (s : State) : State :=
  { s with channels := s.channels.set 2 ch, inStage2 := level, samplesTaken := 0 }

/-- These rising edges of CS_N waiting at port A. -/
def risen (rs : List Rise) (s : State) : State := s.modifyPort .a fun ps => { ps with risen := rs }

/-- A property of every port, shown port by port. -/
theorem everyPort {q : Port → Prop} (a : q .a) (b : q .b) (c : q .c) (d : q .d) (p : Port) : q p := by
  cases p <;> assumption

/-! ## Small examples -/

/-- The first increment after release: MC and frame phase 1, no boundary, every sample owed. -/
theorem test_first_increment :
    (State.reset.cycle ⟨0, 0⟩).mc = 1 ∧ (State.reset.cycle ⟨0, 0⟩).framePhase = 1 ∧
    (State.reset.cycle ⟨0, 0⟩).boundaryToHand = false ∧ (State.reset.cycle ⟨0, 0⟩).samplesTaken = 0 := by
  decide +kernel

/-- A REFCLK cycle that closes a frame of the power-on length makes boundary 1. -/
theorem test_boundary :
    ((({ State.reset with framePhase := 99999 } : State).cycle ⟨0, 0⟩).frameIndex = 1) ∧
    ((({ State.reset with framePhase := 99999 } : State).cycle ⟨0, 0⟩).framePhase = 0) := by
  decide +kernel

/-- A rising STROBE pin is recognised as it reaches the second stage, one cycle after the first. -/
theorem test_strobe :
    (((State.reset.cycle ⟨0, 1⟩).cycle ⟨0, 1⟩).port .a).strobeRose = true ∧
    ((State.reset.cycle ⟨0, 1⟩).port .a).strobeRose = false := by
  decide +kernel

/-- A due SET of OUT3 drives it HIGH and reports DONE at MC. -/
theorem test_due_set :
    let s := (queued [setAt 7 0] (attach .a State.reset)).takeDue
    s.outPin 3 = .high ∧ s.queue = [] ∧ (s.port .a).fifo = [⟨7, .none, .set, some 3, .done, 0, 0⟩] ∧
      hasKind (s.port .a).events .completionReady = true := by
  decide +kernel

/-- A fetch with no reply held shows NO_REPLY and then ones. -/
theorem test_fetch : (PortState.atReset.fetch (.clocked 4)).miso = [0xFF, 0x4E, 0xFF, 0xFF] := by decide +kernel

/-- One record of each layout, written out byte by byte (11 R174 to R176): a line leased by B for 1000 ticks with 999 left,
failsafe HIGH, forced HIGH over a LOW shadow; the LEAD of 11 section 11.8; an EDGE, a NOTE and a STEP record. -/
theorem test_record_layouts :
    lineBytes ⟨some ⟨.b, .finite 1000 999, .high⟩, .low, some .high⟩ = [0x0B, 0x0E, 0, 0, 0x03, 0xE8, 0, 0, 0x03, 0xE7] ∧
    completionBytes ⟨21, .lead, .pulse, some 5, .masked, 50400, 50401⟩ =
      [0x00, 0x15, 0x13, 0x05, 0x01, 0, 0, 0, 0, 0xC4, 0xE0, 0, 0, 0, 0, 0xC4, 0xE1] ∧
    captureBytes ⟨.edge 5 .fall, 256, none⟩ = [0x01, 0x00, 0x05, 0x01, 0, 0, 0, 0, 0, 0, 0, 0, 0x01, 0x00] ∧
    captureBytes ⟨.note .c 0xBEEF, 256, some 255⟩ = [0x02, 0xFF, 0x02, 0xBE, 0xEF, 0, 0, 0, 0, 0, 0, 0, 0x01, 0x00] ∧
    captureBytes ⟨.step (-2), 256, some 1⟩ = [0x03, 0x01, 0xFF, 0xFF, 0xFF, 0xFF, 0xFF, 0xFE, 0, 0, 0, 0, 0x01, 0x00] := by
  decide +kernel

/-- A late_ok SET admitted with its due time reached waits for its due event, so that a force taken between masks it; its
guard meets the flag as the admission left it (04 R66, R68, 07 R124). -/
theorem test_submit_due :
    let s := (leased .a 1 (attach .a State.reset)).modifyPort .a fun ps => { ps with arms := 4 }
    let t := s.admitEntries .a ⟨7, .set 3, 0, some ⟨2, .consume⟩, .always, true⟩
    let u := (t.setForce 8 (some .low)).takeDue
    t.queue.length = 1 ∧ t.outPin 3 = .low ∧ (t.takeDue.outPin 3 = .high ∧ (t.takeDue.port .a).arms = 0) ∧
      (u.port .a).fifo = [⟨7, .none, .set, some 3, .masked, 0, 0⟩] := by
  decide +kernel

/-- An edge delivered between such an admission and its due event is not seen: over a clear flag the guard fails and the flag
stays set, over a set one the guard passes and the flag is set again (07 R127). -/
theorem test_edge_after_admission :
    let s := (leased .a 1 (attach .a State.reset)).modifyPort .a fun ps => { ps with subscription := 4 }
    let admitted (arms : ChannelSet) := (s.modifyPort .a fun ps => { ps with arms := arms }).admitEntries .a
      ⟨7, .set 3, 0, some ⟨2, .consume⟩, .always, true⟩
    let t (arms : ChannelSet) := ((admitted arms).deliverEdge 2 .rise 0).takeDue
    ((t 0).outPin 3 = .low ∧ ((t 0).port .a).fifo = [⟨7, .none, .set, some 3, .guardFalse, 0, 0⟩] ∧
        ((t 0).port .a).arms = 4) ∧
      ((t 4).outPin 3 = .high ∧ ((t 4).port .a).fifo = [⟨7, .none, .set, some 3, .done, 0, 0⟩] ∧
        ((t 4).port .a).arms = 4) := by
  decide +kernel

/-- In a sweep two CONSUME guards meet one flag in queue order, and the STEP record stands before the NOTE record (04 R73). -/
theorem test_sweep :
    let s := (queued [⟨.a, 7, .note 1 1, 5, some ⟨2, .consume⟩, .always, false⟩, guardedAt 8 9]
      (attach .a State.reset)).modifyPort .a fun ps => { ps with arms := 4 }
    let t := s.stepMove 10 .sweep
    (t.port .a).log = [⟨.step 10, 10, none⟩, ⟨.note .a 1, 10, none⟩] ∧ t.outPin 3 = .low ∧
      (t.port .a).fifo = [⟨7, .none, .note, none, .done, 5, 10⟩, ⟨8, .none, .set, some 3, .guardFalse, 9, 10⟩] := by
  decide +kernel

/-- A level between two events of one cycle does not appear on a pin: an event cleared and raised again in the cycle leaves
ATTN_N asserted throughout (09 R150). -/
theorem test_attention :
    let s := ((attach .a State.reset).modifyPort .a fun ps => { ps with mask := 4, events := 4 }).showPins
    let between := s.modifyPort .a (PortState.clearEvents 4)
    let after := (between.modifyPort .a (PortState.raise .completionReady)).cycle ⟨0, 0⟩
    (s.port .a).attnShown = .low ∧ between.attnPin .a = .high ∧ (between.port .a).attnShown = .low ∧
      (after.port .a).attnShown = .low ∧ ((between.cycle ⟨0, 0⟩).port .a).attnShown = .high := by
  decide +kernel

/-- A frame cut short, while its rising CS_N waits: a fetch finds NOT_READY and a further request is dropped. Two REFCLK
cycles later the frame is aborted, and the dropped request then leaves overrun pending (10 R157). -/
theorem test_rise_waits :
    let cut := PortState.atReset.clockRequest (.whole [0x02, 0x00] 0)
    let waits := (cut.fetch (.clocked 2)).clockRequest (.whole [0x02, 0x00, 0x10, 0xDB] 0)
    let later := (waits.synchronise true false).synchronise true false
    (cut.fetch (.clocked 2)).miso = [0xFF, 0x5A] ∧ waits.engine = .receiving .idle ∧ waits.requestRecognised = waits ∧
      waits.risen = [⟨.aborted, 0⟩, ⟨.dropped, 0⟩] ∧ later.requestRecognised.engine = .idle ∧
      hasKind later.requestRecognised.events .frameAborted = true ∧ later.requestRecognised.overrun = false ∧
      later.requestRecognised.requestRecognised.overrun = true := by
  decide +kernel

/-- A frame is not taken in the cycle of its checks, is taken in the next, and by the end of that one at the latest: its reply
is held by the fourth cycle after CS_N has risen (10 R162, R164). -/
theorem test_taking_cycle :
    let i : Instr := .readTime .a
    let pins : Pins := ⟨0, 0⟩
    let sent := State.reset.modifyPort .a (PortState.clockRequest (.whole [0x02, 0x00, 0x10, 0xDB] 0))
    let checked := ((sent.cycle pins).cycle pins).modifyPort .a (PortState.checkInHand .a)
    let next := checked.cycle pins
    (checked.port .a).engine = .executing ∧ checked.awaits .a i = false ∧ next.awaits .a i = true ∧
      (next.port .a).engine = .executing ∧ ((next.cycle pins).port .a).engine = .replyHeld ∧
      ((((sent.cycle pins).cycle pins).cycle pins).awaits .a i = true) := by
  decide +kernel

/-- A CS_N that is low as RST_N goes low stays ignored through release, until it next rises (10 R157). -/
theorem test_ignored_link :
    let part (x : RequestPart) (s : State) : State := s.modifyPort .a (PortState.clockRequest x)
    let released := (part .begins State.reset).asserted.released
    let passed := part (.byte 0x02) (part .begins released)
    (released.port .a).link = .ignored ∧ passed = released ∧ ((part (.csRises 0) passed).port .a).link = .idle ∧
      ((part (.csRises 0) passed).port .a).risen = [] ∧ ((part .begins (part (.csRises 0) passed)).port .a).link = .receiving := by
  decide +kernel

/-! ## Hypotheses that are met

One theorem for each statement that has hypotheses: states and operands that meet them, clause by clause. -/

theorem meets_StepTakesFrontCommandOrIdles :
    (∃ (c : Instr) (rest : List Instr) (s : State), s.pending = c :: rest) ∧ ∃ s : State, s.pending = [] :=
  ⟨⟨.frameBoundary, [], { State.reset with pending := [.frameBoundary] }, rfl⟩, State.reset, rfl⟩

/-- The cycle of a part that is not held in reset ends somewhere. -/
theorem ends (s : State) (h : s.inReset = false) : s.endsIn s.finishCycle := State.endsIn_finishCycle s h

theorem meets_EventsNotDueDoNothing :
    (∃ s u : State, s.endsIn u ∧ u.slew = none ∧ s.boundaryToHand = false ∧ (s.port .a).batch.target ≠ some s.frameIndex ∧
      s.leaseRunOut 3 = false ∧ s.dueHead = none ∧ (s.port .a).strobeRose = false ∧ s.qualifyingEdgeDue 2 = false ∧
      s.samplesTaken[(2 : Channel)] = true ∧ s.awaits .a (.readTime .a) = false) ∧
    (∃ (s u : State) (w : Slew), s.endsIn u ∧ u.slew = some w ∧ w.count + 1 < w.interval.natAbs) ∧
    (∃ (s u : State) (w : Slew), s.endsIn u ∧ u.slew = some w ∧ w.interval.natAbs ≤ w.count + 1 ∧ 1 < w.left) ∧
    (∃ s : State, (s.port .a).risen = [⟨.whole, 1⟩]) ∧ (∃ s : State, (s.port .a).risen = [⟨.unknown, 2⟩]) ∧
    admissionRow (.readTime .a) = some (.a, false, true, none) ∧
    ∃ s : State, (s.port .a).engine = .executing ∧ (s.port .a).checkedNow = true :=
  ⟨⟨State.reset, _, ends _ rfl, by decide +kernel⟩,
    ⟨{ State.reset with slew := some ⟨16, 1, 14⟩ }, _, ⟨16, 1, 14⟩, ends _ rfl, by decide +kernel⟩,
    ⟨{ State.reset with slew := some ⟨16, 2, 15⟩ }, _, ⟨16, 2, 15⟩, ends _ rfl, by decide +kernel⟩,
    ⟨risen [⟨.whole, 1⟩] State.reset, rfl⟩, ⟨risen [⟨.unknown, 2⟩] State.reset, rfl⟩, rfl,
    State.reset.modifyPort .a fun ps => { ps with engine := .executing, checkedNow := true }, by decide +kernel⟩

/-- A link that is idle and one on which CS_N is low. -/
theorem meets_ReleaseValues :
    (State.reset.port .a).link = .idle ∧ ∃ s : State, (s.port .a).link ≠ .idle :=
  ⟨rfl, State.reset.modifyPort .a fun ps => { ps with link := .receiving }, by decide +kernel⟩

theorem meets_ResetHoldsThePart :
    ∃ (s : State) (c : Instr), s.inReset = true ∧ c ≠ .powerOnReset ∧ c ≠ .resetAsserted ∧ (∀ pins, c ≠ .increment pins) ∧
      (∀ p part, c ≠ .requestTransaction p part) ∧ (∀ p first part, c ≠ .unknownTransaction p first part) ∧
      ∀ p part, c ≠ .fetchTransaction p part :=
  ⟨{ State.reset with inReset := true }, .frameBoundary, rfl, by decide, by decide, fun _ h => (by cases h),
    fun _ _ h => (by cases h), fun _ _ _ h => (by cases h), fun _ _ h => (by cases h)⟩

theorem meets_IncrementMovesClockFrameAndSlew :
    (∃ s u : State, s.inReset = false ∧ (∀ p, (s.port p).owedRequest p = none) ∧ s.endsIn u ∧ u.slew = none ∧
      u.framePhase + 1 < u.frameLength) ∧
    (∃ s u : State, s.inReset = false ∧ s.endsIn u ∧ u.frameLength = u.framePhase + 1) ∧
    (∃ (s u : State) (w : Slew), s.inReset = false ∧ s.endsIn u ∧ u.slew = some w ∧ w.count + 1 + 1 = w.interval.natAbs) ∧
    (∃ (s u : State) (w : Slew), s.inReset = false ∧ s.endsIn u ∧ u.slew = some w ∧ w.interval.natAbs = w.count + 1 ∧
      w.left = 2) ∧
    ∃ (s u : State) (w : Slew), s.inReset = false ∧ s.endsIn u ∧ u.slew = some w ∧ w.interval.natAbs = w.count + 1 ∧
      w.left = 1 :=
  ⟨⟨State.reset, _, rfl, everyPort rfl rfl rfl rfl, ends _ rfl, by decide +kernel⟩,
    ⟨{ State.reset with framePhase := 99999 }, _, rfl, ends _ rfl, by decide +kernel⟩,
    ⟨{ State.reset with slew := some ⟨16, 1, 14⟩ }, _, ⟨16, 1, 14⟩, rfl, ends _ rfl, by decide +kernel⟩,
    ⟨{ State.reset with slew := some ⟨-16, 2, 15⟩ }, _, ⟨-16, 2, 15⟩, rfl, ends _ rfl, by decide +kernel⟩,
    ⟨{ State.reset with slew := some ⟨16, 1, 15⟩ }, _, ⟨16, 1, 15⟩, rfl, ends _ rfl, by decide +kernel⟩⟩

theorem meets_owesNothing (s : State) (h : s.samplesTaken = BitVec.allOnes 16) (hb : s.boundaryToHand = false)
    (hd : s.dueHead = none) (hl : ∀ l, s.leaseRunOut l = false)
    (hp : (Port.all.all fun p => !(s.port p).strobeRose && !s.validationDue p) = true)
    (hr : ∀ p, (s.port p).owedRequest p = none ∧ (s.port p).recognisable = none) : s.owesNothing := by
  simp only [Port.all, List.all_cons, List.all_nil, Bool.and_true, Bool.and_eq_true, Bool.not_eq_true'] at hp
  exact ⟨fun p => (hr p).1, fun p => (hr p).2, h, fun p => by cases p <;> simp [hp], hb,
    fun p => by cases p <;> simp [hp], hd, hl⟩

/-- A cycle that owes the taking of a request, a recognition, every sample, a strobe edge, a boundary, a validation, a due
entry and an expiry; and two that owe nothing. -/
theorem meets_IncrementLeavesTheRest :
    (∃ s : State, s.inReset = false ∧ s.awaits .b (.readTime .b) = true ∧ (s.port .a).recognisable = some .unknown ∧
      s.samplesTaken = 0 ∧ (s.port .a).strobeRose = true ∧ s.boundaryToHand = true ∧ s.validationDue .a = true ∧
      s.dueHead = some (setAt 7 0) ∧ s.leaseRunOut 3 = true) ∧
    (State.reset.inReset = false ∧ State.reset.owesNothing) ∧
    ∃ s : State, s.inReset = false ∧ s.owesNothing ∧ s.timeAuthority = some .a ∧ s.slew ≠ none ∧ slewEnds s.slew = true ∧
      (s.port .a).session ≠ .detached :=
  ⟨⟨{ (queued [setAt 7 0] (batched [setAt 8 9] (some 0) (leased .a 0 (attach .a
          (risen [⟨.unknown, 2⟩] (carrying (.readTime .b) State.reset)))))).modifyPort .a
          fun ps => { ps with strobeRose := true } with samplesTaken := 0, boundaryToHand := true }, by decide +kernel⟩,
    ⟨rfl, meets_owesNothing _ rfl rfl rfl (by decide +kernel) (by decide +kernel)
      (everyPort ⟨rfl, rfl⟩ ⟨rfl, rfl⟩ ⟨rfl, rfl⟩ ⟨rfl, rfl⟩)⟩,
    { timed (attach .a State.reset) with slew := some ⟨16, 1, 15⟩ }, rfl,
    meets_owesNothing _ rfl rfl rfl (by decide +kernel) (by decide +kernel)
      (everyPort ⟨rfl, rfl⟩ ⟨rfl, rfl⟩ ⟨rfl, rfl⟩ ⟨rfl, rfl⟩), rfl, by decide, by decide +kernel, by decide +kernel⟩

theorem meets_CorrectionCyclesAndTheLastOne :
    (∃ (s u : State) (w : Slew), s.inReset = false ∧ s.endsIn u ∧ u.slew = some w ∧ w.interval.natAbs = w.count + 1 ∧
      w.interval < 0) ∧
    ∃ (s u : State) (w : Slew), s.inReset = false ∧ s.endsIn u ∧ u.slew = some w ∧ w.interval.natAbs = w.count + 1 ∧
      0 < w.interval ∧ w.left = 1 ∧ u.timeAuthority = some .a ∧ (u.port .a).session ≠ .detached :=
  ⟨⟨{ State.reset with slew := some ⟨-16, 2, 15⟩ }, _, ⟨-16, 2, 15⟩, rfl, ends _ rfl, by decide +kernel⟩,
    { timed (attach .a State.reset) with slew := some ⟨16, 1, 15⟩ }, _, ⟨16, 1, 15⟩, rfl, ends _ rfl, by decide +kernel⟩

theorem meets_BoundaryAndStrobeEvents :
    (∃ s : State, s.inReset = false ∧ s.boundaryToHand = true) ∧
    ∃ s : State, s.inReset = false ∧ (s.port .a).strobeRose = true :=
  ⟨⟨{ State.reset with boundaryToHand := true }, rfl, rfl⟩,
    State.reset.modifyPort .a fun ps => { ps with strobeRose := true }, rfl, rfl⟩

theorem meets_ReadTimeResult : ∃ s : State, s.takes (.readTime .a) :=
  ⟨carrying (.readTime .a) State.reset, takes_of_takesNow (by decide +kernel)⟩

/-- A step of -1 with an entry that it leaves exactly at the bound is refused, one tick nearer it is taken. -/
theorem meets_StepTimeRefusedOrTaken :
    (∃ (s : State) (e : Entry), s.takes (.stepTime .a (-1) .skip) ∧ e ∈ s.queue ∧ reached s.mc e.dueTime = false ∧
      distance (s.mc + BitVec.ofInt 48 (-1)) e.dueTime = 2 ^ 46 + 2 ^ 40) ∧
    ∃ s : State, s.takes (.stepTime .a (-1) .sweep) ∧ stepTooFar (-1) s = false ∧ s.slew ≠ none :=
  ⟨⟨queued [setAt 7 (2 ^ 46 + 2 ^ 40 - 1)] (timed (carrying (.stepTime .a (-1) .skip) State.reset)),
      setAt 7 (2 ^ 46 + 2 ^ 40 - 1), takes_of_takesNow (by decide +kernel), by decide +kernel, by decide +kernel,
      by decide +kernel⟩,
    queued [setAt 7 (2 ^ 46 + 2 ^ 40 - 2)]
      { timed (carrying (.stepTime .a (-1) .sweep) State.reset) with slew := some ⟨16, 1, 0⟩ },
    takes_of_takesNow (by decide +kernel), by decide +kernel, by decide +kernel⟩

/-- A SKIP over an entry at exactly the offset, behind one that has fallen due and is not taken yet. -/
theorem meets_SkipStepRetiresOvertaken :
    ∃ s : State, s.takes (.stepTime .a 10 .skip) ∧ stepTooFar 10 s = false ∧
      s.queue = [setAt 6 0, setAt 7 10, setAt 8 11] ∧ reached s.mc (setAt 6 0).dueTime = true ∧
      passedBy s.mc 10 (setAt 7 10) = true ∧ passedBy s.mc 10 (setAt 8 11) = false :=
  ⟨queued [setAt 6 0, setAt 7 10, setAt 8 11] (timed (carrying (.stepTime .a 10 .skip) State.reset)),
    takes_of_takesNow (by decide +kernel), by decide +kernel⟩

/-- A SWEEP over the LEAD of a PULSE at exactly the offset, with its TRAIL one tick farther. -/
theorem meets_SweepStepTakesOvertaken :
    ∃ s : State, s.takes (.stepTime .a 10 .sweep) ∧ stepTooFar 10 s = false ∧ s.queueOrdered ∧ s.tagLaw ∧
      s.queue = [leadAt 7 10, trailAt 7 11] ∧ passedBy s.mc 10 (leadAt 7 10) = true ∧
      passedBy s.mc 10 (trailAt 7 11) = false :=
  ⟨queued [leadAt 7 10, trailAt 7 11] (timed (carrying (.stepTime .a 10 .sweep) State.reset)),
    takes_of_takesNow (by decide +kernel), by decide +kernel,
    ⟨List.pairwise_pair.2 (Or.inr (by decide +kernel)), by decide +kernel⟩,
    ⟨everyPort (by decide +kernel) (by decide +kernel) (by decide +kernel) (by decide +kernel),
      everyPort (List.pairwise_pair.2 fun _ => Or.inl ⟨rfl, rfl⟩) List.Pairwise.nil List.Pairwise.nil List.Pairwise.nil⟩,
    by decide +kernel⟩

theorem meets_RateAndFrameCommands :
    (∃ s : State, s.takes (.setRate .a (-65535) 16777215)) ∧ (∃ s : State, s.takes (.setRate .a 0 0)) ∧
    ∃ s : State, s.takes (.setFrame .a 256) :=
  ⟨⟨timed (carrying (.setRate .a (-65535) 16777215) State.reset), takes_of_takesNow (by decide +kernel)⟩,
    ⟨timed (carrying (.setRate .a 0 0) State.reset), takes_of_takesNow (by decide +kernel)⟩,
    timed (carrying (.setFrame .a 256) State.reset), takes_of_takesNow (by decide +kernel)⟩

theorem meets_ForceLinesAndPins :
    (∃ s : State, s.inReset = true) ∧ (∃ s : State, s.inReset = false ∧ (s.line 3).force = some .high ∧
      (s.line 4).force = none) ∧
    ∃ s : State, s.takes (.forceLines .a 0x8008 .high) ∧ s.inReset = false :=
  ⟨⟨{ State.reset with inReset := true }, rfl⟩, ⟨forced State.reset, by decide +kernel⟩,
    supervised .a (carrying (.forceLines .a 0x8008 .high) State.reset), takes_of_takesNow (by decide +kernel), rfl⟩

theorem meets_AcquireLinesResult :
    (∃ s : State, s.takes (.acquireLines .a 0x0018 (some 1000) .high) ∧
      (bitsWhere fun l => (0x0018 : LineSet)[l] && s.heldByOther .a l) ≠ 0) ∧
    ∃ s : State, s.takes (.acquireLines .a 0x0018 none .hold) ∧
      (bitsWhere fun l => (0x0018 : LineSet)[l] && s.heldByOther .a l) = 0 :=
  ⟨⟨leased .b 1000 (carrying (.acquireLines .a 0x0018 (some 1000) .high) State.reset),
      takes_of_takesNow (by decide +kernel), by decide +kernel⟩,
    carrying (.acquireLines .a 0x0018 none .hold) State.reset, takes_of_takesNow (by decide +kernel), by decide +kernel⟩

theorem meets_RenewLinesResult :
    (∃ s : State, s.takes (.renewLines .a 0x0018) ∧ (bitsWhere fun l => (0x0018 : LineSet)[l] && !s.holds .a l) ≠ 0) ∧
    ∃ s : State, s.takes (.renewLines .a 0x0008) ∧ (bitsWhere fun l => (0x0008 : LineSet)[l] && !s.holds .a l) = 0 :=
  ⟨⟨leased .a 1 (carrying (.renewLines .a 0x0018) State.reset), takes_of_takesNow (by decide +kernel), by decide +kernel⟩,
    leased .a 1 (carrying (.renewLines .a 0x0008) State.reset), takes_of_takesNow (by decide +kernel), by decide +kernel⟩

theorem meets_ReleaseLinesResult :
    (∃ s : State, s.takes (.releaseLines .a 0x0018) ∧ (bitsWhere fun l => (0x0018 : LineSet)[l] && !s.holds .a l) ≠ 0) ∧
    (∃ s : State, s.takes (.releaseLines .a 0x0008) ∧ (bitsWhere fun l => (0x0008 : LineSet)[l] && !s.holds .a l) = 0 ∧
      s.queue.filter (namesLineIn 0x0008) ≠ []) ∧
    (∃ s : State, s.awaits .a (.releaseLines .a 0x0008) = true ∧ (s.port .a).session = .detached) ∧
    ∃ s : State, s.awaits .a (.releaseLines .a 0x0008) = true ∧ (s.port .a).session = .fenced :=
  ⟨⟨leased .a 1 (carrying (.releaseLines .a 0x0018) State.reset), takes_of_takesNow (by decide +kernel),
      by decide +kernel⟩,
    ⟨queued [setAt 7 9] (leased .a 1 (carrying (.releaseLines .a 0x0008) State.reset)),
      takes_of_takesNow (by decide +kernel), by decide +kernel, by decide +kernel⟩,
    ⟨(carrying (.releaseLines .a 0x0008) State.reset).modifyPort .a fun ps => { ps with session := .detached },
      by decide +kernel⟩,
    (carrying (.releaseLines .a 0x0008) State.reset).modifyPort .a fun ps => { ps with session := .fenced },
    by decide +kernel⟩

theorem meets_RevokeLinesResult :
    (∃ s : State, s.takes (.revokeLines .b 0x0018) ∧ s.holds .a 3 = true) ∧
    ∃ s : State, s.awaits .b (.revokeLines .b 0x0018) = true ∧ (s.port .b).session = .attached ∧ s.supervisor ≠ some .b :=
  ⟨⟨leased .a 1 (supervised .b (carrying (.revokeLines .b 0x0018) State.reset)), takes_of_takesNow (by decide +kernel),
      by decide +kernel⟩,
    carrying (.revokeLines .b 0x0018) State.reset, by decide +kernel⟩

theorem meets_LeaseExpiryEndsTheLease :
    ∃ (s : State) (x : Lease), s.inReset = false ∧ (s.line 3).lease = some x ∧ x.term = .finite 1000 0 :=
  ⟨leased .a 0 (attach .a State.reset), ⟨.a, .finite 1000 0, .high⟩, by decide +kernel⟩

theorem meets_UnforceLinesResult :
    (∃ s : State, s.awaits .a (.unforceLines .a 0x0008) = true ∧ (s.port .a).session = .attached ∧
      s.supervisor = some .a ∧ s.inReset = false ∧ (s.line 3).force = some .high) ∧
    ∃ s : State, s.awaits .a (.unforceLines .a 0x0008) = true ∧ (s.port .a).session = .attached ∧ s.supervisor ≠ some .a :=
  ⟨⟨forced (supervised .a (carrying (.unforceLines .a 0x0008) State.reset)), by decide +kernel⟩,
    carrying (.unforceLines .a 0x0008) State.reset, by decide +kernel⟩

theorem meets_SnapshotCommands :
    (∃ s : State, s.takes (.readLines .a)) ∧ (∃ s : State, s.takes (.readQueue .a)) ∧
    ∃ s : State, s.takes (.readStatus .a) :=
  ⟨⟨carrying (.readLines .a) State.reset, takes_of_takesNow (by decide +kernel)⟩,
    ⟨carrying (.readQueue .a) State.reset, takes_of_takesNow (by decide +kernel)⟩,
    carrying (.readStatus .a) State.reset, takes_of_takesNow (by decide +kernel)⟩

/-! ### The action queue and the executor -/

theorem meets_SubmitRefusalsInOrder_first :
    (∃ s : State, s.takes (.submit .a (setDesc 7 9)) ∧ descLine (setDesc 7 9).action = some 3 ∧ s.holds .a 3 = false) ∧
    (∃ s : State, s.takes (.submit .a (setDesc 7 9)) ∧ s.holds .a 3 = true ∧
      ∃ e ∈ s.liveEntries .a, e.tag = (setDesc 7 9).tag) ∧
    ∃ s : State, s.takes (.submit .a (setDesc 7 0)) ∧ s.holds .a 3 = true ∧ s.liveEntries .a = [] ∧
      reached s.mc (setDesc 7 0).dueTime = true ∧ (setDesc 7 0).lateOk = false :=
  ⟨⟨carrying (.submit .a (setDesc 7 9)) State.reset, takes_of_takesNow (by decide +kernel), rfl, by decide +kernel⟩,
    ⟨queued [setAt 7 9] (leased .a 1 (carrying (.submit .a (setDesc 7 9)) State.reset)),
      takes_of_takesNow (by decide +kernel), by decide +kernel, setAt 7 9, by decide +kernel, rfl⟩,
    leased .a 1 (carrying (.submit .a (setDesc 7 0)) State.reset), takes_of_takesNow (by decide +kernel), by decide +kernel⟩

/-- The first distance that is TOO_FAR, and a usage at the quota with a due time one nearer. -/
theorem meets_SubmitRefusalsInOrder_last :
    (∃ s : State, s.takes (.submit .a (setDesc 7 (2 ^ 46))) ∧ s.holds .a 3 = true ∧ s.liveEntries .a = [] ∧
      reached s.mc (2 ^ 46) = false ∧ tooFar s.mc (2 ^ 46) = true) ∧
    ∃ s : State, s.takes (.submit .a (setDesc 7 (2 ^ 46 - 1))) ∧ s.holds .a 3 = true ∧
      (∀ e ∈ s.liveEntries .a, e.tag ≠ 7) ∧ acceptable s.mc (2 ^ 46 - 1) = true ∧
      (s.port .a).quota < s.usage .a + descSlots (setDesc 7 (2 ^ 46 - 1)) :=
  ⟨⟨leased .a 1 (carrying (.submit .a (setDesc 7 (2 ^ 46))) State.reset), takes_of_takesNow (by decide +kernel),
      by decide +kernel⟩,
    queued [setAt 8 9] ((leased .a 1 (carrying (.submit .a (setDesc 7 (2 ^ 46 - 1))) State.reset)).modifyPort .a
      fun ps => { ps with quota := 1 }), takes_of_takesNow (by decide +kernel), by decide +kernel⟩

/-- A PULSE whose TRAIL is at the last acceptable distance, and whose two slots just fit the quota; and a late_ok SET
whose due time is reached at its admission. -/
theorem meets_SubmitAdmits :
    (∃ s : State, s.takes (.submit .a ⟨7, .set 3, 0, some ⟨2, .consume⟩, .always, true⟩) ∧ s.queueOrdered ∧
      s.holds .a 3 = true ∧ s.liveEntries .a = [] ∧ reached s.mc 0 = true ∧ s.usage .a + 1 ≤ (s.port .a).quota) ∧
    ∃ s : State, s.takes (.submit .a ⟨7, .pulse 3 1, 2 ^ 46 - 2, none, .always, false⟩) ∧ s.queueOrdered ∧
      s.holds .a 3 = true ∧ s.liveEntries .a = [] ∧ reached s.mc (2 ^ 46 - 2) = false ∧
      tooFar s.mc (2 ^ 46 - 2 + (1 : BitVec 24).zeroExtend 48) = false ∧ s.usage .a + 2 = (s.port .a).quota :=
  ⟨⟨leased .a 1 (carrying (.submit .a ⟨7, .set 3, 0, some ⟨2, .consume⟩, .always, true⟩) State.reset),
      takes_of_takesNow (by decide +kernel), ⟨List.Pairwise.nil, fun e h => by cases h⟩, by decide +kernel⟩,
    (leased .a 1 (carrying (.submit .a ⟨7, .pulse 3 1, 2 ^ 46 - 2, none, .always, false⟩) State.reset)).modifyPort .a
      fun ps => { ps with quota := 2 }, takes_of_takesNow (by decide +kernel), ⟨List.Pairwise.nil, fun e h => by cases h⟩,
    by decide +kernel⟩

theorem meets_CancelCommands :
    (∃ s : State, s.takes (.cancel .a 7) ∧ ((s.port .a).batch.staged.filter fun e => e.tag == 7) ≠ [] ∧
      (s.port .a).batch.state = .armed) ∧
    (∃ s : State, s.takes (.cancel .a 7) ∧ (s.port .a).batch.staged = [] ∧ s.queue = []) ∧
    (∃ s : State, s.takes (.cancel .a 7) ∧ (s.port .a).batch.state ≠ .armed ∧
      s.queue.filter (fun e => e.port == .a && e.tag == 7) ≠ []) ∧
    ∃ s : State, s.takes (.cancelLines .a 0x0008) ∧ s.queue ≠ [] :=
  ⟨⟨batched [setAt 7 9] (some 5) (carrying (.cancel .a 7) State.reset), takes_of_takesNow (by decide +kernel),
      by decide +kernel⟩,
    ⟨carrying (.cancel .a 7) State.reset, takes_of_takesNow (by decide +kernel), by decide +kernel⟩,
    ⟨queued [setAt 7 9] (carrying (.cancel .a 7) State.reset), takes_of_takesNow (by decide +kernel), by decide +kernel⟩,
    queued [setAt 7 9] (carrying (.cancelLines .a 0x0008) State.reset), takes_of_takesNow (by decide +kernel),
    by decide +kernel⟩

/-- A full FIFO with a report waiting behind it. -/
theorem meets_CompletionFifoCommands :
    (∃ s : State, s.takes (.readCompletions .a 8) ∧ (s.port .a).reportsMoved ∧ (s.port .a).fifo.length = 32 ∧
      (s.port .a).retirement ≠ []) ∧
    ∃ s : State, s.inReset = false ∧ (s.port .a).fifo = [] ∧ (s.port .a).retirement ≠ [] :=
  ⟨⟨(carrying (.readCompletions .a 8) State.reset).modifyPort .a fun ps =>
        { ps with
          fifo := List.replicate 32 ⟨1, .none, .set, some 3, .done, 0, 0⟩
          retirement := [⟨setAt 7 9, .cancelled, 0⟩] },
      takes_of_takesNow (by decide +kernel), by decide +kernel⟩,
    State.reset.modifyPort .a fun ps => { ps with retirement := [⟨setAt 7 9, .cancelled, 0⟩] }, by decide +kernel⟩

/-- An entry due now whose guard is set, on a forced line; one whose flag has been set again since its admission; and one with
no guard. -/
theorem meets_DueLineEntryIsApplied :
    (∃ s : State, s.inReset = false ∧ s.queue = [guardedAt 7 0] ∧ reached s.mc 0 = true ∧
      (s.port .a).setFor (guardedAt 7 0) 2 ∧ (s.line 3).force ≠ none) ∧
    (∃ s : State, s.inReset = false ∧ s.queue = [guardedAt 7 0] ∧ reached s.mc 0 = true ∧
      (s.port .a).setFor (guardedAt 7 0) 2 ∧ (s.port .a).sinceAdmission (guardedAt 7 0) .again) ∧
    ∃ s : State, s.inReset = false ∧ s.queue = [setAt 7 0] ∧ (setAt 7 0).guard = none ∧ reached s.mc 0 = true ∧
      (s.line 3).force = none :=
  ⟨⟨queued [guardedAt 7 0] (forced (State.reset.modifyPort .a fun ps => { ps with arms := 4 })),
      by decide +kernel, by decide +kernel, by decide +kernel, ⟨by decide +kernel, fun ⟨_, h, _⟩ => by cases h⟩,
      by decide +kernel⟩,
    ⟨queued [guardedAt 7 0]
        (State.reset.modifyPort .a fun ps => { ps with arms := 4, lateGuard := some ⟨7, 2, .again⟩ }),
      by decide +kernel, by decide +kernel, by decide +kernel, ⟨by decide +kernel, fun ⟨_, h, _, h'⟩ => by cases h; cases h'⟩,
      ⟨7, 2, .again⟩, by decide +kernel⟩,
    queued [setAt 7 0] State.reset, by decide +kernel⟩

theorem meets_DueEntryWithClearFlagFails :
    (∃ s : State, s.inReset = false ∧ s.queue = [guardedAt 7 0] ∧ reached s.mc 0 = true ∧
      (s.port .a).arms[(2 : Channel)] = true ∧ (s.port .a).sinceAdmission (guardedAt 7 0) .unseen) ∧
    (∃ s : State, s.inReset = false ∧ s.queue = [guardedAt 7 0] ∧ reached s.mc 0 = true ∧
      (s.port .a).arms[(2 : Channel)] = false ∧ (guardedAt 7 0).action.isLead = false) ∧
    (∃ s : State, s.inReset = false ∧ s.queue = [leadAt 7 0] ∧ (leadAt 7 0).action.isLead = true ∧
      ([] : List Entry).find? (isTrailOf (leadAt 7 0)) = none) ∧
    ∃ s : State, s.inReset = false ∧ s.queue = [leadAt 7 0, setAt 8 3, trailAt 7 5] ∧
      [setAt 8 3, trailAt 7 5].find? (isTrailOf (leadAt 7 0)) = some (trailAt 7 5) :=
  ⟨⟨queued [guardedAt 7 0]
        (State.reset.modifyPort .a fun ps => { ps with arms := 4, lateGuard := some ⟨7, 2, .unseen⟩ }),
      by decide +kernel, by decide +kernel, by decide +kernel, by decide +kernel, ⟨7, 2, .unseen⟩, by decide +kernel⟩,
    ⟨queued [guardedAt 7 0] State.reset, by decide +kernel⟩, ⟨queued [leadAt 7 0] State.reset, by decide +kernel⟩,
    queued [leadAt 7 0, setAt 8 3, trailAt 7 5] State.reset, by decide +kernel⟩

/-- A due NOTE to A and B, A with room in its log, B with none, C no target; and one whose CONSUME guard is set. -/
theorem meets_DueNoteIsDelivered :
    (∃ (s : State) (e : Entry), s.inReset = false ∧ s.queue = [e] ∧ reached s.mc e.dueTime = true ∧
      e.action = .note 1 3 ∧ e.guard = some ⟨2, .consume⟩ ∧ (s.port .a).setFor e 2) ∧
    ∃ s : State, s.inReset = false ∧ s.queue = [noteAt 7 0] ∧ reached s.mc 0 = true ∧ (noteAt 7 0).guard = none ∧
      (s.port .a).session = .attached ∧ (s.port .a).log.length < 32 ∧ (s.port .b).session = .attached ∧
      (s.port .b).log.length = 32 ∧ (s.port .c).session ≠ .attached :=
  ⟨⟨queued [⟨.a, 7, .note 1 3, 0, some ⟨2, .consume⟩, .always, false⟩]
        ((attach .a State.reset).modifyPort .a fun ps => { ps with arms := 4 }),
      ⟨.a, 7, .note 1 3, 0, some ⟨2, .consume⟩, .always, false⟩, by decide +kernel, by decide +kernel, by decide +kernel,
      rfl, rfl, by decide +kernel, fun ⟨_, h, _⟩ => by cases h⟩,
    queued [noteAt 7 0] (logFull .b (attach .b (attach .a State.reset))), by decide +kernel⟩

/-! ### Batches -/

theorem meets_StageResult :
    (∃ s : State, s.takes (.stage .a (setDesc 7 9)) ∧ (s.port .a).batch.state = .armed) ∧
    (∃ s : State, s.takes (.stage .a (setDesc 7 9)) ∧ (s.port .a).batch.state ≠ .armed ∧
      ∃ e ∈ s.liveEntries .a, e.tag = 7) ∧
    (∃ s : State, s.takes (.stage .a (setDesc 7 9)) ∧ (s.port .a).batch.state ≠ .armed ∧ s.liveEntries .a = [] ∧
      (s.port .a).quota < s.usage .a + 1) ∧
    (∃ s : State, s.takes (.stage .a (setDesc 7 9)) ∧ (s.port .a).batch.state ≠ .armed ∧
      (∀ e ∈ s.liveEntries .a, e.tag ≠ 7) ∧ s.usage .a + 1 ≤ (s.port .a).quota ∧
      (s.port .a).batch.staged.length = 16) ∧
    ∃ s : State, s.takes (.stage .a (setDesc 7 9)) ∧ (s.port .a).batch.state ≠ .armed ∧
      (∀ e ∈ s.liveEntries .a, e.tag ≠ 7) ∧ s.usage .a + 1 ≤ (s.port .a).quota ∧ (s.port .a).batch.staged.length = 15 :=
  ⟨⟨batched [setAt 8 9] (some 5) (carrying (.stage .a (setDesc 7 9)) State.reset), takes_of_takesNow (by decide +kernel),
      by decide +kernel⟩,
    ⟨batched [setAt 7 9] none (carrying (.stage .a (setDesc 7 9)) State.reset), takes_of_takesNow (by decide +kernel),
      by decide +kernel, setAt 7 9, by decide +kernel, rfl⟩,
    ⟨(carrying (.stage .a (setDesc 7 9)) State.reset).modifyPort .a fun ps => { ps with quota := 0 },
      takes_of_takesNow (by decide +kernel), by decide +kernel⟩,
    ⟨batched (List.replicate 16 (setAt 8 9)) none (carrying (.stage .a (setDesc 7 9)) State.reset),
      takes_of_takesNow (by decide +kernel), by decide +kernel⟩,
    batched (List.replicate 15 (setAt 8 9)) none (carrying (.stage .a (setDesc 7 9)) State.reset),
    takes_of_takesNow (by decide +kernel), by decide +kernel⟩

theorem meets_CommitAndDiscardBatch :
    (∃ s : State, s.takes (.commitBatch .a (some 0))) ∧
    (∃ s : State, s.takes (.commitBatch .a none) ∧ (s.port .a).batch.state = .empty) ∧
    (∃ s : State, s.takes (.commitBatch .a (some 255)) ∧ (s.port .a).batch.state = .armed) ∧
    (∃ s : State, s.takes (.commitBatch .a (some 1)) ∧ (s.port .a).batch.state = .opened) ∧
    ∃ s : State, s.takes (.discardBatch .a) :=
  ⟨⟨carrying (.commitBatch .a (some 0)) State.reset, takes_of_takesNow (by decide +kernel)⟩,
    ⟨carrying (.commitBatch .a none) State.reset, takes_of_takesNow (by decide +kernel), by decide +kernel⟩,
    ⟨batched [setAt 7 9] (some 5) (carrying (.commitBatch .a (some 255)) State.reset),
      takes_of_takesNow (by decide +kernel), by decide +kernel⟩,
    ⟨batched [setAt 7 9] none (carrying (.commitBatch .a (some 1)) State.reset), takes_of_takesNow (by decide +kernel),
      by decide +kernel⟩,
    carrying (.discardBatch .a) State.reset, takes_of_takesNow (by decide +kernel)⟩

/-- A batch of one entry at the nearest acceptable time on a held line, one on a line not held, and one that is late. -/
theorem meets_BatchValidationResult :
    (∃ s : State, s.inReset = false ∧ (s.port .a).batch.target = some s.frameIndex ∧ s.queueOrdered ∧
      (s.port .a).session ≠ .detached ∧ (s.port .a).batch.staged = [setAt 7 1] ∧ (setAt 7 1).port = .a ∧
      s.holds .a 3 = true ∧ acceptable s.mc 1 = true) ∧
    (∃ s : State, s.inReset = false ∧ (s.port .a).batch.target = some s.frameIndex ∧ s.queueOrdered ∧
      (s.port .a).session ≠ .detached ∧ (s.port .a).batch.staged = [setAt 7 1] ∧ s.holds .a 3 = false) ∧
    ∃ s : State, s.inReset = false ∧ (s.port .a).batch.target = some s.frameIndex ∧ s.queueOrdered ∧
      (s.port .a).session ≠ .detached ∧ (s.port .a).batch.staged = [setAt 7 0] ∧ s.holds .a 3 = true ∧
      acceptable s.mc 0 = false ∧ (setAt 7 0).lateOk = false :=
  ⟨⟨batched [setAt 7 1] (some 0) (leased .a 1 (attach .a State.reset)), by decide +kernel, by decide +kernel,
      ⟨List.Pairwise.nil, fun e h => by cases h⟩, by decide +kernel⟩,
    ⟨batched [setAt 7 1] (some 0) (attach .a State.reset), by decide +kernel, by decide +kernel,
      ⟨List.Pairwise.nil, fun e h => by cases h⟩, by decide +kernel⟩,
    batched [setAt 7 0] (some 0) (leased .a 1 (attach .a State.reset)), by decide +kernel, by decide +kernel,
    ⟨List.Pairwise.nil, fun e h => by cases h⟩, by decide +kernel⟩

/-! ### Capture -/

/-- The first sample; a sample of the filtered level; the first of a run at the least depth; one that stops short of D. -/
theorem meets_SampleWithoutEdge :
    (∃ s : State, s.inReset = false ∧ s.samplesTaken[(2 : Channel)] = false ∧ (s.channels[(2 : Channel)]).sampled = false) ∧
    (∃ s : State, s.inReset = false ∧ s.samplesTaken[(2 : Channel)] = false ∧ (s.channels[(2 : Channel)]).sampled = true ∧
      levelFromBool s.inStage2[(2 : Channel)] = (s.channels[(2 : Channel)]).filtered) ∧
    (∃ s : State, s.inReset = false ∧ s.samplesTaken[(2 : Channel)] = false ∧ (s.channels[(2 : Channel)]).sampled = true ∧
      levelFromBool s.inStage2[(2 : Channel)] ≠ (s.channels[(2 : Channel)]).filtered ∧
      (s.channels[(2 : Channel)]).run = none ∧ (s.channels[(2 : Channel)]).depth = 2) ∧
    ∃ s : State, s.inReset = false ∧ s.samplesTaken[(2 : Channel)] = false ∧ (s.channels[(2 : Channel)]).sampled = true ∧
      levelFromBool s.inStage2[(2 : Channel)] ≠ (s.channels[(2 : Channel)]).filtered ∧
      (s.channels[(2 : Channel)]).run = some ⟨.high, 1, 0⟩ ∧ (s.channels[(2 : Channel)]).depth = 3 :=
  ⟨⟨sampling ⟨3, .none, .low, false, none⟩ 0 State.reset, by decide +kernel⟩,
    ⟨sampling ⟨3, .none, .low, true, some ⟨.high, 1, 0⟩⟩ 0 State.reset, by decide +kernel⟩,
    ⟨sampling ⟨2, .none, .low, true, none⟩ 4 State.reset, by decide +kernel⟩,
    sampling ⟨3, .none, .low, true, some ⟨.high, 1, 0⟩⟩ 4 State.reset, by decide +kernel⟩

/-- An edge at depth 1 that does not qualify, and one that completes a run of 3 and qualifies, with a subscriber that has
room, one that has none, and a port that does not subscribe. -/
theorem meets_EdgeIsDeliveredToSubscribers :
    (∃ s : State, s.inReset = false ∧ s.samplesTaken[(2 : Channel)] = false ∧ (s.channels[(2 : Channel)]).sampled = true ∧
      levelFromBool s.inStage2[(2 : Channel)] = invertLevel (s.channels[(2 : Channel)]).filtered ∧
      (s.channels[(2 : Channel)]).run = none ∧ (s.channels[(2 : Channel)]).depth = 1 ∧
      (s.channels[(2 : Channel)]).select = .fall ∧ (s.channels[(2 : Channel)]).filtered = .low) ∧
    ∃ s : State, s.inReset = false ∧ s.samplesTaken[(2 : Channel)] = false ∧ (s.channels[(2 : Channel)]).sampled = true ∧
      levelFromBool s.inStage2[(2 : Channel)] = invertLevel (s.channels[(2 : Channel)]).filtered ∧
      (s.channels[(2 : Channel)]).run = some ⟨.high, 2, 0⟩ ∧ (s.channels[(2 : Channel)]).depth = 3 ∧
      (s.channels[(2 : Channel)]).select = .rise ∧ (s.channels[(2 : Channel)]).filtered = .low ∧
      (s.port .a).session = .attached ∧ (s.port .a).subscription[(2 : Channel)] = true ∧ (s.port .a).log.length < 32 ∧
      (s.port .b).session = .attached ∧ (s.port .b).subscription[(2 : Channel)] = true ∧ (s.port .b).log.length = 32 ∧
      (s.port .c).session ≠ .attached :=
  ⟨⟨sampling ⟨1, .fall, .low, true, none⟩ 4 State.reset, by decide +kernel⟩,
    sampling ⟨3, .rise, .low, true, some ⟨.high, 2, 0⟩⟩ 4
      (logFull .b ((attach .b (attach .a State.reset)).mapPorts fun _ ps => { ps with subscription := 4 })),
    by decide +kernel⟩

theorem meets_ConfigInputResult :
    (∃ s : State, s.takes (.configInput .a 0x0004 8 .both) ∧ s.supervisor = some .b) ∧
    (∃ s : State, s.takes (.configInput .a 0x0004 1 .both) ∧ s.supervisor = none) ∧
    ∃ s : State, s.takes (.configInput .a 0x0004 8 .both) ∧ s.supervisor = some .a :=
  ⟨⟨supervised .b (carrying (.configInput .a 0x0004 8 .both) State.reset), takes_of_takesNow (by decide +kernel), rfl⟩,
    ⟨carrying (.configInput .a 0x0004 1 .both) State.reset, takes_of_takesNow (by decide +kernel), rfl⟩,
    supervised .a (carrying (.configInput .a 0x0004 8 .both) State.reset), takes_of_takesNow (by decide +kernel), rfl⟩

theorem meets_SubscriptionAndArmFlagCommands :
    (∃ s : State, s.takes (.subscribe .a 0)) ∧ (∃ s : State, s.takes (.clearArms .a 0xFFFF)) ∧
    ∃ s : State, s.takes (.readArms .a) :=
  ⟨⟨carrying (.subscribe .a 0) State.reset, takes_of_takesNow (by decide +kernel)⟩,
    ⟨carrying (.clearArms .a 0xFFFF) State.reset, takes_of_takesNow (by decide +kernel)⟩,
    carrying (.readArms .a) State.reset, takes_of_takesNow (by decide +kernel)⟩

theorem meets_ReadCapturesResult : ∃ s : State, s.takes (.readCaptures .a 8) ∧ (s.port .a).log.length = 32 :=
  ⟨logFull .a (carrying (.readCaptures .a 8) State.reset), takes_of_takesNow (by decide +kernel), by decide +kernel⟩

/-! ### Sessions -/

theorem meets_AdmissionRefusals :
    (∃ s : State, s.awaits .a (.submit .a (setDesc 7 9)) = true ∧ (s.port .a).session = .detached) ∧
    (∃ s : State, s.awaits .a (.submit .a (setDesc 7 9)) = true ∧ (s.port .a).session = .fenced) ∧
    (∃ s : State, s.awaits .a (.setFrame .a 256) = true ∧ (s.port .a).session = .attached ∧
      s.holder .timeAuthority ≠ some .a) ∧
    admissionRow (.submit .a (setDesc 7 9)) = some (.a, false, false, none) ∧
    admissionRow (.setFrame .a 256) = some (.a, false, false, some .timeAuthority) :=
  ⟨⟨(carrying (.submit .a (setDesc 7 9)) State.reset).modifyPort .a fun ps => { ps with session := .detached },
      by decide +kernel⟩,
    ⟨(carrying (.submit .a (setDesc 7 9)) State.reset).modifyPort .a fun ps => { ps with session := .fenced },
      by decide +kernel⟩,
    ⟨carrying (.setFrame .a 256) State.reset, by decide +kernel⟩, rfl, rfl⟩

theorem meets_OpenResult :
    (∃ s : State, s.takes (.openPort .a) ∧ (s.port .a).session = .attached) ∧
    ∃ s : State, s.takes (.openPort .a) ∧ (s.port .a).session = .detached :=
  ⟨⟨carrying (.openPort .a) State.reset, takes_of_takesNow (by decide +kernel), by decide +kernel⟩,
    (carrying (.openPort .a) State.reset).modifyPort .a fun ps => { ps with session := .detached },
    takes_of_takesNow (by decide +kernel), by decide +kernel⟩

/-- A port that holds both roles, a line and an entry on it. -/
theorem meets_CloseTearsDown :
    ∃ s : State, s.takes (.closePort .a) ∧ (∀ e ∈ s.queue, ∀ l, e.action.line? = some l → s.holds e.port l = true) ∧
      s.queue = [setAt 7 9] ∧ s.timeAuthority = some .a ∧ s.supervisor = some .a ∧ s.holds .a 3 = true :=
  ⟨queued [setAt 7 9] (supervised .a (timed (leased .a 1 (carrying (.closePort .a) State.reset)))),
    takes_of_takesNow (by decide +kernel), by decide +kernel⟩

theorem meets_RoleCommands :
    (∃ s : State, s.takes (.claimRole .a .supervisor) ∧ s.holder .supervisor = none) ∧
    (∃ s : State, s.takes (.claimRole .a .supervisor) ∧ s.holder .supervisor = some .a) ∧
    (∃ s : State, s.takes (.claimRole .a .supervisor) ∧ s.holder .supervisor = some .b) ∧
    (∃ s : State, s.takes (.releaseRole .a .timeAuthority) ∧ s.holder .timeAuthority ≠ some .a) ∧
    ∃ s : State, s.takes (.releaseRole .a .timeAuthority) ∧ s.holder .timeAuthority = some .a :=
  ⟨⟨carrying (.claimRole .a .supervisor) State.reset, takes_of_takesNow (by decide +kernel), rfl⟩,
    ⟨supervised .a (carrying (.claimRole .a .supervisor) State.reset), takes_of_takesNow (by decide +kernel), rfl⟩,
    ⟨supervised .b (carrying (.claimRole .a .supervisor) State.reset), takes_of_takesNow (by decide +kernel), rfl⟩,
    ⟨carrying (.releaseRole .a .timeAuthority) State.reset, takes_of_takesNow (by decide +kernel), by decide +kernel⟩,
    timed (carrying (.releaseRole .a .timeAuthority) State.reset), takes_of_takesNow (by decide +kernel), rfl⟩

theorem meets_FencePortResult :
    (∃ s : State, s.takes (.fencePort .b .b) ∧ s.queue = []) ∧
    (∃ s : State, s.takes (.fencePort .b .a) ∧ s.queue = [] ∧ (s.port .a).session ≠ .attached) ∧
    ∃ s : State, s.takes (.fencePort .b .a) ∧ (s.port .a).session = .attached ∧
      (∀ e ∈ s.queue, ∀ l, e.action.line? = some l → s.holds e.port l = true) ∧ s.queue = [setAt 7 9] ∧
      s.timeAuthority = some .a :=
  ⟨⟨supervised .b (carrying (.fencePort .b .b) State.reset), takes_of_takesNow (by decide +kernel), rfl⟩,
    ⟨supervised .b (carrying (.fencePort .b .a) State.reset), takes_of_takesNow (by decide +kernel), by decide +kernel⟩,
    queued [setAt 7 9] (timed (supervised .b (leased .a 1 (carrying (.fencePort .b .a) (attach .a State.reset))))),
    takes_of_takesNow (by decide +kernel), by decide +kernel⟩

/-- A quota below the usage, one tick above what the others leave, and one exactly at it. -/
theorem meets_SetQuotaResult :
    (∃ s : State, s.takes (.setQuota .a .b 64) ∧ s.supervisor = some .b) ∧
    (∃ s : State, s.takes (.setQuota .b .a 0) ∧ s.supervisor = none ∧ s.usage .a = 1) ∧
    (∃ s : State, s.takes (.setQuota .a .b 65) ∧ s.supervisor = none ∧ s.usage .b = 0 ∧
      65 + (s.quotaSum - (s.port .b).quota) = 257) ∧
    ∃ s : State, s.takes (.setQuota .a .b 64) ∧ s.supervisor = none ∧ s.usage .b = 0 ∧
      64 + (s.quotaSum - (s.port .b).quota) = 256 :=
  ⟨⟨supervised .b (carrying (.setQuota .a .b 64) State.reset), takes_of_takesNow (by decide +kernel), rfl⟩,
    ⟨queued [setAt 7 9] (carrying (.setQuota .b .a 0) State.reset), takes_of_takesNow (by decide +kernel),
      by decide +kernel⟩,
    ⟨carrying (.setQuota .a .b 65) State.reset, takes_of_takesNow (by decide +kernel), by decide +kernel⟩,
    carrying (.setQuota .a .b 64) State.reset, takes_of_takesNow (by decide +kernel), by decide +kernel⟩

/-- A request of its own port, and a SUBMIT whose due time is reached. -/
theorem meets_OtherPortsAreUndisturbed :
    (∃ s t : State, (∃ x, admissionRow (.readTime .a) = some (.a, x)) ∧ exec (.readTime .a) s = .next t ∧
      s.awaits .a (.readTime .a) = true) ∧
    ∃ s t : State, exec (.submit .a (setDesc 7 0)) s = .next t ∧ s.awaits .a (.submit .a (setDesc 7 0)) = true ∧
      reached s.mc (setDesc 7 0).dueTime = true :=
  ⟨⟨carrying (.readTime .a) State.reset, _, ⟨_, rfl⟩, rfl, by decide +kernel⟩,
    carrying (.submit .a (setDesc 7 0)) State.reset, _, rfl, by decide +kernel, by decide +kernel⟩

/-! ### Events and the request protocol -/

theorem meets_EventCommandsAndAttention :
    (∃ s : State, s.takes (.readEvents .a 0x1FFF)) ∧ (∃ s : State, s.takes (.setEventMask .a 0)) ∧
    (∃ s : State, s.inReset = true) ∧ (∃ s : State, s.inReset = false) ∧
    ∃ s t : State, exec .frameBoundary s = .next t ∧ s.boundaryToHand = true ∧ ∀ pins, Instr.frameBoundary ≠ .increment pins :=
  ⟨⟨carrying (.readEvents .a 0x1FFF) State.reset, takes_of_takesNow (by decide +kernel)⟩,
    ⟨carrying (.setEventMask .a 0) State.reset, takes_of_takesNow (by decide +kernel)⟩,
    ⟨{ State.reset with inReset := true }, rfl⟩, ⟨State.reset, rfl⟩,
    { State.reset with boundaryToHand := true }, _, rfl, rfl, fun _ h => by cases h⟩

/-- The shortest whole frame, a frame one byte short of it, and each engine state. -/
theorem meets_RequestAndUnknownTransactions :
    ((0 : Fin 8) = 0 ∧ 1 ≤ ([0x00, 0x9B] : List Byte).length ∧
      ([0x00, 0x9B] : List Byte).length = (([0x00, 0x9B] : List Byte).getD 0 0).toNat + 2) ∧
    ¬ (([0x00] : List Byte).length = (([0x00] : List Byte).getD 0 0).toNat + 2) ∧
    (State.reset.inReset = false ∧ (State.reset.port .a).link = .idle ∧ (State.reset.port .a).engine = .idle) ∧
    (∃ s : State, s.inReset = false ∧ (s.port .a).link = .idle ∧ (s.port .a).engine = .replyHeld) ∧
    (∃ s : State, s.inReset = false ∧ (s.port .a).link = .idle ∧ (s.port .a).engine = .receiving .idle) ∧
    (∃ s : State, s.inReset = false ∧ (s.port .a).link = .idle ∧ (s.port .a).engine = .executing) ∧
    (∃ s : State, s.inReset = false ∧ (s.port .a).risen = [⟨.aborted, 2⟩, ⟨.dropped, 1⟩] ∧
      (s.port .a).engine = .receiving .replyHeld) ∧
    (∃ s : State, s.inReset = false ∧ (s.port .a).risen = [⟨.dropped, 2⟩]) ∧
    (∃ s : State, s.inReset = false ∧ (s.port .a).risen = [⟨.unknown, 2⟩]) ∧
    (∃ s : State, s.inReset = false ∧ (s.port .a).link = .ignored) ∧
    (0x00 : Byte) ≠ 0x6D ∧ (0x00 : Byte) ≠ 0x93 :=
  ⟨by decide +kernel, by decide +kernel, by decide +kernel,
    ⟨State.reset.modifyPort .a fun ps => { ps with engine := .replyHeld }, by decide +kernel⟩,
    ⟨State.reset.modifyPort .a fun ps => { ps with engine := .receiving .idle }, by decide +kernel⟩,
    ⟨State.reset.modifyPort .a fun ps => { ps with engine := .executing }, by decide +kernel⟩,
    ⟨risen [⟨.aborted, 2⟩, ⟨.dropped, 1⟩]
      (State.reset.modifyPort .a fun ps => { ps with engine := .receiving .replyHeld }), by decide +kernel⟩,
    ⟨risen [⟨.dropped, 2⟩] State.reset, by decide +kernel⟩, ⟨risen [⟨.unknown, 2⟩] State.reset, by decide +kernel⟩,
    ⟨State.reset.modifyPort .a fun ps => { ps with link := .ignored }, by decide +kernel⟩, by decide, by decide⟩

/-- Both kinds of link, and the shortest whole frame on a link with no rising CS_N waiting, in each resting state. -/
theorem meets_TransactionInParts :
    (State.reset.inReset = false ∧ (State.reset.port .a).link = .idle ∧ (State.reset.port .a).risen = [] ∧
      (State.reset.port .a).engine = .idle) ∧
    (∃ s : State, s.inReset = false ∧ (s.port .a).link = .idle ∧ (s.port .a).risen = [] ∧
      (s.port .a).engine = .replyHeld) ∧
    (∃ s : State, (s.port .a).link = .ignored) ∧
    1 ≤ ([0x00, 0x9B] : List Byte).length ∧
    ([0x00, 0x9B] : List Byte).length = (([0x00, 0x9B] : List Byte).getD 0 0).toNat + 2 :=
  ⟨by decide +kernel, ⟨State.reset.modifyPort .a fun ps => { ps with engine := .replyHeld }, by decide +kernel⟩,
    ⟨State.reset.modifyPort .a fun ps => { ps with link := .ignored }, by decide +kernel⟩, by decide, by decide⟩

/-- The part with these bytes in hand at port A, waiting for their checks. -/
def inHand (bytes : List Byte) (x : Option LastExecuted) : State :=
  State.reset.modifyPort .a fun ps =>
    { ps with engine := .receiving .idle, frame := some bytes, lastExecuted := x, risen := [⟨.whole, 2⟩] }

theorem meets_FrameCheckResult_waits (bytes : List Byte) (x : Option LastExecuted) :
    (inHand bytes x).inReset = false ∧ ((inHand bytes x).port .a).risen = [⟨.whole, 2⟩] ∧
      ((inHand bytes x).port .a).engine = .receiving .idle ∧ ((inHand bytes x).port .a).frame = some bytes :=
  ⟨rfl, rfl, rfl, rfl⟩

/-- A frame for each check of `FrameCheckResult`: wrong CRC; length 1; unknown code; wrong size; READ_COMPLETIONS of 9; and
the READ_TIME frame, which passes, as a repeat and not. -/
theorem meets_FrameCheckResult :
    ¬ crc8 [0x02, 0x00, 0x10] = 0xDA ∧
    (crc8 [0x01, 0x00] = 0x51 ∧ ([0x6D, 0x01, 0x00, 0x51].getD 1 0 : Byte).toNat < 2) ∧
    Cmd.ofCode 0x14 = none ∧
    (Cmd.ofCode 0x10 = some .readTime ∧ Cmd.readTime.sizeOk (3 - 2) = false) ∧
    (Cmd.ofCode 0x38 = some .readCompletions ∧ Cmd.readCompletions.sizeOk (3 - 2) = true ∧
      decodeCommand .a .readCompletions [9] = none) ∧
    (crc8 [0x02, 0x00, 0x10] = 0xDB ∧ Cmd.readTime.sizeOk (2 - 2) = true ∧ decodeCommand .a .readTime [] ≠ none) ∧
    ((inHand [0x6D, 0x02, 0x00, 0x10, 0xDB] (some ⟨0, 0xDB, ⟨0, 0x10, .ok, []⟩⟩)).port .a).lastExecuted =
      some ⟨0, 0xDB, ⟨0, 0x10, .ok, []⟩⟩ ∧
    ((inHand [0x6D, 0x02, 0x00, 0x10, 0xDB] none).port .a).lastExecuted = none ∧
    (∀ x ∈ ([⟨.dropped, 1⟩] : List Rise), x.change.endsFrame = false) := by
  decide +kernel

theorem meets_ReplyPlacement :
    ∃ (s : State) (bytes : List Byte), (s.port .a).frame = some bytes ∧ (bytes.getD 1 0).toNat = 2 :=
  ⟨inHand [0x6D, 0x02, 0x00, 0x10, 0xDB] none, [0x6D, 0x02, 0x00, 0x10, 0xDB], rfl, rfl⟩

/-- A reply of five bytes and its CRC is whole with eight clocked bytes, and not with seven. -/
theorem meets_FetchResult :
    (State.reset.inReset = false ∧ (State.reset.port .a).link = .idle ∧ (State.reset.port .a).engine = .idle) ∧
    (∃ s : State, s.inReset = false ∧ (s.port .a).link = .idle ∧ (s.port .a).engine = .executing) ∧
    (∃ s : State, s.inReset = false ∧ (s.port .a).link = .ignored) ∧
    (∃ s : State, s.inReset = false ∧ (s.port .a).risen = [⟨.fetched, 2⟩]) ∧
    ∃ (s : State) (b : ReplyEntry), s.inReset = false ∧ (s.port .a).link = .idle ∧ (s.port .a).engine = .replyHeld ∧
      (s.port .a).reply = some b ∧ b.frame.length + 2 = 8 :=
  ⟨by decide +kernel, ⟨State.reset.modifyPort .a fun ps => { ps with engine := .executing }, by decide +kernel⟩,
    ⟨State.reset.modifyPort .a fun ps => { ps with link := .ignored }, by decide +kernel⟩,
    ⟨risen [⟨.fetched, 2⟩] State.reset, by decide +kernel⟩,
    State.reset.modifyPort .a (PortState.placeReply ⟨0, 0x10, .ok, []⟩ false),
    ⟨⟨0, 0x10, .ok, []⟩, false, false, false, false⟩, by decide +kernel⟩

theorem meets_CrcFollowsItsGenerator :
    crc8 (([0x6D, 0x02, 0x00, 0x10, 0xDA].drop 1).take (([0x6D, 0x02, 0x00, 0x10, 0xDA] : List Byte).getD 1 0 |>.toNat.succ)) ≠
      ([0x6D, 0x02, 0x00, 0x10, 0xDA] : List Byte).getD 4 0 := by
  decide +kernel

theorem meets_RequestsReadBackAsSent :
    Instr.wellFormed (.stepTime .a (2 ^ 40 - 1) .skip) = true ∧
    encodeCommand (.stepTime .a (2 ^ 40 - 1) .skip) = some (.a, .stepTime, [0x00, 0xFF, 0xFF, 0xFF, 0xFF, 0xFF, 0x01]) := by
  decide +kernel

/-! ### Laws that every step keeps -/

/-- The part with port A ATTACHED, holding OUT3 and TIME_AUTHORITY, with one entry PENDING and a slew in progress. -/
def atWork : State :=
  { queued [setAt 7 9] (timed (leased .a 1000 (attach .a State.reset))) with slew := some ⟨16, 1, 0⟩ }

theorem meets_step : ∃ t, step atWork = .next t := ⟨atWork, rfl⟩

theorem meets_PortLawsAreKept : atWork.portsSound ∧ atWork.holdersAttached ∧ atWork.entriesAtHome := by
  refine ⟨?_, ⟨?_, ?_, by decide +kernel, by decide +kernel⟩, ?_⟩
  · refine everyPort ?_ ?_ ?_ ?_ <;> decide +kernel
  · intro r
    cases r
    · exact everyPort (by decide +kernel) (by decide +kernel) (by decide +kernel) (by decide +kernel)
    · exact everyPort (by decide +kernel) (by decide +kernel) (by decide +kernel) (by decide +kernel)
  · intro l p
    exact everyPort (q := fun p => ∀ l, atWork.holds p l = true → atWork.attached p = true) (by decide +kernel)
      (by decide +kernel) (by decide +kernel) (by decide +kernel) p l
  · refine everyPort ?_ ?_ ?_ ?_ <;> decide +kernel

theorem meets_RangeLawsAreKept : atWork.timeBaseSound ∧ atWork.leasesInRange ∧ atWork.channelsSound := by
  refine ⟨⟨by decide +kernel, by decide +kernel, fun n h => (by cases h), fun w h => ?_⟩, fun l x h => ?_, fun c => ?_⟩
  · cases h
    exact ⟨by decide +kernel, by decide +kernel⟩
  · have hl : ∀ l, (atWork.line l).lease = if l = 3 then some ⟨.a, .finite 1000 1000, .high⟩ else none := by
      decide +kernel
    rw [hl] at h
    split at h <;> cases h
    exact ⟨by decide +kernel, by decide +kernel, by decide +kernel⟩
  · have hc : ∀ c : Channel, atWork.channels[c] = ChannelState.atReset := by decide +kernel
    rw [hc]
    exact ⟨by decide +kernel, by decide +kernel, fun r h => (by cases h)⟩

theorem meets_QuotaLawIsKept : atWork.quotaLaw :=
  ⟨meets_PortLawsAreKept.2.2, everyPort (by decide +kernel) (by decide +kernel) (by decide +kernel) (by decide +kernel),
    by decide +kernel⟩

theorem meets_TagLawIsKept : atWork.tagLaw := by
  refine ⟨meets_PortLawsAreKept.2.2, everyPort ?_ ?_ ?_ ?_⟩
  · exact List.pairwise_singleton _ (setAt 7 9)
  · exact List.Pairwise.nil
  · exact List.Pairwise.nil
  · exact List.Pairwise.nil

theorem meets_QueueOrderIsKept : atWork.queueOrdered :=
  ⟨List.pairwise_singleton _ (setAt 7 9), by decide +kernel⟩

end Sys2Proof.Tests
end

section
/-! SUPPORT. What RELEASE_LINES, REVOKE_LINES and UNFORCE_LINES answer and leave, and the obligations O19, O20 and O22 about
them. -/

namespace Sys2Proof.Machine

/-! ## The rows of the three requests -/

theorem exec_releaseLines (p : Port) (lines : LineSet) (s : State) :
    exec (.releaseLines p lines) s =
      .next (takeRequest .attached p (.releaseLines p lines) (releaseLinesOwner p lines) s) := by
  rfl

theorem exec_revokeLines (p : Port) (lines : LineSet) (s : State) :
    exec (.revokeLines p lines) s =
      .next (takeRequest (.withRole .supervisor) p (.revokeLines p lines) (revokeLinesOwner lines) s) := by
  rfl

theorem exec_unforceLines (p : Port) (lines : LineSet) (s : State) :
    exec (.unforceLines p lines) s =
      .next (takeRequest (.withRole .supervisor) p (.unforceLines p lines) (unforceLinesOwner lines) s) := by
  rfl

/-! ## Empty line sets at the frame checks -/

/-- Check 4 refuses a frame whose fields name a request that is not well formed (10 R162). -/
theorem decodeCommand_illFormed {p : Port} {c : Cmd} {params : List Byte} {i : Instr}
    (hf : decodeFields p c params = some i) (hw : i.wellFormed = false) : decodeCommand p c params = none := by
  simp [decodeCommand, hf, hw]

/-! ## Lines that are named, held and leased -/

theorem State.leased_of_holds {s : State} {p : Port} {l : Line} (h : s.holds p l = true) :
    (s.line l).lease.isSome = true := by
  unfold State.holds at h
  cases hl : (s.line l).lease with
  | none => simp [hl] at h
  | some x => rfl

/-- Where the requester holds every named line, every named line is leased. -/
theorem State.leasedIn_of_linesNotHeld {s : State} {p : Port} {lines : LineSet} (h : linesNotHeld p lines s = 0) :
    s.leasedIn lines = lines := by
  have hheld := (bitsWhere_eq_zero _).1 h
  apply set_ext; intro l
  unfold State.leasedIn
  rw [bitsWhere_getElem]
  cases hl : lines[l] with
  | false => rfl
  | true =>
    have hp : s.holds p l = true := by simpa [hl] using hheld l
    simp [State.leased_of_holds hp]

/-- No line of the set is leased any longer once its leases have ended (02 R29). -/
theorem State.linesAfterEnds_lease (s : State) {m : LineSet} {l : Line} (h : m[l] = true) :
    (s.linesAfterEnds m)[l].lease = none := by
  rw [State.linesAfterEnds_getElem]
  cases hl : (s.line l).lease with
  | none => exact hl
  | some x => rw [h]; rfl

theorem State.holdsIn_iff (s : State) (p : Port) (lines : LineSet) :
    s.holdsIn p lines = true ↔ ∃ l : Line, lines[l] = true ∧ s.holds p l = true := by
  simp [State.holdsIn]

/-! ## RELEASE_LINES -/

theorem releaseLinesOwner_notOwner {p : Port} {lines : LineSet} {s : State} (h : linesNotHeld p lines s ≠ 0) :
    releaseLinesOwner p lines s = refuse s .notOwner (maskBytes (linesNotHeld p lines s)) :=
  if_pos h

/-- Everything RELEASE_LINES does where the requester holds every named line (02 R31). -/
theorem releaseLinesOwner_held {p : Port} {lines : LineSet} {s : State} (h : linesNotHeld p lines s = 0) :
    releaseLinesOwner p lines s =
      ⟨{ s.retiring (namesLineIn lines) .cancelled with lines := s.linesAfterEnds lines }, .ok,
        beBytes 2 (s.queue.filter (namesLineIn lines)).length⟩ := by
  unfold releaseLinesOwner State.entriesOn
  rw [if_neg (not_not_intro h), State.endLeases_eq _ _ _ (by decide), State.leasedIn_of_linesNotHeld h]

/-- Settles O19: with every named line held the named lines are the leased ones, so the owner's lease ends are those of the
named lines. -/
theorem releaseLinesResult : Obligations.ReleaseLinesResult := by
  unfold Obligations.ReleaseLinesResult
  refine ⟨fun p lines s ht => ?taken, fun p lines s ha => ?refused, fun p => decodeCommand_illFormed rfl rfl⟩
  case taken =>
    have htaken := takeRequest_taken p false false none _ (releaseLinesOwner p lines) s rfl ht
    rw [exec_releaseLines]
    refine ⟨fun hn => ?_, fun hn => ⟨?_, fun l hl => s.linesAfterEnds_lease hl⟩⟩
    · rw [releaseLinesOwner_notOwner hn] at htaken
      exact congrArg _ htaken
    · rw [releaseLinesOwner_held hn] at htaken
      exact congrArg _ htaken
  case refused =>
    rw [exec_releaseLines]
    exact ⟨fun hs => congrArg _ (takeRequest_refused _ _ _ _ _ _ ha (admission_detached _ _ _ hs rfl)),
      fun hs => congrArg _ (takeRequest_refused _ _ _ _ _ _ ha (admission_fenced _ _ _ hs rfl))⟩

/-! ## REVOKE_LINES -/

/-- LEASE_REVOKED at a port that held a line of the set: one that is DETACHED does not record it (02 R36, 09 R147). -/
theorem PortState.raise_leaseRevoked_ifHeld (s : State) (lines : LineSet) (q : Port) (ps : PortState) :
    (if s.holdsIn q lines then ps.raise .leaseRevoked else ps) =
      if (∃ l : Line, lines[l] = true ∧ s.holds q l = true) ∧ ps.session ≠ .detached then
        { ps with events := ps.events ||| EventKind.leaseRevoked.mask }
      else ps := by
  rw [PortState.raise_not_kept _ _ rfl]
  simp only [State.holdsIn_iff]
  by_cases hh : ∃ l : Line, lines[l] = true ∧ s.holds q l = true
  · simp only [hh, true_and, ne_eq, ite_not, ↓reduceIte]
  · simp only [hh, false_and, ↓reduceIte]

/-- Everything REVOKE_LINES does: the leases of any port end, and each former holder is told (02 R36). -/
theorem revokeLinesOwner_eq (lines : LineSet) (s : State) :
    revokeLinesOwner lines s =
      ⟨{ s.retiring (namesLineIn (s.leasedIn lines)) .revoked with
          lines := s.linesAfterEnds (s.leasedIn lines)
          ports := (s.retiring (namesLineIn (s.leasedIn lines)) .revoked).ports.map fun q ps =>
            if (∃ l : Line, lines[l] = true ∧ s.holds q l = true) ∧ ps.session ≠ .detached then
              { ps with events := ps.events ||| EventKind.leaseRevoked.mask }
            else ps },
        .ok, maskBytes (s.leasedIn lines) ++ beBytes 2 (s.queue.filter (namesLineIn (s.leasedIn lines))).length⟩ := by
  unfold revokeLinesOwner State.entriesOn State.mapPorts
  rw [State.endLeases_eq _ _ _ (by decide), State.linesAfterEnds_leasedIn]
  simp only [PortState.raise_leaseRevoked_ifHeld]

/-- Settles O20: what the owner answers is `revokeLinesOwner_eq`, and the admission check holds back a requester without the
role. -/
theorem revokeLinesResult : Obligations.RevokeLinesResult := by
  unfold Obligations.RevokeLinesResult
  refine ⟨fun p lines s ht => ?taken, fun p lines s ha hs hr => ?notRole, fun p => decodeCommand_illFormed rfl rfl⟩
  case taken =>
    have htaken := takeRequest_taken p false false (some .supervisor) _ (revokeLinesOwner lines) s rfl ht
    rw [revokeLinesOwner_eq] at htaken
    rw [exec_revokeLines]
    exact congrArg _ htaken
  case notRole =>
    rw [exec_revokeLines]
    exact congrArg _ (takeRequest_refused _ _ _ _ _ _ ha (admission_notRole _ _ _ .supervisor hs rfl hr))

/-! ## UNFORCE_LINES -/

theorem State.setForce_line (s : State) (lines : LineSet) (force : Option Level) (l : Line) :
    (s.setForce lines force).line l = if lines[l] then { s.line l with force := force } else s.line l :=
  State.mapLines_line ..

/-- A change of forces changes the line records at most. -/
theorem State.setForce_frame (s : State) (lines : LineSet) (force : Option Level) :
    s.setForce lines force = { s with lines := (s.setForce lines force).lines } := by
  simp only [State.setForce, State.mapLines]

/-- A line without a force shows its shadow level (02 R22). -/
theorem State.setForce_none_outPin (s : State) {lines : LineSet} {l : Line} (hl : lines[l] = true)
    (hr : s.inReset = false) : (s.setForce lines none).outPin l = (s.line l).shadow := by
  have hr' : (s.setForce lines none).inReset = false := by rw [State.setForce_frame]; exact hr
  simp [State.outPin, hr', State.setForce_line, hl, LineRecord.pin]

/-- The lines still forced are those that were and are not named. -/
theorem State.setForce_none_forcedLines (s : State) (lines : LineSet) :
    (s.setForce lines none).forcedLines = bitsWhere fun l => !lines[l] && (s.line l).force.isSome := by
  apply set_ext; intro l
  unfold State.forcedLines
  rw [bitsWhere_getElem, bitsWhere_getElem, State.setForce_line]
  cases lines[l] <;> rfl

/-- Settles O22: the state in question is the one with the named forces set to none. -/
theorem unforceLinesResult : Obligations.UnforceLinesResult := by
  unfold Obligations.UnforceLinesResult
  refine ⟨fun p lines s ha hs => ⟨fun hr => ?supervisor, fun hr => ?notRole⟩, fun p => decodeCommand_illFormed rfl rfl⟩
  case supervisor =>
    have hadm : admission (.withRole .supervisor) p s = none :=
      admission_eq_none _ _ _ (.inl hs) fun r h => by cases h; exact hr
    refine ⟨s.setForce lines none, ?_, s.setForce_frame lines none,
      fun l => ⟨s.setForce_line lines none l, s.setForce_none_outPin⟩⟩
    rw [exec_unforceLines, takeRequest_admitted _ _ _ _ _ ha hadm, ← State.setForce_none_forcedLines]
    rfl
  case notRole =>
    rw [exec_unforceLines]
    exact congrArg _ (takeRequest_refused _ _ _ _ _ _ ha (admission_notRole _ _ _ .supervisor hs rfl hr))

end Sys2Proof.Machine
end

section
/-! SUPPORT. What the placement of a reply leaves, what a long enough frame echoes in its reply, and the obligation O50 about
them. -/

namespace Sys2Proof.Machine

/-! ## The fields that a reply echoes -/

/-- The bytes that a taking reads are those of the frame in hand (10 R164). -/
theorem State.frameBytes_of_inHand {s : State} {p : Port} {bytes : List Byte} (h : (s.port p).frame = some bytes) :
    s.frameBytes p = bytes := by
  rw [State.frameBytes, h, Option.getD_some]

/-- A frame that counts at least its sequence and its command code holds the sequence (10 R162, 11 R172). -/
theorem frameSequence_of_two_le {bytes : List Byte} (h : 2 ≤ frameLengthByte bytes) :
    frameSequence bytes = bytes.getD 2 0 :=
  if_neg (by omega)

/-- A frame that counts at least its sequence and its command code holds the code (10 R162, 11 R172). -/
theorem frameCode_of_two_le {bytes : List Byte} (h : 2 ≤ frameLengthByte bytes) : frameCode bytes = bytes.getD 3 0 :=
  if_neg (by omega)

/-! ## The placement -/

/-- Everything the placement of a reply does, in every session state: REPLY_READY is among the kinds that even a DETACHED port
records (09 R147, 10 R165). REPLY_LOST says that the buffer held a reply not yet fetched. -/
theorem PortState.placeReply_eq (reply : Reply) (repeated : Bool) (ps : PortState) :
    ps.placeReply reply repeated = { ps with
      reply := some ⟨reply, repeated, ps.reply.any (!·.fetched), ps.overrun, false⟩, overrun := false
      engine := .replyHeld, events := ps.events ||| EventKind.replyReady.mask } := by
  unfold PortState.placeReply
  rw [PortState.raise_kept .replyReady _ rfl]
  cases ps.reply with
  | none => rfl
  | some held => rfl

/-- The end of a taking, for a frame long enough to hold all that its reply and its record name (10 R164). -/
theorem State.answered_eq {s u : State} {p : Port} {bytes : List Byte} (r : ResultCode) (data : List Byte)
    (hf : (s.port p).frame = some bytes) (hl : 2 ≤ frameLengthByte bytes) :
    s.answered u p r data = u.modifyPort p fun ps =>
      ({ ps with
        lastExecuted := some ⟨bytes.getD 2 0, frameCrc bytes, ⟨bytes.getD 2 0, bytes.getD 3 0, r, data⟩⟩, frame := none }
        ).placeReply ⟨bytes.getD 2 0, bytes.getD 3 0, r, data⟩ false := by
  rw [State.answered, State.frameBytes_of_inHand hf, State.finishTaking, frameSequence_of_two_le hl, frameCode_of_two_le hl]

/-- Settles O50: the first part is `placeReply_eq`, for an empty buffer and for one that holds a reply; the second is
`answered_eq`. -/
theorem replyPlacement : Obligations.ReplyPlacement := by
  unfold Obligations.ReplyPlacement
  refine ⟨fun reply repeated ps => ?placement, fun s u p bytes r data hf hl => State.answered_eq r data hf hl⟩
  case placement =>
    rw [PortState.placeReply_eq]
    cases ps.reply with
    | none => rfl
    | some held => rfl

end Sys2Proof.Machine
end

section
/-! SUPPORT. The CRC-8 over a run with one byte more, where the CRC stands in a request and in a reply frame, and the
obligation O52 about them. -/

namespace Sys2Proof

/-! ## The register -/

/-- Combining a byte into the register ends with eight equal shifts (11 R171). -/
theorem crcByte_eq_iterate (r b : Byte) : crcByte r b = crcShift^[8] (r ^^^ b) := rfl

/-- Before the first byte the register holds its initial value (11 R171). -/
@[simp] theorem crc8_nil : crc8 [] = 0xFF := rfl

/-- The bytes are combined in link order, so the last byte of a run meets the CRC of those before it (11 R171). -/
theorem crc8_concat (bytes : List Byte) (b : Byte) : crc8 (bytes ++ [b]) = crcShift^[8] (crc8 bytes ^^^ b) := by
  rw [crc8, List.foldl_concat, crcByte_eq_iterate, ← crc8]

/-! ## The CRC of a frame -/

/-- Check 1 stands before the others, and none of those answers BAD_CRC (10 R162, 11 R171). -/
theorem checkFrame_eq_badCrc_iff (p : Port) (bytes : List Byte) :
    checkFrame p bytes = .badCrc ↔ crc8 (frameCrcRun bytes) ≠ frameCrc bytes := by
  unfold checkFrame
  by_cases hcrc : crc8 (frameCrcRun bytes) = frameCrc bytes
  case neg => simp only [hcrc, ne_eq, not_false_eq_true, ↓reduceIte]
  case pos =>
    simp only [hcrc, ne_eq, not_true_eq_false, ↓reduceIte, iff_false]
    split
    · nofun
    · split
      · nofun
      · split
        · nofun
        · split <;> nofun

/-- The last byte of a reply frame is the CRC of all bytes before it (11 R171, R174). -/
theorem Machine.ReplyEntry.frame_eq_dropLast_concat (b : Machine.ReplyEntry) :
    b.frame = b.frame.dropLast ++ [crc8 b.frame.dropLast] := by
  simp only [Machine.ReplyEntry.frame, List.dropLast_concat]

/-- Settles O52: the shift of the statement is `crcShift`, and the run and the CRC byte it writes out are `frameCrcRun` and
`frameCrc`. -/
theorem crcFollowsItsGenerator : Obligations.CrcFollowsItsGenerator := by
  unfold Obligations.CrcFollowsItsGenerator
  refine ⟨crc8_nil, crc8_concat, checkFrame_eq_badCrc_iff, Machine.ReplyEntry.frame_eq_dropLast_concat, ?readTimeExample⟩
  case readTimeExample => decide

end Sys2Proof
end

section
/-! SUPPORT. The laws on live entries, O57 and O58: what sheds entries keeps them, and a descriptor that is admitted or staged
adds its own entries and no other. -/

namespace Sys2Proof.Machine

/-! ## Live entries -/

/-- The usage of a port is the number of its live entries (03 R46). -/
theorem State.usage_eq_length (s : State) (p : Port) : s.usage p = (s.liveEntries p).length := by
  simp [State.usage, State.liveEntries, Nat.add_assoc]

/-- A tag is live exactly where some live entry bears it (03 R54). -/
theorem State.tagLive_iff (s : State) (p : Port) (tag : Half) :
    s.tagLive p tag = true ↔ ∃ e ∈ s.liveEntries p, e.tag = tag := by
  simp only [State.tagLive, State.liveEntries, Bool.or_eq_true, List.any_eq_true, beq_iff_eq, List.mem_append,
    List.mem_map, or_and_right, exists_or, exists_exists_and_eq_and]

theorem State.tagLive_eq_false (s : State) (p : Port) (tag : Half) :
    s.tagLive p tag = false ↔ ∀ e ∈ s.liveEntries p, e.tag ≠ tag := by
  rw [← Bool.not_eq_true, State.tagLive_iff]
  simp only [not_exists, not_and, ne_eq]

/-- The sum of the quotas is that of each port and of the three others. -/
theorem State.quotaSum_congr {s t : State} (h : ∀ p, (t.port p).quota = (s.port p).quota) : t.quotaSum = s.quotaSum := by
  simp only [State.quotaSum, h]

/-! ## The entries of a descriptor -/

/-- A descriptor takes the slots of its entries (03 R46, R50). -/
@[simp] theorem descEntries_length (p : Port) (x : Descriptor) : (descEntries p x).length = descSlots x := by
  unfold descEntries descSlots
  cases x.action <;> rfl

/-- Every entry of a descriptor is its port's and bears its tag. -/
theorem descEntries_mem {p : Port} {x : Descriptor} {e : Entry} (h : e ∈ descEntries p x) : e.port = p ∧ e.tag = x.tag := by
  unfold descEntries at h
  cases hx : x.action with
  | pulse l w =>
    simp only [hx, List.mem_cons, List.not_mem_nil, or_false] at h
    rcases h with rfl | rfl <;> exact ⟨rfl, rfl⟩
  | _ =>
    simp only [hx, List.mem_singleton] at h
    subst h
    exact ⟨rfl, rfl⟩

/-- Only the LEAD and the TRAIL of a PULSE share the tag of their descriptor. -/
theorem descEntries_tagsApart (p : Port) (x : Descriptor) : (descEntries p x).Pairwise tagsApart := by
  unfold descEntries
  cases x.action with
  | pulse l w => exact List.pairwise_pair.2 fun _ => .inl ⟨rfl, rfl⟩
  | _ => exact List.pairwise_singleton ..

theorem tagsApart_symm {x y : Entry} (h : tagsApart x y) : tagsApart y x := by
  intro htag
  rcases h htag.symm with ⟨hx, hy⟩ | ⟨hx, hy⟩
  · exact .inr ⟨hy, hx⟩
  · exact .inl ⟨hy, hx⟩

/-! ## Admission and staging -/

/-- Port `p` has gained these live entries, and nothing else of any port's live entries or quota has changed. -/
structure State.gains (s t : State) (p : Port) (es : List Entry) : Prop where
  home : s.entriesAtHome → t.entriesAtHome
  live : ∀ q, (t.liveEntries q).Perm (if q = p then es ++ s.liveEntries q else s.liveEntries q)
  quota : ∀ q, (t.port q).quota = (s.port q).quota

/-- Entries that enter PENDING are gained (03 R56). -/
theorem State.gains.enqueue (s : State) (p : Port) (es : List Entry) (h : ∀ e ∈ es, e.port = p) :
    s.gains (s.enqueue es) p es := by
  have hport : ∀ q, (s.enqueue es).port q = s.port q := fun q => by rw [State.enqueue_eq]; rfl
  refine ⟨fun hh q => by rw [hport]; exact hh q, fun q => ?_, fun q => by rw [hport]⟩
  have hpend := s.enqueue_pendingOf es p h q
  unfold State.liveEntries
  rw [hport]
  by_cases hq : q = p
  · rw [if_pos hq] at hpend ⊢
    rw [← List.append_assoc, ← List.append_assoc]
    refine ((hpend.append_left _).trans ?_).append_right _
    rw [← List.append_assoc]
    exact List.perm_append_comm.append_right _
  · rw [if_neg hq] at hpend ⊢
    exact (hpend.append_left _).append_right _

/-- Entries that join the staged list are gained (05 R86). -/
theorem State.gains.addStaged (s : State) (p : Port) (es : List Entry) (h : ∀ e ∈ es, e.port = p) :
    s.gains (s.modifyPort p (PortState.addStaged es)) p es := by
  refine ⟨fun hh q => ?_, fun q => ?_, fun q => ?_⟩
  · rw [State.modifyPort_port]
    by_cases hq : q = p
    · subst hq
      rw [if_pos rfl]
      exact ⟨fun e he => (List.mem_append.1 he).elim ((hh q).1 e) (h e), (hh q).2⟩
    · rw [if_neg hq]
      exact hh q
  · unfold State.liveEntries
    rw [State.modifyPort_port]
    by_cases hq : q = p
    · subst hq
      rw [if_pos rfl, if_pos rfl, ← List.append_assoc, ← List.append_assoc]
      exact (List.perm_append_comm.append_right _).append_right _
    · rw [if_neg hq, if_neg hq]
      exact List.Perm.refl _
  · rw [State.modifyPort_port]
    split
    · next hq => subst hq; rfl
    · rfl

/-! ## The quota law -/

theorem State.sheds.quotaLaw {s t : State} (h : s.sheds t) (hs : s.quotaLaw) : t.quotaLaw := by
  obtain ⟨hhome, husage, hsum⟩ := hs
  refine ⟨h.home hhome, fun p => ?_, (State.quotaSum_congr h.quota).trans_le hsum⟩
  have hlive := (h.live hhome p).length_le
  rw [← State.usage_eq_length, ← State.usage_eq_length] at hlive
  exact hlive.trans ((husage p).trans (h.quota p).ge)

/-- An admission within the requester's quota keeps the quota law (03 R52). -/
theorem State.gains.quotaLaw {s t : State} {p : Port} {es : List Entry} (h : s.gains t p es)
    (hroom : s.usage p + es.length ≤ (s.port p).quota) (hs : s.quotaLaw) : t.quotaLaw := by
  obtain ⟨hhome, husage, hsum⟩ := hs
  refine ⟨h.home hhome, fun q => ?_, (State.quotaSum_congr h.quota).trans_le hsum⟩
  rw [State.usage_eq_length, (h.live q).length_eq, h.quota]
  by_cases hq : q = p
  · subst hq
    rw [if_pos rfl, List.length_append, ← State.usage_eq_length]
    omega
  · rw [if_neg hq, ← State.usage_eq_length]
    exact husage q

theorem State.released_port (s : State) (p : Port) : s.released.port p = (s.port p).released := PortFile.get_map ..

/-- Release frees every slot (03 R42). -/
theorem State.released_liveEntries (s : State) (p : Port) : s.released.liveEntries p = [] := by
  unfold State.liveEntries
  rw [State.released_port]
  rfl

theorem State.released_entriesAtHome (s : State) : s.released.entriesAtHome := by
  intro p
  rw [State.released_port]
  exact ⟨fun e he => absurd he List.not_mem_nil, fun r hr => absurd hr List.not_mem_nil⟩

theorem State.released_quotaLaw (s : State) : s.released.quotaLaw := by
  have hquota : ∀ p, (s.released.port p).quota = Config.quotaAtReset := fun p => by rw [State.released_port]; rfl
  refine ⟨s.released_entriesAtHome, fun p => ?_, ?_⟩
  · rw [State.usage_eq_length, State.released_liveEntries]
    exact Nat.zero_le _
  · simp only [State.quotaSum, hquota]
    decide

theorem State.setQuota_quota (s : State) (t q : Port) (n : Nat) :
    ((s.modifyPort t fun ps => { ps with quota := n }).port q).quota = if q = t then n else (s.port q).quota := by
  rw [State.modifyPort_port]
  split <;> rfl

/-- A quota set moves the sum of the quotas by what it moves itself. -/
theorem State.setQuota_quotaSum (s : State) (t : Port) (n : Nat) :
    (s.modifyPort t fun ps => { ps with quota := n }).quotaSum = n + otherQuotas t s := by
  unfold otherQuotas State.quotaSum
  simp only [State.setQuota_quota]
  cases t <;> simp only [reduceCtorEq, ↓reduceIte] <;> omega

theorem State.setQuota_usage (s : State) (t q : Port) (n : Nat) :
    (s.modifyPort t fun ps => { ps with quota := n }).usage q = s.usage q := by
  unfold State.usage
  rw [State.modifyPort_port]
  split
  · next h => subst h; rfl
  · rfl

/-- A quota that covers its port's usage and that the others leave room for keeps the quota law (08 R144). -/
theorem State.setQuota_quotaLaw (s : State) (t : Port) (n : Nat) (husage : s.usage t ≤ n)
    (hsum : n + otherQuotas t s ≤ Config.slots) (hs : s.quotaLaw) :
    (s.modifyPort t fun ps => { ps with quota := n }).quotaLaw := by
  obtain ⟨hhome, hall, -⟩ := hs
  refine ⟨fun q => ?_, fun q => ?_, (s.setQuota_quotaSum t n).trans_le hsum⟩
  · rw [State.modifyPort_port]
    split
    · next h => subst h; exact hhome q
    · exact hhome q
  · rw [State.setQuota_usage, State.setQuota_quota]
    split
    · next h => subst h; exact husage
    · exact hall q

/-- What is not over the quota fits into it. -/
theorem overQuota_eq_false {p : Port} {x : Descriptor} {s : State} (h : overQuota p x s = false) :
    s.usage p + (descEntries p x).length ≤ (s.port p).quota := by
  rw [descEntries_length]
  simpa [overQuota] using h

/-- Everything the part does keeps the quota law. -/
theorem quotaLaw_keeps : Keeps State.quotaLaw :=
  sheds_keeps _ (fun _ _ h => h.quotaLaw) (fun s _ => s.released_quotaLaw)
    (fun s p _ _ hq => (State.gains.enqueue s p _ fun _ he => (descEntries_mem he).1).quotaLaw (overQuota_eq_false hq))
    (fun s p _ _ hq => (State.gains.addStaged s p _ fun _ he => (descEntries_mem he).1).quotaLaw (overQuota_eq_false hq))
    (fun s _ t n hu hn => s.setQuota_quotaLaw t n hu hn)

/-- Settles O57: no operation but an admission, a staging and a quota's setting adds to a usage or moves a quota, and those
check the room first. -/
theorem quotaLawIsKept : Obligations.QuotaLawIsKept := by
  unfold Obligations.QuotaLawIsKept
  exact quotaLaw_keeps.step fun _ _ h => h

/-! ## The tag law -/

theorem State.sheds.tagLaw {s t : State} (h : s.sheds t) (hs : s.tagLaw) : t.tagLaw := by
  obtain ⟨hhome, htags⟩ := hs
  refine ⟨h.home hhome, fun p => ?_⟩
  obtain ⟨l, hperm, hsub⟩ := h.live hhome p
  exact (hperm.pairwise_iff tagsApart_symm).1 ((htags p).sublist hsub)

/-- An admission whose tag no live entry of the port bears keeps the tag law (03 R54). -/
theorem State.gains.tagLaw {s t : State} {p : Port} {x : Descriptor} (h : s.gains t p (descEntries p x))
    (hfresh : s.tagLive p x.tag = false) (hs : s.tagLaw) : t.tagLaw := by
  obtain ⟨hhome, htags⟩ := hs
  refine ⟨h.home hhome, fun q => ((h.live q).pairwise_iff tagsApart_symm).2 ?_⟩
  by_cases hq : q = p
  · subst hq
    rw [if_pos rfl, List.pairwise_append]
    refine ⟨descEntries_tagsApart q x, htags q, fun e he y hy htag => ?_⟩
    exact absurd (htag.symm.trans (descEntries_mem he).2) ((s.tagLive_eq_false q x.tag).1 hfresh y hy)
  · rw [if_neg hq]
    exact htags q

theorem State.released_tagLaw (s : State) : s.released.tagLaw :=
  ⟨s.released_entriesAtHome, fun p => by rw [State.released_liveEntries]; exact List.Pairwise.nil⟩

/-- A quota has no part in the tag law. -/
theorem State.setQuota_tagLaw (s : State) (t : Port) (n : Nat) (hs : s.tagLaw) :
    (s.modifyPort t fun ps => { ps with quota := n }).tagLaw := by
  have hlive : ∀ q, (s.modifyPort t fun ps => { ps with quota := n }).liveEntries q = s.liveEntries q := fun q => by
    unfold State.liveEntries
    rw [State.modifyPort_port]
    split
    · next h => subst h; rfl
    · rfl
  refine ⟨fun q => ?_, fun q => by rw [hlive]; exact hs.2 q⟩
  rw [State.modifyPort_port]
  split
  · next h => subst h; exact hs.1 q
  · exact hs.1 q

/-- Everything the part does keeps the tag law. -/
theorem tagLaw_keeps : Keeps State.tagLaw :=
  sheds_keeps _ (fun _ _ h => h.tagLaw) (fun s _ => s.released_tagLaw)
    (fun s p _ ht _ => (State.gains.enqueue s p _ fun _ he => (descEntries_mem he).1).tagLaw ht)
    (fun s p _ ht _ => (State.gains.addStaged s p _ fun _ he => (descEntries_mem he).1).tagLaw ht)
    (fun s _ t n _ _ => s.setQuota_tagLaw t n)

/-- Settles O58: no operation but an admission and a staging adds a live entry, and those refuse a tag that is live. -/
theorem tagLawIsKept : Obligations.TagLawIsKept := by
  unfold Obligations.TagLawIsKept
  exact tagLaw_keeps.step fun _ _ h => h

end Sys2Proof.Machine
end

section
/-! SUPPORT. The queue order and its bound, O59: what only takes entries out of the queue order keeps both, an admission places
its entries in order, and a move of MC lowers or raises every distance by the same amount. -/

namespace Sys2Proof.Machine

/-! ## Entries that leave -/

/-- MC stays, and the queue order only loses entries. -/
structure State.thins (s t : State) : Prop where
  mc : t.mc = s.mc
  queue : t.queue.Sublist s.queue

namespace State.thins

theorem refl (s : State) : s.thins s := ⟨rfl, List.Sublist.refl _⟩

theorem trans {a b c : State} (h : a.thins b) (h' : b.thins c) : a.thins c :=
  ⟨h'.mc.trans h.mc, h'.queue.trans h.queue⟩

/-- A change that leaves MC and the queue order alone. -/
theorem of_same {s t : State} (hmc : t.mc = s.mc) (hq : t.queue = s.queue) : s.thins t := ⟨hmc, hq ▸ List.Sublist.refl _⟩

theorem of_takes {s t : State} (h : s.onlyTakes t) : s.thins t := ⟨by rw [h.rest], h.queue⟩

theorem modifyPort (s : State) (p : Port) (g : PortState → PortState) : s.thins (s.modifyPort p g) := of_same rfl rfl

theorem mapPorts (s : State) (g : Port → PortState → PortState) : s.thins (s.mapPorts g) := of_same rfl rfl

theorem mapLines (s : State) (g : Line → LineRecord → LineRecord) : s.thins (s.mapLines g) :=
  of_same (State.mapLines_mc ..) (State.mapLines_queue ..)

theorem retireAll (s : State) (es : List Entry) (o : Outcome) : s.thins (s.retireAll es o) := of_takes (.retireAll ..)

theorem endLeases (s : State) (m : LineSet) (o : Outcome) : s.thins (s.endLeases m o) := (mapLines ..).trans (retireAll ..)

theorem dropRoles (s : State) (p cause : Port) : s.thins (s.dropRoles p cause) := by
  rw [State.dropRoles_eq]
  exact of_same rfl rfl

theorem closeWork (s : State) (p : Port) : s.thins (s.closeWork p) :=
  (((dropRoles s p p).trans (endLeases ..)).trans (modifyPort ..)).trans (retireAll ..)

theorem fence (s : State) (t cause : Port) : s.thins (s.fence t cause) :=
  (((((modifyPort s t _).trans (dropRoles ..)).trans (mapLines ..)).trans (retireAll ..)).trans (modifyPort ..)).trans
    (modifyPort ..)

/-- A sample moves neither MC nor the queue order. -/
theorem sampleChannel (s : State) (c : Channel) : s.thins (s.sampleChannel c) := by
  unfold State.sampleChannel
  split
  · split
    · split
      · exact of_same rfl rfl
      · exact of_same rfl rfl
    · exact of_same rfl rfl
  · exact refl s

theorem takeStrobe (s : State) (p : Port) : s.thins (s.takeStrobe p) := by
  unfold State.takeStrobe
  split
  · exact modifyPort ..
  · exact refl s

theorem handBoundary (s : State) : s.thins s.handBoundary := by
  unfold State.handBoundary
  split
  · exact of_same rfl rfl
  · exact refl s

theorem expireLease (s : State) (l : Line) : s.thins (s.expireLease l) := by
  unfold State.expireLease
  split
  · split
    · exact (endLeases ..).trans (modifyPort ..)
    · exact refl s
  · exact refl s

/-- What only loses entries keeps its order and its bound. -/
theorem queueOrdered {s t : State} (h : s.thins t) (hs : s.queueOrdered) : t.queueOrdered := by
  obtain ⟨horder, hbound⟩ := hs
  unfold State.queueOrdered
  rw [h.mc]
  exact ⟨horder.sublist h.queue, fun e he => hbound e (h.queue.subset he)⟩

end State.thins

/-- What MC and the queue order have no part in keeps the order and its bound. -/
theorem State.queueOrdered.same {s t : State} (h : s.queueOrdered) (hmc : t.mc = s.mc) (hq : t.queue = s.queue) :
    t.queueOrdered :=
  (State.thins.of_same hmc hq).queueOrdered h

/-! ## Entries that enter -/

/-- A time that is not TOO_FAR and not reached is below the bound, since the bound lies beyond the window (01 R3, R8). -/
theorem distance_lt_stepBound {mc t : Time} (hfar : tooFar mc t = false) (hr : reached mc t = false) :
    distance mc t < Config.stepBound := by
  rw [not_tooFar_iff] at hfar
  rw [not_reached_iff] at hr
  simp only [Config.stepBound]
  omega

/-- Entries none of which is TOO_FAR enter in order and below the bound (03 R47). -/
theorem State.enqueue_queueOrdered (s : State) (es : List Entry) (hes : ∀ e ∈ es, tooFar s.mc e.dueTime = false)
    (hs : s.queueOrdered) : (s.enqueue es).queueOrdered := by
  induction es generalizing s with
  | nil => exact hs
  | cons e es ih =>
    obtain ⟨horder, hbound⟩ := hs
    refine ih { s with queue := insertEntry s.mc e s.queue } (fun x hx => hes x (List.mem_cons_of_mem _ hx)) ⟨?_, ?_⟩
    · rw [insertEntry_eq_placed _ _ _ horder]
      exact placed_pairwise _ _ _ horder
    · intro x hx hr
      rcases List.mem_cons.1 ((insertEntry_perm s.mc e s.queue).mem_iff.1 hx) with rfl | hx
      · exact distance_lt_stepBound (hes x List.mem_cons_self) hr
      · exact hbound x hx hr

/-- The entries of a descriptor that passes check 4 are not TOO_FAR (03 R56). -/
theorem descEntries_notTooFar {p : Port} {x : Descriptor} {mc : Time} (h : someTimeTooFar x mc = false) :
    ∀ e ∈ descEntries p x, tooFar mc e.dueTime = false := by
  intro e he
  simp only [someTimeTooFar, Bool.or_eq_false_iff] at h
  obtain ⟨hdue, htrail⟩ := h
  unfold descEntries at he
  cases hx : x.action with
  | pulse l w =>
    rw [hx] at htrail
    simp only [hx, List.mem_cons, List.not_mem_nil, or_false] at he
    rcases he with rfl | rfl
    · exact hdue
    · exact htrail
  | _ =>
    simp only [hx, List.mem_singleton] at he
    subst he
    exact hdue

/-- What is acceptable or reached is not TOO_FAR (01 R3). -/
theorem tooFar_eq_false_of {mc t : Time} (h : acceptable mc t = true ∨ reached mc t = true) : tooFar mc t = false := by
  rw [not_tooFar_iff]
  rcases h with h | h
  · rw [acceptable_iff] at h; omega
  · rw [reached_iff] at h; omega

/-- An entry in which validation finds no cause is not TOO_FAR (05 R93). -/
theorem validationCause_none {p : Port} {s : State} {e : Entry} (h : (validationCause p s e).isNone = true) :
    tooFar s.mc e.dueTime = false := by
  unfold validationCause at h
  split at h
  · cases h
  · split at h
    · next hc =>
      rw [Bool.or_eq_true, Bool.and_eq_true] at hc
      exact tooFar_eq_false_of (hc.imp id And.left)
    · cases h

theorem State.validate_queueOrdered (s : State) (p : Port) (hs : s.queueOrdered) : (s.validate p).queueOrdered := by
  unfold State.validate
  dsimp only
  split
  · next hall =>
    rw [List.all_eq_true] at hall
    refine (State.thins.modifyPort ..).queueOrdered ?_
    refine State.enqueue_queueOrdered _ _ (fun e he => validationCause_none (hall e he)) ?_
    exact (State.thins.modifyPort ..).queueOrdered hs
  · exact (((State.thins.modifyPort s p _).trans (.of_takes (State.abortEntries_onlyTakes ..))).trans
      (.modifyPort ..)).queueOrdered hs

/-! ## Moves of MC -/

/-- Where every waiting entry's distance moves by the same amount, and an entry that becomes reached is among the nearest, a
queue order in which nothing was reached stays one. -/
theorem pairwise_of_shift {mc mc' : Time} {queue : List Entry} (k : Int) (horder : queue.Pairwise (mayPrecede mc))
    (hnone : ∀ e ∈ queue, reached mc e.dueTime = false)
    (hshift : ∀ e ∈ queue, (reached mc' e.dueTime = true ∧ (distance mc e.dueTime : Int) ≤ k) ∨
      (reached mc' e.dueTime = false ∧ k < (distance mc e.dueTime : Int) ∧
        (distance mc' e.dueTime : Int) = distance mc e.dueTime - k)) :
    queue.Pairwise (mayPrecede mc') := by
  refine horder.imp_of_mem fun {x y} hx hy hxy => ?_
  have hle : distance mc x.dueTime ≤ distance mc y.dueTime := by
    rcases hxy with hr | ⟨-, hle⟩
    · rw [hnone x hx] at hr; cases hr
    · exact hle
  rcases hshift x hx with ⟨hr, -⟩ | ⟨-, hxk, hxd⟩
  · exact .inl hr
  · rcases hshift y hy with ⟨-, hyk⟩ | ⟨hyr, -, hyd⟩
    · omega
    · exact .inr ⟨hyr, by omega⟩

theorem slewIncrement_le (w : Option Slew) : slewIncrement w ≤ 2 := by
  unfold slewIncrement
  split
  · omega
  · split
    · split <;> omega
    · omega

/-- The increment of a cycle in which nothing that has fallen due waits: an entry is reached, or comes nearer by the
increment (01 R4). -/
theorem distance_increment {mc t : Time} {n : Nat} (hn : n ≤ 2) (hr : reached mc t = false) :
    (reached (mc + BitVec.ofNat 48 n) t = true ∧ distance mc t ≤ n) ∨
      (reached (mc + BitVec.ofNat 48 n) t = false ∧ n < distance mc t ∧
        (distance (mc + BitVec.ofNat 48 n) t : Int) = distance mc t - n) := by
  rw [not_reached_iff] at hr
  have hd := distance_advance mc t n (by omega)
  rw [reached_iff, not_reached_iff]
  split at hd <;> omega

theorem State.beginCycle_queueOrdered (s : State) (pins : Pins) (hd : s.dueHead = none) (hs : s.queueOrdered) :
    (s.beginCycle pins).queueOrdered := by
  obtain ⟨horder, hbound⟩ := hs
  have hnone := s.none_reached horder hd
  have hn := slewIncrement_le s.slew
  have hq : (s.beginCycle pins).queue = s.queue := by rw [State.beginCycle_rest]
  unfold State.queueOrdered
  rw [hq, (s.beginCycle_clock pins).1]
  refine ⟨pairwise_of_shift (slewIncrement s.slew) horder hnone fun e he => ?_, fun e he hr => ?_⟩
  · rcases distance_increment hn (hnone e he) with ⟨h, hle⟩ | ⟨h, hlt, heq⟩
    · exact .inl ⟨h, by omega⟩
    · exact .inr ⟨h, by omega, heq⟩
  · have hb := hbound e he (hnone e he)
    rcases distance_increment hn (hnone e he) with ⟨h, -⟩ | ⟨-, -, heq⟩
    · rw [h] at hr; cases hr
    · omega

/-- A step's offset is within its bounds (01 R8). -/
theorem State.takes_offset {s : State} {p : Port} {offset : Int} {mode : StepMode} (h : s.takes (.stepTime p offset mode)) :
    offset.natAbs ≤ Config.maxOffset := by
  have hw := s.awaits_wellFormed p _ (s.takes_awaits _ p _ _ _ rfl h)
  simp only [Instr.wellFormed, Bool.and_eq_true, decide_eq_true_eq] at hw
  exact hw.2

/-- A backward step that is not refused leaves no waiting entry at the bound or beyond it (01 R8). -/
theorem stepTooFar_eq_false {offset : Int} {s : State} (h : stepTooFar offset s = false) (ho : offset < 0) :
    ∀ e ∈ s.queue, reached s.mc e.dueTime = false → distance (movedBy s.mc offset) e.dueTime < Config.stepBound := by
  intro e he hr
  simp only [stepTooFar, ho, decide_true, Bool.true_and, List.any_eq_false, Bool.and_eq_true, Bool.not_eq_true',
    decide_eq_true_eq, not_and, not_le] at h
  exact h e he hr

/-- A time that waits below the bound and that a step does not pass is as much nearer as the step is long, and still
waits below the bound (01 R9). -/
theorem distance_step {mc t : Time} {offset : Int} (ho : offset.natAbs ≤ Config.maxOffset) (hr : reached mc t = false)
    (hb : distance mc t < Config.stepBound) (hpass : ¬ (distance mc t : Int) ≤ offset)
    (hback : offset < 0 → distance (movedBy mc offset) t < Config.stepBound) :
    reached (movedBy mc offset) t = false ∧ (distance (movedBy mc offset) t : Int) = distance mc t - offset ∧
      distance (movedBy mc offset) t < Config.stepBound := by
  rw [not_reached_iff] at hr
  simp only [Config.maxOffset, Config.stepBound] at *
  have hd := distance_moved mc t offset (by omega) (by omega)
  rw [not_reached_iff]
  refine ⟨?_, hd, ?_⟩ <;> by_cases hneg : offset < 0
  · have := hback hneg; omega
  · omega
  · exact hback hneg
  · omega

/-- A step that is taken with nothing due waiting: the overtaken entries are gone, and the others have moved alike. -/
theorem State.stepMove_queueOrdered {s : State} {offset : Int} (mode : StepMode) (ho : offset.natAbs ≤ Config.maxOffset)
    (hd : s.dueHead = none) (hs : s.queueOrdered)
    (hback : offset < 0 → ∀ e ∈ s.queue, distance (movedBy s.mc offset) e.dueTime < Config.stepBound) :
    (s.stepMove offset mode).queueOrdered := by
  obtain ⟨horder, hbound⟩ := hs
  have hnone := s.none_reached horder hd
  have htakes := s.stepMove_onlyTakes offset mode
  have hmc : (s.stepMove offset mode).mc = movedBy s.mc offset := by rw [htakes.rest, State.stepBegun_rest]
  have hsub : (s.stepMove offset mode).queue.Sublist s.queue := by
    have := htakes.queue
    rw [State.stepBegun_rest] at this
    exact this
  have hmoved : ∀ e ∈ (s.stepMove offset mode).queue, ¬ (distance s.mc e.dueTime : Int) ≤ offset ∧
      reached (movedBy s.mc offset) e.dueTime = false ∧
      (distance (movedBy s.mc offset) e.dueTime : Int) = distance s.mc e.dueTime - offset ∧
      distance (movedBy s.mc offset) e.dueTime < Config.stepBound := by
    intro e he
    have hmem := hsub.subset he
    have hr := hnone e hmem
    have hpass : ¬ (distance s.mc e.dueTime : Int) ≤ offset := fun hle =>
      s.stepMove_gone offset mode e he ⟨((not_reached_iff ..).1 hr).1, hle⟩
    exact ⟨hpass, distance_step ho hr (hbound e hmem hr) hpass fun hneg => hback hneg e hmem⟩
  unfold State.queueOrdered
  rw [hmc]
  refine ⟨pairwise_of_shift offset (horder.sublist hsub) (fun e he => hnone e (hsub.subset he)) fun e he => ?_,
    fun e he _ => (hmoved e he).2.2.2⟩
  obtain ⟨hpass, hr, heq, -⟩ := hmoved e he
  exact .inr ⟨hr, by omega, heq⟩

/-! ## Every operation -/

/-- Every request's owner, and the taking of what has fallen due, keep the queue order and its bound. -/
theorem queueOrdered_keepsOwners : KeepsOwners State.queueOrdered where
  due s h := (State.thins.of_takes (.takeDue s)).queueOrdered h
  readTime _ _ _ h := h.same rfl rfl
  stepTime s p offset mode ht hfar _ hd := by
    have htakes := State.onlyTakes.takeAllDue s
    have hmc : s.takeAllDue.mc = s.mc := by rw [htakes.rest]
    refine State.stepMove_queueOrdered mode (s.takes_offset ht) s.takeAllDue_dueHead hd fun hneg e he => ?_
    have hr := s.takeAllDue.none_reached hd.1 s.takeAllDue_dueHead e he
    rw [hmc] at hr ⊢
    exact stepTooFar_eq_false hfar hneg e (htakes.queue.subset he) hr
  setRate _ _ _ _ _ h := h.same rfl rfl
  setFrame _ _ _ _ h := h.same rfl rfl
  acquire s _ _ _ _ _ _ h := (State.thins.mapLines s _).queueOrdered h
  renew s _ _ _ _ h := (State.thins.mapLines s _).queueOrdered h
  release s _ m _ h := (State.thins.endLeases s m _).queueOrdered h
  revoke s _ m _ h := ((State.thins.endLeases s m _).trans (.mapPorts ..)).queueOrdered h
  force s _ _ h := (State.thins.mapLines s _).queueOrdered h
  submit s p x _ _ _ hfar _ h := s.enqueue_queueOrdered _ (descEntries_notTooFar hfar) h
  admitting _ _ _ _ h := h.same rfl rfl
  cancel s _ _ _ _ h := ((State.thins.retireAll s _ _).trans (.modifyPort ..)).queueOrdered h
  cancelLines s _ _ _ h := (State.thins.retireAll s _ _).queueOrdered h
  readCompletions _ _ _ _ h := h.same rfl rfl
  stage _ _ _ _ _ _ _ h := h.same rfl rfl
  commit _ _ _ _ _ _ h := h.same rfl rfl
  discard _ _ _ h := h.same rfl rfl
  configure _ _ _ _ _ _ h := h.same (by rw [State.configure_eq]) (by rw [State.configure_eq])
  subscribe _ _ _ _ h := h.same rfl rfl
  readCaptures _ _ _ _ h := h.same rfl rfl
  clearArms _ _ _ _ h := h.same rfl rfl
  openPort _ _ _ _ h := h.same rfl rfl
  closePort s p _ h := ((State.thins.closeWork s p).trans (.modifyPort ..)).queueOrdered h
  claimRole s p r _ _ h := by
    cases r <;> exact h.same rfl rfl
  releaseRole s p r _ h := by
    cases r <;> exact h.same rfl rfl
  fencePort s p t _ _ _ h := (State.thins.fence s t p).queueOrdered h
  setQuota _ _ _ _ _ _ _ h := h.same rfl rfl
  readEvents _ _ _ h := h.same rfl rfl
  setEventMask _ _ _ h := h.same rfl rfl

/-- So does every operation within a cycle. -/
theorem queueOrdered_keepsInCycle : KeepsInCycle State.queueOrdered where
  toKeepsOwners := queueOrdered_keepsOwners
  sample s c h := (State.thins.sampleChannel s c).queueOrdered h
  strobe s p h := (State.thins.takeStrobe s p).queueOrdered h
  boundary s h := (State.thins.handBoundary s).queueOrdered h
  validate s p _ h := s.validate_queueOrdered p h
  expire s l h := (State.thins.expireLease s l).queueOrdered h
  moveReports _ _ h := h.same rfl rfl
  ignored _ _ _ h := h.same rfl rfl
  request _ _ _ h := h.same rfl rfl
  unknown _ _ _ _ h := h.same rfl rfl
  check _ _ h := h.same rfl rfl
  fetch _ _ _ h := h.same rfl rfl
  finish _ _ _ _ _ h := h.same rfl rfl

/-- Everything the part does keeps the queue order and its bound. -/
theorem queueOrdered_keeps : Keeps State.queueOrdered where
  toKeepsInCycle := queueOrdered_keepsInCycle
  released _ _ := ⟨List.Pairwise.nil, fun _ he => absurd he List.not_mem_nil⟩
  asserted _ h := h.same rfl rfl
  showPins _ h := h.same rfl rfl
  synchronise _ _ h := h.same rfl rfl
  beginCycle s pins hd h := s.beginCycle_queueOrdered pins hd h

/-- Settles O59: MC moves only where nothing that has fallen due waits, by an amount that a step's refusal and its taking of
overtaken entries keep within bounds. -/
theorem queueOrderIsKept : Obligations.QueueOrderIsKept := by
  unfold Obligations.QueueOrderIsKept
  exact queueOrdered_keeps.step fun _ _ h => h.same rfl rfl

end Sys2Proof.Machine
end

section
/-! SUPPORT. The ranges of the time base, of leases and of channels, O56: most operations leave every ranged value as it is or
end it, and the few that set one check its range or move it within. -/

namespace Sys2Proof.Machine

/-! ## What leaves the ranged values alone -/

/-- Every value that a range law names stays as it was, or, for a slew and for a lease, may have ended; a port holds
TIME_AUTHORITY where one did and the slew goes on. -/
structure State.keepsRanges (s t : State) : Prop where
  framePhase : t.framePhase = s.framePhase
  frameLength : t.frameLength = s.frameLength
  pendingLength : t.pendingLength = s.pendingLength
  slew : t.slew = none ∨ (t.slew = s.slew ∧ (s.timeAuthority ≠ none → t.timeAuthority ≠ none))
  lease : ∀ l, (t.line l).lease = none ∨ (t.line l).lease = (s.line l).lease
  channels : t.channels = s.channels

namespace State.keepsRanges

theorem refl (s : State) : s.keepsRanges s := ⟨rfl, rfl, rfl, .inr ⟨rfl, id⟩, fun _ => .inr rfl, rfl⟩

theorem trans {a b c : State} (h : a.keepsRanges b) (h' : b.keepsRanges c) : a.keepsRanges c where
  framePhase := h'.framePhase.trans h.framePhase
  frameLength := h'.frameLength.trans h.frameLength
  pendingLength := h'.pendingLength.trans h.pendingLength
  slew := by
    rcases h'.slew with hn | ⟨hs', ha'⟩
    · exact .inl hn
    · rcases h.slew with hn | ⟨hs, ha⟩
      · exact .inl (hs'.trans hn)
      · exact .inr ⟨hs'.trans hs, fun hta => ha' (ha hta)⟩
  lease l := by
    rcases h'.lease l with hn | hl'
    · exact .inl hn
    · rcases h.lease l with hn | hl
      · exact .inl (hl'.trans hn)
      · exact .inr (hl'.trans hl)
  channels := h'.channels.trans h.channels

theorem of_takes {s t : State} (h : s.onlyTakes t) : s.keepsRanges t where
  framePhase := by rw [h.rest]
  frameLength := by rw [h.rest]
  pendingLength := by rw [h.rest]
  slew := by rw [h.rest]; exact .inr ⟨rfl, id⟩
  lease l := .inr (h.line l).1
  channels := by rw [h.rest]

theorem of_ports (s : State) (f : PortFile) : s.keepsRanges { s with ports := f } :=
  ⟨rfl, rfl, rfl, .inr ⟨rfl, id⟩, fun _ => .inr rfl, rfl⟩

theorem modifyPort (s : State) (p : Port) (g : PortState → PortState) : s.keepsRanges (s.modifyPort p g) := of_ports s _

theorem mapPorts (s : State) (g : Port → PortState → PortState) : s.keepsRanges (s.mapPorts g) := of_ports s _

/-- A change of the line records that ends leases at most. -/
theorem mapLines (s : State) (g : Line → LineRecord → LineRecord)
    (h : ∀ l r, (g l r).lease = none ∨ (g l r).lease = r.lease) : s.keepsRanges (s.mapLines g) where
  framePhase := s.mapLines_framePhase g
  frameLength := s.mapLines_frameLength g
  pendingLength := s.mapLines_pendingLength g
  slew := .inr ⟨s.mapLines_slew g, by rw [State.mapLines_timeAuthority]; exact id⟩
  lease l := by rw [State.mapLines_line]; exact h l _
  channels := s.mapLines_channels g

theorem leaseEnded (r : LineRecord) : r.leaseEnded.lease = none ∨ r.leaseEnded.lease = r.lease := by
  unfold LineRecord.leaseEnded
  split
  · next h => exact .inl h
  · exact .inl rfl

theorem retireAll (s : State) (es : List Entry) (o : Outcome) : s.keepsRanges (s.retireAll es o) := of_takes (.retireAll ..)

theorem endLeases (s : State) (m : LineSet) (o : Outcome) : s.keepsRanges (s.endLeases m o) := by
  refine (mapLines s _ fun l r => ?_).trans (retireAll ..)
  split
  · exact leaseEnded r
  · exact .inr rfl

theorem enqueue (s : State) (es : List Entry) : s.keepsRanges (s.enqueue es) := by
  rw [State.enqueue_eq]
  exact ⟨rfl, rfl, rfl, .inr ⟨rfl, id⟩, fun _ => .inr rfl, rfl⟩

/-- A role that is given or released cancels a slew with TIME_AUTHORITY and touches no other ranged value. -/
theorem dropTimeAuthority (s : State) (cause : Port) : s.keepsRanges (s.dropTimeAuthority cause) :=
  ⟨rfl, rfl, rfl, .inl rfl, fun _ => .inr rfl, rfl⟩

theorem dropSupervisor (s : State) (cause : Port) : s.keepsRanges (s.dropSupervisor cause) :=
  ⟨rfl, rfl, rfl, .inr ⟨rfl, id⟩, fun _ => .inr rfl, rfl⟩

theorem dropRole (s : State) (r : Role) (cause : Port) : s.keepsRanges (s.dropRole r cause) := by
  cases r
  · exact dropTimeAuthority s cause
  · exact dropSupervisor s cause

theorem dropRoles (s : State) (p cause : Port) : s.keepsRanges (s.dropRoles p cause) := by
  have htime : s.keepsRanges (if s.timeAuthority = some p then s.dropTimeAuthority cause else s) := by
    split
    · exact dropTimeAuthority s cause
    · exact refl s
  unfold State.dropRoles
  dsimp only
  generalize (if s.timeAuthority = some p then s.dropTimeAuthority cause else s) = u at htime ⊢
  split
  · exact htime.trans (dropSupervisor u cause)
  · exact htime

theorem giveRole (s : State) (r : Role) (p : Port) : s.keepsRanges (s.giveRole r p) := by
  cases r
  · exact ⟨rfl, rfl, rfl, .inr ⟨rfl, fun _ => Option.some_ne_none p⟩, fun _ => .inr rfl, rfl⟩
  · exact ⟨rfl, rfl, rfl, .inr ⟨rfl, id⟩, fun _ => .inr rfl, rfl⟩

theorem closeWork (s : State) (p : Port) : s.keepsRanges (s.closeWork p) :=
  (((dropRoles s p p).trans (endLeases ..)).trans (modifyPort ..)).trans (retireAll ..)

theorem fence (s : State) (t cause : Port) : s.keepsRanges (s.fence t cause) := by
  refine (((((modifyPort s t _).trans (dropRoles ..)).trans (mapLines _ _ fun l r => ?_)).trans (retireAll ..)).trans
    (modifyPort ..)).trans (modifyPort ..)
  split
  · exact leaseEnded r
  · exact .inr rfl

theorem takeStrobe (s : State) (p : Port) : s.keepsRanges (s.takeStrobe p) := by
  unfold State.takeStrobe
  split
  · exact modifyPort ..
  · exact refl s

theorem handBoundary (s : State) : s.keepsRanges s.handBoundary := by
  unfold State.handBoundary
  split
  · exact ⟨rfl, rfl, rfl, .inr ⟨rfl, id⟩, fun _ => .inr rfl, rfl⟩
  · exact refl s

theorem expireLease (s : State) (l : Line) : s.keepsRanges (s.expireLease l) := by
  unfold State.expireLease
  split
  · split
    · exact (endLeases ..).trans (modifyPort ..)
    · exact refl s
  · exact refl s

theorem validate (s : State) (p : Port) : s.keepsRanges (s.validate p) := by
  unfold State.validate
  dsimp only
  split
  · exact ((modifyPort s p _).trans (enqueue ..)).trans (modifyPort ..)
  · exact ((modifyPort s p _).trans (of_takes (State.abortEntries_onlyTakes ..))).trans (modifyPort ..)

/-- A step cancels a slew in progress, and takes entries. -/
theorem stepMove (s : State) (offset : Int) (mode : StepMode) : s.keepsRanges (s.stepMove offset mode) := by
  have hbegun : s.keepsRanges (s.stepBegun offset) := by
    rw [State.stepBegun_rest]
    exact ⟨rfl, rfl, rfl, .inl rfl, fun _ => .inr rfl, rfl⟩
  exact hbegun.trans (of_takes (s.stepMove_onlyTakes offset mode))

theorem asserted (s : State) : s.keepsRanges s.asserted := ⟨rfl, rfl, rfl, .inr ⟨rfl, id⟩, fun _ => .inr rfl, rfl⟩

theorem showPins (s : State) : s.keepsRanges s.showPins := by
  rw [State.showPins_rest]
  exact ⟨rfl, rfl, rfl, .inr ⟨rfl, id⟩, fun _ => .inr rfl, rfl⟩

theorem synchronise (s : State) (pins : Pins) : s.keepsRanges (s.synchronise pins) := by
  rw [State.synchronise_rest]
  exact ⟨rfl, rfl, rfl, .inr ⟨rfl, id⟩, fun _ => .inr rfl, rfl⟩

end State.keepsRanges

section
variable {P : State → Prop} (hkeep : ∀ s t : State, s.keepsRanges t → P s → P t)
include hkeep

/-- What survives where ranged values stay or end, and what SET_RATE, SET_FRAME, leases taken or renewed and CONFIG_INPUT
keep, every request's owner keeps. -/
theorem keepsRanges_keepsOwners
    (hrate : ∀ (s : State) (p : Port) (k : Int) (n : Nat), s.takes (.setRate p k n) → P s → P (setRateOwner k n s).state)
    (hframe : ∀ (s : State) (p : Port) (n : Nat), s.takes (.setFrame p n) → P s → P (setFrameOwner n s).state)
    (hgrant : ∀ (s : State) (p : Port) (m : LineSet) (t : Option Nat) (f : Failsafe), s.takes (.acquireLines p m t f) →
      P s → P (s.grant p m t f))
    (hrenew : ∀ (s : State) (m : LineSet), P s → P (s.renew m))
    (hconf : ∀ (s : State) (p : Port) (m : ChannelSet) (n : Nat) (e : EdgeSelect), s.takes (.configInput p m n e) →
      P s → P (s.configure m n e)) : KeepsOwners P where
  due s := hkeep _ _ (.of_takes (.takeDue s))
  readTime s _ _ := hkeep _ _ (.of_ports s _)
  stepTime s _ offset mode _ _ _ := hkeep _ _ (.stepMove _ offset mode)
  setRate := hrate
  setFrame := hframe
  acquire s p m t f ht _ := hgrant s p m t f ht
  renew s _ m _ _ := hrenew s m
  release s _ m _ := hkeep _ _ (.endLeases s m _)
  revoke s _ m _ := hkeep _ _ ((State.keepsRanges.endLeases s m _).trans (.mapPorts ..))
  force s m f := hkeep _ _ (.mapLines s _ fun l r => by split <;> exact .inr rfl)
  submit s _ _ _ _ _ _ _ := hkeep _ _ (.enqueue s _)
  admitting s p _ _ := hkeep _ _ (.modifyPort s p _)
  cancel s _ _ _ _ := hkeep _ _ ((State.keepsRanges.retireAll s _ _).trans (.modifyPort ..))
  cancelLines s _ _ _ := hkeep _ _ (.retireAll s _ _)
  readCompletions s p _ _ := hkeep _ _ (.modifyPort s p _)
  stage s p _ _ _ _ _ := hkeep _ _ (.modifyPort s p _)
  commit s p _ _ _ _ := hkeep _ _ (.modifyPort s p _)
  discard s p _ := hkeep _ _ (.modifyPort s p _)
  configure := hconf
  subscribe s _ _ _ := hkeep _ _ (.of_ports s _)
  readCaptures s _ _ _ := hkeep _ _ (.of_ports s _)
  clearArms s _ _ _ := hkeep _ _ (.of_ports s _)
  openPort s p _ _ := hkeep _ _ (.modifyPort s p _)
  closePort s p _ := hkeep _ _ ((State.keepsRanges.closeWork s p).trans (.modifyPort ..))
  claimRole s p r _ _ := hkeep _ _ ((State.keepsRanges.giveRole s r p).trans (.mapPorts ..))
  releaseRole s p r _ := hkeep _ _ (.dropRole s r p)
  fencePort s p t _ _ _ := hkeep _ _ (.fence s t p)
  setQuota s _ t _ _ _ _ := hkeep _ _ (.modifyPort s t _)
  readEvents s _ _ := hkeep _ _ (.of_ports s _)
  setEventMask s _ _ := hkeep _ _ (.of_ports s _)

/-- What the owners keep, and what release, the beginning of a cycle and a sample keep, every operation keeps. -/
theorem keepsRanges_keeps (howners : KeepsOwners P) (hrel : ∀ s, P s → P s.released)
    (hbegin : ∀ (s : State) (pins : Pins), P s → P (s.beginCycle pins))
    (hsample : ∀ (s : State) (c : Channel), P s → P (s.storeSample c)) : Keeps P where
  toKeepsOwners := howners
  released := hrel
  asserted s := hkeep _ _ (.asserted s)
  showPins s := hkeep _ _ (.showPins s)
  synchronise s pins := hkeep _ _ (.synchronise s pins)
  beginCycle s pins _ := hbegin s pins
  sample s c h := by
    unfold State.sampleChannel
    split
    · split
      · split
        · exact hkeep _ _ (.mapPorts ..) (hsample s c h)
        · exact hsample s c h
      · exact hsample s c h
    · exact h
  strobe s p := hkeep _ _ (.takeStrobe s p)
  boundary s := hkeep _ _ (.handBoundary s)
  validate s p _ := hkeep _ _ (.validate s p)
  expire s l := hkeep _ _ (.expireLease s l)
  moveReports s p := hkeep _ _ (.modifyPort s p _)
  ignored s p _ := hkeep _ _ (.modifyPort s p _)
  request s p _ := hkeep _ _ (.modifyPort s p _)
  unknown s p _ _ := hkeep _ _ (.modifyPort s p _)
  check s p := hkeep _ _ (.modifyPort s p _)
  fetch s p _ := hkeep _ _ (.modifyPort s p _)
  finish s _ _ _ _ := hkeep _ _ (.of_ports s _)

end

/-! ## The time base -/

theorem State.keepsRanges.timeBaseSound {s t : State} (h : s.keepsRanges t) (hs : s.timeBaseSound) : t.timeBaseSound := by
  obtain ⟨hphase, hlength, hpending, hslew⟩ := hs
  refine ⟨by rw [h.framePhase, h.frameLength]; exact hphase, h.frameLength ▸ hlength, by rw [h.pendingLength]; exact hpending,
    fun w hw => ?_⟩
  rcases h.slew with hn | ⟨heq, hta⟩
  · rw [hn] at hw; cases hw
  · obtain ⟨hsound, hholder⟩ := hslew w (heq.symm.trans hw)
    exact ⟨hsound, hta hholder⟩

/-- A slew stays in range through a cycle that does not end it (01 R15). -/
theorem slewAfter_sound {o : Option Slew} {w : Slew} (h : ∀ v, o = some v → v.sound) (hw : slewAfter o = some w) :
    o.isSome ∧ w.sound := by
  unfold slewAfter at hw
  cases o with
  | none => cases hw
  | some v =>
    obtain ⟨hmin, hmax, hleft, hcorr, hcount⟩ := h v rfl
    simp only [Config.intervalMin] at hmin
    refine ⟨rfl, ?_⟩
    by_cases hc : v.corrects = true
    · by_cases hl : v.left ≤ 1
      · simp only [hc, hl, ↓reduceIte, reduceCtorEq] at hw
      · simp only [hc, hl, ↓reduceIte, Option.some.injEq] at hw
        subst hw
        exact ⟨hmin, hmax, by dsimp only; omega, by dsimp only; omega, by dsimp only; omega⟩
    · simp only [hc, Bool.false_eq_true, ↓reduceIte, Option.some.injEq] at hw
      subst hw
      simp only [Slew.corrects, decide_eq_true_eq, not_le] at hc
      exact ⟨hmin, hmax, hleft, hcorr, hc⟩

/-- The phase that is left over at a boundary is at most the increment, below the shortest frame (01 R5, R7). -/
theorem State.beginCycle_timeBaseSound (s : State) (pins : Pins) (hs : s.timeBaseSound) :
    (s.beginCycle pins).timeBaseSound := by
  obtain ⟨hphase, hlength, hpending, hslew⟩ := hs
  obtain ⟨-, hslew', hta, -⟩ := s.beginCycle_clock pins
  obtain ⟨hwithin, hboundary⟩ := s.beginCycle_frame pins
  have hn := slewIncrement_le s.slew
  have hsound : ∀ w, (s.beginCycle pins).slew = some w → w.sound ∧ (s.beginCycle pins).timeAuthority ≠ none := by
    intro w hw
    rw [hslew'] at hw
    obtain ⟨hsome, hw'⟩ := slewAfter_sound (fun v hv => (hslew v hv).1) hw
    obtain ⟨v, hv⟩ := Option.isSome_iff_exists.1 hsome
    exact ⟨hw', hta ▸ (hslew v hv).2⟩
  rcases Nat.lt_or_ge (s.framePhase + slewIncrement s.slew) s.frameLength with hlt | hge
  · obtain ⟨hp, -, hl, hpl, -⟩ := hwithin hlt
    exact ⟨by rw [hp, hl]; exact hlt, hl ▸ hlength, by rw [hpl]; exact hpending, hsound⟩
  · obtain ⟨hp, -, hl, hpl, -⟩ := hboundary hge
    have hnew : frameLengthInRange (s.pendingLength.getD s.frameLength) := by
      cases hc : s.pendingLength with
      | none => exact hlength
      | some n => exact hpending n hc
    have hmin := hnew.1
    simp only [Config.frameLengthMin] at hmin
    exact ⟨by rw [hp, hl]; omega, hl ▸ hnew, by rw [hpl]; exact nofun, hsound⟩

/-- A rate that is set is in range, and its sender holds TIME_AUTHORITY (01 R14). -/
theorem State.setRate_timeBaseSound {s : State} {p : Port} {k : Int} {n : Nat} (ht : s.takes (.setRate p k n))
    (hs : s.timeBaseSound) : (setRateOwner k n s).state.timeBaseSound := by
  obtain ⟨hphase, hlength, hpending, -⟩ := hs
  refine ⟨hphase, hlength, hpending, fun w hw => ?_⟩
  have hrange := s.awaits_wellFormed p _ (s.takes_awaits _ p _ _ _ rfl ht)
  have hholder : s.timeAuthority = some p := s.takes_role _ p _ _ .timeAuthority rfl ht
  simp only [Instr.wellFormed, rateInRange, Bool.and_eq_true, Bool.or_eq_true, decide_eq_true_eq, beq_iff_eq,
    bne_iff_ne] at hrange
  obtain ⟨hmax, hzero | ⟨⟨hlow, hhigh⟩, hcount⟩⟩ := hrange
  · simp only [setRateOwner, slewOfRate, hzero, ↓reduceIte, reduceCtorEq] at hw
  · have hk : k ≠ 0 := by
      rintro rfl
      simp [Config.intervalMin] at hlow
    simp only [setRateOwner, slewOfRate, hk, ↓reduceIte, Option.some.injEq] at hw
    subst hw
    refine ⟨⟨hlow, hhigh, Nat.one_le_iff_ne_zero.2 hcount, hmax, ?_⟩, ?_⟩
    · simp only [Config.intervalMin] at hlow ⊢
      omega
    · rw [show (setRateOwner k n s).state.timeAuthority = s.timeAuthority from rfl, hholder]
      exact Option.some_ne_none p

/-- A frame length that is set is in range (01 R7). -/
theorem State.setFrame_timeBaseSound {s : State} {p : Port} {n : Nat} (ht : s.takes (.setFrame p n))
    (hs : s.timeBaseSound) : (setFrameOwner n s).state.timeBaseSound := by
  obtain ⟨hphase, hlength, -, hslew⟩ := hs
  have hrange := s.awaits_wellFormed p _ (s.takes_awaits _ p _ _ _ rfl ht)
  simp only [Instr.wellFormed, Bool.and_eq_true, decide_eq_true_eq] at hrange
  refine ⟨hphase, hlength, fun m hm => ?_, hslew⟩
  cases hm
  exact hrange

theorem State.released_timeBaseSound (s : State) : s.released.timeBaseSound :=
  ⟨show 0 < Config.frameLengthAtReset by decide, show frameLengthInRange Config.frameLengthAtReset by decide,
    fun _ hn => absurd hn (Option.some_ne_none _).symm, fun _ hw => absurd hw (Option.some_ne_none _).symm⟩

/-- A change of other fields. -/
theorem State.timeBaseSound.same {s t : State} (h : s.timeBaseSound) (hphase : t.framePhase = s.framePhase)
    (hlength : t.frameLength = s.frameLength) (hpending : t.pendingLength = s.pendingLength) (hslew : t.slew = s.slew)
    (hta : t.timeAuthority = s.timeAuthority) : t.timeBaseSound := by
  unfold State.timeBaseSound
  rw [hphase, hlength, hpending, hslew, hta]
  exact h

theorem mapLines_timeBaseSound (s : State) (g : Line → LineRecord → LineRecord) (h : s.timeBaseSound) :
    (s.mapLines g).timeBaseSound :=
  h.same (s.mapLines_framePhase g) (s.mapLines_frameLength g) (s.mapLines_pendingLength g) (s.mapLines_slew g)
    (s.mapLines_timeAuthority g)

/-- Everything the part does keeps the time base in range. -/
theorem timeBaseSound_keeps : Keeps State.timeBaseSound := by
  refine keepsRanges_keeps (fun _ _ h => h.timeBaseSound) ?owners (fun s _ => s.released_timeBaseSound)
    (fun s pins h => s.beginCycle_timeBaseSound pins h) fun s c h => h.same rfl rfl rfl rfl rfl
  case owners =>
    refine keepsRanges_keepsOwners (fun _ _ h => h.timeBaseSound) (fun s p k n ht h => s.setRate_timeBaseSound ht h)
      (fun s p n ht h => s.setFrame_timeBaseSound ht h) (fun s p m t f _ h => mapLines_timeBaseSound s _ h)
      (fun s m h => mapLines_timeBaseSound s _ h) fun s p m n e _ h => ?_
    rw [State.configure_eq]
    exact h.same rfl rfl rfl rfl rfl

/-! ## Leases and channels -/

/-- The ranges of leases and of channels. -/
def State.recordsInRange (s : State) : Prop := s.leasesInRange ∧ s.channelsSound

theorem State.keepsRanges.recordsInRange {s t : State} (h : s.keepsRanges t) (hs : s.recordsInRange) : t.recordsInRange := by
  obtain ⟨hleases, hchannels⟩ := hs
  refine ⟨fun l x hx => ?_, fun c => by rw [h.channels]; exact hchannels c⟩
  rcases h.lease l with hn | heq
  · rw [hn] at hx; cases hx
  · exact hleases l x (heq.symm.trans hx)

/-- A change of line records that keeps every lease in range. -/
theorem State.mapLines_recordsInRange (s : State) (g : Line → LineRecord → LineRecord)
    (h : ∀ l r, (∀ x, r.lease = some x → x.term.sound) → ∀ x, (g l r).lease = some x → x.term.sound)
    (hs : s.recordsInRange) : (s.mapLines g).recordsInRange := by
  obtain ⟨hleases, hchannels⟩ := hs
  refine ⟨fun l => ?_, fun c => by rw [State.mapLines_channels]; exact hchannels c⟩
  rw [State.mapLines_line]
  exact h l _ (hleases l)

/-- A lease that is granted has a term in range (02 R25, R26). -/
theorem State.grant_recordsInRange {s : State} {p : Port} {m : LineSet} {t : Option Nat} {f : Failsafe}
    (ht : s.takes (.acquireLines p m t f)) (hs : s.recordsInRange) : (s.grant p m t f).recordsInRange := by
  have hrange := s.awaits_wellFormed p _ (s.takes_awaits _ p _ _ _ rfl ht)
  refine s.mapLines_recordsInRange _ (fun l r hr x hx => ?_) hs
  split at hx
  · cases hx
    cases t with
    | none => trivial
    | some t =>
      simp only [Instr.wellFormed, Bool.and_eq_true, decide_eq_true_eq] at hrange
      obtain ⟨-, hmin, hmax⟩ := hrange
      exact ⟨hmin, hmax, Nat.le_refl t⟩
  · exact hr x hx

theorem LeaseTerm.restart_sound {t : LeaseTerm} (h : t.sound) : t.restart.sound := by
  cases t with
  | unlimited => trivial
  | finite t r =>
    obtain ⟨hmin, hmax, -⟩ := h
    exact ⟨hmin, hmax, Nat.le_refl t⟩

theorem LeaseTerm.fall_sound {t : LeaseTerm} (n : Nat) (h : t.sound) : (t.fall n).sound := by
  cases t with
  | unlimited => trivial
  | finite t r =>
    obtain ⟨hmin, hmax, hle⟩ := h
    exact ⟨hmin, hmax, (Nat.sub_le r n).trans hle⟩

/-- A lease whose term alone changes within its range stays in range. -/
theorem lease_map_sound {g : LeaseTerm → LeaseTerm} (hg : ∀ t : LeaseTerm, t.sound → (g t).sound) {o : Option Lease}
    (h : ∀ x, o = some x → x.term.sound) (x : Lease) (hx : (o.map fun y => { y with term := g y.term }) = some x) :
    x.term.sound := by
  cases o with
  | none => cases hx
  | some y =>
    cases hx
    exact hg _ (h y rfl)

theorem State.renew_recordsInRange (s : State) (m : LineSet) (hs : s.recordsInRange) : (s.renew m).recordsInRange := by
  refine s.mapLines_recordsInRange _ (fun l r hr x hx => ?_) hs
  split at hx
  · exact lease_map_sound (fun _ => LeaseTerm.restart_sound) hr x hx
  · exact hr x hx

theorem State.beginCycle_recordsInRange (s : State) (pins : Pins) (hs : s.recordsInRange) :
    (s.beginCycle pins).recordsInRange := by
  obtain ⟨hleases, hchannels⟩ := hs
  refine ⟨fun l x hx => ?_, fun c => ?_⟩
  · rw [State.beginCycle_line] at hx
    exact lease_map_sound (fun _ => LeaseTerm.fall_sound _) (hleases l) x hx
  · rw [State.beginCycle_rest]
    exact hchannels c

theorem eq_invertLevel {x y : Level} (h : x ≠ y) : x = invertLevel y := by
  cases x <;> cases y <;> first | rfl | exact absurd rfl h

/-- The filter keeps a channel in range: a run that goes on is shorter than the depth, and one that ends leaves none
(06 R102). -/
theorem ChannelState.take_sound {ch : ChannelState} (x : Level) (now : Time) (h : ch.sound) : (ch.take x now).1.sound := by
  obtain ⟨hmin, hmax, hrun⟩ := h
  cases hs : ch.sampled with
  | false =>
    rw [ChannelState.take_first _ _ _ hs]
    exact ⟨hmin, hmax, nofun⟩
  | true =>
    by_cases hx : x = ch.filtered
    · rw [hx, ChannelState.take_same _ _ hs]
      exact ⟨hmin, hmax, nofun⟩
    · cases hr : ch.run with
      | none =>
        rcases Nat.lt_or_ge 1 ch.depth with hd | hd
        · rw [ChannelState.take_starts _ _ _ hs hx hr hd]
          refine ⟨hmin, hmax, fun r hr' => ?_⟩
          cases hr'
          exact ⟨eq_invertLevel hx, Nat.le_refl 1, hd⟩
        · rw [ChannelState.take_edgeAtOnce _ _ _ hs hx hr hd]
          exact ⟨hmin, hmax, nofun⟩
      | some r =>
        rcases Nat.lt_or_ge (r.count + 1) ch.depth with hd | hd
        · rw [ChannelState.take_goesOn _ _ _ r hs hx hr hd]
          refine ⟨hmin, hmax, fun r' hr' => ?_⟩
          cases hr'
          exact ⟨(hrun r hr).1, Nat.le_add_left 1 _, hd⟩
        · rw [ChannelState.take_edgeCompletes _ _ _ r hs hx hr hd]
          exact ⟨hmin, hmax, nofun⟩

theorem State.storeSample_recordsInRange (s : State) (c : Channel) (hs : s.recordsInRange) :
    (s.storeSample c).recordsInRange := by
  obtain ⟨hleases, hchannels⟩ := hs
  refine ⟨hleases, fun k => ?_⟩
  have hk : (s.storeSample c).channels[k] = if c = k then (s.sampleResult c).1 else s.channels[k] := by
    simp only [State.storeSample, Fin.getElem_fin, Vector.getElem_set, Fin.ext_iff]
  rw [hk]
  split
  · exact ChannelState.take_sound _ _ (hchannels c)
  · exact hchannels k

/-- A channel that is configured has a depth in range and no run (06 R105, R106). -/
theorem State.configure_recordsInRange {s : State} {p : Port} {m : ChannelSet} {n : Nat} {e : EdgeSelect}
    (ht : s.takes (.configInput p m n e)) (hs : s.recordsInRange) : (s.configure m n e).recordsInRange := by
  obtain ⟨hleases, hchannels⟩ := hs
  have hrange := s.awaits_wellFormed p _ (s.takes_awaits _ p _ _ _ rfl ht)
  simp only [Instr.wellFormed, Bool.and_eq_true, bne_iff_ne, decide_eq_true_eq] at hrange
  obtain ⟨⟨-, hdepth⟩, hmax⟩ := hrange
  have hlines : (s.configure m n e).lines = s.lines := by rw [State.configure_eq]
  refine ⟨?leases, fun c => ?_⟩
  case leases =>
    unfold State.leasesInRange State.line
    rw [hlines]
    exact hleases
  rw [State.configure_channel]
  split
  · exact ⟨Nat.one_le_iff_ne_zero.2 hdepth, hmax, nofun⟩
  · exact hchannels c

theorem State.released_recordsInRange (s : State) : s.released.recordsInRange := by
  refine ⟨fun l x hx => ?_, fun c => ?_⟩
  · rw [show s.released.line l = LineRecord.atReset from Vector.getElem_ofFn ..] at hx
    cases hx
  · rw [show s.released.channels[c] = ChannelState.atReset from Vector.getElem_ofFn ..]
    exact ⟨by decide, by decide, nofun⟩

/-- A change of other fields. -/
theorem State.recordsInRange.same {s t : State} (h : s.recordsInRange) (hlines : t.lines = s.lines)
    (hchannels : t.channels = s.channels) : t.recordsInRange := by
  unfold State.recordsInRange State.leasesInRange State.channelsSound State.line
  rw [hlines, hchannels]
  exact h

/-- Everything the part does keeps leases and channels in range. -/
theorem recordsInRange_keeps : Keeps State.recordsInRange := by
  refine keepsRanges_keeps (fun _ _ h => h.recordsInRange) ?owners (fun s _ => s.released_recordsInRange)
    (fun s pins h => s.beginCycle_recordsInRange pins h) fun s c h => s.storeSample_recordsInRange c h
  case owners =>
    exact keepsRanges_keepsOwners (fun _ _ h => h.recordsInRange) (fun s p k n _ h => h.same rfl rfl)
      (fun s p n _ h => h.same rfl rfl) (fun s p m t f ht h => s.grant_recordsInRange ht h)
      (fun s m h => s.renew_recordsInRange m h) fun s p m n e ht h => s.configure_recordsInRange ht h

/-- Settles O56: the time base by `timeBaseSound_keeps`, leases and channels by `recordsInRange_keeps`. -/
theorem rangeLawsAreKept : Obligations.RangeLawsAreKept := by
  unfold Obligations.RangeLawsAreKept
  refine ⟨timeBaseSound_keeps.step fun s q h => h.same rfl rfl rfl rfl rfl, fun s t hl hc ht => ?_⟩
  exact recordsInRange_keeps.step (fun s q h => h.same rfl rfl) s t ⟨hl, hc⟩ ht

end Sys2Proof.Machine
end

section
/-! SUPPORT. The row of a request in general: every request's row is the taking of its frame, and O39, O45's frame and each
request's own statement start from it. -/

namespace Sys2Proof.Machine

/-- The row of every request is the taking of the port's frame in hand, with the access that the admission table gives it
(08 R135, 10 R164). -/
theorem exec_request {i : Instr} {p : Port} {d f : Bool} {role : Option Role}
    (hrow : admissionRow i = some (p, d, f, role)) :
    ∃ owner, ∀ s, exec i s = .next (takeRequest ⟨d, f, role⟩ p i owner s) := by
  cases i <;> simp only [admissionRow, Option.some.injEq, Prod.mk.injEq, reduceCtorEq] at hrow
  all_goals
    obtain ⟨rfl, rfl, rfl, rfl⟩ := hrow
    exact ⟨_, fun _ => rfl⟩

/-- A request that no frame in hand carries does nothing (log entry 8). -/
theorem exec_request_idle {i : Instr} {p : Port} {x : Bool × Bool × Option Role} {s : State}
    (hrow : admissionRow i = some (p, x)) (h : s.awaits p i = false) : exec i s = .next s := by
  obtain ⟨owner, hexec⟩ := exec_request hrow
  rw [hexec, takeRequest_idle _ _ _ _ _ h]

/-- A request that the admission check holds back is answered by the refusal. -/
theorem exec_request_refused {i : Instr} {p : Port} {d f : Bool} {role : Option Role} {s : State} {r : ResultCode}
    (hrow : admissionRow i = some (p, d, f, role)) (h : s.awaits p i = true)
    (ha : admission ⟨d, f, role⟩ p s = some r) : exec i s = .next (s.answered s p r []) := by
  obtain ⟨owner, hexec⟩ := exec_request hrow
  rw [hexec, takeRequest_refused _ _ _ _ _ _ h ha]

/-- A request that is taken is answered by its owner. -/
theorem exec_taken {i : Instr} {p : Port} {d f : Bool} {role : Option Role} {owner : State → Answer} {s u : State}
    {r : ResultCode} {data : List Byte} (hexec : exec i s = .next (takeRequest ⟨d, f, role⟩ p i owner s))
    (hrow : admissionRow i = some (p, d, f, role)) (ht : s.takes i) (howner : owner s = ⟨u, r, data⟩) :
    exec i s = .next (s.answered u p r data) := by
  rw [hexec, takeRequest_taken p d f role i owner s hrow ht, howner]

/-- Settles O39: the admission check answers by the session first and then by the role, before the owner. -/
theorem admissionRefusals : Obligations.AdmissionRefusals := by
  unfold Obligations.AdmissionRefusals
  intro i p d f role s hrow ha
  exact ⟨fun hs hd => exec_request_refused hrow ha (admission_detached _ p s hs hd),
    fun hs hf => exec_request_refused hrow ha (admission_fenced _ p s hs hf),
    fun r hr hs hh => exec_request_refused hrow ha (admission_notRole _ p s r hs hr hh)⟩

end Sys2Proof.Machine
end

section
/-! SUPPORT. Sessions, roles, fences and quotas: what CLOSE and FENCE_PORT leave of the state where every entry stands on a line
of its own port, and the obligations O40 to O44. -/

namespace Sys2Proof.Machine

/-! ## OPEN -/

/-- Settles O40: a port that may send OPEN is DETACHED or ATTACHED, and the owner tells the two apart. -/
theorem openResult : Obligations.OpenResult := by
  unfold Obligations.OpenResult
  intro p s ht
  refine ⟨fun hs => ?_, fun hs => ?_⟩ <;> refine exec_taken (owner := openPortOwner p) rfl rfl ht ?_
  · simp [openPortOwner, State.attached, hs, refuse]
  · simp [openPortOwner, State.attached, hs, eventBytes, roleBytes]

/-! ## Retirement with one property -/

theorem State.retiring_port (s : State) (f : Entry → Bool) (o : Outcome) (q : Port) :
    (s.retiring f o).port q =
      (s.port q).takeReports ((s.queue.filter fun e => f e && e.port == q).map fun e => ⟨e, o, s.mc⟩) := PortFile.get_map ..

theorem State.retiring_mc (s : State) (f : Entry → Bool) (o : Outcome) : (s.retiring f o).mc = s.mc := by
  simp only [State.retiring]

theorem State.retiring_queue (s : State) (f : Entry → Bool) (o : Outcome) :
    (s.retiring f o).queue = s.queue.filter fun e => !f e := by
  simp only [State.retiring]

/-- A port none of whose entries has the property keeps its reports. -/
theorem State.retiring_port_other (s : State) {f : Entry → Bool} (o : Outcome) {p q : Port}
    (hf : ∀ e ∈ s.queue, f e = true → e.port = p) (hq : q ≠ p) : (s.retiring f o).port q = s.port q := by
  have hnone : (s.queue.filter fun e => f e && e.port == q) = [] := by
    rw [List.filter_eq_nil_iff]
    intro e he hfe
    rw [Bool.and_eq_true, beq_iff_eq] at hfe
    exact hq (hfe.2.symm.trans (hf e he hfe.1))
  rw [State.retiring_port, hnone, List.map_nil, PortState.takeReports_nil]

/-- The batch has no part in the taking of reports. -/
theorem PortState.takeReports_withBatch (rs : List Retired) (ps : PortState) (b : Batch) :
    PortState.takeReports rs { ps with batch := b } = { ps.takeReports rs with batch := b } := by
  unfold PortState.takeReports
  split <;> rfl

/-! ## The loss of roles, at the ports -/

theorem State.dropRoles_port (s : State) (p cause q : Port) :
    (s.dropRoles p cause).port q =
      if (s.timeAuthority = some p ∨ s.supervisor = some p) ∧ (s.port q).session = .attached ∧ q ≠ cause then
        { s.port q with events := (s.port q).events ||| EventKind.roleChanged.mask }
      else s.port q := by
  rw [State.dropRoles_eq]
  exact PortFile.get_map ..

theorem State.dropRoles_lines (s : State) (p cause : Port) : (s.dropRoles p cause).lines = s.lines := by
  rw [State.dropRoles_eq]

theorem State.dropRoles_mc (s : State) (p cause : Port) : (s.dropRoles p cause).mc = s.mc := by
  rw [State.dropRoles_eq]

theorem State.dropRoles_queue (s : State) (p cause : Port) : (s.dropRoles p cause).queue = s.queue := by
  rw [State.dropRoles_eq]

/-! ## CLOSE -/

/-- Every PENDING entry that names a line stands on a line of its own port (02 R26, R29). -/
def State.entriesHeld (s : State) : Prop := ∀ e ∈ s.queue, ∀ l, e.action.line? = some l → s.holds e.port l = true

/-- On the lines of a port only its own entries stand. -/
theorem State.entriesHeld.port {s : State} (h : s.entriesHeld) {p : Port} {e : Entry} (he : e ∈ s.queue)
    (hn : namesLineIn (s.heldLines p) e = true) : e.port = p :=
  s.namesHeld_port p e (h e he) hn

/-- The state of CLOSE once the port's leases have ended and its batch is freed. -/
def State.closeLeases (s : State) (p : Port) : State :=
  { ((s.dropRoles p p).retiring (namesLineIn (s.heldLines p)) .cancelled) with
    lines := s.linesAfterEnds (s.heldLines p) }

/-- CLOSE retires the entries on the port's lines, and then those of the port that still wait (08 R137). -/
theorem State.closeWork_eq (s : State) (p : Port) :
    s.closeWork p = ((s.closeLeases p).freeBatch p).retiring (fun e => e.port == p) .cancelled := by
  have hheld : (s.dropRoles p p).heldLines p = s.heldLines p := State.heldLines_congr (s.dropRoles_lines p p) p
  have hleases : (s.dropRoles p p).endLeases (s.heldLines p) .cancelled = s.closeLeases p := by
    rw [State.endLeases_eq _ _ _ (by decide), State.leasedIn_congr (s.dropRoles_lines p p), State.leasedIn_heldLines,
      State.linesAfterEnds_congr (s.dropRoles_lines p p), State.closeLeases]
  unfold State.closeWork
  dsimp only
  rw [hheld, hleases]
  exact State.retireAll_filter _ _ _ (by decide)

/-- The line records have no part in the ports. -/
theorem State.withLines_port (s : State) (lines : Vector LineRecord 16) (q : Port) :
    State.port { s with lines := lines } q = s.port q := rfl

theorem State.closeLeases_queue (s : State) (p : Port) :
    (s.closeLeases p).queue = s.queue.filter fun e => !namesLineIn (s.heldLines p) e := by
  simp only [State.closeLeases, State.retiring_queue, State.dropRoles_queue]

theorem State.closeLeases_mc (s : State) (p : Port) : (s.closeLeases p).mc = s.mc := by
  simp only [State.closeLeases, State.retiring_mc, State.dropRoles_mc]

theorem State.closeLeases_port (s : State) (p q : Port) :
    (s.closeLeases p).port q = ((s.dropRoles p p).retiring (namesLineIn (s.heldLines p)) .cancelled).port q :=
  State.withLines_port ..

/-- Entries with one property, and those with another among the rest. -/
theorem length_filter_split (f g : Entry → Bool) (queue : List Entry) :
    (queue.filter fun e => f e && g e).length + ((queue.filter fun e => !f e).filter g).length = (queue.filter g).length := by
  rw [List.length_eq_length_filter_add (l := queue.filter g) f, List.filter_filter, List.filter_filter, List.filter_filter]
  simp only [Bool.and_comm]

/-- What is left of the queue order once CLOSE has retired every entry of the port. -/
theorem State.closeWork_queue (s : State) (p : Port) (h : s.entriesHeld) :
    (s.closeWork p).queue = s.queue.filter fun e => e.port != p := by
  have hq : (s.closeWork p).queue = (s.closeLeases p).queue.filter fun e => !(e.port == p) := by
    simp only [State.closeWork_eq, State.retiring_queue, State.freeBatch, State.modifyPort_queue]
  rw [hq, State.closeLeases_queue, List.filter_filter]
  refine List.filter_congr fun e he => ?_
  by_cases hp : e.port = p
  · simp [hp]
  · have hn : namesLineIn (s.heldLines p) e = false := by
      rw [← Bool.not_eq_true]
      exact fun hc => hp (h.port he hc)
    simp [hn, bne]

/-- The reports of CLOSE: those of the entries on the port's lines, and then those of its other entries. -/
def State.closeReports (s : State) (p : Port) : List Retired :=
  ((s.queue.filter fun e => namesLineIn (s.heldLines p) e && e.port == p) ++
    ((s.queue.filter fun e => !namesLineIn (s.heldLines p) e).filter fun e => e.port == p)).map fun e =>
      ⟨e, .cancelled, s.mc⟩

/-- Each of the port's entries is reported once. -/
theorem State.closeReports_length (s : State) (p : Port) :
    (s.closeReports p).length = (s.queue.filter fun e => e.port == p).length := by
  rw [State.closeReports, List.length_map, List.length_append]
  exact length_filter_split _ _ _

/-- CLOSE's own port takes the reports of its entries, and its batch is freed. -/
theorem State.closeWork_port_same (s : State) (p : Port) :
    (s.closeWork p).port p = { (s.port p).takeReports (s.closeReports p) with batch := .cleared } := by
  have hdrop : (s.dropRoles p p).port p = s.port p := by
    rw [State.dropRoles_port, if_neg fun hc => hc.2.2 rfl]
  rw [State.closeWork_eq, State.freeBatch, State.retiring_port, State.modifyPort_queue, State.closeLeases_queue,
    State.modifyPort_mc, State.closeLeases_mc, State.modifyPort_port_same, PortState.takeReports_withBatch,
    State.closeLeases_port, State.retiring_port, hdrop, State.dropRoles_mc, State.dropRoles_queue,
    PortState.takeReports_append, State.closeReports, List.map_append]
  simp only [Bool.and_self]

/-- Every other port hears of the roles that CLOSE has released, and of nothing else. -/
theorem State.closeWork_port_other (s : State) {p q : Port} (h : s.entriesHeld) (hq : q ≠ p) :
    (s.closeWork p).port q = (s.dropRoles p p).port q := by
  have hentries : ∀ e ∈ (s.dropRoles p p).queue, namesLineIn (s.heldLines p) e = true → e.port = p := by
    rw [State.dropRoles_queue]
    exact fun e he hn => h.port he hn
  rw [State.closeWork_eq, State.retiring_port_other _ _ (fun e _ hp => beq_iff_eq.1 hp) hq, State.freeBatch,
    State.modifyPort_port_ne _ _ hq, State.closeLeases_port, State.retiring_port_other _ _ hentries hq]

/-- CLOSE counts each of the port's entries once (08 R137). -/
theorem closeRetired_eq (s : State) (p : Port) (h : s.entriesHeld) :
    closeRetired p s = (s.queue.filter fun e => e.port == p).length := by
  have hheld : (s.dropRoles p p).heldLines p = s.heldLines p := State.heldLines_congr (s.dropRoles_lines p p) p
  have hleased : (s.dropRoles p p).leasedIn (s.heldLines p) = s.heldLines p := by
    rw [State.leasedIn_congr (s.dropRoles_lines p p), State.leasedIn_heldLines]
  have hleases : (s.dropRoles p p).endLeases (s.heldLines p) .cancelled = s.closeLeases p := by
    rw [State.endLeases_eq _ _ _ (by decide), hleased, State.linesAfterEnds_congr (s.dropRoles_lines p p),
      State.closeLeases]
  have hpending : ((s.closeLeases p).freeBatch p).pendingOf p = (s.closeLeases p).queue.filter fun e => e.port == p := rfl
  have hown : (s.queue.filter (namesLineIn (s.heldLines p))) =
      s.queue.filter fun e => namesLineIn (s.heldLines p) e && e.port == p := by
    refine List.filter_congr fun e he => ?_
    cases hn : namesLineIn (s.heldLines p) e with
    | false => rfl
    | true => rw [Bool.true_and, h.port he hn, beq_self_eq_true]
  unfold closeRetired State.entriesOn
  dsimp only
  rw [hheld, hleased, hleases, hpending, State.closeLeases_queue, State.dropRoles_queue, hown]
  exact length_filter_split _ _ _

/-- CLOSE empties everything of the session, whatever stood there (08 R137 steps 4 to 8). -/
theorem PortState.closed_takeReports (rs : List Retired) (ps : PortState) (b : Batch) :
    PortState.closed { ps.takeReports rs with batch := b } = ps.closed := by
  rw [PortState.takeReports_frame]
  rfl

/-- CLOSE moves the roles, the slew, the lines, the queue order and the ports, and nothing else. -/
theorem State.closeWork_rest (s : State) (p : Port) (h : s.entriesHeld) :
    s.closeWork p = { s with
      slew := if s.timeAuthority = some p then none else s.slew
      timeAuthority := if s.timeAuthority = some p then none else s.timeAuthority
      supervisor := if s.supervisor = some p then none else s.supervisor
      lines := s.linesAfterEnds (s.heldLines p)
      queue := s.queue.filter fun e => e.port != p
      ports := (s.closeWork p).ports } := by
  rw [← s.closeWork_queue p h, State.closeWork_eq, State.closeLeases, State.dropRoles_eq]
  rfl

/-- Settles O41: the whole state is `closeWork_rest`, and the ports are `closeWork_port_same` and `closeWork_port_other`. -/
theorem closeTearsDown : Obligations.CloseTearsDown := by
  unfold Obligations.CloseTearsDown
  intro p s ht h
  have hheld : s.entriesHeld := h
  have hown : ((s.closeWork p).modifyPort p PortState.closed).port p = (s.port p).closed := by
    rw [State.modifyPort_port_same, State.closeWork_port_same, PortState.closed_takeReports]
  refine ⟨(s.closeWork p).modifyPort p PortState.closed, _, _, exec_taken (owner := closePortOwner p) rfl rfl ht rfl,
    closeRetired_eq s p hheld, ?reports, ?rest, hown, fun q hq => ?other⟩
  case reports =>
    rw [State.closeWork_port_same, closeRetired_eq s p hheld, ← s.closeReports_length p]
    exact PortState.takeReports_length ..
  case rest =>
    rw [State.modifyPort, s.closeWork_rest p hheld]
    rfl
  case other =>
    rw [State.modifyPort_port_ne _ _ hq, s.closeWork_port_other hheld hq, State.dropRoles_port]
    simp only [ne_eq, hq, not_false_eq_true, and_true]

/-! ## CLAIM_ROLE and RELEASE_ROLE -/

/-- Settles O42: the owners tell the holder's cases apart, and `raiseRoleChanged_eq` says whom a change is told. -/
theorem roleCommands : Obligations.RoleCommands := by
  unfold Obligations.RoleCommands
  refine ⟨fun p r s ht => ⟨fun hh => ?free, fun hh => ?own, fun h hh hne => ?held⟩,
    fun p r s ht => ⟨fun hh => ?notHeld, fun hh => ?release⟩⟩
  case free =>
    refine ⟨(s.giveRole r p).raiseRoleChanged p, exec_taken (owner := claimRoleOwner p r) rfl rfl ht ?_, ?_⟩
    · simp only [claimRoleOwner, hh]
      cases r <;> rfl
    · rw [State.raiseRoleChanged_eq]
      cases r <;> rfl
  case own =>
    refine exec_taken (owner := claimRoleOwner p r) rfl rfl ht ?_
    simp only [claimRoleOwner, hh, ↓reduceIte, roleBytes]
  case held =>
    refine exec_taken (owner := claimRoleOwner p r) rfl rfl ht ?_
    simp only [claimRoleOwner, hh, hne, ↓reduceIte, roleBytes, refuse]
  case notHeld =>
    refine exec_taken (owner := releaseRoleOwner p r) rfl rfl ht ?_
    simp only [releaseRoleOwner, hh, ne_eq, not_false_eq_true, ↓reduceIte, refuse]
  case release =>
    refine ⟨s.dropRole r p, exec_taken (owner := releaseRoleOwner p r) rfl rfl ht ?_, ?_⟩
    · simp only [releaseRoleOwner, hh, ne_eq, not_true_eq_false, ↓reduceIte, roleBytes]
    · cases r
      · exact State.raiseRoleChanged_eq ..
      · exact State.raiseRoleChanged_eq ..

/-! ## FENCE_PORT -/

/-- The entries that a fence retires are those of the target (08 R142 step 2). -/
theorem fencedEntries_eq (s : State) (t : Port) (h : s.entriesHeld) :
    fencedEntries t s = s.queue.filter fun e => e.port == t := by
  refine List.filter_congr fun e he => ?_
  cases hn : namesLineIn (s.heldLines t) e with
  | false => rw [Bool.or_false]
  | true => rw [Bool.or_true, h.port he hn, beq_self_eq_true]

/-- The state of a fence once the target's session has ended and its roles are released. -/
def State.fenceRoles (s : State) (t cause : Port) : State :=
  (s.modifyPort t fun ps => { ps with session := .fenced }).dropRoles t cause

theorem State.fenceRoles_mc (s : State) (t cause : Port) : (s.fenceRoles t cause).mc = s.mc := by
  rw [State.fenceRoles, State.dropRoles_mc, State.modifyPort_mc]

theorem State.fenceRoles_queue (s : State) (t cause : Port) : (s.fenceRoles t cause).queue = s.queue := by
  rw [State.fenceRoles, State.dropRoles_queue, State.modifyPort_queue]

theorem State.fenceRoles_lines (s : State) (t cause : Port) : (s.fenceRoles t cause).lines = s.lines := by
  rw [State.fenceRoles, State.dropRoles_lines, State.modifyPort_lines]

/-- The target is no longer ATTACHED when its roles go, so it does not hear of that. -/
theorem State.fenceRoles_port (s : State) (t cause q : Port) :
    (s.fenceRoles t cause).port q =
      if q = t then { s.port t with session := .fenced }
      else if (s.timeAuthority = some t ∨ s.supervisor = some t) ∧ (s.port q).session = .attached ∧ q ≠ cause then
        { s.port q with events := (s.port q).events ||| EventKind.roleChanged.mask }
      else s.port q := by
  rw [State.fenceRoles, State.dropRoles_port, State.modifyPort_timeAuthority, State.modifyPort_supervisor]
  by_cases hq : q = t
  · subst hq
    rw [State.modifyPort_port_same, if_pos rfl, if_neg fun hc => nomatch hc.2.1]
  · rw [State.modifyPort_port_ne _ _ hq, if_neg hq]

/-- The entries of the target retire and its leases end, once its roles are released (08 R142 steps 2 and 3). -/
theorem State.fence_eq (s : State) (t cause : Port) (h : s.entriesHeld) :
    s.fence t cause =
      (({ ((s.fenceRoles t cause).retiring (fun e => e.port == t) .fenced) with
          lines := s.linesAfterEnds (s.heldLines t) } : State).freeBatch t).modifyPort t PortState.fencedOff := by
  have hlines := s.fenceRoles_lines t cause
  have hholds : ∀ l, (s.fenceRoles t cause).holds t l = (s.heldLines t)[l] := fun l => by
    rw [State.holds_congr hlines, State.heldLines, bitsWhere_getElem]
  have hheld : (s.fenceRoles t cause).entriesHeld := by
    intro e he l hl
    rw [State.holds_congr hlines]
    exact h e (by rwa [State.fenceRoles_queue] at he) l hl
  have hends : ((s.fenceRoles t cause).mapLines fun l r => if (s.fenceRoles t cause).holds t l then r.leaseEnded else r) =
      { s.fenceRoles t cause with lines := s.linesAfterEnds (s.heldLines t) } := by
    simp only [hholds]
    rw [← State.linesAfterEnds_congr hlines, State.linesAfterEnds_eq]
    simp only [State.mapLines]
  unfold State.fence
  dsimp only
  rw [← State.fenceRoles, hends, fencedEntries_eq _ t hheld, ← State.retiring_lines]
  exact congrArg (fun u : State => (u.freeBatch t).modifyPort t PortState.fencedOff)
    (State.retireAll_filter _ (fun e => e.port == t) .fenced (by decide))

theorem State.fence_port_same (s : State) (t cause : Port) (h : s.entriesHeld) :
    (s.fence t cause).port t = PortState.fencedOff { PortState.takeReports
      ((s.queue.filter fun e => e.port == t).map fun e => ⟨e, .fenced, s.mc⟩)
      { s.port t with session := .fenced } with batch := .cleared } := by
  rw [State.fence_eq _ _ _ h, State.modifyPort_port_same, State.freeBatch, State.modifyPort_port_same,
    State.withLines_port, State.retiring_port, State.fenceRoles_port, if_pos rfl, State.fenceRoles_queue,
    State.fenceRoles_mc]
  simp only [Bool.and_self]

theorem State.fence_port_other (s : State) {t q : Port} (cause : Port) (h : s.entriesHeld) (hq : q ≠ t) :
    (s.fence t cause).port q =
      if (s.timeAuthority = some t ∨ s.supervisor = some t) ∧ (s.port q).session = .attached ∧ q ≠ cause then
        { s.port q with events := (s.port q).events ||| EventKind.roleChanged.mask }
      else s.port q := by
  rw [State.fence_eq _ _ _ h, State.modifyPort_port_ne _ _ hq, State.freeBatch, State.modifyPort_port_ne _ _ hq,
    State.withLines_port, State.retiring_port_other _ _ (fun e _ hp => beq_iff_eq.1 hp) hq, State.fenceRoles_port,
    if_neg hq]

/-- A fence moves the roles, the slew, the lines, the queue order and the ports, and nothing else. -/
theorem State.fence_rest (s : State) (t cause : Port) (h : s.entriesHeld) :
    s.fence t cause = { s with
      slew := if s.timeAuthority = some t then none else s.slew
      timeAuthority := if s.timeAuthority = some t then none else s.timeAuthority
      supervisor := if s.supervisor = some t then none else s.supervisor
      lines := s.linesAfterEnds (s.heldLines t)
      queue := s.queue.filter fun e => e.port != t
      ports := (s.fence t cause).ports } := by
  rw [State.fence_eq _ _ _ h, State.fenceRoles, State.dropRoles_eq]
  rfl

/-- The reports of a fenced port's entries are told to it as they would be to an ATTACHED one (09 R147). -/
theorem PortState.fencedOff_takeReports (rs : List Retired) (ps : PortState) (h : ps.session ≠ .detached) :
    PortState.fencedOff { PortState.takeReports rs { ps with session := .fenced } with batch := .cleared } =
      { ps.takeReports rs with
        session := .fenced, batch := .cleared, subscription := 0, arms := 0
        events := (ps.takeReports rs).events ||| EventKind.portFenced.mask } := by
  unfold PortState.fencedOff
  rw [PortState.raise_notDetached _ _ (by rw [PortState.takeReports_session]; nofun)]
  unfold PortState.takeReports
  split
  · rfl
  · simp only [h, ne_eq, not_false_eq_true, reduceCtorEq]

/-- Settles O43: the owner's two checks, and then `fence_rest` with the ports of `fence_port_same` and `fence_port_other`. -/
theorem fencePortResult : Obligations.FencePortResult := by
  unfold Obligations.FencePortResult
  intro p t s ht h
  have hheld : s.entriesHeld := h
  refine ⟨fun heq => ?self, fun hne hs => ?notAttached, fun hne hs => ?fenced⟩
  case self =>
    refine exec_taken (owner := fencePortOwner p t) rfl rfl ht ?_
    rw [fencePortOwner, if_pos heq, refuse]
  case notAttached =>
    refine exec_taken (owner := fencePortOwner p t) rfl rfl ht ?_
    simp [fencePortOwner, hne, State.attached, hs, refuse]
  case fenced =>
    refine ⟨s.fence t p, exec_taken (owner := fencePortOwner p t) rfl rfl ht ?_, s.fence_rest t p hheld, ?_,
      fun q hq => s.fence_port_other p hheld hq⟩
    · simp only [fencePortOwner, hne, State.attached, hs, ↓reduceIte, beq_self_eq_true, Bool.not_true,
        Bool.false_eq_true, fencedEntries_eq s t hheld, State.heldLines]
    · rw [s.fence_port_same t p hheld, PortState.fencedOff_takeReports _ _ (by rw [hs]; nofun)]
      rfl

/-! ## SET_QUOTA -/

/-- SUPERVISOR bars a port where another one holds it (08 R144). -/
theorem supervisorAllows_eq_false_iff (p : Port) (s : State) :
    supervisorAllows p s = false ↔ ∃ h, s.supervisor = some h ∧ h ≠ p := by
  unfold supervisorAllows
  cases s.supervisor <;> simp

theorem State.setQuota_freeSlots (s : State) (t : Port) (n : Nat) :
    (s.modifyPort t fun ps => { ps with quota := n }).freeSlots = s.freeSlots := by
  simp only [State.freeSlots, State.setQuota_usage]

/-- Settles O44: the owner's checks stand in the order of the statement. -/
theorem setQuotaResult : Obligations.SetQuotaResult := by
  unfold Obligations.SetQuotaResult
  intro p t n s ht
  have hbarred := supervisorAllows_eq_false_iff p s
  refine ⟨fun hb => ?_, fun hb hu => ?_, fun hb hu ha => ?_, fun hb hu ha => ?_⟩ <;>
    refine exec_taken (owner := setQuotaOwner p t n) rfl rfl ht ?_ <;> unfold setQuotaOwner
  · rw [hbarred.2 hb]
    rfl
  · rw [Bool.of_not_eq_false (fun hc => hb (hbarred.1 hc)), if_neg (by decide), if_pos hu]
    rfl
  · rw [Bool.of_not_eq_false (fun hc => hb (hbarred.1 hc)), if_neg (by decide), if_neg hu]
    exact if_pos ha
  · rw [Bool.of_not_eq_false (fun hc => hb (hbarred.1 hc)), if_neg (by decide), if_neg hu]
    refine (if_neg ha).trans ?_
    dsimp only
    rw [State.setQuota_freeSlots]
    simp only [quotaBytes, State.setQuota_quota]
    rfl

end Sys2Proof.Machine
end

section
/-! SUPPORT. The laws of one port but for its link (O55): what each operation on a port does to its lists, its flags, its results
and what stands outside its session. -/

namespace Sys2Proof.Machine

/-! ## Report movement -/

/-- Everything report movement does: COMPLETION_READY is raised where the FIFO was empty and a report waits (04 R77, R79). -/
theorem PortState.moveReports_eq (ps : PortState) :
    ps.moveReports = { ps with
      fifo := ps.fifo ++ (ps.retirement.take (Config.fifoDepth - ps.fifo.length)).map Retired.record
      retirement := ps.retirement.drop (Config.fifoDepth - ps.fifo.length)
      events := if ps.fifo = [] ∧ ps.retirement ≠ [] ∧ ps.session ≠ .detached then
        ps.events ||| EventKind.completionReady.mask else ps.events } := by
  unfold PortState.moveReports
  rw [PortState.raise_not_kept _ _ rfl]
  cases hf : ps.fifo with
  | cons c cs => simp
  | nil =>
    cases hr : ps.retirement with
    | nil => simp
    | cons r rs => by_cases hs : ps.session = .detached <;> simp [hs, Config.fifoDepth]

/-! ## The laws -/

/-- The laws of a port that its link has no part in. -/
structure PortState.listsSound (ps : PortState) : Prop where
  sizes : ps.withinSizes
  reports : ps.reportsMoved
  armed : ps.armedHoldsEntries
  arms : ps.armsSubscribed
  results : ps.resultsMatch
  emptied : ps.sessionEmptied

theorem PortState.sound_iff (p : Port) (ps : PortState) : ps.sound p ↔ ps.listsSound ∧ ps.engineAgrees p = true := by
  constructor
  · rintro ⟨hsizes, hreports, harmed, harms, hresults, hemptied, hengine⟩
    exact ⟨⟨hsizes, hreports, harmed, harms, hresults, hemptied⟩, hengine⟩
  · rintro ⟨⟨hsizes, hreports, harmed, harms, hresults, hemptied⟩, hengine⟩
    exact ⟨hsizes, hreports, harmed, harms, hresults, hemptied, hengine⟩

/-- An event set with no change of a kind that carries a result. -/
abbrev sameResults (a b : EventSet) : Prop :=
  hasKind a .batchDone = hasKind b .batchDone ∧ hasKind a .slewDone = hasKind b .slewDone

/-- A raise of a kind that carries no result. -/
theorem sameResults_or {k : EventKind} (m : EventSet) (hb : k ≠ .batchDone) (hs : k ≠ .slewDone) :
    sameResults (m ||| k.mask) m := by
  simp only [sameResults, hasKind_raise, hb.symm, hs.symm, decide_false, Bool.or_false, and_self]

theorem sameResults_ite {c : Prop} [Decidable c] {k : EventKind} (m : EventSet) (hb : k ≠ .batchDone) (hs : k ≠ .slewDone) :
    sameResults (if c then m ||| k.mask else m) m := by
  split
  · exact sameResults_or m hb hs
  · exact ⟨rfl, rfl⟩

namespace PortState.listsSound

/-- What the laws do not name may change, and the event set but for the kinds that carry a result. -/
theorem congr {ps ps' : PortState} (h : ps.listsSound)
    (hrest : ps' = { ps with
      quota := ps'.quota, strobe := ps'.strobe, strobeStage1 := ps'.strobeStage1, strobeStage2 := ps'.strobeStage2
      strobeRose := ps'.strobeRose, lateGuard := ps'.lateGuard, events := ps'.events, mask := ps'.mask
      engine := ps'.engine, frame := ps'.frame, checkedNow := ps'.checkedNow, reply := ps'.reply
      lastExecuted := ps'.lastExecuted, overrun := ps'.overrun, link := ps'.link, risen := ps'.risen
      attnShown := ps'.attnShown, miso := ps'.miso })
    (hevents : sameResults ps'.events ps.events) : ps'.listsSound := by
  obtain ⟨hsizes, hreports, harmed, harms, ⟨hbatch, hslew⟩, hemptied⟩ := h
  obtain ⟨hb, hs⟩ := hevents
  rw [hrest]
  exact ⟨hsizes, hreports, harmed, harms, ⟨hbatch.trans hb.symm, hslew.trans hs.symm⟩, hemptied⟩

theorem raise {ps : PortState} (h : ps.listsSound) (k : EventKind) (hb : k ≠ .batchDone) (hs : k ≠ .slewDone) :
    (ps.raise k).listsSound := by
  refine h.congr (by rw [PortState.raise_frame]) ?_
  rw [PortState.raise_eq]
  split
  · exact sameResults_or _ hb hs
  · exact ⟨rfl, rfl⟩

/-- A raise that brings its result. -/
theorem raiseSlewDone {ps : PortState} (h : ps.listsSound) (r : SlewResult) : (ps.raiseSlewDone r).listsSound := by
  obtain ⟨hsizes, hreports, harmed, harms, ⟨hbatch, -⟩, hemptied⟩ := id h
  unfold PortState.raiseSlewDone
  split
  · refine ⟨hsizes, hreports, harmed, harms, ⟨?_, ?_⟩, hemptied⟩
    · simpa [hasKind_raise] using hbatch
    · simp [hasKind_raise]
  · exact h

theorem raiseBatchDone {ps : PortState} (h : ps.listsSound) (r : BatchResult) : (ps.raiseBatchDone r).listsSound := by
  obtain ⟨hsizes, hreports, harmed, harms, ⟨-, hslew⟩, hemptied⟩ := id h
  unfold PortState.raiseBatchDone
  split
  · refine ⟨hsizes, hreports, harmed, harms, ⟨?_, ?_⟩, hemptied⟩
    · simp [hasKind_raise]
    · simpa [hasKind_raise] using hslew
  · exact h

theorem option_isSome_ite {α : Type} {b : Bool} (o : Option α) : (if b then none else o).isSome = (o.isSome && !b) := by
  cases b <;> simp

/-- Kinds that leave the set take their results with them (09 R148). -/
theorem clearEvents {ps : PortState} (h : ps.listsSound) (m : EventSet) : (ps.clearEvents m).listsSound := by
  obtain ⟨hsizes, hreports, harmed, harms, ⟨hbatch, hslew⟩, hemptied⟩ := h
  refine ⟨hsizes, hreports, harmed, harms, ⟨?_, ?_⟩, hemptied⟩
  · simp only [PortState.clearEvents, hasKind_and, hasKind_not, option_isSome_ite, hbatch]
  · simp only [PortState.clearEvents, hasKind_and, hasKind_not, option_isSome_ite, hslew]

/-- What happens on the link. -/
theorem talks {ps ps' : PortState} (h : ps.listsSound) (ht : ps.onlyTalks ps') : ps'.listsSound :=
  h.congr (by rw [ht.rest]) ht.results

/-- An offer at an ATTACHED port stays within the log and the highest loss count (06 R112, R113). -/
theorem offer {ps : PortState} (h : ps.listsSound) (ha : ps.session = .attached) (body : CaptureBody) (time : Time) :
    (ps.offer body time).listsSound := by
  obtain ⟨⟨hfifo, hlog, hlosses, hstaged⟩, hreports, harmed, harms, ⟨hbatch, hslew⟩, hemptied⟩ := h
  have hdet : ps.session ≠ .detached := by rw [ha]; nofun
  rw [PortState.offer_eq]
  split
  · next hroom =>
    obtain ⟨hb, hs⟩ := sameResults_ite (c := ps.log = [] ∧ ps.session ≠ .detached) (k := .captureReady) ps.events
      (by decide) (by decide)
    refine ⟨⟨hfifo, ?_, Nat.zero_le _, hstaged⟩, hreports, harmed, harms, ⟨hbatch.trans hb.symm, hslew.trans hs.symm⟩,
      ⟨hemptied.1, fun hd => absurd hd hdet⟩⟩
    rw [List.length_append, List.length_singleton]
    exact hroom
  · obtain ⟨hb, hs⟩ := sameResults_ite (c := ps.losses = 0 ∧ ps.session ≠ .detached) (k := .captureLoss) ps.events
      (by decide) (by decide)
    refine ⟨⟨hfifo, hlog, ?_, hstaged⟩, hreports, harmed, harms, ⟨hbatch.trans hb.symm, hslew.trans hs.symm⟩,
      ⟨hemptied.1, fun hd => absurd hd hdet⟩⟩
    dsimp only
    split <;> omega

/-- The movement of reports fills a FIFO that is within its depth as far as it goes (04 R77). -/
theorem moved_sizes {α β : Type} (f : α → β) (fifo : List β) (retirement : List α) (h : fifo.length ≤ Config.fifoDepth) :
    (fifo ++ (retirement.take (Config.fifoDepth - fifo.length)).map f).length ≤ Config.fifoDepth ∧
      (retirement.drop (Config.fifoDepth - fifo.length) ≠ [] →
        (fifo ++ (retirement.take (Config.fifoDepth - fifo.length)).map f).length = Config.fifoDepth) := by
  rw [List.length_append, List.length_map, List.length_take, ne_eq, List.drop_eq_nil_iff]
  omega

/-- Reports taken at a port that is not DETACHED. -/
theorem takeReports {ps : PortState} (h : ps.listsSound) (rs : List Retired) (hd : rs ≠ [] → ps.session ≠ .detached) :
    (ps.takeReports rs).listsSound := by
  by_cases hrs : rs = []
  · rw [hrs, PortState.takeReports_nil]
    exact h
  obtain ⟨⟨hfifo, hlog, hlosses, hstaged⟩, -, harmed, harms, ⟨hbatch, hslew⟩, hemptied⟩ := h
  obtain ⟨hsize, hfull⟩ := moved_sizes Retired.record ps.fifo (ps.retirement ++ rs) hfifo
  obtain ⟨hb, hs⟩ := sameResults_ite (c := ps.fifo = [] ∧ ps.session ≠ .detached) (k := .completionReady) ps.events
    (by decide) (by decide)
  rw [PortState.takeReports_eq _ _ hrs]
  exact ⟨⟨hsize, hlog, hlosses, hstaged⟩, hfull, harmed, harms, ⟨hbatch.trans hb.symm, hslew.trans hs.symm⟩,
    ⟨hemptied.1, fun hdet => absurd hdet (hd hrs)⟩⟩

/-- The oldest records leave and reports move into their room. -/
theorem popRecords {ps : PortState} (h : ps.listsSound) (n : Nat) : (ps.popRecords n).listsSound := by
  obtain ⟨⟨hfifo, hlog, hlosses, hstaged⟩, -, harmed, harms, ⟨hbatch, hslew⟩, hemptied⟩ := h
  have hdrop : (ps.fifo.drop n).length ≤ Config.fifoDepth := by
    rw [List.length_drop]
    omega
  obtain ⟨hsize, hfull⟩ := moved_sizes Retired.record (ps.fifo.drop n) ps.retirement hdrop
  obtain ⟨hb, hs⟩ := sameResults_ite (c := ps.fifo.drop n = [] ∧ ps.retirement ≠ [] ∧ ps.session ≠ .detached)
    (k := .completionReady) ps.events (by decide) (by decide)
  rw [PortState.popRecords, PortState.moveReports_eq]
  refine ⟨⟨hsize, hlog, hlosses, hstaged⟩, hfull, harmed, harms, ⟨hbatch.trans hb.symm, hslew.trans hs.symm⟩,
    ⟨hemptied.1, fun hdet => ?_⟩⟩
  obtain ⟨hret, hfi, hlo, hlos⟩ := hemptied.2 hdet
  simp only [hret, hfi, List.drop_nil, List.take_nil, List.map_nil, List.append_nil]
  exact ⟨trivial, trivial, hlo, hlos⟩

theorem moveReports {ps : PortState} (h : ps.listsSound) : ps.moveReports.listsSound := h.popRecords 0

/-- A set of arm flags within the subscription, and none outside a session. -/
theorem withArms {ps : PortState} (h : ps.listsSound) (m : ChannelSet) (g : Option LateGuard)
    (hsub : m &&& ps.subscription = m) (hs : ps.session ≠ .attached → m = 0) :
    PortState.listsSound { ps with arms := m, lateGuard := g } := by
  obtain ⟨hsizes, hreports, harmed, -, hresults, hemptied⟩ := h
  refine ⟨hsizes, hreports, harmed, hsub, hresults, ⟨fun ha => ?_, hemptied.2⟩⟩
  obtain ⟨hsubscription, -, hstaged⟩ := hemptied.1 ha
  exact ⟨hsubscription, hs ha, hstaged⟩

/-- Flags that are cleared (07 R128). -/
theorem maskArms {ps : PortState} (h : ps.listsSound) (m : ChannelSet) :
    PortState.listsSound { ps with arms := ps.arms &&& m } := by
  have hsub := h.arms
  refine h.withArms (ps.arms &&& m) ps.lateGuard ?_ fun ha => ?_
  · rw [BitVec.and_assoc, BitVec.and_comm m, ← BitVec.and_assoc, hsub]
  · rw [(h.emptied.1 ha).2.1]
    exact BitVec.zero_and

/-- A flag that is set, for a channel of an ATTACHED port's subscription (06 R111). -/
theorem setArm {ps : PortState} (h : ps.listsSound) (c : Channel) (ha : ps.session = .attached)
    (hc : ps.subscription[c] = true) : (ps.setArm c).listsSound := by
  refine h.withArms _ _ ?_ fun hna => absurd ha hna
  have harms : ps.arms &&& ps.subscription = ps.arms := h.arms
  have hbit : BitVec.twoPow 16 c.val &&& ps.subscription = BitVec.twoPow 16 c.val := by
    apply set_ext
    intro k
    rw [Fin.getElem_fin, BitVec.getElem_and, ← Fin.getElem_fin, ← Fin.getElem_fin, twoPow_getElem]
    by_cases hk : k = c
    · rw [hk, hc, Bool.and_true]
    · rw [decide_eq_false hk, Bool.false_and]
  rw [BitVec.and_or_distrib_right, harms, hbit]

/-- A batch within its size, not empty while ARMED, and empty outside a session. -/
theorem withBatch {ps : PortState} (h : ps.listsSound) (b : Batch) (hsize : b.staged.length ≤ Config.batchSlots)
    (harmed : b.target ≠ none → b.staged ≠ []) (hs : ps.session ≠ .attached → b.staged = []) :
    PortState.listsSound { ps with batch := b } := by
  obtain ⟨⟨hfifo, hlog, hlosses, -⟩, hreports, -, harms, hresults, hemptied⟩ := h
  refine ⟨⟨hfifo, hlog, hlosses, hsize⟩, hreports, harmed, harms, hresults, ⟨fun ha => ?_, hemptied.2⟩⟩
  obtain ⟨hsubscription, harms', -⟩ := hemptied.1 ha
  exact ⟨hsubscription, harms', hs ha⟩

/-- A batch that is freed. -/
theorem freed {ps : PortState} (h : ps.listsSound) : PortState.listsSound { ps with batch := .cleared } :=
  h.withBatch .cleared (Nat.zero_le _) (absurd rfl) fun _ => rfl

/-- Everything of the session is emptied (08 R137). -/
theorem closed (ps : PortState) : ps.closed.listsSound :=
  ⟨⟨Nat.zero_le _, Nat.zero_le _, Nat.zero_le _, Nat.zero_le _⟩, absurd rfl, absurd rfl, BitVec.and_self,
    ⟨(hasKind_zero _).symm, (hasKind_zero _).symm⟩, ⟨fun _ => ⟨rfl, rfl, rfl⟩, fun _ => ⟨rfl, rfl, rfl, rfl⟩⟩⟩

theorem released (ps : PortState) : ps.released.listsSound :=
  ⟨⟨Nat.zero_le _, Nat.zero_le _, Nat.zero_le _, Nat.zero_le _⟩, absurd rfl, absurd rfl, BitVec.and_self,
    ⟨(hasKind_zero _).symm, (hasKind_zero _).symm⟩, ⟨fun _ => ⟨rfl, rfl, rfl⟩, fun _ => ⟨rfl, rfl, rfl, rfl⟩⟩⟩

/-- A port that keeps its reports and its records, and loses all else that belongs to an ATTACHED one (08 R142). -/
theorem fenced {ps : PortState} (h : ps.listsSound) :
    PortState.listsSound { ps with session := .fenced, batch := .cleared, subscription := 0, arms := 0 } := by
  obtain ⟨⟨hfifo, hlog, hlosses, -⟩, hreports, -, -, hresults, -⟩ := h
  exact ⟨⟨hfifo, hlog, hlosses, Nat.zero_le _⟩, hreports, absurd rfl, BitVec.and_self, hresults,
    ⟨fun _ => ⟨rfl, rfl, rfl⟩, nofun⟩⟩

/-- A session that opens. -/
theorem opened {ps : PortState} (h : ps.listsSound) : PortState.listsSound { ps with session := .attached } := by
  obtain ⟨hsizes, hreports, harmed, harms, hresults, -⟩ := h
  exact ⟨hsizes, hreports, harmed, harms, hresults, ⟨absurd rfl, nofun⟩⟩

/-- A subscription at an ATTACHED port: the flags of the channels that stay (06 R109). -/
theorem subscribed {ps : PortState} (h : ps.listsSound) (m : ChannelSet) (ha : ps.session = .attached) :
    PortState.listsSound { ps with subscription := m, arms := ps.arms &&& (ps.subscription &&& m) } := by
  obtain ⟨hsizes, hreports, harmed, -, hresults, hemptied⟩ := h
  refine ⟨hsizes, hreports, harmed, ?_, hresults, ⟨fun hna => absurd ha hna, hemptied.2⟩⟩
  show ps.arms &&& (ps.subscription &&& m) &&& m = _
  rw [BitVec.and_assoc, BitVec.and_assoc, BitVec.and_self]

/-- Records that are read leave the log (06 R117). -/
theorem logDropped {ps : PortState} (h : ps.listsSound) (n : Nat) :
    PortState.listsSound { ps with log := ps.log.drop n } := by
  obtain ⟨⟨hfifo, hlog, hlosses, hstaged⟩, hreports, harmed, harms, hresults, hemptied⟩ := h
  refine ⟨⟨hfifo, ?_, hlosses, hstaged⟩, hreports, harmed, harms, hresults, ⟨hemptied.1, fun hd => ?_⟩⟩
  · rw [List.length_drop]
    omega
  · obtain ⟨hret, hfi, hlo, hlos⟩ := hemptied.2 hd
    exact ⟨hret, hfi, by rw [hlo, List.drop_nil], hlos⟩

end PortState.listsSound

end Sys2Proof.Machine
end

section
/-! SUPPORT. Who holds what, and the laws of all ports but for their links (O55): a relation for what leaves sessions, roles,
leases and PENDING entries alone or ends them together, and one lemma per operation of the part. -/

namespace Sys2Proof.Machine

/-! ## Holders -/

/-- A line is held by the holder of its lease, so a lease that stays keeps its holder. -/
theorem State.holds_of_lease {s t : State} {l : Line} (h : (t.line l).lease = (s.line l).lease) (p : Port) :
    t.holds p l = s.holds p l := by
  unfold State.holds
  rw [h]

/-- A line that loses its lease has no holder. -/
theorem State.holds_none {t : State} {l : Line} (h : (t.line l).lease = none) (p : Port) : t.holds p l = false := by
  unfold State.holds
  rw [h]

/-- The holders after the leases on a set of lines end are those of the other lines. -/
theorem State.holds_linesAfterEnds {s t : State} {m : LineSet} (h : t.lines = s.linesAfterEnds m) (p : Port) (l : Line) :
    t.holds p l = (s.holds p l && !m[l]) := by
  have hline : t.line l = (s.linesAfterEnds m)[l] := by
    unfold State.line
    rw [h]
  rw [State.linesAfterEnds_getElem] at hline
  cases hl : (s.line l).lease with
  | none =>
    rw [hl] at hline
    rw [State.holds_of_lease (congrArg LineRecord.lease hline), State.holds_none hl, Bool.false_and]
  | some x =>
    rw [hl] at hline
    dsimp only at hline
    cases hm : m[l] with
    | true =>
      rw [hm, if_pos rfl] at hline
      rw [State.holds_none (congrArg LineRecord.lease hline), Bool.not_true, Bool.and_false]
    | false =>
      rw [hm, if_neg (by decide)] at hline
      rw [State.holds_of_lease (congrArg LineRecord.lease hline), Bool.not_false, Bool.and_true]

/-- Sessions stay, no role and no lease is won, and the PENDING entries that stay keep their lines. -/
structure State.keepsHolders (s t : State) : Prop where
  session : ∀ p, (t.port p).session = (s.port p).session
  role : ∀ r p, t.holder r = some p → s.holder r = some p
  holds : ∀ p l, t.holds p l = true → s.holds p l = true
  queue : ∀ e ∈ t.queue, e ∈ s.queue
  held : ∀ e ∈ t.queue, ∀ l, e.action.line? = some l → s.holds e.port l = true → t.holds e.port l = true

namespace State.keepsHolders

theorem refl (s : State) : s.keepsHolders s := ⟨fun _ => rfl, fun _ _ => id, fun _ _ => id, fun _ => id, fun _ _ _ _ => id⟩

theorem trans {a b c : State} (h : a.keepsHolders b) (h' : b.keepsHolders c) : a.keepsHolders c :=
  ⟨fun p => (h'.session p).trans (h.session p), fun r p hc => h.role r p (h'.role r p hc),
    fun p l hc => h.holds p l (h'.holds p l hc), fun e he => h.queue e (h'.queue e he),
    fun e he l hl ha => h'.held e he l hl (h.held e (h'.queue e he) l hl ha)⟩

/-- A change that leaves leases alone. -/
theorem of_leases {s t : State} (hsession : ∀ p, (t.port p).session = (s.port p).session)
    (hrole : ∀ r p, t.holder r = some p → s.holder r = some p) (hlease : ∀ l, (t.line l).lease = (s.line l).lease)
    (hqueue : ∀ e ∈ t.queue, e ∈ s.queue) : s.keepsHolders t :=
  ⟨hsession, hrole, fun p l h => by rwa [State.holds_of_lease (hlease l)] at h, hqueue,
    fun e _ l _ h => by rwa [State.holds_of_lease (hlease l)]⟩

/-- A change of the ports alone that leaves sessions alone. -/
theorem of_ports (s : State) (f : PortFile) (h : ∀ p, (f.get p).session = (s.port p).session) :
    s.keepsHolders { s with ports := f } :=
  of_leases h (fun r _ hr => by cases r <;> exact hr) (fun _ => rfl) fun _ he => he

theorem modifyPort (s : State) (p : Port) (g : PortState → PortState) (h : (g (s.port p)).session = (s.port p).session) :
    s.keepsHolders (s.modifyPort p g) := by
  refine of_ports s _ fun q => ?_
  rw [PortFile.get_set]
  split
  · next hq => subst hq; exact h
  · rfl

theorem mapPorts (s : State) (g : Port → PortState → PortState)
    (h : ∀ q, (g q (s.port q)).session = (s.port q).session) : s.keepsHolders (s.mapPorts g) := by
  refine of_ports s _ fun q => ?_
  rw [PortFile.get_map]
  exact h q

theorem of_takes {s t : State} (h : s.onlyTakes t) : s.keepsHolders t :=
  of_leases (fun p => by rw [(h.port p).rest]) (fun r p hr => by rw [h.rest] at hr; cases r <;> exact hr)
    (fun l => (h.line l).1) fun _ he => h.queue.subset he

/-- A change of the line records that leaves leases alone. -/
theorem mapLines (s : State) (g : Line → LineRecord → LineRecord) (h : ∀ l r, (g l r).lease = r.lease) :
    s.keepsHolders (s.mapLines g) := by
  refine of_leases (fun p => by rw [State.mapLines_port]) (fun r p hr => ?_) (fun l => by rw [State.mapLines_line]; exact h l _)
    fun e he => by rwa [State.mapLines_queue] at he
  cases r
  · exact (s.mapLines_timeAuthority g).symm.trans hr
  · exact (s.mapLines_supervisor g).symm.trans hr

/-- The law of holders survives. -/
theorem holdersAttached {s t : State} (h : s.keepsHolders t) (hs : s.holdersAttached) : t.holdersAttached := by
  obtain ⟨hroles, hlines, hports, hheld⟩ := hs
  have hatt : ∀ p, t.attached p = s.attached p := fun p => by unfold State.attached; rw [h.session p]
  exact ⟨fun r p hr => (hatt p).trans (hroles r p (h.role r p hr)),
    fun l p hp => (hatt p).trans (hlines l p (h.holds p l hp)), fun e he => (hatt _).trans (hports e (h.queue e he)),
    fun e he l hl => h.held e he l hl (hheld e (h.queue e he) l hl)⟩

end State.keepsHolders

/-! ## The laws of all ports -/

/-- The laws of the ports but for their links, and of holders. -/
structure State.lawful (s : State) : Prop where
  lists : ∀ p, (s.port p).listsSound
  holders : s.holdersAttached

namespace State.lawful

theorem attached_iff {s : State} {p : Port} : s.attached p = true ↔ (s.port p).session = .attached := by
  unfold State.attached
  rw [beq_iff_eq]

/-- A port with a PENDING entry is ATTACHED. -/
theorem session_of_mem {s : State} (h : s.lawful) {e : Entry} (he : e ∈ s.queue) :
    (s.port e.port).session = .attached := by
  obtain ⟨-, -, hports, -⟩ := h.holders
  exact attached_iff.1 (hports e he)

theorem entriesHeld {s : State} (h : s.lawful) : s.entriesHeld := by
  obtain ⟨-, -, -, hheld⟩ := h.holders
  exact hheld

/-- Other fields of the state, and the ports' sessions, stay. -/
theorem of_keeps {s t : State} (h : s.lawful) (hk : s.keepsHolders t) (hl : ∀ p, (t.port p).listsSound) : t.lawful :=
  ⟨hl, hk.holdersAttached h.holders⟩

theorem modifyPort {s : State} (h : s.lawful) (p : Port) (g : PortState → PortState) (hl : (g (s.port p)).listsSound)
    (hs : (g (s.port p)).session = (s.port p).session) : (s.modifyPort p g).lawful := by
  refine h.of_keeps (.modifyPort s p g hs) fun q => ?_
  rw [State.modifyPort_port]
  split
  · exact hl
  · exact h.lists q

theorem mapPorts {s : State} (h : s.lawful) (g : Port → PortState → PortState)
    (hl : ∀ q, (g q (s.port q)).listsSound ∧ (g q (s.port q)).session = (s.port q).session) : (s.mapPorts g).lawful := by
  refine h.of_keeps (.mapPorts s g fun q => (hl q).2) fun q => ?_
  rw [State.mapPorts_port]
  exact (hl q).1

theorem raise_session (k : EventKind) (ps : PortState) : (ps.raise k).session = ps.session := by
  rw [PortState.raise_frame]

theorem offer_session (body : CaptureBody) (time : Time) (ps : PortState) : (ps.offer body time).session = ps.session := by
  rw [(PortState.onlyTakes.offer body time ps).rest]

theorem raiseSlewDone_session (r : SlewResult) (ps : PortState) : (ps.raiseSlewDone r).session = ps.session := by
  unfold PortState.raiseSlewDone
  split <;> rfl

theorem raiseBatchDone_session (r : BatchResult) (ps : PortState) : (ps.raiseBatchDone r).session = ps.session := by
  unfold PortState.raiseBatchDone
  split <;> rfl

/-- A raise at some ports, of a kind without a result. -/
theorem raiseWhere {s : State} (h : s.lawful) (k : EventKind) (hb : k ≠ .batchDone) (hs : k ≠ .slewDone)
    (c : Port → PortState → Prop) [∀ q ps, Decidable (c q ps)] :
    (s.mapPorts fun q ps => if c q ps then ps.raise k else ps).lawful := by
  refine h.mapPorts _ fun q => ?_
  split
  · exact ⟨(h.lists q).raise k hb hs, raise_session k _⟩
  · exact ⟨h.lists q, rfl⟩

theorem raiseAt {s : State} (h : s.lawful) (p : Port) (k : EventKind) (hb : k ≠ .batchDone) (hs : k ≠ .slewDone) :
    (s.modifyPort p (PortState.raise k)).lawful :=
  h.modifyPort p _ ((h.lists p).raise k hb hs) (raise_session k _)

/-- A change of shadow levels, forces or terms. -/
theorem mapLines {s : State} (h : s.lawful) (g : Line → LineRecord → LineRecord) (hg : ∀ l r, (g l r).lease = r.lease) :
    (s.mapLines g).lawful :=
  h.of_keeps (.mapLines s g hg) fun q => by rw [State.mapLines_port]; exact h.lists q

/-! ### Retirement -/

/-- A report filed for an entry of an ATTACHED port. -/
theorem fileReport {s : State} (h : s.lawful) (e : Entry) (o : Outcome) (ha : (s.port e.port).session = .attached) :
    (s.fileReport e o).lawful := by
  rw [State.fileReport_eq]
  split
  · exact h
  · exact h.modifyPort _ _ ((h.lists _).takeReports _ fun _ => by rw [ha]; nofun) (PortState.takeReports_session ..)

theorem erase {s : State} (h : s.lawful) (e : Entry) : State.lawful { s with queue := s.queue.erase e } :=
  h.of_keeps (.of_takes (.erase s e)) h.lists

/-- A PENDING entry that retires. -/
theorem retire {s : State} (h : s.lawful) {e : Entry} (he : e ∈ s.queue) (o : Outcome) : (s.retire e o).lawful :=
  (h.erase e).fileReport e o (h.session_of_mem he)

theorem retiring {s : State} (h : s.lawful) (f : Entry → Bool) (o : Outcome) (ho : o ≠ .done) : (s.retiring f o).lawful := by
  refine h.of_keeps (by rw [← State.retireAll_filter _ _ _ ho]; exact .of_takes (.retireAll ..)) fun q => ?_
  rw [State.retiring_port]
  refine (h.lists q).takeReports _ fun hne => ?_
  rw [ne_eq, List.map_eq_nil_iff] at hne
  obtain ⟨e, he⟩ := List.exists_mem_of_ne_nil _ hne
  rw [List.mem_filter, Bool.and_eq_true, beq_iff_eq] at he
  obtain ⟨hmem, -, hport⟩ := he
  rw [← hport, h.session_of_mem hmem]
  nofun

theorem retireAll_filter {s : State} (h : s.lawful) (f : Entry → Bool) (o : Outcome) (ho : o ≠ .done) :
    (s.retireAll (s.queue.filter f) o).lawful := by
  rw [State.retireAll_filter _ _ _ ho]
  exact h.retiring f o ho

/-- Line records on which no lease is won and every PENDING entry keeps its line. -/
theorem withLines {s : State} (h : s.lawful) (lines : Vector LineRecord 16)
    (hholds : ∀ p l, State.holds { s with lines := lines } p l = true → s.holds p l = true)
    (hheld : ∀ e ∈ s.queue, ∀ l, e.action.line? = some l → s.holds e.port l = true →
      State.holds { s with lines := lines } e.port l = true) : State.lawful { s with lines := lines } :=
  h.of_keeps ⟨fun _ => rfl, fun r p hp => by cases r <;> exact hp, hholds, fun _ he => he, hheld⟩ h.lists

/-- Leases that end take the entries on their lines with them (02 R29, R30). -/
theorem endLeases {s : State} (h : s.lawful) (m : LineSet) (o : Outcome) (ho : o ≠ .done) : (s.endLeases m o).lawful := by
  have hsame : ∀ p l, (s.retiring (namesLineIn (s.leasedIn m)) o).holds p l = s.holds p l :=
    State.holds_congr (by simp only [State.retiring])
  have hkeep : ∀ e ∈ (s.retiring (namesLineIn (s.leasedIn m)) o).queue, ∀ l, e.action.line? = some l →
      s.holds e.port l = true → m[l] = false := by
    intro e he l hl hs
    rw [State.retiring_queue, List.mem_filter, Bool.not_eq_true'] at he
    have hnot : (s.leasedIn m)[l] = false := by
      have hnames := he.2
      simp only [namesLineIn, hl] at hnames
      exact hnames
    rwa [State.leasedIn, bitsWhere_getElem, State.leased_of_holds hs, Bool.and_true] at hnot
  rw [State.endLeases_eq _ _ _ ho]
  have hr := h.retiring (namesLineIn (s.leasedIn m)) o ho
  generalize s.retiring (namesLineIn (s.leasedIn m)) o = u at hr hsame hkeep ⊢
  have hafter := fun p l => State.holds_linesAfterEnds (s := s) (t := { u with lines := s.linesAfterEnds m }) (m := m) rfl p l
  refine hr.withLines _ (fun p l hl => ?_) fun e he l hl hs => ?_
  · rw [hafter, Bool.and_eq_true] at hl
    rw [hsame]
    exact hl.1
  · rw [hsame] at hs
    rw [hafter, hs, hkeep e he l hl hs]
    rfl

/-! ### The executor -/

theorem consumeArm {ps : PortState} (h : ps.listsSound) (e : Entry) (c : Channel) : (ps.consumeArm e c).listsSound := by
  unfold PortState.consumeArm
  split
  · exact h.withArms ps.arms ps.lateGuard h.arms fun ha => (h.emptied.1 ha).2.1
  · exact h.maskArms _

theorem guardTest {s s1 : State} (h : s.lawful) (e : Entry) (hg : s.guardTest e = some s1) : s1.lawful := by
  unfold State.guardTest at hg
  split at hg
  · cases hg
    exact h
  · split at hg
    · split at hg
      · cases hg
        exact h.modifyPort _ _ (consumeArm (h.lists _) _ _) rfl
      · cases hg
        exact h
    · cases hg

/-- A note is offered to ATTACHED ports only (07 R131). -/
theorem deliverNote {s : State} (h : s.lawful) (p : Port) (v : Half) (ts : PortSet) (now : Time) :
    (s.deliverNote p v ts now).lawful := by
  refine h.mapPorts _ fun q => ?_
  split
  · next hc => exact ⟨(h.lists q).offer hc.1 _ _, offer_session ..⟩
  · exact ⟨h.lists q, rfl⟩

theorem applyLevel {s : State} (h : s.lawful) (l : Line) (g : Level → Level) : (s.applyLevel l g).1.lawful :=
  h.of_keeps (.of_takes (.applyLevel s l g)) h.lists

theorem applyAction {s : State} (h : s.lawful) (e : Entry) : (s.applyAction e).1.lawful := by
  unfold State.applyAction
  split
  case h_6 => exact h.deliverNote ..
  all_goals exact h.applyLevel ..

theorem retireGuardFalse {s : State} (h : s.lawful) {e : Entry} (he : e ∈ s.queue) : (s.retireGuardFalse e).lawful := by
  have h1 := h.retire he .guardFalse
  unfold State.retireGuardFalse
  split
  · dsimp only
    split
    · next t ht => exact h1.retire (List.mem_of_find?_eq_some ht) _
    · exact h1
  · exact h1

theorem takeEntry {s : State} (h : s.lawful) {e : Entry} (he : e ∈ s.queue) : (s.takeEntry e).lawful := by
  unfold State.takeEntry
  split
  · exact h.retireGuardFalse he
  · next s1 hg =>
    refine ((h.guardTest e hg).applyAction e).retire ?_ _
    rw [State.applyAction_queue, State.guardTest_queue _ _ _ hg]
    exact he

theorem takeDue {s : State} (h : s.lawful) : s.takeDue.lawful := by
  unfold State.takeDue
  split
  · exact h
  · next e he => exact h.takeEntry (State.dueHead_some _ _ he).1

theorem sweep {s : State} (h : s.lawful) (es : List Entry) : (s.sweep es).lawful := by
  induction es generalizing s with
  | nil => exact h
  | cons e es ih =>
    have hstep : (if e ∈ s.queue then s.takeEntry e else s).lawful := by
      split
      · next he => exact h.takeEntry he
      · exact h
    exact ih hstep

/-! ### Steps, expiries and batches -/

theorem stepBegun {s : State} (h : s.lawful) (offset : Int) : (s.stepBegun offset).lawful := by
  have hport := s.stepBegun_port offset
  have hcancel : ∀ q, (if s.slew ≠ none ∧ s.timeAuthority = some q then (s.port q).raiseSlewDone .cancelled
      else s.port q).listsSound ∧ (if s.slew ≠ none ∧ s.timeAuthority = some q then (s.port q).raiseSlewDone .cancelled
      else s.port q).session = (s.port q).session := by
    intro q
    split
    · exact ⟨(h.lists q).raiseSlewDone _, raiseSlewDone_session ..⟩
    · exact ⟨h.lists q, rfl⟩
  have hboth : ∀ q, ((s.stepBegun offset).port q).listsSound ∧
      ((s.stepBegun offset).port q).session = (s.port q).session := by
    intro q
    obtain ⟨hlists, hsession⟩ := hcancel q
    rw [hport]
    dsimp only
    split
    · next ha => exact ⟨hlists.offer (hsession.trans ha) _ _, (offer_session ..).trans hsession⟩
    · exact ⟨hlists, hsession⟩
  refine h.of_keeps (.of_leases (fun q => (hboth q).2) (fun r p hr => ?_) (fun l => ?_) fun e he => ?_) fun q => (hboth q).1
  · rw [State.stepBegun_rest] at hr
    cases r <;> exact hr
  · rw [State.stepBegun_rest]
    rfl
  · rw [State.stepBegun_rest] at he
    exact he

theorem stepMove {s : State} (h : s.lawful) (offset : Int) (mode : StepMode) : (s.stepMove offset mode).lawful := by
  cases mode with
  | sweep => exact (h.stepBegun offset).sweep _
  | skip =>
    have hq : (s.stepBegun offset).queue = s.queue := by rw [State.stepBegun_rest]
    rw [State.stepMove_skip, overtaken, ← hq]
    exact (h.stepBegun offset).retireAll_filter _ _ (by decide)

theorem expireLease {s : State} (h : s.lawful) (l : Line) : (s.expireLease l).lawful := by
  unfold State.expireLease
  split
  · split
    · exact (h.endLeases _ _ (by decide)).raiseAt _ _ (by decide) (by decide)
    · exact h
  · exact h

theorem freeBatch {s : State} (h : s.lawful) (p : Port) : (s.freeBatch p).lawful :=
  h.modifyPort p _ (h.lists p).freed rfl

/-- Entries of an ATTACHED port on lines that it holds enter PENDING. -/
theorem enqueue {s : State} (h : s.lawful) (es : List Entry) (p : Port) (ha : (s.port p).session = .attached)
    (hes : ∀ e ∈ es, e.port = p ∧ ∀ l, e.action.line? = some l → s.holds p l = true) : (s.enqueue es).lawful := by
  obtain ⟨hlists, hroles, hlines, hports, hheld⟩ := h
  have hmem : ∀ e ∈ (s.enqueue es).queue, e ∈ es ∨ e ∈ s.queue := by
    clear hes
    rw [State.enqueue_eq]
    dsimp only
    generalize s.queue = queue
    induction es generalizing queue with
    | nil => exact fun e he => .inr he
    | cons x es ih =>
      intro e he
      rcases ih _ e he with hc | hc
      · exact .inl (List.mem_cons_of_mem _ hc)
      · rcases List.mem_cons.1 ((insertEntry_perm _ _ _).mem_iff.1 hc) with rfl | hc
        · exact .inl List.mem_cons_self
        · exact .inr hc
  have hholds : ∀ q l, (s.enqueue es).holds q l = s.holds q l := State.holds_congr (by rw [State.enqueue_eq])
  have hport : ∀ q, (s.enqueue es).port q = s.port q := fun q => by rw [State.enqueue_eq]; rfl
  have hatt : ∀ q, (s.enqueue es).attached q = s.attached q := fun q => by unfold State.attached; rw [hport]
  refine ⟨fun q => by rw [hport]; exact hlists q, fun r q hr => ?_, fun l q hq => ?_, fun e he => ?_, fun e he l hl => ?_⟩
  · rw [State.enqueue_eq] at hr
    exact (hatt q).trans (hroles r q (by cases r <;> exact hr))
  · exact (hatt q).trans (hlines l q (by rwa [hholds] at hq))
  · rw [hatt]
    rcases hmem e he with hc | hc
    · rw [(hes e hc).1]
      exact attached_iff.2 ha
    · exact hports e hc
  · rw [hholds]
    rcases hmem e he with hc | hc
    · obtain ⟨hp, hl'⟩ := hes e hc
      rw [hp]
      exact hl' l hl
    · exact hheld e hc l hl

theorem abortEntries {s : State} (h : s.lawful) (f : Entry → Option Outcome) (es : List Entry)
    (ha : ∀ e ∈ es, (s.port e.port).session = .attached) : (s.abortEntries f es).lawful := by
  induction es generalizing s with
  | nil => exact h
  | cons e es ih =>
    refine ih (h.fileReport e _ (ha e List.mem_cons_self)) fun x hx => ?_
    rw [((State.onlyTakes.fileReport s e _).port x.port).rest]
    exact ha x (List.mem_cons_of_mem _ hx)

/-- A batch whose validation is due is not empty, so that its port is ATTACHED (05 R83, 08 R133). -/
theorem attached_of_due {s : State} (h : s.lawful) {p : Port} (hd : s.validationDue p = true) :
    (s.port p).session = .attached := by
  have htarget : (s.port p).batch.target ≠ none := by
    intro hc
    rw [State.validationDue, hc] at hd
    cases hd
  exact Decidable.byContradiction fun hna => (h.lists p).armed htarget ((h.lists p).emptied.1 hna).2.2

theorem validationCause_held {p : Port} {s : State} {e : Entry} (h : (validationCause p s e).isNone = true) {l : Line}
    (hl : e.action.line? = some l) : s.holds p l = true := by
  unfold validationCause at h
  split at h
  · cases h
  · next hc =>
    simpa [entryIsHeld, hl] using hc

theorem validate {s : State} (h : s.lawful) (hhome : s.entriesAtHome) {p : Port} (hd : s.validationDue p = true) :
    (s.validate p).lawful := by
  have ha := h.attached_of_due hd
  have hfree := h.freeBatch p
  have hsession : ∀ q, ((s.freeBatch p).port q).session = (s.port q).session :=
    (State.keepsHolders.modifyPort s p (fun ps => { ps with batch := .cleared }) rfl).session
  have hown : ∀ e ∈ (s.port p).batch.staged, e.port = p := (hhome p).1
  have hdone : ∀ {t : State} (r : BatchResult), t.lawful → (t.modifyPort p (PortState.raiseBatchDone r)).lawful :=
    fun r ht => ht.modifyPort p _ ((ht.lists p).raiseBatchDone r) (raiseBatchDone_session ..)
  unfold State.validate
  dsimp only
  split
  · next hall =>
    rw [List.all_eq_true] at hall
    exact hdone _ (hfree.enqueue _ p ((hsession p).trans ha) fun e he =>
      ⟨hown e he, fun l hl => validationCause_held (hall e he) hl⟩)
  · refine hdone _ (hfree.abortEntries _ _ fun e he => ?_)
    rw [hsession, hown e he]
    exact ha

/-! ### Requests -/

/-- Lines that no other port holds are leased to an ATTACHED port (02 R25, R26). -/
theorem grant {s : State} (h : s.lawful) {p : Port} (ha : (s.port p).session = .attached) {m : LineSet}
    (hway : linesInTheWay p m s = 0) (term : Option Nat) (f : Failsafe) : (s.grant p m term f).lawful := by
  obtain ⟨hlists, hroles, hlines, hports, hheld⟩ := h
  have hport : ∀ q, (s.grant p m term f).port q = s.port q := s.mapLines_port _
  have hatt : ∀ q, (s.grant p m term f).attached q = s.attached q := fun q => by unfold State.attached; rw [hport]
  have hline : ∀ l, (s.grant p m term f).line l =
      if m[l] then { s.line l with lease := some ⟨p, .start term, f⟩ } else s.line l := s.mapLines_line _
  have hholds : ∀ q l, (s.grant p m term f).holds q l = if m[l] then p == q else s.holds q l := by
    intro q l
    unfold State.holds
    rw [hline]
    by_cases hm : m[l] = true
    · rw [if_pos hm, if_pos hm]
    · rw [if_neg hm, if_neg hm]
  refine ⟨fun q => by rw [hport]; exact hlists q, fun r q hr => ?_, fun l q hq => ?_, fun e he => ?_, fun e he l hl => ?_⟩
  · refine (hatt q).trans (hroles r q ?_)
    cases r
    · exact (s.mapLines_timeAuthority _).symm.trans hr
    · exact (s.mapLines_supervisor _).symm.trans hr
  · rw [hatt]
    rw [hholds] at hq
    split at hq
    · rw [← beq_iff_eq.1 hq]
      exact attached_iff.2 ha
    · exact hlines l q hq
  · exact (hatt _).trans (hports e (by rwa [State.grant, State.mapLines_queue] at he))
  · have hq := hheld e (by rwa [State.grant, State.mapLines_queue] at he) l hl
    rw [hholds]
    split
    · next hm =>
      have hfree := (bitsWhere_eq_zero _).1 hway l
      rw [hm, Bool.true_and] at hfree
      unfold State.heldByOther at hfree
      unfold State.holds at hq
      split at hq
      · next x hx =>
        rw [hx] at hfree
        rw [beq_iff_eq] at hq ⊢
        exact (bne_eq_false_iff_eq.1 hfree).symm.trans hq
      · cases hq
    · exact hq

theorem raiseRoleChanged {s : State} (h : s.lawful) (cause : Port) : (s.raiseRoleChanged cause).lawful :=
  h.raiseWhere .roleChanged (by decide) (by decide) fun q ps => ps.session = .attached ∧ q ≠ cause

/-- A role given to an ATTACHED port. -/
theorem giveRole {s : State} (h : s.lawful) {p : Port} (ha : (s.port p).session = .attached) (r : Role) :
    (s.giveRole r p).lawful := by
  obtain ⟨hlists, hroles, hlines, hports, hheld⟩ := h
  have hholder : ∀ r' q, (s.giveRole r p).holder r' = some q → q = p ∨ s.holder r' = some q := by
    intro r' q hq
    cases r <;> cases r'
    · exact .inl (Option.some.inj hq).symm
    · exact .inr hq
    · exact .inr hq
    · exact .inl (Option.some.inj hq).symm
  have hrest : ∃ a b, s.giveRole r p = { s with timeAuthority := a, supervisor := b } := by
    cases r
    · exact ⟨_, _, rfl⟩
    · exact ⟨_, _, rfl⟩
  obtain ⟨a, b, hrest⟩ := hrest
  rw [hrest] at hholder ⊢
  refine ⟨hlists, fun r' q hq => ?_, hlines, hports, hheld⟩
  rcases hholder r' q hq with rfl | hq
  · exact attached_iff.2 ha
  · exact hroles r' q hq

theorem dropRole {s : State} (h : s.lawful) (r : Role) (cause : Port) : (s.dropRole r cause).lawful := by
  cases r
  · refine raiseRoleChanged (h.of_keeps (t := { s with timeAuthority := none, slew := none })
      (.of_leases (fun _ => rfl) (fun r p hr => ?_) (fun _ => rfl) fun _ he => he) h.lists) cause
    cases r
    · cases hr
    · exact hr
  · refine raiseRoleChanged (h.of_keeps (t := { s with supervisor := none })
      (.of_leases (fun _ => rfl) (fun r p hr => ?_) (fun _ => rfl) fun _ he => he) h.lists) cause
    cases r
    · exact hr
    · cases hr

/-- The law of holders where one port has lost everything that it held and its entries, and no other port its session. -/
theorem holdersAttached_of_teardown {s t : State} {p : Port} (h : s.holdersAttached)
    (hta : t.timeAuthority = if s.timeAuthority = some p then none else s.timeAuthority)
    (hsup : t.supervisor = if s.supervisor = some p then none else s.supervisor)
    (hlines : t.lines = s.linesAfterEnds (s.heldLines p)) (hqueue : t.queue = s.queue.filter fun e => e.port != p)
    (hsession : ∀ q, q ≠ p → (t.port q).session = (s.port q).session) : t.holdersAttached := by
  obtain ⟨hroles, hheldBy, hports, hheld⟩ := h
  have hatt : ∀ q, q ≠ p → s.attached q = true → t.attached q = true := fun q hq hs =>
    attached_iff.2 ((hsession q hq).trans (attached_iff.1 hs))
  have hholds : ∀ q l, t.holds q l = (s.holds q l && !s.holds p l) := by
    intro q l
    rw [State.holds_linesAfterEnds hlines, State.heldLines, bitsWhere_getElem]
  have hrole : ∀ (o : Option Port) q, (if o = some p then none else o) = some q → q ≠ p ∧ o = some q := by
    intro o q ho
    split at ho
    · cases ho
    · next hne => exact ⟨fun hc => hne (hc ▸ ho), ho⟩
  refine ⟨fun r q hr => ?_, fun l q hq => ?_, fun e he => ?_, fun e he l hl => ?_⟩
  · cases r
    · obtain ⟨hne, hs⟩ := hrole _ q (hta.symm.trans hr)
      exact hatt q hne (hroles .timeAuthority q hs)
    · obtain ⟨hne, hs⟩ := hrole _ q (hsup.symm.trans hr)
      exact hatt q hne (hroles .supervisor q hs)
  · rw [hholds, Bool.and_eq_true, Bool.not_eq_true'] at hq
    obtain ⟨hs, hnp⟩ := hq
    refine hatt q (fun hc => ?_) (hheldBy l q hs)
    rw [hc, hnp] at hs
    cases hs
  · rw [hqueue, List.mem_filter, bne_iff_ne] at he
    exact hatt _ he.2 (hports e he.1)
  · rw [hqueue, List.mem_filter, bne_iff_ne] at he
    have hs := hheld e he.1 l hl
    rw [hholds, hs, Bool.true_and, Bool.not_eq_true', ← Bool.not_eq_true]
    exact fun hc => he.2 (State.holds_unique s _ _ l hs hc)

/-- ROLE_CHANGED where a port hears of roles that another has lost. -/
theorem toldRoles {ps : PortState} (h : ps.listsSound) (c : Prop) [Decidable c] :
    PortState.listsSound (if c then { ps with events := ps.events ||| EventKind.roleChanged.mask } else ps) ∧
      (if c then ({ ps with events := ps.events ||| EventKind.roleChanged.mask } : PortState) else ps).session =
        ps.session := by
  split
  · exact ⟨h.congr rfl (sameResults_or _ (by decide) (by decide)), rfl⟩
  · exact ⟨h, rfl⟩

theorem closePort {s : State} (h : s.lawful) (p : Port) : ((s.closeWork p).modifyPort p PortState.closed).lawful := by
  have hown : ((s.closeWork p).modifyPort p PortState.closed).port p = (s.port p).closed := by
    rw [State.modifyPort_port_same, State.closeWork_port_same, PortState.closed_takeReports]
  have hother : ∀ q, q ≠ p → (((s.closeWork p).modifyPort p PortState.closed).port q).listsSound ∧
      (((s.closeWork p).modifyPort p PortState.closed).port q).session = (s.port q).session := by
    intro q hq
    rw [State.modifyPort_port_ne _ _ hq, s.closeWork_port_other h.entriesHeld hq, State.dropRoles_port]
    exact toldRoles (h.lists q) _
  have hrest := s.closeWork_rest p h.entriesHeld
  refine ⟨fun q => ?_, holdersAttached_of_teardown h.holders (by rw [State.modifyPort_timeAuthority, hrest])
    (by rw [State.modifyPort_supervisor, hrest]) (by rw [State.modifyPort_lines, hrest])
    (by rw [State.modifyPort_queue, hrest]) fun q hq => (hother q hq).2⟩
  by_cases hq : q = p
  · rw [hq, hown]
    exact .closed _
  · exact (hother q hq).1

theorem fence {s : State} (h : s.lawful) {t : Port} (cause : Port) (ha : (s.port t).session = .attached) :
    (s.fence t cause).lawful := by
  have hother : ∀ q, q ≠ t → ((s.fence t cause).port q).listsSound ∧
      ((s.fence t cause).port q).session = (s.port q).session := by
    intro q hq
    rw [s.fence_port_other cause h.entriesHeld hq]
    exact toldRoles (h.lists q) _
  have hrest := s.fence_rest t cause h.entriesHeld
  refine ⟨fun q => ?_, holdersAttached_of_teardown h.holders (by rw [hrest]) (by rw [hrest]) (by rw [hrest]) (by rw [hrest])
    fun q hq => (hother q hq).2⟩
  by_cases hq : q = t
  · have hdet : (s.port t).session ≠ .detached := by rw [ha]; nofun
    rw [hq, s.fence_port_same t cause h.entriesHeld, PortState.fencedOff_takeReports _ _ hdet]
    exact (((h.lists t).takeReports _ fun _ => hdet).fenced).congr rfl (sameResults_or _ (by decide) (by decide))
  · exact (hother q hq).1

end State.lawful

end Sys2Proof.Machine
end

section
/-! SUPPORT. Everything the part does keeps the laws of the ports but for their links, of holders and of homes (O55). -/

namespace Sys2Proof.Machine

/-! ## Entries stand at home -/

theorem State.setQuota_entriesAtHome (s : State) (t : Port) (n : Nat) (hs : s.entriesAtHome) :
    (s.modifyPort t fun ps => { ps with quota := n }).entriesAtHome := by
  intro q
  rw [State.modifyPort_port]
  split
  · next h => subst h; exact hs q
  · exact hs q

theorem entriesAtHome_keeps : Keeps State.entriesAtHome :=
  sheds_keeps _ (fun _ _ h => h.home) (fun s _ => s.released_entriesAtHome)
    (fun s p _ _ _ => (State.gains.enqueue s p _ fun _ he => (descEntries_mem he).1).home)
    (fun s p _ _ _ => (State.gains.addStaged s p _ fun _ he => (descEntries_mem he).1).home)
    (fun s _ t n _ _ => s.setQuota_entriesAtHome t n)

/-! ## The operations of the owners -/

namespace State.lawful

theorem talks {s : State} (h : s.lawful) (p : Port) (g : PortState → PortState) (ht : (s.port p).onlyTalks (g (s.port p))) :
    (s.modifyPort p g).lawful :=
  h.modifyPort p g ((h.lists p).talks ht) (by rw [ht.rest])

/-- Fields of a port that no law names. -/
theorem unnamed {s : State} (h : s.lawful) (p : Port) (g : PortState → PortState)
    (hg : g (s.port p) = { s.port p with
      strobe := (g (s.port p)).strobe, strobeRose := (g (s.port p)).strobeRose, lateGuard := (g (s.port p)).lateGuard
      mask := (g (s.port p)).mask, quota := (g (s.port p)).quota }) : (s.modifyPort p g).lawful :=
  h.modifyPort p g ((h.lists p).congr (by rw [hg]) (by rw [hg]; exact ⟨rfl, rfl⟩)) (by rw [hg])

/-- Fields of the state that no law names. -/
theorem same {s t : State} (h : s.lawful) (hports : t.ports = s.ports) (hlines : t.lines = s.lines)
    (hqueue : t.queue = s.queue) (hta : t.timeAuthority = s.timeAuthority) (hsup : t.supervisor = s.supervisor) :
    t.lawful := by
  have hport : ∀ p, t.port p = s.port p := fun p => congrArg (fun f => f.get p) hports
  refine h.of_keeps (.of_leases (fun p => by rw [hport]) (fun r p hr => ?_) (fun l => ?_) fun e he => by rwa [hqueue] at he)
    fun p => by rw [hport]; exact h.lists p
  · cases r
    · exact hta.symm.trans hr
    · exact hsup.symm.trans hr
  · unfold State.line
    rw [hlines]

theorem revoke {s : State} (h : s.lawful) (m : LineSet) : (revokeLinesOwner m s).state.lawful :=
  (h.endLeases m .revoked (by decide)).raiseWhere .leaseRevoked (by decide) (by decide)
    fun p _ => s.holdsIn p m = true

theorem setForce {s : State} (h : s.lawful) (m : LineSet) (f : Option Level) : (s.setForce m f).lawful :=
  h.mapLines _ fun l r => by split <;> rfl

/-- The STAGED entries that stay after a CANCEL; an ARMED batch loses none (03 R58). -/
theorem unstage {s : State} (h : s.lawful) (p : Port) (tag : Half)
    (hkeep : stagedTagged p tag s = [] ∨ (s.port p).batch.target = none) :
    ((s.retireAll (pendingTagged p tag s) .cancelled).modifyPort p (PortState.unstage tag)).lawful := by
  have hpending : pendingTagged p tag s = s.queue.filter fun e => e.port == p && e.tag == tag := by
    rw [pendingTagged, State.pendingOf, List.filter_filter]
    exact List.filter_congr fun e _ => Bool.and_comm ..
  rw [hpending]
  have hr := h.retireAll_filter (fun e => e.port == p && e.tag == tag) .cancelled (by decide)
  have hbatch : ((s.retireAll (s.queue.filter fun e => e.port == p && e.tag == tag) .cancelled).port p).batch =
      (s.port p).batch := by
    rw [State.retireAll_filter _ _ _ (by decide), State.retiring_port, PortState.takeReports_batch]
  refine hr.modifyPort p _ ((hr.lists p).withBatch _ ?_ ?_ ?_) rfl
  · exact (List.length_filter_le ..).trans (hr.lists p).sizes.2.2.2
  · rw [hbatch]
    intro htarget
    rcases hkeep with hnone | hnone
    · have hall : (s.port p).batch.staged.filter (fun e => e.tag != tag) = (s.port p).batch.staged := by
        rw [List.filter_eq_self]
        intro e he
        rw [stagedTagged, List.filter_eq_nil_iff] at hnone
        simpa using hnone e he
      rw [hall]
      exact (h.lists p).armed htarget
    · exact absurd hnone htarget
  · intro hna
    rw [((hr.lists p).emptied.1 hna).2.2]
    rfl

theorem cancelOn {s : State} (h : s.lawful) (p : Port) (m : LineSet) :
    (s.retireAll (pendingOnLines p m s) .cancelled).lawful := by
  have hpending : pendingOnLines p m s = s.queue.filter fun e => e.port == p && namesLineIn m e := by
    rw [pendingOnLines, State.pendingOf, List.filter_filter]
    exact List.filter_congr fun e _ => Bool.and_comm ..
  rw [hpending]
  exact h.retireAll_filter _ .cancelled (by decide)

/-- Entries staged at an ATTACHED port within the batch's size (05 R86). -/
theorem stage {s : State} (h : s.lawful) {p : Port} (es : List Entry) (ha : (s.port p).session = .attached)
    (hroom : (s.port p).batch.staged.length + es.length ≤ Config.batchSlots) :
    (s.modifyPort p (PortState.addStaged es)).lawful := by
  refine h.modifyPort p _ ((h.lists p).withBatch _ ?_ (fun ht hc => ?_) fun hna => absurd ha hna) rfl
  · rw [List.length_append]
    exact hroom
  · exact (h.lists p).armed ht (List.append_eq_nil_iff.1 hc).1

/-- A batch that is OPEN holds an entry. -/
theorem arm {s : State} (h : s.lawful) {p : Port} (t : FrameIndex) (ho : (s.port p).batch.state = .opened) :
    (s.modifyPort p (PortState.arm t)).lawful := by
  refine h.modifyPort p _ ((h.lists p).withBatch _ (h.lists p).sizes.2.2.2 (fun _ hc => ?_) fun hna =>
    ((h.lists p).emptied.1 hna).2.2) rfl
  unfold Batch.state at ho
  split at ho
  · cases ho
  · next ht =>
    rw [hc] at ho
    cases ho

/-- A port that OPEN attaches held nothing before (08 R133). -/
theorem openPort {s : State} (h : s.lawful) (p : Port) :
    (s.modifyPort p fun ps => { ps with session := .attached }).lawful := by
  obtain ⟨hlists, hroles, hlines, hports, hheld⟩ := h
  have hatt : ∀ q, s.attached q = true → (s.modifyPort p fun ps => { ps with session := .attached }).attached q = true := by
    intro q hq
    unfold State.attached
    rw [State.modifyPort_port]
    split
    · rfl
    · exact hq
  refine ⟨fun q => ?_, fun r q hr => hatt q (hroles r q (by cases r <;> exact hr)), fun l q hq => hatt q (hlines l q hq),
    fun e he => hatt _ (hports e he), hheld⟩
  rw [State.modifyPort_port]
  split
  · next hq => subst hq; exact (hlists q).opened
  · exact hlists q

theorem readTime {s : State} (h : s.lawful) (p : Port) : (readTimeOwner p s).state.lawful :=
  h.unnamed p (fun ps => { ps with strobe := ⟨ps.strobe.time, false, false⟩ }) rfl

theorem subscribe {s : State} (h : s.lawful) (p : Port) (m : ChannelSet) (ha : (s.port p).session = .attached) :
    (subscribeOwner p m s).state.lawful :=
  h.modifyPort p (fun ps => { ps with subscription := m, arms := ps.arms &&& (ps.subscription &&& m) })
    ((h.lists p).subscribed m ha) rfl

theorem readCaptures {s : State} (h : s.lawful) (p : Port) (n : Nat) : (readCapturesOwner p n s).state.lawful :=
  h.modifyPort p (fun ps => { ps with log := ps.log.drop n }) ((h.lists p).logDropped n) rfl

theorem clearArms {s : State} (h : s.lawful) (p : Port) (m : ChannelSet) : (clearArmsOwner p m s).state.lawful :=
  h.modifyPort p (fun ps => { ps with arms := ps.arms &&& ~~~m }) ((h.lists p).maskArms _) rfl

theorem readEvents {s : State} (h : s.lawful) (p : Port) (m : EventSet) : (readEventsOwner p m s).state.lawful :=
  h.modifyPort p (PortState.clearEvents ((s.port p).events &&& m)) ((h.lists p).clearEvents _) rfl

theorem setEventMask {s : State} (h : s.lawful) (p : Port) (m : EventSet) : (setEventMaskOwner p m s).state.lawful :=
  h.unnamed p (fun ps => { ps with mask := m }) rfl

theorem finishTaking {s : State} (h : s.lawful) (p : Port) (bytes : List Byte) (r : ResultCode) (data : List Byte) :
    (s.finishTaking p bytes r data).lawful := by
  have hport := fun q => PortState.onlyTalks.finishTaking s p q bytes r data
  exact h.of_keeps (.of_leases (fun q => by rw [(hport q).rest]) (fun r _ hr => by cases r <;> exact hr) (fun _ => rfl)
    fun _ he => he) fun q => (h.lists q).talks (hport q)

/-- Every entry of a descriptor names the descriptor's line. -/
theorem descEntries_line {p : Port} {x : Descriptor} {e : Entry} (h : e ∈ descEntries p x) :
    e.action.line? = descLine x.action := by
  unfold descEntries at h
  cases hx : x.action with
  | pulse l w =>
    simp only [hx, List.mem_cons, List.not_mem_nil, or_false] at h
    rcases h with rfl | rfl <;> rfl
  | _ =>
    simp only [hx, List.mem_singleton] at h
    subst h
    rfl

/-- The line that an admitted entry names is held (03 R56). -/
theorem descEntries_held {s : State} {p : Port} {x : Descriptor} (h : lineIsHeld p x s = true) {e : Entry}
    (he : e ∈ descEntries p x) {l : Line} (hl : e.action.line? = some l) : s.holds p l = true := by
  rw [descEntries_line he] at hl
  unfold lineIsHeld at h
  rwa [hl] at h

/-! ## Samples and cycles -/

theorem storeSample {s : State} (h : s.lawful) (c : Channel) : (s.storeSample c).lawful :=
  h.of_keeps (.of_leases (fun _ => rfl) (fun r _ hr => by cases r <;> exact hr) (fun _ => rfl) fun _ he => he) h.lists

theorem deliverEdge {s : State} (h : s.lawful) (c : Channel) (e : Edge) (time : Time) : (s.deliverEdge c e time).lawful := by
  refine h.mapPorts _ fun q => ?_
  split
  · next hc => exact ⟨((h.lists q).setArm c hc.1 hc.2).offer hc.1 _ _, offer_session ..⟩
  · exact ⟨h.lists q, rfl⟩

theorem sampleChannel {s : State} (h : s.lawful) (c : Channel) : (s.sampleChannel c).lawful := by
  unfold State.sampleChannel
  split
  · split
    · split
      · exact (h.storeSample c).deliverEdge ..
      · exact h.storeSample c
    · exact h.storeSample c
  · exact h

theorem takeStrobe {s : State} (h : s.lawful) (p : Port) : (s.takeStrobe p).lawful := by
  unfold State.takeStrobe
  split
  · have hu := h.unnamed p (fun ps => { ps with
      strobeRose := false, strobe := ⟨s.mc, true, ps.strobe.overwritten || ps.strobe.valid⟩ }) rfl
    have hraise := hu.raiseAt p .strobe (by decide) (by decide)
    rwa [State.modifyPort_modifyPort] at hraise
  · exact h

theorem handBoundary {s : State} (h : s.lawful) : s.handBoundary.lawful := by
  unfold State.handBoundary
  split
  · exact (h.same (t := { s with boundaryToHand := false }) rfl rfl rfl rfl rfl).raiseWhere .frameBoundary (by decide)
      (by decide) fun _ ps => ps.session = .attached
  · exact h

theorem synchronise {s : State} (h : s.lawful) (pins : Pins) : (s.synchronise pins).lawful := by
  have hm := h.mapPorts (fun p ps => ps.synchronise (!s.inReset && !s.freshRelease) pins.strobes[p.index]) fun q =>
    ⟨(h.lists q).congr rfl ⟨rfl, rfl⟩, rfl⟩
  exact hm.same rfl rfl rfl rfl rfl

theorem showPins {s : State} (h : s.lawful) : s.showPins.lawful := by
  have hm := h.mapPorts (fun p ps => { ps with attnShown := s.attnPin p }) fun q =>
    ⟨(h.lists q).congr rfl ⟨rfl, rfl⟩, rfl⟩
  exact hm.same rfl rfl rfl rfl rfl

theorem asserted {s : State} (h : s.lawful) : s.asserted.lawful := by
  have hm := h.mapPorts (fun _ ps => ps.abandon) fun q =>
    ⟨(h.lists q).talks (.abandon _), by rw [(PortState.onlyTalks.abandon (s.port q)).rest]⟩
  exact hm.same rfl rfl rfl rfl rfl

/-- A change of terms leaves the holders alone. -/
theorem ofTerms {s t : State} (h : s.lawful) (hl : ∀ p, (t.port p).listsSound)
    (hsession : ∀ p, (t.port p).session = (s.port p).session) (hta : t.timeAuthority = s.timeAuthority)
    (hsup : t.supervisor = s.supervisor) (hqueue : t.queue = s.queue)
    (hlease : ∀ l, (t.line l).lease.map Lease.holder = (s.line l).lease.map Lease.holder) : t.lawful := by
  have hholds : ∀ p l, t.holds p l = s.holds p l := by
    intro p l
    have hh := hlease l
    unfold State.holds
    cases ht : (t.line l).lease with
    | none =>
      rw [ht] at hh
      rw [Option.map_eq_none_iff.1 hh.symm]
    | some x =>
      rw [ht] at hh
      obtain ⟨y, hy, hxy⟩ := Option.map_eq_some_iff.1 hh.symm
      rw [hy]
      simp only [hxy]
  refine h.of_keeps ⟨hsession, fun r p hr => ?_, fun p l hp => by rwa [hholds] at hp, fun e he => by rwa [hqueue] at he,
    fun e _ l _ hp => by rwa [hholds]⟩ hl
  cases r
  · exact hta.symm.trans hr
  · exact hsup.symm.trans hr

theorem holder_map_term (g : LeaseTerm → LeaseTerm) (o : Option Lease) :
    (o.map fun x => { x with term := g x.term }).map Lease.holder = o.map Lease.holder := by
  cases o <;> rfl

theorem renew {s : State} (h : s.lawful) (m : LineSet) : (s.renew m).lawful := by
  have hport : ∀ p, (s.renew m).port p = s.port p := s.mapLines_port _
  refine h.ofTerms (fun p => by rw [hport]; exact h.lists p) (fun p => by rw [hport]) (s.mapLines_timeAuthority _)
    (s.mapLines_supervisor _) (s.mapLines_queue _) fun l => ?_
  rw [State.renew, State.mapLines_line]
  split
  · exact holder_map_term _ _
  · rfl

theorem beginCycle {s : State} (h : s.lawful) (pins : Pins) : (s.beginCycle pins).lawful := by
  have hport : ∀ p, ((s.beginCycle pins).port p).listsSound ∧
      ((s.beginCycle pins).port p).session = (s.port p).session := by
    intro p
    have hsynced : PortState.listsSound (({ s.port p with attnShown := s.attnPin p } : PortState).synchronise
        (!s.inReset && !s.freshRelease) pins.strobes[p.index]) := (h.lists p).congr rfl ⟨rfl, rfl⟩
    rw [State.beginCycle_port]
    dsimp only
    split
    · exact ⟨hsynced.raiseSlewDone _, raiseSlewDone_session ..⟩
    · exact ⟨hsynced, rfl⟩
  have hrest := State.beginCycle_rest s pins
  obtain ⟨-, -, hta, hsup, -, -⟩ := State.beginCycle_clock s pins
  refine h.ofTerms (fun p => (hport p).1) (fun p => (hport p).2) hta hsup (by rw [hrest]) fun l => ?_
  rw [State.beginCycle_line]
  exact holder_map_term _ _

theorem released (s : State) : s.released.lawful := by
  have hline : ∀ l, s.released.line l = LineRecord.atReset := fun l => Vector.getElem_ofFn ..
  refine ⟨fun p => by rw [State.released_port]; exact .released _, fun r p hr => ?_, fun l p hp => ?_, fun e he => ?_,
    fun e he => absurd he List.not_mem_nil⟩
  · cases r
    · exact absurd hr (Option.some_ne_none _).symm
    · exact absurd hr (Option.some_ne_none _).symm
  · rw [State.holds_none (congrArg LineRecord.lease (hline l))] at hp
    cases hp
  · exact absurd he List.not_mem_nil

end State.lawful

/-! ## Everything the part does -/

/-- The laws of the ports but for their links, of holders and of homes. -/
structure State.lawfulAtHome (s : State) : Prop where
  lawful : s.lawful
  home : s.entriesAtHome

theorem lawfulAtHome_keepsOwners : KeepsOwners State.lawfulAtHome where
  due s h := ⟨h.lawful.takeDue, entriesAtHome_keeps.due s h.home⟩
  readTime s p ht h := ⟨h.lawful.readTime p, entriesAtHome_keeps.readTime s p ht h.home⟩
  stepTime s p offset mode ht hf h h' :=
    ⟨h'.lawful.stepMove offset mode, entriesAtHome_keeps.stepTime s p offset mode ht hf h.home h'.home⟩
  setRate s p k n ht h := ⟨h.lawful.same rfl rfl rfl rfl rfl, entriesAtHome_keeps.setRate s p k n ht h.home⟩
  setFrame s p n ht h := ⟨h.lawful.same rfl rfl rfl rfl rfl, entriesAtHome_keeps.setFrame s p n ht h.home⟩
  acquire s p m t f ht hway h := ⟨h.lawful.grant (s.takes_attached _ p _ rfl ht) hway t f,
    entriesAtHome_keeps.acquire s p m t f ht hway h.home⟩
  renew s p m ht hn h := ⟨h.lawful.renew m, entriesAtHome_keeps.renew s p m ht hn h.home⟩
  release s p m ht h := ⟨h.lawful.endLeases m _ (by decide), entriesAtHome_keeps.release s p m ht h.home⟩
  revoke s p m ht h := ⟨h.lawful.revoke m, entriesAtHome_keeps.revoke s p m ht h.home⟩
  force s m f h := ⟨h.lawful.setForce m f, entriesAtHome_keeps.force s m f h.home⟩
  submit s p x ht hheld htag hfar hq h := by
    exact ⟨h.lawful.enqueue _ p (s.takes_attached _ p _ rfl ht) fun e he =>
      ⟨(descEntries_mem he).1, fun l hl => State.lawful.descEntries_held hheld he hl⟩,
      entriesAtHome_keeps.submit s p x ht hheld htag hfar hq h.home⟩
  admitting s p x mc h := by
    refine ⟨h.lawful.unnamed p _ ?_, entriesAtHome_keeps.admitting s p x mc h.home⟩
    unfold PortState.admitting
    split
    · split <;> rfl
    · rfl
  cancel s p tag ht hk h := ⟨h.lawful.unstage p tag hk, entriesAtHome_keeps.cancel s p tag ht hk h.home⟩
  cancelLines s p m ht h := ⟨h.lawful.cancelOn p m, entriesAtHome_keeps.cancelLines s p m ht h.home⟩
  readCompletions s p n ht h := ⟨h.lawful.modifyPort p _ ((h.lawful.lists p).popRecords n) (by
    rw [PortState.popRecords, PortState.moveReports_eq]), entriesAtHome_keeps.readCompletions s p n ht h.home⟩
  stage s p x ht htag hq hroom h := by
    refine ⟨h.lawful.stage _ (s.takes_attached _ p _ rfl ht) ?_, entriesAtHome_keeps.stage s p x ht htag hq hroom h.home⟩
    rw [descEntries_length]
    exact hroom
  commit s p n t ht ho h := ⟨h.lawful.arm t ho, entriesAtHome_keeps.commit s p n t ht ho h.home⟩
  discard s p ht h := ⟨h.lawful.freeBatch p, entriesAtHome_keeps.discard s p ht h.home⟩
  configure s p m n e ht h := ⟨by
    rw [State.configure_eq]; exact h.lawful.same rfl rfl rfl rfl rfl, entriesAtHome_keeps.configure s p m n e ht h.home⟩
  subscribe s p m ht h := ⟨h.lawful.subscribe p m (s.takes_attached _ p _ rfl ht),
    entriesAtHome_keeps.subscribe s p m ht h.home⟩
  readCaptures s p n ht h := ⟨h.lawful.readCaptures p n,
    entriesAtHome_keeps.readCaptures s p n ht h.home⟩
  clearArms s p m ht h := ⟨h.lawful.clearArms p m,
    entriesAtHome_keeps.clearArms s p m ht h.home⟩
  openPort s p ht ha h := ⟨h.lawful.openPort p, entriesAtHome_keeps.openPort s p ht ha h.home⟩
  closePort s p ht h := ⟨h.lawful.closePort p, entriesAtHome_keeps.closePort s p ht h.home⟩
  claimRole s p r ht hn h := ⟨(h.lawful.giveRole (s.takes_attached _ p _ rfl ht) r).raiseRoleChanged p,
    entriesAtHome_keeps.claimRole s p r ht hn h.home⟩
  releaseRole s p r ht h := ⟨h.lawful.dropRole r p, entriesAtHome_keeps.releaseRole s p r ht h.home⟩
  fencePort s p t ht hne ha h := ⟨h.lawful.fence p (State.lawful.attached_iff.1 ha),
    entriesAtHome_keeps.fencePort s p t ht hne ha h.home⟩
  setQuota s p t n ht hu hn h := ⟨h.lawful.unnamed t _ rfl, entriesAtHome_keeps.setQuota s p t n ht hu hn h.home⟩
  readEvents s p m h := ⟨h.lawful.readEvents p m,
    entriesAtHome_keeps.readEvents s p m h.home⟩
  setEventMask s p m h := ⟨h.lawful.setEventMask p m, entriesAtHome_keeps.setEventMask s p m h.home⟩

theorem lawfulAtHome_keepsInCycle : KeepsInCycle State.lawfulAtHome where
  toKeepsOwners := lawfulAtHome_keepsOwners
  sample s c h := ⟨h.lawful.sampleChannel c, entriesAtHome_keeps.sample s c h.home⟩
  strobe s p h := ⟨h.lawful.takeStrobe p, entriesAtHome_keeps.strobe s p h.home⟩
  boundary s h := ⟨h.lawful.handBoundary, entriesAtHome_keeps.boundary s h.home⟩
  validate s p hd h := ⟨h.lawful.validate h.home hd, entriesAtHome_keeps.validate s p hd h.home⟩
  expire s l h := ⟨h.lawful.expireLease l, entriesAtHome_keeps.expire s l h.home⟩
  moveReports s p h := ⟨h.lawful.modifyPort p _ (h.lawful.lists p).moveReports (by rw [PortState.moveReports_eq]),
    entriesAtHome_keeps.moveReports s p h.home⟩
  ignored s p low h := ⟨h.lawful.talks p _ (.moveIgnored ..), entriesAtHome_keeps.ignored s p low h.home⟩
  request s p part h := ⟨h.lawful.talks p _ (.clockRequest ..), entriesAtHome_keeps.request s p part h.home⟩
  unknown s p first part h :=
    ⟨h.lawful.talks p _ (.unknownTransaction ..), entriesAtHome_keeps.unknown s p first part h.home⟩
  check s p h := ⟨h.lawful.talks p _ (.checkInHand ..), entriesAtHome_keeps.check s p h.home⟩
  fetch s p part h := ⟨h.lawful.talks p _ (.fetch ..), entriesAtHome_keeps.fetch s p part h.home⟩
  finish s p bytes r data h :=
    ⟨h.lawful.finishTaking p bytes r data, entriesAtHome_keeps.finish s p bytes r data h.home⟩

/-- Everything the part does keeps these laws. -/
theorem lawfulAtHome_keeps : Keeps State.lawfulAtHome where
  toKeepsInCycle := lawfulAtHome_keepsInCycle
  released s _ := ⟨.released s, s.released_entriesAtHome⟩
  asserted s h := ⟨h.lawful.asserted, entriesAtHome_keeps.asserted s h.home⟩
  showPins s h := ⟨h.lawful.showPins, entriesAtHome_keeps.showPins s h.home⟩
  synchronise s pins h := ⟨h.lawful.synchronise pins, entriesAtHome_keeps.synchronise s pins h.home⟩
  beginCycle s pins hd h := ⟨h.lawful.beginCycle pins, entriesAtHome_keeps.beginCycle s pins hd h.home⟩

end Sys2Proof.Machine
end

section
/-! SUPPORT. The engine of a port agrees with its frame in hand, its reply buffer and its link through every operation (O55). -/

namespace Sys2Proof.Machine

namespace PortState

/-! ## What agreement says in each engine state -/

theorem engineAgrees_idle {p : Port} {ps : PortState} (h : ps.engine = .idle) :
    ps.engineAgrees p = true ↔ ps.reply = none ∧ ps.frame = none ∧ ps.receptions = 0 := by
  simp [engineAgrees, h, and_assoc]

theorem engineAgrees_receiving {p : Port} {ps : PortState} {left : Resting} (h : ps.engine = .receiving left) :
    ps.engineAgrees p = true ↔ ps.frame.isSome = true ∧ (ps.reply = none ↔ left = .idle) ∧ ps.receptions = 1 := by
  cases left <;> cases hr : ps.reply <;> simp [engineAgrees, h, hr]

theorem engineAgrees_executing {p : Port} {ps : PortState} (h : ps.engine = .executing) :
    ps.engineAgrees p = true ↔
      ps.receptions = 0 ∧ ∃ bytes, ps.frame = some bytes ∧ isPassed (checkFrame p bytes) = true := by
  cases hf : ps.frame <;> simp [engineAgrees, h, hf]

theorem engineAgrees_replyHeld {p : Port} {ps : PortState} (h : ps.engine = .replyHeld) :
    ps.engineAgrees p = true ↔ ps.reply.isSome = true ∧ ps.frame = none ∧ ps.receptions = 0 := by
  simp [engineAgrees, h, and_assoc]

/-- What a port does not receive it does not hold as RECEIVING, and conversely (10 R160). -/
theorem receiving_of_receptions {p : Port} {ps : PortState} (h : ps.engineAgrees p = true) (hr : ps.receptions ≠ 0) :
    ∃ left, ps.engine = .receiving left := by
  cases he : ps.engine with
  | idle => exact absurd ((engineAgrees_idle he).1 h).2.2 hr
  | receiving left => exact ⟨left, rfl⟩
  | executing => exact absurd ((engineAgrees_executing he).1 h).1 hr
  | replyHeld => exact absurd ((engineAgrees_replyHeld he).1 h).2.2 hr

/-- Agreement reads the engine, the frame in hand, whether a reply is buffered, and the receptions. -/
theorem engineAgrees_congr {p : Port} {ps ps' : PortState} (hengine : ps'.engine = ps.engine)
    (hframe : ps'.frame = ps.frame) (hreply : ps'.reply.isNone = ps.reply.isNone)
    (hrec : ps'.receptions = ps.receptions) : ps'.engineAgrees p = ps.engineAgrees p := by
  have hsome : ps'.reply.isSome = ps.reply.isSome := by
    rw [← Option.not_isNone, ← Option.not_isNone, hreply]
  unfold engineAgrees
  rw [hengine, hframe, hreply, hrec, hsome]

theorem receptions_congr {ps ps' : PortState} (hlink : ps'.link = ps.link) (hrisen : ps'.risen = ps.risen) :
    ps'.receptions = ps.receptions := by
  unfold receptions
  rw [hlink, hrisen]

theorem keepsLink.engineAgrees {p : Port} {ps ps' : PortState} (h : ps.keepsLink ps') :
    ps'.engineAgrees p = ps.engineAgrees p :=
  engineAgrees_congr h.engine h.frame (by rw [h.reply]) (receptions_congr h.link h.risen)

/-! ## Receptions -/

/-- A rising CS_N ends the reception on the link, and what it brings waits (10 R157). -/
theorem receptions_csRises (c : RiseChange) (ps : PortState) :
    (ps.csRises c).receptions =
      (ps.risen.filter fun r => r.change.endsFrame).length + (if c.endsFrame = true then 1 else 0) := by
  unfold receptions csRises
  simp only [List.filter_append, List.length_append, reduceCtorEq, ↓reduceIte, Nat.add_zero]
  cases hc : c.endsFrame <;> simp [hc]

/-- Where the oldest rising CS_N waits no longer, the reception that it ends is over. -/
theorem receptions_riseTaken {ps : PortState} {c : RiseChange} (h : ps.recognisable = some c) :
    ps.receptions = ps.riseTaken.receptions + (if c.endsFrame = true then 1 else 0) := by
  unfold recognisable at h
  split at h
  · cases h
  · next r rest hr =>
    split at h
    · cases h
      unfold receptions riseTaken
      rw [hr, List.tail_cons, List.filter_cons]
      split
      · rw [List.length_cons, Nat.add_right_comm]
      · rfl
    · cases h

/-- Without a reception the link may move. -/
theorem receptions_of_link {ps ps' : PortState} (hrisen : ps'.risen = ps.risen)
    (hlink : ps'.link = .receiving ↔ ps.link = .receiving) : ps'.receptions = ps.receptions := by
  unfold receptions
  rw [hrisen]
  simp only [hlink]

/-! ## Requests and other transactions -/

theorem miso_agrees {p : Port} {ps : PortState} (m : List Byte) (h : ps.engineAgrees p = true) :
    PortState.engineAgrees p { ps with miso := m } = true := h

/-- A transaction that is dropped is no reception (10 R161). -/
theorem dropping_agrees {p : Port} {ps : PortState} (m : List Byte) (hl : ps.link ≠ .receiving)
    (h : ps.engineAgrees p = true) : PortState.engineAgrees p { ps with link := .dropping, miso := m } = true := by
  rw [← h]
  exact engineAgrees_congr rfl rfl rfl (receptions_of_link rfl ⟨nofun, fun hc => absurd hc hl⟩)

theorem requestBegins_agrees {p : Port} {ps : PortState} (h : ps.engineAgrees p = true) :
    ps.requestBegins.engineAgrees p = true := by
  unfold requestBegins
  cases hl : ps.link with
  | receiving => exact h
  | dropping => exact h
  | ignored => exact h
  | idle =>
    have hnone : ps.receptions = (ps.risen.filter fun r => r.change.endsFrame).length := by
      unfold receptions
      rw [hl]
      rfl
    cases he : ps.engine with
    | idle =>
      obtain ⟨hreply, -, hrec⟩ := (engineAgrees_idle he).1 h
      exact (engineAgrees_receiving rfl).2 ⟨rfl, by simp [hreply], by
        rw [hnone] at hrec
        unfold receptions
        rw [hrec]
        rfl⟩
    | replyHeld =>
      obtain ⟨hreply, -, hrec⟩ := (engineAgrees_replyHeld he).1 h
      exact (engineAgrees_receiving rfl).2 ⟨rfl, by simp [Option.isSome_iff_ne_none.1 hreply], by
        rw [hnone] at hrec
        unfold receptions
        rw [hrec]
        rfl⟩
    | receiving left =>
      dsimp only
      rw [← he]
      exact dropping_agrees _ (by rw [hl]; nofun) h
    | executing =>
      dsimp only
      rw [← he]
      exact dropping_agrees _ (by rw [hl]; nofun) h

theorem requestByte_agrees {p : Port} {ps : PortState} (b : Byte) (h : ps.engineAgrees p = true) :
    (ps.requestByte b).engineAgrees p = true := by
  unfold requestByte
  cases hl : ps.link with
  | idle => exact h
  | ignored => exact h
  | dropping =>
    dsimp only
    rw [← hl]
    exact miso_agrees (ps.miso ++ [0xFF]) h
  | receiving =>
    have hrec : ps.receptions ≠ 0 := by
      unfold receptions
      rw [hl]
      exact Nat.succ_ne_zero _
    obtain ⟨left, he⟩ := receiving_of_receptions h hrec
    obtain ⟨hframe, hreply, hone⟩ := (engineAgrees_receiving he).1 h
    dsimp only
    rw [← hl]
    exact (engineAgrees_receiving (ps := { ps with frame := ps.frame.map (· ++ [b]), miso := ps.miso ++ [0xFF] }) he).2
      ⟨by simpa using hframe, hreply, hone⟩

theorem moveIgnored_agrees {p : Port} {ps : PortState} (low : Option Bool) (h : ps.engineAgrees p = true) :
    (ps.moveIgnored low).engineAgrees p = true := by
  rw [← h]
  refine engineAgrees_congr rfl rfl rfl (receptions_of_link rfl ?_)
  unfold moveIgnored Link.moveIgnored
  dsimp only
  cases ps.link with
  | idle => dsimp only; split <;> simp
  | ignored => dsimp only; split <;> simp
  | receiving => simp
  | dropping => simp

/-- A rising CS_N that ends no reception, on a link that carries none. -/
theorem csRises_agrees {p : Port} {ps : PortState} {c : RiseChange} (hc : c.endsFrame = false) (hl : ps.link ≠ .receiving)
    (h : ps.engineAgrees p = true) : (ps.csRises c).engineAgrees p = true := by
  rw [← h]
  refine engineAgrees_congr rfl rfl rfl ?_
  rw [receptions_csRises, hc]
  unfold receptions
  rw [if_neg hl]
  rfl

/-- A rising CS_N that ends the reception on the link. -/
theorem csRises_agrees_of_receiving {p : Port} {ps : PortState} {c : RiseChange} (hc : c.endsFrame = true)
    (hl : ps.link = .receiving) (h : ps.engineAgrees p = true) : (ps.csRises c).engineAgrees p = true := by
  rw [← h]
  refine engineAgrees_congr rfl rfl rfl ?_
  rw [receptions_csRises, hc]
  unfold receptions
  rw [if_pos hl, if_pos rfl]

theorem requestEnds_agrees {p : Port} {ps : PortState} (bits : Fin 8) (h : ps.engineAgrees p = true) :
    (ps.requestEnds bits).engineAgrees p = true := by
  unfold requestEnds
  cases hl : ps.link with
  | idle => exact h
  | ignored => exact moveIgnored_agrees _ h
  | dropping => exact csRises_agrees rfl (by rw [hl]; nofun) h
  | receiving => exact csRises_agrees_of_receiving (by split <;> rfl) hl h

theorem raise_agrees {p : Port} {ps : PortState} (k : EventKind) (h : ps.engineAgrees p = true) :
    (ps.raise k).engineAgrees p = true := by
  rw [(State.leavesLinks.raise k ps).engineAgrees]
  exact h

/-- A rising CS_N that ended no reception waits no longer. -/
theorem riseTaken_agrees {p : Port} {ps : PortState} {c : RiseChange} (hr : ps.recognisable = some c)
    (hc : c.endsFrame = false) (h : ps.engineAgrees p = true) : ps.riseTaken.engineAgrees p = true := by
  rw [← h]
  refine engineAgrees_congr rfl rfl rfl ?_
  rw [receptions_riseTaken hr, hc]
  rfl

/-- The reception whose rising CS_N is recognised was the only one. -/
theorem receiving_of_recognisable {p : Port} {ps : PortState} {c : RiseChange} (hr : ps.recognisable = some c)
    (hc : c.endsFrame = true) (h : ps.engineAgrees p = true) : ∃ left, ps.engine = .receiving left ∧
      ps.frame.isSome = true ∧ (ps.reply = none ↔ left = .idle) ∧ ps.riseTaken.receptions = 0 := by
  have hrec := receptions_riseTaken hr
  rw [if_pos hc] at hrec
  obtain ⟨left, he⟩ := receiving_of_receptions h (by omega)
  obtain ⟨hframe, hreply, hone⟩ := (engineAgrees_receiving he).1 h
  exact ⟨left, he, hframe, hreply, by omega⟩

/-- An engine goes back to the state that its reception left (10 R160). -/
theorem resting_agrees {p : Port} {ps : PortState} (left : Resting) (hengine : ps.engine = left.engine)
    (hframe : ps.frame = none) (hreply : ps.reply = none ↔ left = .idle) (hrec : ps.receptions = 0) :
    ps.engineAgrees p = true := by
  cases left with
  | idle => exact (engineAgrees_idle hengine).2 ⟨hreply.2 rfl, hframe, hrec⟩
  | replyHeld =>
    refine (engineAgrees_replyHeld hengine).2 ⟨Option.isSome_iff_ne_none.2 fun hc => ?_, hframe, hrec⟩
    cases hreply.1 hc

theorem requestRecognised_agrees {p : Port} {ps : PortState} (h : ps.engineAgrees p = true) :
    ps.requestRecognised.engineAgrees p = true := by
  unfold requestRecognised
  split
  · next hr =>
    obtain ⟨left, he, -, hreply, hrec⟩ := receiving_of_recognisable hr rfl h
    unfold abortFrame
    refine raise_agrees _ (resting_agrees left ?_ rfl hreply hrec)
    dsimp only
    rw [show ps.riseTaken.engine = .receiving left from he]
  · next hr => exact riseTaken_agrees hr rfl h
  · exact h

theorem clockRequest_agrees {p : Port} {ps : PortState} (part : RequestPart) (h : ps.engineAgrees p = true) :
    (ps.clockRequest part).engineAgrees p = true := by
  have bytes : ∀ (rest : List Byte) (x : PortState), x.engineAgrees p = true →
      (rest.foldl (fun acc b => acc.requestByte b) x).engineAgrees p = true := by
    intro rest
    induction rest with
    | nil => exact fun _ hx => hx
    | cons b rest ih => exact fun x hx => ih _ (requestByte_agrees b hx)
  cases part with
  | begins => exact requestBegins_agrees h
  | byte b => exact requestByte_agrees b h
  | csRises bits => exact requestEnds_agrees bits h
  | recognised => exact requestRecognised_agrees h
  | whole rest bits =>
    unfold clockRequest
    dsimp only
    split
    · exact requestEnds_agrees bits (bytes rest _ (requestBegins_agrees h))
    · exact moveIgnored_agrees _ h
    · exact h
    · exact h

theorem unknownTransaction_agrees {p : Port} {ps : PortState} (first : Byte) (part : UnknownPart)
    (h : ps.engineAgrees p = true) : (ps.unknownTransaction first part).engineAgrees p = true := by
  unfold unknownTransaction
  split
  · exact h
  · cases part with
    | clocked n =>
      dsimp only
      unfold unknownClocked
      split
      · next hl => exact csRises_agrees (ps := { ps with miso := _ }) rfl (by dsimp only; rw [hl]; nofun) (miso_agrees _ h)
      · exact moveIgnored_agrees _ h
      · exact h
      · exact h
    | recognised =>
      dsimp only
      unfold unknownRecognised
      split
      · next hr => exact raise_agrees _ (riseTaken_agrees hr rfl h)
      · exact h

theorem fetch_agrees {p : Port} {ps : PortState} (part : FetchPart) (h : ps.engineAgrees p = true) :
    (ps.fetch part).engineAgrees p = true := by
  cases part with
  | clocked n =>
    unfold fetch fetchClocked
    dsimp only
    split
    · next hl =>
      split
      · exact h
      · split
        · exact csRises_agrees (ps := { ps with miso := _ }) rfl (by dsimp only; rw [hl]; nofun) (miso_agrees _ h)
        · exact miso_agrees _ h
    · exact moveIgnored_agrees _ h
    · exact h
    · exact h
  | recognised =>
    unfold fetch fetchRecognised
    dsimp only
    split
    · next hr =>
      rw [← riseTaken_agrees hr rfl h]
      exact engineAgrees_congr rfl rfl (by simp [clearEvents, riseTaken]) rfl
    · exact h

/-! ## Frames and replies -/

/-- A reply placed with no reception under way and no frame in hand (10 R165). -/
theorem placeReply_agrees {p : Port} {ps : PortState} (reply : Reply) (repeated : Bool) (hframe : ps.frame = none)
    (hrec : ps.receptions = 0) : (ps.placeReply reply repeated).engineAgrees p = true := by
  obtain ⟨hengine, hf, hrisen, hlink, e, he, -⟩ := placeReply_link reply repeated ps
  exact (engineAgrees_replyHeld hengine).2 ⟨by rw [he]; rfl, hf.trans hframe, (receptions_congr hlink hrisen).trans hrec⟩

theorem checkBytes_agrees {p : Port} {ps : PortState} {bytes : List Byte} (hframe : ps.frame = some bytes)
    (hrec : ps.receptions = 0) : (ps.checkBytes p bytes).engineAgrees p = true := by
  unfold checkBytes
  split
  case h_5 i hi =>
    have hexec : PortState.engineAgrees p { ps with engine := .executing, checkedNow := true } = true :=
      (engineAgrees_executing rfl).2 ⟨hrec, bytes, hframe, by rw [hi]; rfl⟩
    unfold acceptFrame
    split
    · split
      · exact placeReply_agrees _ _ rfl hrec
      · exact hexec
    · exact hexec
  all_goals exact placeReply_agrees _ _ rfl hrec

theorem checkInHand_agrees {p : Port} {ps : PortState} (h : ps.engineAgrees p = true) :
    (ps.checkInHand p).engineAgrees p = true := by
  unfold checkInHand
  split
  · next hr =>
    obtain ⟨left, he, hframe, -, hrec⟩ := receiving_of_recognisable hr rfl h
    obtain ⟨bytes, hbytes⟩ := Option.isSome_iff_exists.1 hframe
    have hchecked : ps.riseTaken.checkReceived p = ps.riseTaken.checkBytes p bytes := by
      unfold checkReceived
      rw [show ps.riseTaken.engine = .receiving left from he, show ps.riseTaken.frame = some bytes from hbytes]
    rw [hchecked]
    exact checkBytes_agrees hbytes hrec
  · exact h

theorem recogniseNext_agrees {p : Port} {ps : PortState} (h : ps.engineAgrees p = true) :
    (ps.recogniseNext p).engineAgrees p = true := by
  unfold recogniseNext
  split
  · exact h
  · exact checkInHand_agrees h
  · exact requestRecognised_agrees h
  · exact requestRecognised_agrees h
  · next hr =>
    unfold unknownRecognised
    rw [hr]
    exact raise_agrees _ (riseTaken_agrees hr rfl h)
  · exact fetch_agrees .recognised h

theorem recogniseTimes_agrees {p : Port} (n : Nat) {ps : PortState} (h : ps.engineAgrees p = true) :
    (ps.recogniseTimes p n).engineAgrees p = true := by
  induction n generalizing ps with
  | zero => exact h
  | succ n ih => exact ih (recogniseNext_agrees h)

/-! ## Reset and cycles -/

theorem acrossReset_ne_receiving (l : Link) : l.acrossReset ≠ .receiving := by
  cases l <;> nofun

/-- Nothing waits and nothing is received as RST_N goes low (10 R157, R169). -/
theorem abandon_agrees {p : Port} {ps : PortState} (h : ps.engineAgrees p = true) : ps.abandon.engineAgrees p = true := by
  have hrec : ps.abandon.receptions = 0 := by
    unfold receptions abandon
    dsimp only
    rw [if_neg (acrossReset_ne_receiving _)]
    rfl
  cases he : ps.engine with
  | idle =>
    refine (engineAgrees_idle ?_).2 ⟨((engineAgrees_idle he).1 h).1, rfl, hrec⟩
    unfold abandon
    rw [he]
  | receiving left =>
    refine resting_agrees left ?_ rfl ((engineAgrees_receiving he).1 h).2.1 hrec
    unfold abandon
    rw [he]
  | executing =>
    cases hreply : ps.reply with
    | none =>
      refine (engineAgrees_idle ?_).2 ⟨hreply, rfl, hrec⟩
      unfold abandon
      rw [he, hreply]
      rfl
    | some b =>
      refine (engineAgrees_replyHeld ?_).2 ⟨Option.isSome_iff_exists.2 ⟨b, hreply⟩, rfl, hrec⟩
      unfold abandon
      rw [he, hreply]
      rfl
  | replyHeld =>
    refine (engineAgrees_replyHeld ?_).2 ⟨((engineAgrees_replyHeld he).1 h).1, rfl, hrec⟩
    unfold abandon
    rw [he]

theorem released_agrees (p : Port) (ps : PortState) : ps.released.engineAgrees p = true := by
  refine (engineAgrees_idle rfl).2 ⟨rfl, rfl, ?_⟩
  unfold receptions released
  dsimp only
  rw [if_neg (acrossReset_ne_receiving _)]
  rfl

theorem shifted_receptions (ps : PortState) (c : Bool) :
    PortState.receptions { ps with risen := ps.risen.map Rise.shift, checkedNow := c } = ps.receptions := by
  unfold receptions
  simp only [List.filter_map, List.length_map]
  rfl

/-- The synchronisers pass rising edges on and end the cycle of a frame's checks. -/
theorem shifted_agrees {p : Port} {ps : PortState} (h : ps.engineAgrees p = true) :
    PortState.engineAgrees p { ps with risen := ps.risen.map Rise.shift, checkedNow := false } = true := by
  rw [← h]
  exact engineAgrees_congr rfl rfl rfl (shifted_receptions ps false)

end PortState

/-! ## All ports -/

/-- Every port's engine agrees with its link. -/
def State.enginesAgree (s : State) : Prop := ∀ p, (s.port p).engineAgrees p = true

namespace State.enginesAgree

theorem leavesLinks {s t : State} (h : s.enginesAgree) (hl : s.leavesLinks t) : t.enginesAgree := fun p => by
  rw [(hl.port p).engineAgrees]
  exact h p

theorem work {s t : State} (h : s.enginesAgree) (hw : s.onlyWork t) : t.enginesAgree := h.leavesLinks (.of_work hw)

theorem modifyPort {s : State} (h : s.enginesAgree) (p : Port) (g : PortState → PortState)
    (hg : (s.port p).engineAgrees p = true → (g (s.port p)).engineAgrees p = true) : (s.modifyPort p g).enginesAgree := by
  intro q
  rw [State.modifyPort_port]
  split
  · next hq => subst hq; exact hg (h q)
  · exact h q

/-- The end of a taking whose frame was in EXECUTING (10 R164). -/
theorem finishTaking_port {s u : State} {p : Port} (h : (s.port p).engineAgrees p = true) (hu : s.leavesLinks u)
    (hexec : (s.port p).engine = .executing) (bytes : List Byte) (r : ResultCode) (data : List Byte) :
    ((u.finishTaking p bytes r data).port p).engineAgrees p = true := by
  have hrec : (u.port p).receptions = 0 :=
    (PortState.receptions_congr (hu.port p).link (hu.port p).risen).trans
      ((PortState.engineAgrees_executing hexec).1 h).1
  unfold State.finishTaking
  dsimp only
  rw [State.modifyPort_port_same]
  exact PortState.placeReply_agrees _ _ rfl hrec

theorem finishTaking {s u : State} {p : Port} (h : s.enginesAgree) (hu : s.leavesLinks u)
    (hexec : (s.port p).engine = .executing) (bytes : List Byte) (r : ResultCode) (data : List Byte) :
    (u.finishTaking p bytes r data).enginesAgree := by
  intro q
  by_cases hq : q = p
  · rw [hq]
    exact finishTaking_port (h p) hu hexec bytes r data
  · unfold State.finishTaking
    dsimp only
    rw [State.modifyPort_port_ne _ _ hq]
    exact h.leavesLinks hu q

/-- A request is taken from an engine that is EXECUTING, or does nothing. -/
theorem request {s t : State} (h : s.enginesAgree) {i : Instr} {p : Port} {d f : Bool} {role : Option Role}
    (hrow : admissionRow i = some (p, d, f, role)) (ht : exec i s = .next t) : t.enginesAgree := by
  by_cases ha : s.awaits p i = true
  · have hexec := ((PortState.owedRequest_eq_some p _ i).1 ((State.awaits_eq_true s p i).1 ha).2).1
    exact (State.leavesLinks.owners (P := fun u => s.leavesLinks u) fun _ _ hut hu => hu.trans hut).request
      State.enginesAgree hrow s t (fun hc => absurd (hc.symm.trans ha) (by decide))
      (fun u r data hu => h.finishTaking hu hexec _ r data) (.refl s) ht
  · rw [exec_request_idle hrow (Bool.not_eq_true _ ▸ ha)] at ht
    cases ht
    exact h

theorem takeFrame_port {u : State} {p : Port} (hr : u.inReset = false) (h : (u.port p).engineAgrees p = true) :
    ((u.takeFrame p).port p).engineAgrees p = true := by
  cases hi : (u.port p).owedRequest p with
  | none =>
    rw [State.takeFrame_none hi]
    exact h
  | some i =>
    obtain ⟨v, r, data, hv, ht⟩ := State.takeFrame_some hr hi
    rw [ht]
    exact finishTaking_port h hv ((PortState.owedRequest_eq_some p _ i).1 hi).1 _ r data

/-- The takings, recognitions and blocks of a cycle's end. -/
theorem finishCycle {s : State} (h : s.enginesAgree) (hr : s.inReset = false) : s.finishCycle.enginesAgree := by
  intro p
  have htaken := (takings_port s hr p (fun x => x.engineAgrees p = true) (fun _ _ hk hx => hk.engineAgrees.trans hx)
    fun u hu hk => takeFrame_port hu (hk.engineAgrees.trans (h p))).2
  rw [(s.finishCycle_keepsLink p).engineAgrees, State.finishLinks_port]
  exact PortState.recogniseTimes_agrees _ htaken

theorem beginCycle {s : State} (h : s.enginesAgree) (pins : Pins) : (s.beginCycle pins).enginesAgree := fun p => by
  rw [(State.beginCycle_link s pins p).engineAgrees]
  exact PortState.shifted_agrees (h p)

theorem synchronise {s : State} (h : s.enginesAgree) (pins : Pins) : (s.synchronise pins).enginesAgree := fun p => by
  rw [State.synchronise_port]
  exact PortState.shifted_agrees (h p)

theorem cycle {s : State} (h : s.enginesAgree) (pins : Pins) : (s.cycle pins).enginesAgree := by
  unfold State.cycle
  split
  · exact h.synchronise pins
  · next hr => exact (h.finishCycle (Bool.not_eq_true _ ▸ hr)).beginCycle pins

theorem asserted {s : State} (h : s.enginesAgree) : s.asserted.showPins.enginesAgree := by
  intro p
  have hport : s.asserted.port p = (s.port p).abandon := PortFile.get_map ..
  rw [State.showPins_port, hport]
  exact PortState.abandon_agrees (h p)

theorem released (s : State) : s.released.enginesAgree := fun p => by
  rw [State.released_port]
  exact PortState.released_agrees p _

theorem exec {s t : State} (h : s.enginesAgree) (i : Instr) (ht : Machine.exec i s = .next t) : t.enginesAgree := by
  have heldOr : ∀ (b : Bool) (u : State), u.enginesAgree → (if b then s else u).enginesAgree := by
    intro b u hu
    cases b
    · exact hu
    · exact h
  rcases hrow : admissionRow i with _ | ⟨p, d, f, role⟩
  case some => exact h.request hrow ht
  cases i <;> first
    | (replace hrow : (none : Option (Port × Bool × Bool × Option Role)) = none := hrow
       have ht' := Host.Outcome.next.inj ht; clear ht hrow; subst ht')
    | cases hrow
  case powerOnReset => exact released s
  case increment pins => exact h.cycle pins
  case correctionCycle pins => split <;> [exact h.cycle pins; exact h]
  case slewDone pins => split <;> [exact h.cycle pins; exact h]
  case frameBoundary => exact heldOr _ _ (h.work (.handBoundary s))
  case batchValidation p => exact heldOr _ _ (h.work (.validateIfDue s p))
  case leaseExpiry l => exact heldOr _ _ (h.work (.expireLease s l))
  case dueEvent => exact heldOr _ _ (h.work (State.onlyTakes.takeDue s).work)
  case reportMove p => exact heldOr _ _ (h.leavesLinks (.modifyPort s p _ (State.leavesLinks.moveReports _)))
  case strobeEdge p => exact heldOr _ _ (h.work (.takeStrobe s p))
  case edgeDelivery c => exact heldOr _ _ (by split <;> [exact h.work (.sampleChannel s c); exact h])
  case requestTransaction p part =>
    split
    · exact h.modifyPort p _ (PortState.moveIgnored_agrees _)
    · exact h.modifyPort p _ (PortState.clockRequest_agrees part)
  case unknownTransaction p first part =>
    split
    · exact h.modifyPort p _ (PortState.moveIgnored_agrees _)
    · exact h.modifyPort p _ (PortState.unknownTransaction_agrees first part)
  case frameCheck p => exact heldOr _ _ (h.modifyPort p _ PortState.checkInHand_agrees)
  case fetchTransaction p part =>
    split
    · exact h.modifyPort p _ (PortState.moveIgnored_agrees _)
    · exact h.modifyPort p _ (PortState.fetch_agrees part)
  case resetAsserted => exact h.asserted
  case channelSample c => exact heldOr _ _ (h.work (.sampleChannel s c))

theorem step {s t : State} (h : s.enginesAgree) (ht : Machine.step s = .next t) : t.enginesAgree := by
  unfold Machine.step at ht
  split at ht
  · cases ht
    exact h
  · next c rest _ => exact exec (s := { s with pending := rest }) h c ht

end State.enginesAgree

/-! ## The laws of the ports together -/

theorem State.portsSound_iff (s : State) : s.portsSound ↔ (∀ p, (s.port p).listsSound) ∧ s.enginesAgree := by
  simp only [State.portsSound, PortState.sound_iff, forall_and, State.enginesAgree]

/-- Settles O55: the lists, holders and homes by `lawfulAtHome_keeps`, the engines by `State.enginesAgree.step`. -/
theorem portLawsAreKept : Obligations.PortLawsAreKept := by
  unfold Obligations.PortLawsAreKept
  intro s t hports hholders hhome ht
  obtain ⟨hlists, hengines⟩ := (State.portsSound_iff s).1 hports
  obtain ⟨hlawful, hhome'⟩ := lawfulAtHome_keeps.step (fun u q hu => ⟨hu.lawful.same rfl rfl rfl rfl rfl, hu.home⟩) s t
    ⟨⟨hlists, hholders⟩, hhome⟩ ht
  exact ⟨(State.portsSound_iff t).2 ⟨hlawful.lists, hengines.step ht⟩, hlawful.holders, hhome'⟩

end Sys2Proof.Machine
end

section
/-! SUPPORT. The step, reset and the laws at reset (O1, O2, O4, O5, O15, O53, O60). -/

namespace Sys2Proof.Machine

/-! ## The step -/

/-- Settles O1: the queue of commands is empty or has a front, and `step` answers each case by its definition. -/
theorem stepTakesFrontCommandOrIdles : Obligations.StepTakesFrontCommandOrIdles := by
  unfold Obligations.StepTakesFrontCommandOrIdles
  refine ⟨fun c rest s h => ?_, fun s h => ?_⟩
  · unfold step
    rw [h]
  · unfold step
    rw [h]

theorem exec_next (c : Instr) (s : State) : ∃ t, exec c s = .next t := by
  cases c <;> exact ⟨_, rfl⟩

theorem State.cycle_pending (s : State) (pins : Pins) : (s.cycle pins).pending = s.pending := by
  unfold State.cycle
  split
  · rfl
  · obtain ⟨-, -, -, -, -, hbegin⟩ := State.beginCycle_clock s.finishCycle pins
    obtain ⟨-, -, hend⟩ := s.finishCycle_shared
    exact hbegin.trans hend

/-- No command touches the queue of commands. -/
theorem exec_pending {c : Instr} {s t : State} (h : exec c s = .next t) : t.pending = s.pending := by
  by_cases hc : KeepsInCycle.startsCycle c = false
  · obtain ⟨-, -, hpending⟩ := (State.leavesLinks.shared s).exec c hc s t ⟨rfl, rfl, rfl⟩ h
    exact hpending
  · cases c <;> first
      | exact absurd rfl hc
      | (have ht := Host.Outcome.next.inj h; clear h; subst ht)
    case powerOnReset => rfl
    case increment pins => exact s.cycle_pending pins
    case correctionCycle pins => split <;> [exact s.cycle_pending pins; rfl]
    case slewDone pins => split <;> [exact s.cycle_pending pins; rfl]
    case resetAsserted => rfl

/-- Settles O2: every row answers a next state, and `exec_pending` leaves the queue of commands alone. -/
theorem everyCommandAnswersNext : Obligations.EveryCommandAnswersNext := by
  unfold Obligations.EveryCommandAnswersNext
  intro c s
  obtain ⟨t, ht⟩ := exec_next c s
  exact ⟨t, ht, exec_pending ht⟩

/-! ## Release -/

theorem Link.acrossReset_eq (l : Link) : l.acrossReset = if l = .idle then .idle else .ignored := by
  cases l <;> rfl

theorem State.reset_eq_released : State.reset = State.reset.released := rfl

theorem State.released_line (s : State) (l : Line) : s.released.line l = LineRecord.atReset := Vector.getElem_ofFn ..

theorem State.released_channel (s : State) (c : Channel) : s.released.channels[c] = ChannelState.atReset :=
  Vector.getElem_ofFn ..

theorem State.released_hasReleaseValues (s : State) : s.released.hasReleaseValues := by
  refine ⟨⟨rfl, rfl, rfl, rfl, rfl, rfl, rfl, rfl⟩, fun l => ?lines, rfl, fun c => ?channels, ⟨rfl, rfl⟩, fun p => ?ports⟩
  case lines =>
    refine ⟨s.released_line l, ?_, by simp [State.released, State.reset]⟩
    unfold State.outPin
    rw [State.released_line]
    rfl
  case channels =>
    rw [State.released_channel]
    exact ⟨rfl, rfl, rfl, rfl⟩
  case ports =>
    have husage : s.released.usage p = 0 := by
      rw [State.usage_eq_length, State.released_liveEntries]
      rfl
    have hattn : s.released.attnPin p = .high := by
      have hwants : (s.port p).released.wantsAttention = false := by
        show ((0 : EventSet) &&& 0 != 0) = false
        decide
      unfold State.attnPin
      rw [State.released_port, hwants, Bool.and_false]
      rfl
    rw [husage, hattn, State.released_port]
    refine ⟨rfl, rfl, rfl, rfl, ⟨rfl, rfl⟩, ⟨rfl, rfl⟩, ⟨rfl, rfl, rfl, rfl⟩, ⟨rfl, rfl, rfl, rfl, rfl, rfl⟩, rfl, rfl, rfl,
      rfl, rfl, ?_, rfl⟩
    show (s.port p).link.acrossReset = .idle ∨ (s.port p).link.acrossReset = .ignored
    cases (s.port p).link
    · exact .inl rfl
    · exact .inr rfl
    · exact .inr rfl
    · exact .inr rfl

/-- Settles O4: the state after reset is a released one. -/
theorem releaseValues : Obligations.ReleaseValues := by
  unfold Obligations.ReleaseValues
  refine ⟨fun s => ⟨s.released, rfl, s.released_hasReleaseValues, rfl, rfl, rfl, fun p => ?_⟩, ?_, fun p => ?_, rfl⟩
  · rw [State.released_port]
    refine ⟨rfl, rfl, fun hl => ?_, fun hl => ?_⟩
    · exact (Link.acrossReset_eq _).trans (if_pos hl)
    · exact (Link.acrossReset_eq _).trans (if_neg hl)
  · rw [State.reset_eq_released]
    exact State.reset.released_hasReleaseValues
  · cases p <;> rfl

/-- Settles O60: each law holds right after any release, and the state after reset is a released one. -/
theorem lawsHoldAtReset : Obligations.LawsHoldAtReset := by
  unfold Obligations.LawsHoldAtReset
  rw [State.reset_eq_released]
  generalize State.reset = s
  obtain ⟨hlists, hholders⟩ := State.lawful.released s
  obtain ⟨hleases, hchannels⟩ := s.released_recordsInRange
  exact ⟨(State.portsSound_iff _).2 ⟨hlists, .released s⟩, hholders, s.released_entriesAtHome, s.released_timeBaseSound,
    hleases, hchannels, s.released_quotaLaw, s.released_tagLaw, List.Pairwise.nil, fun e he => absurd he List.not_mem_nil⟩

/-! ## In reset -/

theorem State.asserted_port (s : State) (p : Port) : s.asserted.port p = (s.port p).abandon := PortFile.get_map ..

theorem State.outPin_inReset {s : State} (h : s.inReset = true) (l : Line) : s.outPin l = .low := by
  unfold State.outPin
  rw [if_pos h]

theorem State.attnPin_inReset {s : State} (h : s.inReset = true) (p : Port) : s.attnPin p = .high := by
  unfold State.attnPin
  rw [h]
  rfl

/-- In reset only CS_N moves on a link (10 R157). -/
theorem PortState.moveIgnored_link (low : Bool) (ps : PortState) :
    ps.moveIgnored (some low) = { ps with
      link := if ps.link = .idle ∨ ps.link = .ignored then (if low then .ignored else .idle) else ps.link } := by
  unfold PortState.moveIgnored Link.moveIgnored
  cases ps.link <;> cases low <;> rfl

/-- The events of a cycle, and the requests, do nothing in reset. -/
theorem exec_inReset {s : State} (h : s.inReset = true) {c : Instr} (hpower : c ≠ .powerOnReset) (hreset : c ≠ .resetAsserted)
    (hinc : ∀ pins, c ≠ .increment pins) (hreq : ∀ p part, c ≠ .requestTransaction p part)
    (hunknown : ∀ p first part, c ≠ .unknownTransaction p first part) (hfetch : ∀ p part, c ≠ .fetchTransaction p part) :
    exec c s = .next s := by
  have held : ∀ u : State, (Host.Outcome.next (if s.inReset then s else u) : Host.Outcome State Fault Refusal) = .next s :=
    fun u => by rw [if_pos h]
  have cycles : ∀ (b : Bool) (u : State),
      (Host.Outcome.next (if (!s.inReset && b) = true then u else s) : Host.Outcome State Fault Refusal) = .next s :=
    fun b u => by rw [h]; rfl
  rcases hrow : admissionRow c with _ | ⟨p, x⟩
  case some => exact exec_request_idle hrow (State.awaits_inReset _ _ _ h)
  cases c <;> first
    | (replace hrow : (none : Option (Port × Bool × Bool × Option Role)) = none := hrow
       clear hrow)
    | cases hrow
  case powerOnReset => exact absurd rfl hpower
  case resetAsserted => exact absurd rfl hreset
  case increment pins => exact absurd rfl (hinc pins)
  case requestTransaction p part => exact absurd rfl (hreq p part)
  case unknownTransaction p first part => exact absurd rfl (hunknown p first part)
  case fetchTransaction p part => exact absurd rfl (hfetch p part)
  case correctionCycle pins => exact cycles ..
  case slewDone pins => exact cycles ..
  all_goals exact held _

/-- RST_N going low abandons what the links carry and shows the pins at once (02 R23, 09 R149, 10 R157, R169). -/
theorem exec_resetAsserted_values (s : State) : ∃ t, exec .resetAsserted s = .next t ∧
    t = { s with inReset := true, outsShown := 0, ports := t.ports } ∧
    (∀ l, t.outPin l = .low ∧ t.outsShown[l] = false) ∧
    ∀ p, t.attnPin p = .high ∧ (t.port p).attnShown = .high ∧ (t.port p).risen = [] ∧
      (t.port p).link = (if (s.port p).link = .idle then .idle else .ignored) ∧
      (t.port p).frame = none ∧ (t.port p).miso = [] ∧
      t.port p = { s.port p with
        link := (t.port p).link, risen := (t.port p).risen, frame := (t.port p).frame, miso := (t.port p).miso
        attnShown := (t.port p).attnShown, engine := (t.port p).engine } := by
  have hasserted : s.asserted = { s with inReset := true, ports := s.asserted.ports } := rfl
  have hshown := State.showPins_rest s.asserted
  have hports := fun p => s.asserted.showPins_port p
  simp only [State.asserted_port] at hports
  have hreset : s.asserted.inReset = true := rfl
  have hattn := State.attnPin_inReset hreset
  have hout : s.asserted.showPins.outsShown = 0 := set_ext fun l => by
    rw [State.showPins_out, State.outPin_inReset hreset]
    exact (BitVec.getElem_zero l.isLt).symm
  rw [hout] at hshown
  have hexec : exec .resetAsserted s = .next s.asserted.showPins := rfl
  generalize s.asserted.showPins = t at *
  generalize s.asserted = a at *
  have hreset' : t.inReset = true := by rw [hshown]; exact hreset
  refine ⟨t, hexec, ?_, fun l => ⟨State.outPin_inReset hreset' l, ?_⟩, fun p => ⟨State.attnPin_inReset hreset' p, ?_⟩⟩
  · rw [hasserted] at hshown
    exact hshown
  · rw [hout]
    exact BitVec.getElem_zero l.isLt
  · rw [hports, hattn]
    exact ⟨rfl, rfl, Link.acrossReset_eq _, rfl, rfl, rfl⟩

/-- The transactions on a link in reset (10 R157). -/
theorem exec_transaction_inReset {s : State} (h : s.inReset = true) (p : Port) :
    (∀ part, exec (.requestTransaction p part) s = .next (s.modifyPort p (PortState.moveIgnored (requestLeaves part)))) ∧
    (∀ first part,
      exec (.unknownTransaction p first part) s = .next (s.modifyPort p (PortState.moveIgnored (unknownLeaves part)))) ∧
    ∀ part, exec (.fetchTransaction p part) s = .next (s.modifyPort p (PortState.moveIgnored (fetchLeaves part))) := by
  refine ⟨fun part => ?_, fun first part => ?_, fun part => ?_⟩
  · show Host.Outcome.next (s.modifyPort p (if s.inReset = true then _ else _)) = _
    rw [if_pos h]
  · show Host.Outcome.next (s.modifyPort p (if s.inReset = true then _ else _)) = _
    rw [if_pos h]
  · show Host.Outcome.next (s.modifyPort p (if s.inReset = true then _ else _)) = _
    rw [if_pos h]

/-- Settles O5: the events and requests by `exec_inReset`, the links by `exec_transaction_inReset`, the fall of RST_N by
`exec_resetAsserted_values`. -/
theorem resetHoldsThePart : Obligations.ResetHoldsThePart := by
  unfold Obligations.ResetHoldsThePart
  refine ⟨exec_resetAsserted_values, fun s h => ⟨fun pins => ?cycle, ?links, fun c => exec_inReset h⟩⟩
  case cycle =>
    have hcycle : exec (.increment pins) s = .next (s.synchronise pins) := by
      show Host.Outcome.next (s.cycle pins) = _
      rw [State.cycle, if_pos h]
    have hports : (s.synchronise pins).ports = s.ports.map fun p ps => { ps with
        strobeStage1 := pins.strobes[p.index], strobeStage2 := ps.strobeStage1, strobeRose := false
        risen := ps.risen.map fun r => { r with stage := min 2 (r.stage + 1) }, lateGuard := none
        checkedNow := false } := by
      unfold State.synchronise
      rw [h]
      rfl
    rw [hcycle, State.synchronise_rest, hports]
  case links =>
    intro csN p
    obtain ⟨hrequest, hunknown, hfetch⟩ := exec_transaction_inReset h p
    have hmove : ∀ low, Host.Outcome.next (s.modifyPort p (PortState.moveIgnored (some low))) = csN p low := fun low => by
      exact congrArg Host.Outcome.next (State.modifyPort_congr s p (PortState.moveIgnored_link low (s.port p)))
    have hstay : Host.Outcome.next (s.modifyPort p (PortState.moveIgnored none)) =
        (Host.Outcome.next s : Host.Outcome State Fault Refusal) := by
      rw [State.modifyPort_same s p (PortState.moveIgnored_none _)]
    exact ⟨(hrequest _).trans (hmove true), fun b => (hrequest _).trans hstay, fun bits => (hrequest _).trans (hmove false),
      fun rest bits => (hrequest _).trans (hmove false), (hrequest _).trans hstay,
      fun first further => (hunknown _ _).trans (hmove false), fun first => (hunknown _ _).trans hstay,
      fun bytes => (hfetch _).trans (hmove false), (hfetch _).trans hstay⟩

/-! ## Times and frames written out -/

/-- Settles O15: each class is an inequality of the distance, and the distance is below 2 ^ 48. -/
theorem timeClasses : Obligations.TimeClasses := by
  unfold Obligations.TimeClasses
  intro mc t
  refine ⟨reached_iff mc t, acceptable_iff mc t, tooFar_iff mc t, ?_⟩
  have hacc : acceptable mc t = false ↔ ¬ (0 < distance mc t ∧ distance mc t < 2 ^ 46) := by
    rw [← acceptable_iff, Bool.not_eq_true]
  rw [reached_iff, not_reached_iff, acceptable_iff, hacc, tooFar_iff, not_tooFar_iff]
  omega

/-- Settles O53: closed facts of the decoder, evaluated by the kernel. -/
theorem framesReadAsTheirRequests : Obligations.FramesReadAsTheirRequests := by
  unfold Obligations.FramesReadAsTheirRequests
  decide +kernel

end Sys2Proof.Machine
end

section
/-! SUPPORT. Rows that are not due, REFCLK cycles and the commands of the time base (O3, O6, O7, O8, O9, O10, O14). -/

namespace Sys2Proof.Machine

/-! ## Events that are not due -/

theorem PortState.recognisable_eq_some {ps : PortState} {c : RiseChange} (h : ps.recognisable = some c) :
    ∃ r rest, ps.risen = r :: rest ∧ r.change = c ∧ 2 ≤ r.stage := by
  unfold PortState.recognisable at h
  split at h
  · cases h
  · next r rest hr =>
    split at h
    · next hs =>
      cases h
      exact ⟨r, rest, hr, rfl, hs⟩
    · cases h

theorem PortState.recognisable_cons {ps : PortState} {r : Rise} {rest : List Rise} (hr : ps.risen = r :: rest)
    (hs : 2 ≤ r.stage) : ps.recognisable = some r.change := by
  unfold PortState.recognisable
  rw [hr]
  exact if_pos hs

/-- The oldest rising CS_N brings another change, or has not passed both stages. -/
theorem PortState.not_recognisable {ps : PortState} {c : RiseChange}
    (h : ∀ r rest, ps.risen = r :: rest → r.change ≠ c ∨ r.stage < 2) : ps.recognisable ≠ some c := by
  intro hc
  obtain ⟨r, rest, hr, hchange, hstage⟩ := PortState.recognisable_eq_some hc
  rcases h r rest hr with hne | hlt
  · exact hne hchange
  · omega

/-- The recognition of a rising CS_N that does not wait at the front does nothing, in reset or out of it (log entry 28). -/
theorem exec_recognised_waits (s : State) (p : Port) :
    ((s.port p).recognisable ≠ some .whole → exec (.frameCheck p) s = .next s) ∧
    ((s.port p).recognisable ≠ some .aborted → (s.port p).recognisable ≠ some .dropped →
      exec (.requestTransaction p .recognised) s = .next s) ∧
    ((s.port p).recognisable ≠ some .unknown → ∀ first, exec (.unknownTransaction p first .recognised) s = .next s) ∧
    ((s.port p).recognisable ≠ some .fetched → exec (.fetchTransaction p .recognised) s = .next s) := by
  have same : ∀ (b : Bool) (g : PortState → PortState), g (s.port p) = s.port p →
      (Host.Outcome.next (s.modifyPort p (if b = true then PortState.moveIgnored none else g)) :
        Host.Outcome State Fault Refusal) = .next s := by
    intro b g hg
    refine congrArg Host.Outcome.next (s.modifyPort_same p ?_)
    cases b
    · exact hg
    · exact PortState.moveIgnored_none _
  refine ⟨fun hw => ?check, fun ha hd => same _ _ ?request, fun hu first => same _ _ ?unknown, fun hf => same _ _ ?fetch⟩
  case check =>
    refine congrArg Host.Outcome.next ?_
    split
    · rfl
    · refine s.modifyPort_same p ?_
      unfold PortState.checkInHand
      split
      · next h => exact absurd h hw
      · rfl
  case request =>
    show (s.port p).requestRecognised = s.port p
    unfold PortState.requestRecognised
    split
    · next h => exact absurd h ha
    · next h => exact absurd h hd
    · rfl
  case unknown =>
    unfold PortState.unknownTransaction
    split
    · rfl
    · show (s.port p).unknownRecognised = s.port p
      unfold PortState.unknownRecognised
      split
      · next h => exact absurd h hu
      · rfl
  case fetch =>
    show (s.port p).fetchRecognised = s.port p
    unfold PortState.fetchRecognised
    split
    · next h => exact absurd h hf
    · rfl

/-- CORRECTION_CYCLE reads the slew in which the present cycle ends. -/
theorem exec_correctionCycle {s u : State} (pins : Pins) (hu : s.endsIn u) (hc : u.correctionDue = false) :
    exec (.correctionCycle pins) s = .next s := by
  show Host.Outcome.next (if (!s.inReset && s.finishCycle.correctionDue) = true then _ else s) = _
  cases hr : s.inReset with
  | true => rfl
  | false =>
    rw [← s.endsIn_unique hr hu, hc]
    rfl

/-- SLEW_DONE reads the slew in which the present cycle ends. -/
theorem exec_slewDone {s u : State} (pins : Pins) (hu : s.endsIn u) (hc : slewEnds u.slew = false) :
    exec (.slewDone pins) s = .next s := by
  show Host.Outcome.next (if (!s.inReset && slewEnds s.finishCycle.slew) = true then _ else s) = _
  cases hr : s.inReset with
  | true => rfl
  | false =>
    rw [← s.endsIn_unique hr hu, hc]
    rfl

theorem Slew.corrects_eq_false {w : Slew} (h : w.count + 1 < w.interval.natAbs) : w.corrects = false :=
  decide_eq_false (Nat.not_le.2 h)

theorem Slew.corrects_eq_true {w : Slew} (h : w.interval.natAbs ≤ w.count + 1) : w.corrects = true := decide_eq_true h

theorem slewEnds_eq_false {w : Slew} (h : w.count + 1 < w.interval.natAbs ∨ 1 < w.left) : slewEnds (some w) = false := by
  show (w.corrects && decide (w.left ≤ 1)) = false
  rcases h with h | h
  · rw [Slew.corrects_eq_false h, Bool.false_and]
  · rw [decide_eq_false (Nat.not_le.2 h), Bool.and_false]

/-- Settles O3: each row is guarded by what makes it due, and a waiting recognition is `exec_recognised_waits`. -/
theorem eventsNotDueDoNothing : Obligations.EventsNotDueDoNothing := by
  unfold Obligations.EventsNotDueDoNothing
  intro s
  have held : ∀ u : State, u = s → (Host.Outcome.next (if s.inReset then s else u) : Host.Outcome State Fault Refusal) =
      .next s := fun u hu => by rw [hu, ite_self]
  refine ⟨fun pins u hu hn => ⟨exec_correctionCycle pins hu ?_, exec_slewDone pins hu ?_⟩,
    fun pins u w hu hw hc => exec_correctionCycle pins hu ?_, fun pins u w hu hw hc => exec_slewDone pins hu ?_,
    fun hb => held _ ?boundary, fun p hp => held _ ?validation, fun l hl => held _ ?expiry, fun hd => held _ ?due,
    fun p hp => held _ ?strobe, fun c hc => held _ ?edge, fun c hc => held _ ?sample, fun p => ?recognitions,
    fun i p x hrow hi => exec_request_idle hrow ?request⟩
  · rw [State.correctionDue, hn]
    rfl
  · rw [hn]
    rfl
  · rw [State.correctionDue, hw]
    exact Slew.corrects_eq_false hc
  · rw [hw]
    exact slewEnds_eq_false hc
  case boundary =>
    unfold State.handBoundary
    rw [hb]
    rfl
  case validation =>
    unfold State.validateIfDue State.validationDue
    rw [if_neg (by simpa using hp)]
  case expiry =>
    unfold State.leaseRunOut at hl
    unfold State.expireLease
    split
    · next x hx =>
      simp only [hx] at hl
      rw [hl]
      rfl
    · rfl
  case due =>
    unfold State.takeDue
    rw [hd]
  case strobe =>
    unfold State.takeStrobe
    rw [hp]
    rfl
  case edge =>
    rw [hc]
    rfl
  case sample =>
    unfold State.sampleChannel State.sampleOwed
    rw [hc]
    rfl
  case recognitions =>
    obtain ⟨hwhole, hrequest, hunknown, hfetch⟩ := exec_recognised_waits s p
    exact ⟨fun h => hwhole (PortState.not_recognisable h),
      fun h h' => hrequest (PortState.not_recognisable h) (PortState.not_recognisable h'),
      fun h => hunknown (PortState.not_recognisable h), fun h => hfetch (PortState.not_recognisable h)⟩
  case request =>
    rcases hi with hi | hi
    · exact hi
    · rw [← Bool.not_eq_true]
      intro ha
      obtain ⟨hengine, hchecked, -⟩ := (PortState.owedRequest_eq_some p _ i).1 ((State.awaits_eq_true s p i).1 ha).2
      rcases hi with hi | hi
      · exact hi hengine
      · rw [hchecked] at hi
        cases hi

/-! ## Cycles -/

/-- The increment of a cycle that is not held in reset (01 R1). -/
theorem exec_increment {s : State} (h : s.inReset = false) (pins : Pins) :
    exec (.increment pins) s = .next (s.finishCycle.beginCycle pins) := congrArg Host.Outcome.next (s.cycle_eq pins h)

theorem State.finishCycle_boundary (s : State) : s.finishCycle.boundaryToHand = false := State.finishBlocks_boundary _

/-- The fields of the time base that only requests and increments move. -/
def State.sameTimeBase (s u : State) : Prop :=
  u.mc = s.mc ∧ u.slew = s.slew ∧ u.timeAuthority = s.timeAuthority ∧ u.framePhase = s.framePhase ∧
    u.frameIndex = s.frameIndex ∧ u.frameLength = s.frameLength ∧ u.pendingLength = s.pendingLength

/-- Where no request is to be taken, the end of a cycle leaves the time base as it is. -/
theorem State.finishCycle_sameTimeBase {s : State} (ho : ∀ p, (s.port p).owedRequest p = none) :
    s.sameTimeBase s.finishCycle := by
  have htakings : Port.all.foldl State.takeFrame s = s := by
    simp only [Port.all, List.foldl_cons, List.foldl_nil, State.takeFrame_none (ho _)]
  have hrecognised : ∀ (ps : List Port) (u : State), s.sameTimeBase u → s.sameTimeBase (ps.foldl State.recogniseAll u) := by
    intro ps
    induction ps with
    | nil => exact fun _ hu => hu
    | cons p ps ih => exact fun u hu => ih _ hu
  have hlinks : s.sameTimeBase s.finishLinks := by
    unfold State.finishLinks
    rw [htakings]
    exact hrecognised _ s ⟨rfl, rfl, rfl, rfl, rfl, rfl, rfl⟩
  obtain ⟨hmc, hslew, hta, hphase, hindex, hlength, hpending⟩ := hlinks
  have hwork := (State.onlyWork.finishBlocks s.finishLinks).rest
  have hfinish : s.finishCycle = s.finishLinks.finishBlocks := rfl
  rw [hfinish, hwork]
  exact ⟨hmc, hslew, hta, hphase, hindex, hlength, hpending⟩

/-- Settles O6: a cycle begins where the one before ends. -/
theorem incrementMovesClockFrameAndSlew : Obligations.IncrementMovesClockFrameAndSlew := by
  unfold Obligations.IncrementMovesClockFrameAndSlew
  refine ⟨fun pins s h => ⟨s.finishCycle, s.finishCycle.beginCycle pins, s.endsIn_finishCycle h, exec_increment h pins, ?_⟩,
    fun s u h ho hu => ?_⟩
  · obtain ⟨hmc, hslew, -⟩ := State.beginCycle_clock s.finishCycle pins
    obtain ⟨hwithin, hboundary⟩ := State.beginCycle_frame s.finishCycle pins
    rw [s.finishCycle_boundary] at hwithin
    intro n
    have hn : slewIncrement s.finishCycle.slew = n := by
      simp only [n]
      cases s.finishCycle.slew with
      | none => rfl
      | some w => simp only [slewIncrement, Slew.corrects, decide_eq_true_eq]
    rw [hn] at hmc hwithin hboundary
    rw [hslew]
    refine ⟨hmc, hwithin, hboundary, fun hnone => by rw [hnone]; rfl, fun w hw => ?_⟩
    rw [hw]
    unfold slewAfter
    dsimp only
    refine ⟨fun hlt => ?_, fun hle hmore => ?_, fun hle hlast => ?_⟩
    · rw [Slew.corrects_eq_false hlt]
      rfl
    · rw [Slew.corrects_eq_true hle, if_pos rfl, if_neg (Nat.not_le.2 hmore)]
    · rw [Slew.corrects_eq_true hle, if_pos rfl, if_pos hlast]
  · rw [s.endsIn_unique h hu]
    exact State.finishCycle_sameTimeBase ho

theorem State.finishCycle_inReset {s : State} (h : s.inReset = false) : s.finishCycle.inReset = false := by
  obtain ⟨hreset, -⟩ := s.finishCycle_shared
  exact hreset.trans h

theorem slewIncrement_cases (o : Option Slew) : slewIncrement o < 3 := by
  unfold slewIncrement
  split
  · decide
  · split
    · split <;> decide
    · decide

/-- The slew ends in a cycle exactly where one was in progress and none is after it (01 R16). -/
theorem slewEnds_iff (o : Option Slew) : slewEnds o = true ↔ o ≠ none ∧ slewAfter o = none := by
  cases o with
  | none => exact ⟨nofun, fun h => absurd rfl h.1⟩
  | some w =>
    show (w.corrects && decide (w.left ≤ 1)) = true ↔ _
    unfold slewAfter
    cases hc : w.corrects with
    | false => simp [hc]
    | true => by_cases hl : w.left ≤ 1 <;> simp [hc, hl]

/-- The beginning of a cycle, for a port whose slew does not end with it: the synchronisers shift. -/
def PortState.synced (s : State) (pins : Pins) (p : Port) : PortState :=
  { s.port p with
    strobeStage1 := pins.strobes[p.index], strobeStage2 := (s.port p).strobeStage1
    strobeRose := !s.freshRelease && (s.port p).strobeStage1 && !(s.port p).strobeStage2
    risen := (s.port p).risen.map fun r => { r with stage := min 2 (r.stage + 1) }
    attnShown := s.attnPin p, lateGuard := none, checkedNow := false }

theorem State.beginCycle_synced {s : State} (h : s.inReset = false) (pins : Pins) (p : Port) :
    (s.beginCycle pins).port p = if slewEnds s.slew = true ∧ s.timeAuthority = some p
      then (PortState.synced s pins p).raiseSlewDone .complete else PortState.synced s pins p := by
  rw [State.beginCycle_port, h]
  rfl

/-- What a cycle that owed nothing does beside its clock (log entries 3, 7 and 15). -/
theorem exec_increment_rest {s : State} (pins : Pins) (h : s.inReset = false) (hn : s.owesNothing) :
    exec (.increment pins) s = .next (s.beginCycle pins) := by
  rw [exec_increment h, s.finishCycle_owesNothing hn]

/-- The pins show the cycle's end, and finite terms fall by what MC advances (02 R28, 04 R69). -/
theorem State.beginCycle_pinsAndLines (s : State) (pins : Pins) (l : Line) :
    (s.beginCycle pins).outsShown[l] = decide (s.outPin l = .high) ∧
    (s.beginCycle pins).line l = { s.line l with
      lease := (s.line l).lease.map fun x => { x with term := match x.term with
        | .unlimited => .unlimited
        | .finite term r => .finite term (r - ((s.beginCycle pins).mc - s.mc).toNat) } } := by
  obtain ⟨hmc, -⟩ := State.beginCycle_clock s pins
  have hlt := slewIncrement_cases s.slew
  have hfall : ((s.beginCycle pins).mc - s.mc).toNat = slewIncrement s.slew := by
    rw [hmc, BitVec.add_comm, BitVec.add_sub_cancel, BitVec.toNat_ofNat]
    exact Nat.mod_eq_of_lt (by omega)
  constructor
  · rw [State.beginCycle_rest]
    dsimp only
    rw [State.showPins_out]
    cases s.outPin l <;> rfl
  · rw [State.beginCycle_line, hfall]
    have hterm : ∀ t : LeaseTerm, t.fall (slewIncrement s.slew) = match t with
        | .unlimited => .unlimited
        | .finite term r => .finite term (r - slewIncrement s.slew) := fun t => by cases t <;> rfl
    simp only [hterm]

/-- Settles O7: the end of a cycle is `State.endsIn_finishCycle`, and its beginning the equations of `State.beginCycle`. -/
theorem incrementLeavesTheRest : Obligations.IncrementLeavesTheRest := by
  unfold Obligations.IncrementLeavesTheRest
  refine ⟨fun pins s h => ⟨s.finishCycle, s.endsIn_finishCycle h, s.finishCycle_owes h, ?_, fun p i ha => ?_⟩,
    fun pins s h hn => ⟨s.beginCycle pins, exec_increment_rest pins h hn, ?_, s.beginCycle_pinsAndLines pins, fun p => ?_⟩⟩
  · rw [exec_increment h, exec_increment_rest pins (State.finishCycle_inReset h) (s.finishCycle_owes h)]
  · exact s.finishCycle_taken h p ((State.awaits_eq_true s p i).1 ha).2
  · exact (State.beginCycle_rest s pins).trans (by rw [State.beginCycle_rest])
  · intro synced
    obtain ⟨-, hslew, -⟩ := State.beginCycle_clock s pins
    have hends : slewEnds s.slew = true ↔ s.slew ≠ none ∧ (s.beginCycle pins).slew = none := by
      rw [hslew]
      exact slewEnds_iff _
    have hport := State.beginCycle_synced h pins p
    refine ⟨fun hnot => ?_, fun hta hsome hnone hsession => ?_⟩
    · have hno : ¬ (slewEnds s.slew = true ∧ s.timeAuthority = some p) := fun ⟨he, hta⟩ => hnot ⟨hta, hends.1 he⟩
      rw [hport, if_neg hno]
      rfl
    · rw [hport, if_pos ⟨hends.2 ⟨hsome, hnone⟩, hta⟩]
      unfold PortState.raiseSlewDone
      rw [if_pos ?_]
      · rfl
      · show records (s.port p).session .slewDone = true
        cases hs : (s.port p).session with
        | detached => exact absurd hs hsession
        | attached => rfl
        | fenced => rfl

/-- A slew that ends raises SLEW_DONE COMPLETE at the holder of TIME_AUTHORITY (01 R16). -/
theorem State.beginCycle_slewDone {s : State} (pins : Pins) {h : Port} (hends : slewEnds s.slew = true)
    (hta : s.timeAuthority = some h) (hsession : (s.port h).session ≠ .detached) :
    hasKind ((s.beginCycle pins).port h).events .slewDone = true ∧
      ((s.beginCycle pins).port h).slewResult = some .complete := by
  have hrecords : records (s.port h).session .slewDone = true := by
    cases hs : (s.port h).session with
    | detached => exact absurd hs hsession
    | attached => rfl
    | fenced => rfl
  rw [State.beginCycle_port]
  dsimp only
  rw [if_pos ⟨hends, hta⟩]
  unfold PortState.raiseSlewDone PortState.synchronise
  dsimp only
  rw [if_pos hrecords]
  exact ⟨by simp [hasKind_raise], rfl⟩

/-- Settles O8: what moves is the cycle's own increment, and `State.beginCycle_slewDone` says what the last correction raises. -/
theorem correctionCyclesAndTheLastOne : Obligations.CorrectionCyclesAndTheLastOne := by
  unfold Obligations.CorrectionCyclesAndTheLastOne
  refine ⟨fun pins w s u h hu hw hc => ?_, fun pins w h s u hr hu hw hc hl hta hsession => ?_⟩
  · have hfinish := s.endsIn_unique h hu
    obtain ⟨hmc, -⟩ := State.beginCycle_clock u pins
    have hdue : u.correctionDue = true := by
      unfold State.correctionDue
      rw [hw]
      exact Slew.corrects_eq_true hc
    have hn : slewIncrement u.slew = if 0 < w.interval then 2 else 0 := by
      rw [hw]
      exact if_pos (Slew.corrects_eq_true hc)
    refine ⟨u.beginCycle pins, ?_, ?_, fun hpos => ?_, fun hneg => ?_⟩
    · show Host.Outcome.next (if (!s.inReset && s.finishCycle.correctionDue) = true then s.cycle pins else s) = _
      rw [← hfinish, hdue, h, s.cycle_eq pins h, ← hfinish]
      rfl
    · rw [exec_increment h, ← hfinish]
    · rw [hmc, hn, if_pos hpos]
      rfl
    · rw [hmc, hn, if_neg (Int.not_lt.2 hneg)]
      exact BitVec.add_zero _
  · have hfinish := s.endsIn_unique hr hu
    have hends : slewEnds u.slew = true := by
      rw [hw]
      show (w.corrects && decide (w.left ≤ 1)) = true
      rw [Slew.corrects_eq_true hc, decide_eq_true hl]
      rfl
    obtain ⟨-, hslew, -⟩ := State.beginCycle_clock u pins
    refine ⟨u.beginCycle pins, ?_, ?_, hslew.trans ((slewEnds_iff _).1 hends).2,
      u.beginCycle_slewDone pins hends hta hsession⟩
    · show Host.Outcome.next (if (!s.inReset && slewEnds s.finishCycle.slew) = true then s.cycle pins else s) = _
      rw [← hfinish, hends, hr, s.cycle_eq pins hr, ← hfinish]
      rfl
    · rw [exec_increment hr, ← hfinish]

/-! ## The events of a boundary and of a strobe -/

/-- Settles O9: both events act on the ports by maps that the statement writes out. -/
theorem boundaryAndStrobeEvents : Obligations.BoundaryAndStrobeEvents := by
  unfold Obligations.BoundaryAndStrobeEvents
  refine ⟨fun s h hb => ?_, fun p s h hr => ?_⟩
  · have hraise : (fun (_ : Port) (ps : PortState) => if ps.session = .attached then ps.raise .frameBoundary else ps) =
        fun _ ps => if ps.session = .attached then { ps with events := ps.events ||| EventKind.frameBoundary.mask } else ps := by
      funext _ ps
      split
      · next ha => exact PortState.raise_attached _ _ ha
      · rfl
    show Host.Outcome.next (if s.inReset = true then s else s.handBoundary) = _
    rw [if_neg (by rw [h]; decide), State.handBoundary, if_pos hb, State.raiseAttached, hraise]
    rfl
  · show Host.Outcome.next (if s.inReset = true then s else s.takeStrobe p) = _
    rw [if_neg (by rw [h]; decide), State.takeStrobe, if_pos hr]
    refine congrArg Host.Outcome.next (s.modifyPort_congr p ?_)
    unfold PortState.latchStrobe
    rw [PortState.raise_not_kept _ _ rfl]
    by_cases hd : (s.port p).session = .detached
    · simp only [hd, ↓reduceIte]
    · simp only [hd, ↓reduceIte]

/-! ## READ_TIME, SET_RATE and SET_FRAME -/

/-- Settles O10: the owner's snapshot, with the slew's and the indications' bytes written out. -/
theorem readTimeResult : Obligations.ReadTimeResult := by
  unfold Obligations.ReadTimeResult
  intro p s ht
  refine exec_taken (owner := readTimeOwner p) rfl rfl ht ?_
  unfold readTimeOwner timeSnapshot
  refine congrArg (Answer.mk _ _) ?_
  have hslew : slewBytes s.slew = match s.slew with
      | none => [0, 0, 0, 0, 0, 0]
      | some w => intervalBytes w.interval ++ beBytes 3 w.left := by
    cases s.slew with
    | none => decide
    | some w => rfl
  have hflags : ∀ a b : Bool, BitVec.ofNat 8 (boolBit a + 2 * boolBit b) = (if a then 1 else 0) + (if b then 2 else 0) := by
    decide
  dsimp only
  rw [hflags, hslew] <;> rfl

/-- Settles O14: the owners of SET_RATE and SET_FRAME, by the slew that is in progress. -/
theorem rateAndFrameCommands : Obligations.RateAndFrameCommands := by
  unfold Obligations.RateAndFrameCommands
  refine ⟨fun p k n s ht => ⟨fun hk => ?_, fun hk => ?_⟩,
    fun p length s ht => exec_taken (owner := setFrameOwner length) rfl rfl ht rfl⟩
  · refine exec_taken (owner := setRateOwner k n) rfl rfl ht ?_
    unfold setRateOwner slewOfRate
    rw [if_neg hk]
    rfl
  · refine exec_taken (owner := setRateOwner k n) rfl rfl ht ?_
    unfold setRateOwner slewOfRate
    rw [if_pos hk]
    exact congrArg (Answer.mk _ _) (by decide)

end Sys2Proof.Machine
end

section
/-! SUPPORT. Forces, leases, expiries and the snapshot commands (O16, O17, O18, O21, O23). -/

namespace Sys2Proof.Machine

/-! ## Pins and forces -/

theorem State.outPin_running {s : State} (h : s.inReset = false) (l : Line) : s.outPin l = (s.line l).pin := by
  unfold State.outPin
  rw [h]
  rfl

theorem State.setForce_some_forcedLines (s : State) (lines : LineSet) (level : Level) :
    (s.setForce lines (some level)).forcedLines = bitsWhere fun l => lines[l] || (s.line l).force.isSome := by
  apply set_ext; intro l
  unfold State.forcedLines
  rw [bitsWhere_getElem, bitsWhere_getElem, State.setForce_line]
  cases lines[l] <;> rfl

/-- A line that is forced shows its force (02 R22). -/
theorem State.setForce_some_outPin (s : State) {lines : LineSet} {level : Level} {l : Line} (hl : lines[l] = true)
    (hr : s.inReset = false) : (s.setForce lines (some level)).outPin l = level := by
  have hr' : (s.setForce lines (some level)).inReset = false := by rw [State.setForce_frame]; exact hr
  rw [State.outPin_running hr', State.setForce_line, if_pos hl]
  rfl

/-- Settles O16: the pin's level by the force's presence, and the two owners through `State.setForce`. -/
theorem forceLinesAndPins : Obligations.ForceLinesAndPins := by
  unfold Obligations.ForceLinesAndPins
  refine ⟨fun s l => ⟨fun h => State.outPin_inReset h l, fun h f hf => ?_, fun h hf => ?_⟩, fun p lines level s ht =>
    ⟨s.setForce lines (some level), ?_, s.setForce_frame lines _,
      fun l => ⟨s.setForce_line lines _ l, s.setForce_some_outPin⟩⟩⟩
  · rw [State.outPin_running h, LineRecord.pin, hf]
  · rw [State.outPin_running h, LineRecord.pin, hf]
  · rw [← State.setForce_some_forcedLines]
    exact exec_taken (owner := forceLinesOwner lines level) rfl rfl ht rfl

/-! ## Leases granted and renewed -/

/-- The lines that a port holds once a set is leased to it (02 R26). -/
theorem State.grant_heldLines (s : State) (p : Port) (lines : LineSet) (term : Option Nat) (f : Failsafe) :
    (s.grant p lines term f).heldLines p = bitsWhere fun l => lines[l] || s.holds p l := by
  apply set_ext; intro l
  unfold State.heldLines
  rw [bitsWhere_getElem, bitsWhere_getElem]
  cases hl : lines[l] with
  | true =>
    have hline : (s.grant p lines term f).line l = { s.line l with lease := some ⟨p, .start term, f⟩ } := by
      rw [State.grant, State.mapLines_line, if_pos hl]
    unfold State.holds
    rw [hline]
    exact beq_self_eq_true p
  | false =>
    have hline : (s.grant p lines term f).line l = s.line l := by
      rw [State.grant, State.mapLines_line, if_neg (by rw [hl]; decide)]
    rw [State.holds_of_lease (congrArg LineRecord.lease hline), Bool.false_or]

/-- Settles O17: the owner's check of the lines in the way, and the grant line by line. -/
theorem acquireLinesResult : Obligations.AcquireLinesResult := by
  unfold Obligations.AcquireLinesResult
  intro p lines term f s ht inTheWay
  refine ⟨fun hn => exec_taken (owner := acquireLinesOwner p lines term f) rfl rfl ht (if_pos hn),
    fun hn => exec_taken (owner := acquireLinesOwner p lines term f) rfl rfl ht ?_⟩
  have hway : linesInTheWay p lines s = 0 := hn
  unfold acquireLinesOwner
  rw [if_neg (not_not_intro hway), State.grant_heldLines, State.grant]
  rfl

/-- Settles O18: the owner's check of the lines not held, and the renewal line by line. -/
theorem renewLinesResult : Obligations.RenewLinesResult := by
  unfold Obligations.RenewLinesResult
  intro p lines s ht notHeld
  refine ⟨fun hn => exec_taken (owner := renewLinesOwner p lines) rfl rfl ht (if_pos hn),
    fun hn => exec_taken (owner := renewLinesOwner p lines) rfl rfl ht ?_⟩
  have hheld : linesNotHeld p lines s = 0 := hn
  unfold renewLinesOwner
  rw [if_neg (not_not_intro hheld), State.renew]
  rfl

/-! ## Expiry -/

/-- The one line of a lease is the leased part of its set. -/
theorem State.leasedIn_one {s : State} {l : Line} (h : (s.line l).lease.isSome = true) :
    s.leasedIn (BitVec.twoPow 16 l.val) = BitVec.twoPow 16 l.val := by
  apply set_ext; intro k
  rw [State.leasedIn, bitsWhere_getElem, twoPow_getElem]
  by_cases hk : k = l
  · rw [hk, h, Bool.and_true]
  · rw [decide_eq_false hk, Bool.false_and]

/-- Settles O21: the lease is ended as a set of one line, `State.leasedIn_one`, before its holder is told. -/
theorem leaseExpiryEndsTheLease : Obligations.LeaseExpiryEndsTheLease := by
  unfold Obligations.LeaseExpiryEndsTheLease
  intro l x term s h hl hterm one u
  have hleased : (s.line l).lease.isSome = true := by rw [hl]; rfl
  have hraise : ∀ ps : PortState, ps.raise .leaseExpired =
      if ps.session = .detached then ps else { ps with events := ps.events ||| EventKind.leaseExpired.mask } :=
    fun ps => PortState.raise_not_kept _ _ rfl
  have hexpire : s.expireLease l = u.modifyPort x.holder (PortState.raise .leaseExpired) := by
    unfold State.expireLease
    rw [hl]
    dsimp only
    rw [hterm, if_pos (show (LeaseTerm.finite term 0).runOut = true from rfl), State.endLeases_eq _ _ _ (by decide),
      State.leasedIn_one hleased, State.raise]
  show Host.Outcome.next (if s.inReset = true then s else s.expireLease l) = _
  rw [if_neg (by rw [h]; decide), hexpire]
  exact congrArg Host.Outcome.next (u.modifyPort_congr x.holder (hraise _))

/-! ## Snapshots -/

theorem State.lines_toList (s : State) : s.lines.toList = (List.finRange 16).map s.line := by
  apply List.ext_getElem
  · simp
  · intro i h h'
    simp [State.line]

/-- The byte of a line record's levels (11 R174). -/
theorem lineLevels_eq (shadow : Level) (force : Option Level) :
    (BitVec.ofNat 8 (levelBit shadow + 2 * boolBit force.isSome + 4 * (match force with | some f => levelBit f | none => 0) +
      8 * levelBit (LineRecord.pin ⟨none, shadow, force⟩)) : Byte) =
    (if shadow = .high then 0x01 else 0) + (if force = none then 0 else 0x02) + (if force = some .high then 0x04 else 0) +
      (if force = some .high ∨ (force = none ∧ shadow = .high) then 0x08 else 0) := by
  cases shadow <;> rcases force with _ | _ | _ <;> decide

/-- The bit fields of a leased line, for a term that does not end and for one that does (11 R174). -/
theorem lineCode_eq (h : Port) (f : Failsafe) :
    ((BitVec.ofNat 8 (1 + 2 * h.index.val + 8 * failsafeCode f + 32) : Byte) =
      0x21 + (match h with | .a => 0x00 | .b => 0x02 | .c => 0x04 | .d => 0x06) +
        (match f with | .low => 0x00 | .high => 0x08 | .hold => 0x10)) ∧
    (BitVec.ofNat 8 (1 + 2 * h.index.val + 8 * failsafeCode f) : Byte) =
      0x01 + (match h with | .a => 0x00 | .b => 0x02 | .c => 0x04 | .d => 0x06) +
        (match f with | .low => 0x00 | .high => 0x08 | .hold => 0x10) := by
  cases h <;> cases f <;> decide

/-- Settles O23: three owners that answer the state they found, with their layouts written out. -/
theorem snapshotCommands : Obligations.SnapshotCommands := by
  unfold Obligations.SnapshotCommands
  refine ⟨fun p s ht => ?lines, fun p s ht => exec_taken (owner := readQueueOwner p) rfl rfl ht ?queue,
    fun p s ht => exec_taken (owner := readStatusOwner p) rfl rfl ht ?status⟩
  case lines =>
    intro holder failsafe levels record
    have hrecord : ∀ r, lineBytes r = record r := by
      intro r
      obtain ⟨lease, shadow, force⟩ := r
      have hlevels := lineLevels_eq shadow force
      rcases lease with _ | ⟨h, _ | ⟨term, left⟩, f⟩
      · exact congrArg (fun b : Byte => [0x00, b, 0, 0, 0, 0, 0, 0, 0, 0]) hlevels
      · exact congrArg₂ (fun a b : Byte => [a, b, 0, 0, 0, 0, 0, 0, 0, 0]) (lineCode_eq h f).1 hlevels
      · exact congrArg₂ (fun a b : Byte => [a, b] ++ beBytes 4 term ++ beBytes 4 left) (lineCode_eq h f).2 hlevels
    refine exec_taken (owner := readLinesOwner) rfl rfl ht ?_
    unfold readLinesOwner
    rw [State.lines_toList, List.map_map, funext hrecord]
    rfl
  case queue =>
    unfold readQueueOwner quotaBytes
    simp only [List.append_assoc]
    rfl
  case status =>
    have hsession : (s.port p).session.byte = if (s.port p).session = .attached then 0x01 else 0x02 := by
      unfold State.takes at ht
      obtain ⟨-, hs | ⟨-, hc⟩ | ⟨hs, -⟩, -⟩ := ht
      · rw [hs]
        rfl
      · cases hc
      · rw [hs]
        rfl
    unfold readStatusOwner
    dsimp only
    rw [hsession]
    rfl

end Sys2Proof.Machine
end

section
/-! SUPPORT. The commands of the action queue, of batches and of the capture unit (O24, O25, O26, O27, O31, O32, O34, O36, O37,
O38). -/

namespace Sys2Proof.Machine

/-! ## Checks of SUBMIT and STAGE -/

theorem not_lineIsHeld_iff (p : Port) (x : Descriptor) (s : State) :
    (!lineIsHeld p x s) = true ↔ ∃ l, descLine x.action = some l ∧ s.holds p l = false := by
  unfold lineIsHeld
  cases descLine x.action <;> simp

theorem lineIsHeld_of {p : Port} {x : Descriptor} {s : State} (h : ∀ l, descLine x.action = some l → s.holds p l = true) :
    lineIsHeld p x s = true := by
  unfold lineIsHeld
  cases hl : descLine x.action with
  | none => rfl
  | some l => exact h l hl

theorem someTimeTooFar_iff (x : Descriptor) (mc : Time) :
    someTimeTooFar x mc = true ↔
      tooFar mc x.dueTime = true ∨ ∃ l w, x.action = .pulse l w ∧ tooFar mc (x.dueTime + w.zeroExtend 48) = true := by
  unfold someTimeTooFar trailTime
  cases x.action <;> simp

theorem overQuota_iff (p : Port) (x : Descriptor) (s : State) :
    overQuota p x s = true ↔ (s.port p).quota < s.usage p + descSlots x := decide_eq_true_iff

/-- Settles O24: the owner's checks in its own order. -/
theorem submitRefusalsInOrder : Obligations.SubmitRefusalsInOrder := by
  unfold Obligations.SubmitRefusalsInOrder
  intro p x s ht notOwner dupTag late far above
  have hheld : (!lineIsHeld p x s) = true ↔ notOwner := not_lineIsHeld_iff p x s
  have htag : s.tagLive p x.tag = true ↔ dupTag := s.tagLive_iff p x.tag
  have hlate : (reached s.mc x.dueTime && !x.lateOk) = true ↔ late := by simp [late]
  have hfar : someTimeTooFar x s.mc = true ↔ far := someTimeTooFar_iff x s.mc
  have habove : overQuota p x s = true ↔ above := overQuota_iff p x s
  have taken : ∀ {r data}, submitOwner p x s = ⟨s, r, data⟩ → exec (.submit p x) s = .next (s.answered s p r data) :=
    fun ho => exec_taken (owner := submitOwner p x) rfl rfl ht ho
  refine ⟨fun h1 => taken (if_pos (hheld.2 h1)), fun h1 h2 => taken ?_, fun h1 h2 h3 => taken ?_,
    fun h1 h2 h3 h4 => taken ?_, fun h1 h2 h3 h4 h5 => taken ?_⟩
  all_goals refine (if_neg (hheld.not.2 h1)).trans ?_
  · exact if_pos (htag.2 h2)
  all_goals refine (if_neg (htag.not.2 h2)).trans ?_
  · exact if_pos (hlate.2 h3)
  all_goals refine (if_neg (hlate.not.2 h3)).trans ?_
  · exact if_pos (hfar.2 h4)
  · exact (if_neg (hfar.not.2 h4)).trans (if_pos (habove.2 h5))

/-- A SUBMIT that passes its checks answers from the state at admission (03 R48, R56). -/
theorem exec_submit_admitted {p : Port} {x : Descriptor} {s : State} (ht : s.takes (.submit p x))
    (hheld : ∀ l, descLine x.action = some l → s.holds p l = true) (htag : ∀ e ∈ s.liveEntries p, e.tag ≠ x.tag)
    (hlate : reached s.mc x.dueTime = false ∨ x.lateOk = true) (hfar : tooFar s.mc x.dueTime = false)
    (htrail : ∀ l w, x.action = .pulse l w → tooFar s.mc (x.dueTime + w.zeroExtend 48) = false)
    (hroom : s.usage p + descSlots x ≤ (s.port p).quota) :
    exec (.submit p x) s = .next (s.answered (s.admitEntries p x) p .ok
      (beBytes 2 (s.usage p + descSlots x) ++ [BitVec.ofNat 8 (descSlots x)])) := by
  refine exec_taken (owner := submitOwner p x) rfl rfl ht ?_
  have h1 : ¬ (!lineIsHeld p x s) = true := by
    rw [not_lineIsHeld_iff]
    rintro ⟨l, hl, hn⟩
    rw [hheld l hl] at hn
    cases hn
  have h2 : ¬ s.tagLive p x.tag = true := by
    rw [(s.tagLive_eq_false p x.tag).2 htag]
    decide
  have h3 : ¬ (reached s.mc x.dueTime && !x.lateOk) = true := by
    rcases hlate with h | h
    · rw [h, Bool.false_and]
      decide
    · rw [h, Bool.not_true, Bool.and_false]
      decide
  have h4 : ¬ someTimeTooFar x s.mc = true := by
    rw [someTimeTooFar_iff]
    rintro (h | ⟨l, w, hx, h⟩)
    · rw [hfar] at h
      cases h
    · rw [htrail l w hx] at h
      cases h
  have h5 : ¬ overQuota p x s = true := (overQuota_iff p x s).not.2 (Nat.not_lt.2 hroom)
  refine (if_neg h1).trans ((if_neg h2).trans ((if_neg h3).trans ((if_neg h4).trans ((if_neg h5).trans ?_))))
  have hbytes : beBytes 1 (descSlots x) = [BitVec.ofNat 8 (descSlots x)] := by
    unfold descSlots
    split <;> decide
  rw [hbytes]

/-- The late guard that an admission leaves (07 R127, log entry 27). -/
theorem PortState.admitting_noted (x : Descriptor) (mc : Time) (ps : PortState) :
    ps.admitting x mc = { ps with lateGuard := match x.guard with
      | some g => if reached mc x.dueTime = true then some ⟨x.tag, g.channel, .quiet⟩ else ps.lateGuard
      | none => ps.lateGuard } := by
  unfold PortState.admitting
  cases x.guard with
  | none => rfl
  | some g =>
    dsimp only
    split <;> rfl

/-- Entries that enter PENDING one after another, in a queue that is in order (03 R47, R48). -/
theorem foldl_insertEntry (mc : Time) (es queue : List Entry) (h : queue.Pairwise (mayPrecede mc)) :
    es.foldl (fun q e => insertEntry mc e q) queue = es.foldl (fun q e => placed mc e q) queue := by
  induction es generalizing queue with
  | nil => rfl
  | cons e es ih =>
    rw [List.foldl_cons, List.foldl_cons, insertEntry_eq_placed mc e queue h]
    exact ih _ (placed_pairwise mc e queue h)

theorem State.enqueue_placed {s : State} (es : List Entry) (h : s.queue.Pairwise (mayPrecede s.mc)) :
    s.enqueue es = { s with queue := es.foldl (fun q e => placed s.mc e q) s.queue } := by
  rw [State.enqueue_eq, foldl_insertEntry _ _ _ h]

/-- Settles O25: the admission is `State.enqueue_placed` for the queue and `PortState.admitting_noted` for the late guard. -/
theorem submitAdmits : Obligations.SubmitAdmits := by
  unfold Obligations.SubmitAdmits
  intro p x s ht hqueue hheld htag hlate hfar htrail hroom entry noted admits one
  have hexec := exec_submit_admitted ht hheld htag hlate hfar htrail hroom
  have hadmit : s.admitEntries p x = { s with
      queue := (descEntries p x).foldl (fun q e => placed s.mc e q) s.queue
      ports := s.ports.set p { s.port p with lateGuard := noted } } := by
    unfold State.admitEntries
    rw [State.enqueue_placed _ hqueue.1, State.modifyPort, PortState.admitting_noted]
    rfl
  rw [hadmit] at hexec
  unfold descEntries at hexec
  cases hx : x.action
  all_goals
    rw [hx] at hexec
    exact hexec

/-! ## STAGE, COMMIT_BATCH and DISCARD_BATCH -/

/-- Settles O31: the owner's checks in its own order, and the staging. -/
theorem stageResult : Obligations.StageResult := by
  unfold Obligations.StageResult
  intro p x s ht armed dupTag above full
  have harmed : ((s.port p).batch.state == .armed) = true ↔ armed := beq_iff_eq
  have htag : s.tagLive p x.tag = true ↔ dupTag := s.tagLive_iff p x.tag
  have habove : overQuota p x s = true ↔ above := overQuota_iff p x s
  have taken : ∀ {u r data}, stageOwner p x s = ⟨u, r, data⟩ → exec (.stage p x) s = .next (s.answered u p r data) :=
    fun ho => exec_taken (owner := stageOwner p x) rfl rfl ht ho
  refine ⟨fun h1 => taken (if_pos (harmed.2 h1)), fun h1 h2 => taken ?_, fun h1 h2 h3 => taken ?_,
    fun h1 h2 h3 h4 => taken ?_, fun h1 h2 h3 h4 => taken ?_⟩
  all_goals refine (if_neg (harmed.not.2 h1)).trans ?_
  · exact if_pos (htag.2 h2)
  all_goals refine (if_neg (htag.not.2 h2)).trans ?_
  · exact if_pos (habove.2 h3)
  all_goals refine (if_neg (habove.not.2 h3)).trans ?_
  · exact if_pos h4
  · exact if_neg h4

/-- Settles O32: the batch's state tells COMMIT_BATCH's cases apart, and DISCARD_BATCH frees it. -/
theorem commitAndDiscardBatch : Obligations.CommitAndDiscardBatch := by
  unfold Obligations.CommitAndDiscardBatch
  refine ⟨fun p ahead s ht => ?commit, fun p s ht => exec_taken (owner := discardBatchOwner p) rfl rfl ht rfl⟩
  case commit =>
    intro n target
    have hahead : framesAheadOf ahead = n := by
      cases ahead <;> rfl
    have taken : ∀ {u r data}, commitBatchOwner p ahead s = ⟨u, r, data⟩ →
        exec (.commitBatch p ahead) s = .next (s.answered u p r data) :=
      fun ho => exec_taken (owner := commitBatchOwner p ahead) rfl rfl ht ho
    unfold commitBatchOwner targetIndex at taken
    rw [hahead] at taken
    refine ⟨fun hn => taken (if_pos hn), fun hn hs => taken ?_, fun hn hs => taken ?_, fun hn hs => taken ?_⟩
    all_goals
      rw [if_neg hn, hs]
      rfl

/-! ## CANCEL and CANCEL_LINES -/

theorem pendingTagged_eq (p : Port) (tag : Half) (s : State) :
    pendingTagged p tag s = s.queue.filter fun e => e.port == p && e.tag == tag := by
  rw [pendingTagged, State.pendingOf, List.filter_filter]
  exact List.filter_congr fun e _ => Bool.and_comm ..

theorem pendingOnLines_eq (p : Port) (lines : LineSet) (s : State) :
    pendingOnLines p lines s = s.queue.filter fun e => e.port == p && namesLineIn lines e := by
  rw [pendingOnLines, State.pendingOf, List.filter_filter]
  exact List.filter_congr fun e _ => Bool.and_comm ..

/-- CANCEL's owner, with its conditions as statements (03 R58). -/
theorem cancelOwner_eq (p : Port) (tag : Half) (s : State) :
    cancelOwner p tag s =
      if stagedTagged p tag s ≠ [] ∧ (s.port p).batch.state = .armed then refuse s .batchArmed []
      else if stagedTagged p tag s = [] ∧ pendingTagged p tag s = [] then refuse s .notFound []
      else
        ⟨(s.retiring (fun e => e.port == p && e.tag == tag) .cancelled).modifyPort p (PortState.unstage tag), .ok,
          beBytes 1 (pendingTagged p tag s).length ++ beBytes 1 (stagedTagged p tag s).length⟩ := by
  have hretire : s.retireAll (pendingTagged p tag s) .cancelled =
      s.retiring (fun e => e.port == p && e.tag == tag) .cancelled := by
    rw [pendingTagged_eq, State.retireAll_filter _ _ _ (by decide)]
  unfold cancelOwner
  simp only [hretire, Bool.and_eq_true, Bool.not_eq_true', List.isEmpty_eq_false_iff, List.isEmpty_iff, beq_iff_eq]

/-- Settles O26: `cancelOwner_eq` and `pendingOnLines_eq` turn the owners' lists into what retires. -/
theorem cancelCommands : Obligations.CancelCommands := by
  unfold Obligations.CancelCommands
  refine ⟨fun p tag s ht => ?cancel, fun p lines s ht => ?cancelLines⟩
  case cancel =>
    intro staged waiting
    have hwaiting : pendingTagged p tag s = s.queue.filter waiting := pendingTagged_eq p tag s
    rw [← hwaiting]
    have taken : ∀ {u r data}, cancelOwner p tag s = ⟨u, r, data⟩ → exec (.cancel p tag) s = .next (s.answered u p r data) :=
      fun ho => exec_taken (owner := cancelOwner p tag) rfl rfl ht ho
    rw [cancelOwner_eq] at taken
    refine ⟨fun hs ha => taken (if_pos ⟨hs, ha⟩), fun hs hw => taken ((if_neg fun hc => hc.1 hs).trans (if_pos ⟨hs, hw⟩)),
      fun hfree hsome => taken ((if_neg ?_).trans (if_neg ?_))⟩
    · rintro ⟨hs, ha⟩
      exact hfree.elim hs fun hn => hn ha
    · rintro ⟨hs, hw⟩
      exact hsome.elim (fun hn => hn hs) fun hn => hn hw
  case cancelLines =>
    intro gone
    refine exec_taken (owner := cancelLinesOwner p lines) rfl rfl ht ?_
    have hgone : pendingOnLines p lines s = s.queue.filter gone := pendingOnLines_eq p lines s
    unfold cancelLinesOwner
    rw [hgone, State.retireAll_filter _ _ _ (by decide)]

/-! ## READ_COMPLETIONS and report movement -/

/-- The bytes of a completion record's kind with its part, and of its outcome (11 R173, R175). -/
theorem completionCodes_eq (k : Kind) (part : Part) :
    (BitVec.ofNat 8 (k.code + 16 * part.code) : Byte) =
      (match k with | .set => 0x00 | .clear => 0x01 | .toggle => 0x02 | .pulse => 0x03 | .note => 0x04) +
        (match part with | .none => 0x00 | .lead => 0x10 | .trail => 0x20) := by
  cases k <;> cases part <;> decide

/-- The records of a FIFO that is full where others wait, as the oldest leave and those others move in (04 R77, R81). -/
theorem refilled_front {α : Type} (fifo waiting : List α) (n : Nat) (hn : n ≤ 32) (hsize : fifo.length ≤ 32)
    (hmoved : waiting ≠ [] → fifo.length = 32) :
    fifo.drop n ++ waiting.take (32 - (fifo.drop n).length) = ((fifo ++ waiting).drop n).take 32 := by
  have hall : (fifo.drop n).take 32 = fifo.drop n := List.take_of_length_le (by rw [List.length_drop]; omega)
  by_cases hw : waiting = []
  · rw [hw, List.take_nil, List.append_nil, List.append_nil, hall]
  · have hfull := hmoved hw
    rw [List.drop_append_of_le_length (by omega), List.take_append, hall]

/-- What then still waits. -/
theorem refilled_rest {α β : Type} (fifo : List β) (waiting : List α) (n : Nat) (hn : n ≤ 32)
    (hmoved : waiting ≠ [] → fifo.length = 32) : waiting.drop (32 - (fifo.drop n).length) = waiting.drop n := by
  by_cases hw : waiting = []
  · rw [hw, List.drop_nil, List.drop_nil]
  · have hfull := hmoved hw
    have hroom : 32 - (fifo.drop n).length = n := by
      rw [List.length_drop]
      omega
    rw [hroom]

/-- Where a retirement order that waits has a full FIFO before it, what leaves the FIFO is replaced from it, and the FIFO does
not become empty (04 R77, R79, R81). -/
theorem PortState.popRecords_eq {ps : PortState} {n : Nat} (hn : n < 32) (hmoved : ps.reportsMoved)
    (hsize : ps.fifo.length ≤ 32) : ps.popRecords n = { ps with
      fifo := (ps.allReports.drop n).take 32, retirement := ps.retirement.drop n } := by
  have hstays : ¬ (ps.fifo.drop n = [] ∧ ps.retirement ≠ [] ∧ ps.session ≠ .detached) := by
    rintro ⟨hnil, hwait, -⟩
    have hfull : ps.fifo.length = 32 := hmoved hwait
    rw [List.drop_eq_nil_iff] at hnil
    omega
  have hfront := refilled_front ps.fifo (ps.retirement.map Retired.record) n (by omega) hsize fun hne =>
    hmoved fun hc => hne (by rw [hc]; rfl)
  rw [← List.map_take] at hfront
  have hdepth : Config.fifoDepth = 32 := rfl
  rw [PortState.popRecords, PortState.moveReports_eq]
  dsimp only
  rw [if_neg hstays, PortState.allReports, ← hfront, hdepth, refilled_rest ps.fifo ps.retirement n (by omega) hmoved]

/-- The reports that are left after some were read (04 R81). -/
theorem PortState.popRecords_length {ps : PortState} {n : Nat} (hn : n < 32) (hmoved : ps.reportsMoved)
    (hsize : ps.fifo.length ≤ 32) :
    (ps.popRecords n).fifo.length + (ps.popRecords n).retirement.length = (ps.allReports.drop n).length := by
  have hfull : ps.retirement.length ≠ 0 → ps.fifo.length = 32 := fun h => hmoved fun hc => h (by rw [hc]; rfl)
  rw [PortState.popRecords_eq hn hmoved hsize]
  simp only [PortState.allReports, List.length_take, List.length_drop, List.length_append, List.length_map]
  omega

/-- A READ_COMPLETIONS that is taken reads at most eight records (11 R172). -/
theorem State.takes_readCompletions {s : State} {p : Port} {n : Nat} (h : s.takes (.readCompletions p n)) : n ≤ 8 := by
  have hrange := s.awaits_wellFormed p _ (s.takes_awaits _ p _ _ _ rfl h)
  simp only [Instr.wellFormed, Bool.and_eq_true, decide_eq_true_eq] at hrange
  exact hrange.2

/-- Settles O27: the pop is `PortState.popRecords_eq`, the movement `PortState.moveReports_eq`. -/
theorem completionFifoCommands : Obligations.CompletionFifoCommands := by
  unfold Obligations.CompletionFifoCommands
  refine ⟨fun p count s ht hmoved hsize => ?read, fun p s h => ?move⟩
  case read =>
    intro kind part line outcome bytes
    have hbytes : ∀ r, completionBytes r = bytes r := by
      intro r
      obtain ⟨tag, part, kind, line, outcome, due, actual⟩ := r
      exact congrArg (fun b : Byte => beBytes 2 tag.toNat ++ [b, _, _] ++ beBytes 6 due.toNat ++ beBytes 6 actual.toNat)
        (completionCodes_eq kind part)
    have hcount : count < 32 := Nat.lt_of_le_of_lt (State.takes_readCompletions ht) (by decide)
    have hpop := PortState.popRecords_eq hcount hmoved hsize
    have hstate := s.modifyPort_congr p (g := PortState.popRecords count) (h := fun ps =>
      { ps with fifo := (ps.allReports.drop count).take 32, retirement := ps.retirement.drop count }) hpop
    refine exec_taken (owner := readCompletionsOwner p count) rfl rfl ht ?_
    unfold readCompletionsOwner
    dsimp only
    rw [hstate, PortState.popRecords_length hcount hmoved hsize, List.length_take, funext hbytes]
  case move =>
    intro room
    show Host.Outcome.next (if s.inReset = true then s else s.modifyPort p PortState.moveReports) = _
    rw [if_neg (by rw [h]; decide)]
    exact congrArg Host.Outcome.next (s.modifyPort_congr p (PortState.moveReports_eq _))

/-! ## Configuration, subscriptions and logs -/

/-- Settles O36: the owner's check of the Supervisor, and the configuration channel by channel. -/
theorem configInputResult : Obligations.ConfigInputResult := by
  unfold Obligations.ConfigInputResult
  intro p channels depth select s ht
  have taken : ∀ {u r data}, configInputOwner p channels depth select s = ⟨u, r, data⟩ →
      exec (.configInput p channels depth select) s = .next (s.answered u p r data) :=
    fun ho => exec_taken (owner := configInputOwner p channels depth select) rfl rfl ht ho
  refine ⟨fun h hs hne => taken (if_pos ?_), fun hs => taken ((if_neg ?_).trans ?_)⟩
  · rw [Bool.not_eq_true', supervisorAllows_eq_false_iff]
    exact ⟨h, hs, hne⟩
  · rw [Bool.not_eq_true', supervisorAllows_eq_false_iff]
    rintro ⟨h, hh, hne⟩
    rcases hs with hs | hs
    · rw [hs] at hh
      cases hh
    · rw [hs] at hh
      cases hh
      exact hne rfl
  · rw [State.configure_highChannels, State.configure_eq]

/-- Settles O37: three owners that change or show the requester's sets and flags alone. -/
theorem subscriptionAndArmFlagCommands : Obligations.SubscriptionAndArmFlagCommands := by
  unfold Obligations.SubscriptionAndArmFlagCommands
  exact ⟨fun p channels s ht => exec_taken (owner := subscribeOwner p channels) rfl rfl ht rfl,
    fun p channels s ht => exec_taken (owner := clearArmsOwner p channels) rfl rfl ht rfl,
    fun p s ht => exec_taken (owner := readArmsOwner p) rfl rfl ht rfl⟩

/-- Settles O38: the owner's split of the log at the count. -/
theorem readCapturesResult : Obligations.ReadCapturesResult := by
  unfold Obligations.ReadCapturesResult
  intro p count s ht port direction bytes
  have hbytes : ∀ r, captureBytes r = bytes r := by
    intro r
    obtain ⟨body, time, lost⟩ := r
    cases lost <;> rcases body with ⟨c, _ | _⟩ | ⟨_ | _ | _ | _, v⟩ | offset <;> rfl
  refine exec_taken (owner := readCapturesOwner p count) rfl rfl ht ?_
  unfold readCapturesOwner
  dsimp only
  rw [List.length_take, List.length_drop, funext hbytes]

end Sys2Proof.Machine
end

section
/-! SUPPORT. Due events and batch validation (O28, O29, O30, O33). -/

namespace Sys2Proof.Machine

/-! ## Due events -/

/-- A due event takes the entry that stands first among those fallen due (04 R66). -/
theorem exec_dueEvent {s : State} {e : Entry} {rest : List Entry} (h : s.inReset = false) (hq : s.queue = e :: rest)
    (hr : reached s.mc e.dueTime = true) : exec .dueEvent s = .next (s.takeEntry e) := by
  have hhead : s.dueHead = some e := by
    unfold State.dueHead
    rw [hq]
    exact if_pos hr
  show Host.Outcome.next (if s.inReset = true then s else s.takeDue) = _
  rw [if_neg (by rw [h]; decide), State.takeDue, hhead]

/-- The retirement of the entry that stands first. -/
theorem State.retire_head {s : State} {e : Entry} {rest : List Entry} (hq : s.queue = e :: rest) (o : Outcome) :
    s.retire e o = { s with
      queue := rest
      ports := s.ports.set e.port
        (if o = .done ∧ e.report = .faultsOnly then s.port e.port else (s.port e.port).takeReports [⟨e, o, s.mc⟩]) } := by
  have herase : s.queue.erase e = rest := by rw [hq, List.erase_cons_head]
  rw [State.retire_eq, herase]
  split
  · rw [show s.ports.set e.port (s.port e.port) = s.ports from PortFile.set_get ..]
  · rfl

/-- The retirement of the entry that stands first, over a change of its port and of the lines. -/
theorem State.retire_held {s : State} {e : Entry} {rest : List Entry} (hq : s.queue = e :: rest) (o : Outcome)
    (lines : Vector LineRecord 16) (held : PortState) :
    State.retire { s with lines := lines, ports := s.ports.set e.port held } e o = { s with
      queue := rest, lines := lines
      ports := s.ports.set e.port
        (if o = .done ∧ e.report = .faultsOnly then held else held.takeReports [⟨e, o, s.mc⟩]) } := by
  have hport : State.port { s with lines := lines, ports := s.ports.set e.port held } e.port = held :=
    PortFile.get_set_same ..
  rw [State.retire_head (s := { s with lines := lines, ports := s.ports.set e.port held }) hq, hport]
  dsimp only
  rw [PortFile.set_set]

/-- An entry whose guard passes is applied and retires with the outcome of its application (04 R67). -/
theorem State.takeEntry_passes {s : State} {e : Entry} (hg : ∀ g, e.guard = some g → (s.port e.port).setFor e g.channel) :
    s.takeEntry e = ((s.modifyPort e.port (PortState.guardPassed e)).applyAction e).1.retire e
      ((s.modifyPort e.port (PortState.guardPassed e)).applyAction e).2 := by
  unfold State.takeEntry
  rw [s.guardTest_passes e hg]

/-- The level that an action on a line leaves, from the shadow level that it finds (04 R68). -/
def EntryAction.levelFrom (shadow : Level) : EntryAction → Level
  | .set _ => .high
  | .lead _ => .high
  | .clear _ => .low
  | .trail _ => .low
  | .toggle _ => invertLevel shadow
  | .note _ _ => shadow

theorem State.applyAction_line {s : State} {e : Entry} {l : Line} (hl : e.action.line? = some l) :
    s.applyAction e = ({ s with lines := s.lines.set l { s.line l with shadow := e.action.levelFrom (s.line l).shadow } },
      if (s.line l).force = none then .done else .masked) := by
  have houtcome : (if (s.line l).force.isSome = true then Outcome.masked else .done) =
      if (s.line l).force = none then .done else .masked := by
    cases (s.line l).force <;> rfl
  unfold State.applyAction
  cases ha : e.action with
  | note v ts =>
    rw [ha] at hl
    cases hl
  | _ =>
    rw [ha] at hl
    cases hl
    simp only [State.applyLevel, houtcome, EntryAction.levelFrom]

/-- Settles O28: the due entry's guard passes, its action moves its line's level, and it retires by `State.retire_held`. -/
theorem dueLineEntryIsApplied : Obligations.DueLineEntryIsApplied := by
  unfold Obligations.DueLineEntryIsApplied
  intro e rest l s h hq hr hl hg level outcome
  have hline : (s.modifyPort e.port (PortState.guardPassed e)).line l = s.line l := State.modifyPort_line ..
  rw [exec_dueEvent h hq hr, State.takeEntry_passes hg, State.applyAction_line hl, hline]
  exact congrArg Host.Outcome.next (State.retire_held hq outcome _ _)

/-- The retirement of another PENDING entry of the port whose entry stood first, behind its report. -/
theorem State.retire_second {s : State} {e x : Entry} {rest : List Entry} (hq : s.queue = e :: rest) (hx : x.port = e.port)
    (o o' : Outcome) (ho : o ≠ .done) (ho' : o' ≠ .done) :
    (s.retire e o).retire x o' = { s with
      queue := rest.erase x
      ports := s.ports.set e.port ((s.port e.port).takeReports [⟨e, o, s.mc⟩, ⟨x, o', s.mc⟩]) } := by
  have hboth : ((s.port e.port).takeReports [⟨e, o, s.mc⟩]).takeReports [⟨x, o', s.mc⟩] =
      (s.port e.port).takeReports [⟨e, o, s.mc⟩, ⟨x, o', s.mc⟩] :=
    PortState.takeReports_append [⟨e, o, s.mc⟩] [⟨x, o', s.mc⟩] (s.port e.port)
  rw [State.retire_head hq, if_neg fun hc => ho hc.1, State.retire_eq, if_neg fun hc => ho' hc.1, ← hboth, hx,
    State.modifyPort]
  dsimp only
  rw [PortFile.get_set_same, PortFile.set_set]

/-- An entry whose guard fails: it retires GUARD_FALSE, and the TRAIL of a LEAD behind it (04 R67, 07 R125). -/
theorem State.takeEntry_fails {s : State} {e : Entry} (hf : s.guardTest e = none) :
    s.takeEntry e = s.retireGuardFalse e := by
  unfold State.takeEntry
  rw [hf]

/-- Settles O29: the entry retires by `State.retire_head`, and a LEAD's TRAIL behind it by `State.retire_second`. -/
theorem dueEntryWithClearFlagFails : Obligations.DueEntryWithClearFlagFails := by
  unfold Obligations.DueEntryWithClearFlagFails
  intro e rest g s h hq hr hg hflag
  have hnot : ¬ (Outcome.guardFalse = .done ∧ e.report = .faultsOnly) := fun hc => nomatch hc.1
  have hexec := exec_dueEvent h hq hr
  have hretire := s.retire_head hq .guardFalse
  rw [if_neg hnot] at hretire
  have hqueue : (s.retire e .guardFalse).queue = rest := by rw [hretire]
  rw [State.takeEntry_fails (s.guardTest_fails e g hg hflag), State.retireGuardFalse] at hexec
  rw [hqueue] at hexec
  refine ⟨fun hl => ?_, fun hl hn => ?_, fun trail hl ht => ?_⟩
  · rwa [hl, if_neg (by decide), hretire] at hexec
  · rwa [hl, if_pos rfl, hn, hretire] at hexec
  · have hport : trail.port = e.port := by
      have htrail := List.find?_some ht
      simp only [isTrailOf, Bool.and_eq_true, beq_iff_eq] at htrail
      exact htrail.1.1
    have hboth := State.retire_second hq hport .guardFalse .guardFalse (by decide) (by decide)
    rw [hl, if_pos rfl, ht] at hexec
    exact hexec.trans (congrArg Host.Outcome.next hboth)

/-- A port as a NOTE of an entry is delivered, its own port's flag tested before (07 R131). -/
def PortState.noted (e : Entry) (v : Half) (targets : PortSet) (now : Time) (q : Port) (ps : PortState) : PortState :=
  let tested := if q = e.port then ps.guardPassed e else ps
  if ps.session = .attached ∧ targets[q.index] = true then tested.offered (.note e.port v) now else tested

theorem State.deliverNote_port (s : State) (e : Entry) (v : Half) (targets : PortSet) (q : Port) :
    ((s.modifyPort e.port (PortState.guardPassed e)).deliverNote e.port v targets s.mc).port q =
      (s.port q).noted e v targets s.mc q := by
  have htested : (s.modifyPort e.port (PortState.guardPassed e)).port q =
      if q = e.port then (s.port q).guardPassed e else s.port q := by
    rw [State.modifyPort_port]
    split
    · next hq => rw [hq]
    · rfl
  have hsession : (if q = e.port then (s.port q).guardPassed e else s.port q).session = (s.port q).session := by
    split <;> rfl
  rw [State.deliverNote, State.mapPorts_port, htested, hsession, PortState.noted]
  split
  · next hc => exact PortState.offer_attached _ _ _ (hsession.trans hc.1)
  · rfl

/-- A NOTE's taking: it is delivered, and it retires DONE (04 R70). -/
theorem State.deliverNote_retire {s : State} {e : Entry} {rest : List Entry} {v : Half} {targets : PortSet}
    (hq : s.queue = e :: rest) :
    ((s.modifyPort e.port (PortState.guardPassed e)).deliverNote e.port v targets s.mc).retire e .done =
      { s with
        queue := rest
        ports := s.ports.map fun q ps =>
          if q = e.port ∧ e.report = .always then (ps.noted e v targets s.mc q).takeReports [⟨e, .done, s.mc⟩]
          else ps.noted e v targets s.mc q } := by
  have hport := s.deliverNote_port e v targets
  have hqueue : ((s.modifyPort e.port (PortState.guardPassed e)).deliverNote e.port v targets s.mc).queue = e :: rest := hq
  have hrest : (s.modifyPort e.port (PortState.guardPassed e)).deliverNote e.port v targets s.mc = { s with
      ports := ((s.modifyPort e.port (PortState.guardPassed e)).deliverNote e.port v targets s.mc).ports } := rfl
  generalize (s.modifyPort e.port (PortState.guardPassed e)).deliverNote e.port v targets s.mc = u at *
  have hports : (u.retire e .done).ports = s.ports.map fun q ps =>
      if q = e.port ∧ e.report = .always then (ps.noted e v targets s.mc q).takeReports [⟨e, .done, s.mc⟩]
      else ps.noted e v targets s.mc q := by
    have hmc : u.mc = s.mc := by rw [hrest]
    rw [State.retire_head hqueue]
    refine PortFile.ext_get fun q => ?_
    rw [PortFile.get_set, PortFile.get_map, show u.ports.get q = u.port q from rfl, hport, hport, hmc]
    by_cases hq : q = e.port
    · subst hq
      cases hreport : e.report with
      | always => simp only [reduceCtorEq, and_false, and_self, ↓reduceIte]; rfl
      | faultsOnly => simp only [reduceCtorEq, and_false, and_self, ↓reduceIte]; rfl
    · rw [if_neg hq, if_neg fun hc => hq hc.1]
      rfl
  have hretire := State.retire_head hqueue .done
  rw [← hports, hretire]
  rw [hrest]

/-- Settles O30: the delivery at each target and the retirement after it are `State.deliverNote_retire`. -/
theorem dueNoteIsDelivered : Obligations.DueNoteIsDelivered := by
  unfold Obligations.DueNoteIsDelivered
  intro e rest v targets s h hq hr ha hg
  rw [exec_dueEvent h hq hr, State.takeEntry_passes hg, State.applyAction, ha]
  exact congrArg Host.Outcome.next (State.deliverNote_retire hq)

/-! ## Batch validation -/

/-- The causes that a validation finds, NOT_OWNER before LATE (05 R93). -/
theorem validationCause_cases (p : Port) (s : State) (e : Entry) :
    ((∃ l, e.action.line? = some l ∧ s.holds p l = false) → validationCause p s e = some .notOwner) ∧
    (¬ (∃ l, e.action.line? = some l ∧ s.holds p l = false) →
      ¬ (acceptable s.mc e.dueTime = true ∨ (reached s.mc e.dueTime = true ∧ e.lateOk = true)) →
      validationCause p s e = some .late) ∧
    (¬ (∃ l, e.action.line? = some l ∧ s.holds p l = false) →
      (acceptable s.mc e.dueTime = true ∨ (reached s.mc e.dueTime = true ∧ e.lateOk = true)) →
      validationCause p s e = none) := by
  have hheld : (!entryIsHeld p s e) = true ↔ ∃ l, e.action.line? = some l ∧ s.holds p l = false := by
    unfold entryIsHeld
    cases e.action.line? <;> simp
  have hintime : (acceptable s.mc e.dueTime || (reached s.mc e.dueTime && e.lateOk)) = true ↔
      acceptable s.mc e.dueTime = true ∨ (reached s.mc e.dueTime = true ∧ e.lateOk = true) := by
    rw [Bool.or_eq_true, Bool.and_eq_true]
  unfold validationCause
  refine ⟨fun hn => if_pos (hheld.2 hn), fun hn hl => ?_, fun hn hl => ?_⟩
  · rw [if_neg (hheld.not.2 hn), if_neg (hintime.not.2 hl)]
  · rw [if_neg (hheld.not.2 hn), if_pos (hintime.2 hl)]

theorem validationCause_isNone_iff (p : Port) (s : State) (e : Entry) :
    (validationCause p s e).isNone = true ↔ ¬ (∃ l, e.action.line? = some l ∧ s.holds p l = false) ∧
      ¬ ¬ (acceptable s.mc e.dueTime = true ∨ (reached s.mc e.dueTime = true ∧ e.lateOk = true)) := by
  obtain ⟨howner, hlate, hnone⟩ := validationCause_cases p s e
  by_cases hn : ∃ l, e.action.line? = some l ∧ s.holds p l = false
  · rw [howner hn]
    exact ⟨nofun, fun h => absurd hn h.1⟩
  · by_cases hl : acceptable s.mc e.dueTime = true ∨ (reached s.mc e.dueTime = true ∧ e.lateOk = true)
    · rw [hnone hn hl]
      exact ⟨fun _ => ⟨hn, not_not_intro hl⟩, fun _ => rfl⟩
    · rw [hlate hn hl]
      exact ⟨nofun, fun h => absurd hl h.2⟩

/-- The report of an entry of a batch that is aborted (05 R95). -/
def abortReport (p : Port) (s : State) (e : Entry) : Retired := ⟨e, (validationCause p s e).getD .batchAborted, s.mc⟩

theorem abortReport_outcome_ne_done (p : Port) (s : State) (e : Entry) :
    (validationCause p s e).getD .batchAborted ≠ .done := by
  unfold validationCause
  split
  · nofun
  · split <;> nofun

/-- The entries of one port that are aborted file their reports in staging order (05 R95). -/
theorem State.abortEntries_eq (u : State) (p : Port) (f : Entry → Option Outcome) (es : List Entry)
    (hport : ∀ e ∈ es, e.port = p) (hf : ∀ e, (f e).getD .batchAborted ≠ .done) :
    u.abortEntries f es = u.modifyPort p (PortState.takeReports (es.map fun e => ⟨e, (f e).getD .batchAborted, u.mc⟩)) := by
  induction es generalizing u with
  | nil => exact (u.modifyPort_same p (PortState.takeReports_nil _)).symm
  | cons e es ih =>
    have hstep : u.abortEntries f (e :: es) = (u.fileReport e ((f e).getD .batchAborted)).abortEntries f es := rfl
    have hfile : u.fileReport e ((f e).getD .batchAborted) =
        u.modifyPort p (PortState.takeReports [⟨e, (f e).getD .batchAborted, u.mc⟩]) := by
      rw [State.fileReport_eq, if_neg fun hc => hf e hc.1, hport e List.mem_cons_self]
    rw [hstep, hfile, ih _ fun x hx => hport x (List.mem_cons_of_mem _ hx), State.modifyPort_modifyPort,
      State.modifyPort_mc]
    exact u.modifyPort_congr p (PortState.takeReports_append ..)

theorem PortState.raiseBatchDone_recorded {ps : PortState} (r : BatchResult) (h : ps.session ≠ .detached) :
    ps.raiseBatchDone r = { ps with events := ps.events ||| EventKind.batchDone.mask, batchResult := some r } := by
  have hrecords : records ps.session .batchDone = true := by
    cases hs : ps.session with
    | detached => exact absurd hs h
    | attached => rfl
    | fenced => rfl
  exact if_pos hrecords

/-- A change of a port whose batch was freed before it. -/
theorem State.freeBatch_modifyPort (s : State) (p : Port) (queue : List Entry) (g : PortState → PortState) :
    State.modifyPort { s.freeBatch p with queue := queue } p g = { s with
      queue := queue, ports := s.ports.set p (g { s.port p with batch := ⟨[], none⟩ }) } := by
  unfold State.modifyPort State.freeBatch
  dsimp only
  rw [State.modifyPort, PortFile.get_set_same, PortFile.set_set]
  rfl

/-- Settles O33: `validationCause_isNone_iff` tells a batch that commits from one that aborts, and `State.abortEntries_eq` files the
reports of the latter. -/
theorem batchValidationResult : Obligations.BatchValidationResult := by
  unfold Obligations.BatchValidationResult
  intro p s h htarget hqueue hport hsession staged notOwner late freed
  have hexec : exec (.batchValidation p) s = .next (s.validate p) := by
    have hdue : s.validationDue p = true := beq_iff_eq.2 htarget
    show Host.Outcome.next (if s.inReset = true then s else s.validateIfDue p) = _
    rw [if_neg (by rw [h]; decide), State.validateIfDue, if_pos hdue]
  have hall : ∀ e, (validationCause p s e).isNone = true ↔ ¬ notOwner e ∧ ¬ late e := validationCause_isNone_iff p s
  rw [hexec]
  unfold State.validate
  dsimp only
  refine ⟨fun hgood => ?committed, fun hbad => ?aborted⟩
  case committed =>
    have henqueue : (s.freeBatch p).enqueue staged =
        { s.freeBatch p with queue := staged.foldl (fun queue e => placed s.mc e queue) s.queue } :=
      State.enqueue_placed (s := s.freeBatch p) _ hqueue.1
    rw [if_pos (List.all_eq_true.2 fun e he => (hall e).2 (hgood e he)), henqueue, State.freeBatch_modifyPort]
    exact congrArg (fun ps => Host.Outcome.next { s with
        queue := staged.foldl (fun queue e => placed s.mc e queue) s.queue, ports := s.ports.set p ps })
      (PortState.raiseBatchDone_recorded (ps := freed) .committed hsession)
  case aborted =>
    have hsome : ¬ (s.port p).batch.staged.all (fun e => (validationCause p s e).isNone) = true := by
      rw [List.all_eq_true]
      intro hc
      obtain ⟨e, he, hcause⟩ := hbad
      obtain ⟨hn, hl⟩ := (hall e).1 (hc e he)
      exact hcause.elim hn hl
    refine ⟨staged.map (abortReport p s), ?_, fun r hr => ?_, ?_⟩
    · rw [List.map_map]
      exact List.map_id _
    · obtain ⟨e, -, rfl⟩ := List.mem_map.1 hr
      obtain ⟨howner, hlate, hnone⟩ := validationCause_cases p s e
      refine ⟨rfl, fun hn => ?_, fun hn hl => ?_, fun hn hl => ?_⟩
      · exact congrArg (Option.getD · Outcome.batchAborted) (howner hn)
      · exact congrArg (Option.getD · Outcome.batchAborted) (hlate hn hl)
      · exact congrArg (Option.getD · Outcome.batchAborted) (hnone hn (not_not.1 hl))
    · have habort := (s.freeBatch p).abortEntries_eq p (validationCause p s) staged hport
        (abortReport_outcome_ne_done p s)
      rw [if_neg hsome, habort, State.modifyPort_modifyPort]
      refine congrArg Host.Outcome.next ((State.freeBatch_modifyPort s p s.queue _).trans ?_)
      rw [PortState.raiseBatchDone_recorded _ (by rw [PortState.takeReports_session]; exact hsession)]
      rfl

end Sys2Proof.Machine
end


section
/-! SUPPORT. The sample of a channel: where it makes no edge, and the delivery of one (O34, O35). -/

namespace Sys2Proof.Machine

theorem State.sampleOwed_eq_true {s : State} {c : Channel} (h : s.samplesTaken[c] = false) : s.sampleOwed c = true := by
  rw [State.sampleOwed, h]
  rfl

theorem exec_channelSample {s : State} {c : Channel} (h : s.inReset = false) :
    exec (.channelSample c) s = .next (s.sampleChannel c) := by
  show Host.Outcome.next (if s.inReset = true then s else s.sampleChannel c) = _
  rw [if_neg (by rw [h]; decide)]

theorem exec_edgeDelivery_due {s : State} {c : Channel} (h : s.inReset = false) (hdue : s.qualifyingEdgeDue c = true) :
    exec (.edgeDelivery c) s = .next (s.sampleChannel c) := by
  show Host.Outcome.next (if s.inReset = true then s else if s.qualifyingEdgeDue c = true then s.sampleChannel c else s) = _
  rw [if_neg (by rw [h]; decide), if_pos hdue]

/-- An owed sample that makes no edge leaves the filter's channel, and is marked as taken. -/
theorem exec_channelSample_noEdge {s : State} {c : Channel} {ch : ChannelState} (h : s.inReset = false)
    (ht : s.samplesTaken[c] = false) (htake : (s.channels[c]).take (s.sampleLevel c) s.mc = (ch, none)) :
    exec (.channelSample c) s = .next
      { s with channels := s.channels.set c ch, samplesTaken := s.samplesTaken ||| BitVec.twoPow 16 c.val } := by
  have hresult : s.sampleResult c = (ch, none) := htake
  rw [exec_channelSample h, State.sampleChannel_noEdge s c (State.sampleOwed_eq_true ht) (by rw [hresult]),
    State.storeSample, hresult]

/-- Settles O34: the filter's four cases without an edge, each through `exec_channelSample_noEdge`. -/
theorem sampleWithoutEdge : Obligations.SampleWithoutEdge := by
  unfold Obligations.SampleWithoutEdge
  intro c s h ht ch x leaves
  refine ⟨fun hfirst => ?first, fun hs hsame => ?same, fun hs hx hr hd => ?starts, fun r hs hx hr hd => ?goesOn⟩
  case first => exact exec_channelSample_noEdge h ht (ChannelState.take_first _ _ _ hfirst)
  case same =>
    refine exec_channelSample_noEdge h ht ?_
    have hlevel : s.sampleLevel c = ch.filtered := hsame
    rw [hlevel]
    exact ChannelState.take_same _ _ hs
  case starts => exact exec_channelSample_noEdge h ht (ChannelState.take_starts _ _ _ hs hx hr hd)
  case goesOn => exact exec_channelSample_noEdge h ht (ChannelState.take_goesOn _ _ _ r hs hx hr hd)

/-! ## A qualifying edge -/

/-- The select of a channel passes an edge where it is both, or names the edge's own direction (06 R103). -/
theorem qualifies_iff (sel : EdgeSelect) (e : Edge) :
    qualifies sel e = true ↔ sel = .both ∨ (sel = .rise ∧ e = .rise) ∨ (sel = .fall ∧ e = .fall) := by
  cases sel <;> cases e <;> decide

theorem edgeTo_invertLevel (l : Level) :
    edgeTo (invertLevel l) = match l with | .low => .rise | .high => .fall := by
  cases l <;> rfl

theorem invertLevel_ne (l : Level) : invertLevel l ≠ l := by
  cases l <;> decide

/-- The filter's last step: at depth 1 the sample makes the edge itself, at a greater depth it completes the run, whose
first-sample time is the edge's (06 R102). -/
theorem ChannelState.take_edge {ch : ChannelState} {now time : Time} (hs : ch.sampled = true)
    (hedge : (ch.run = none ∧ ch.depth = 1 ∧ time = now) ∨
      ∃ n, ch.run = some ⟨invertLevel ch.filtered, n, time⟩ ∧ n + 1 = ch.depth) :
    ch.take (invertLevel ch.filtered) now =
      ({ ch with filtered := invertLevel ch.filtered, run := none }, some time) := by
  have hx := invertLevel_ne ch.filtered
  rcases hedge with ⟨hr, hd, rfl⟩ | ⟨n, hr, hd⟩
  · exact ch.take_edgeAtOnce _ _ hs hx hr hd.le
  · exact ch.take_edgeCompletes _ _ _ hs hx hr hd.ge

/-- What the delivery of an edge makes of an ATTACHED subscriber's late guard, as the statement writes it out. -/
theorem LateGuard.edge_eq (c : Channel) (flag : Bool) (g : LateGuard) :
    LateGuard.edge c flag g =
      if g.channel ≠ c then g
      else { g with after := if flag = true ∧ g.after ≠ .unseen then .again else .unseen } := by
  unfold LateGuard.edge
  by_cases hc : g.channel = c
  · rw [if_pos hc, if_neg (not_not.2 hc)]
    congr 1
    simp only [Bool.and_eq_true, bne_iff_ne]
  · rw [if_neg hc, if_pos hc]

theorem State.deliverEdge_port (s : State) (c : Channel) (e : Edge) (time : Time) (q : Port) :
    (s.deliverEdge c e time).port q =
      if (s.port q).session = .attached ∧ (s.port q).subscription[c] = true then
        ((s.port q).setArm c).offer (.edge c e) time
      else s.port q :=
  s.mapPorts_port _ q

theorem State.deliverEdge_rest (s : State) (c : Channel) (e : Edge) (time : Time) :
    s.deliverEdge c e time = { s with ports := (s.deliverEdge c e time).ports } := rfl

/-- Settles O35: the filter's edge is `ChannelState.take_edge`, and its delivery port by port `State.deliverEdge_port`. -/
theorem edgeIsDeliveredToSubscribers : Obligations.EdgeIsDeliveredToSubscribers := by
  unfold Obligations.EdgeIsDeliveredToSubscribers
  intro c time s h ht hs hlevel hedge ch edge passes after
  have howed : s.sampleOwed c = true := State.sampleOwed_eq_true ht
  have hresult : s.sampleResult c = ({ ch with filtered := invertLevel ch.filtered, run := none }, some time) := by
    unfold State.sampleResult State.sampleLevel
    rw [hlevel]
    exact ChannelState.take_edge hs hedge
  have hto : edgeTo (s.sampleResult c).1.filtered = edge := by
    rw [hresult]
    exact edgeTo_invertLevel ch.filtered
  have hstore : s.storeSample c = after := by
    rw [State.storeSample, hresult]
  have hsample : s.sampleChannel c = if qualifies ch.select edge then after.deliverEdge c edge time else after := by
    rw [State.sampleChannel_edge s c time howed (by rw [hresult]), hto, hstore]
  have hpasses : qualifies ch.select edge = true ↔ passes := qualifies_iff _ _
  refine ⟨fun hno => ?_, fun hyes => ?_⟩
  · rw [exec_channelSample h, hsample, if_neg (mt hpasses.1 hno)]
  · have hdelivered : s.sampleChannel c = after.deliverEdge c edge time := by
      rw [hsample, if_pos (hpasses.2 hyes)]
    have hdue : s.qualifyingEdgeDue c = true := by
      rw [State.qualifyingEdgeDue, howed, hto, hresult]
      exact hpasses.2 hyes
    refine ⟨after.deliverEdge c edge time, by rw [exec_channelSample h, hdelivered],
      by rw [exec_edgeDelivery_due h hdue, hdelivered], after.deliverEdge_rest c edge time, fun q => ?_⟩
    have hport : after.port q = s.port q := rfl
    have hafter := after.deliverEdge_port c edge time q
    rw [hport] at hafter
    refine ⟨fun hnot => by rw [hafter, if_neg hnot], fun ha hsub => ?_⟩
    rw [hafter, if_pos ⟨ha, hsub⟩, PortState.offer_attached _ _ _ (by exact ha), PortState.setArm]
    congr 3
    funext g
    exact LateGuard.edge_eq c _ g

end Sys2Proof.Machine
end


section
/-! SUPPORT. The steps of MC: what is refused, what every step keeps, and the overtaken entries, skipped or swept (O11, O12,
O13). -/

namespace Sys2Proof.Machine

/-! ## What a step starts from -/

theorem State.takeAllDue_mc (s : State) : s.takeAllDue.mc = s.mc := by
  rw [(State.onlyTakes.takeAllDue s).rest]

theorem State.takeAllDue_timeAuthority (s : State) : s.takeAllDue.timeAuthority = s.timeAuthority := by
  rw [(State.onlyTakes.takeAllDue s).rest]

theorem State.takeAllDue_slew (s : State) : s.takeAllDue.slew = s.slew := by
  rw [(State.onlyTakes.takeAllDue s).rest]

theorem PortState.onlyTakes.session {ps ps' : PortState} (h : ps.onlyTakes ps') : ps'.session = ps.session := by
  rw [h.rest]

/-- The overtaken entries are those the statement calls passed. -/
theorem overtaken_eq (offset : Int) (s : State) : overtaken offset s = s.queue.filter (passedBy s.mc offset) := rfl

/-- A step that is taken: the entries that have fallen due are taken first, MC moves, and the reply counts every overtaken
entry (01 R8 to R10, log entry 24). -/
theorem exec_stepTime {s : State} {p : Port} {offset : Int} {mode : StepMode} (ht : s.takes (.stepTime p offset mode))
    (hfar : stepTooFar offset s = false) :
    exec (.stepTime p offset mode) s = .next (s.answered (s.takeAllDue.stepMove offset mode) p .ok
      (timeBytes (s.mc + BitVec.ofInt 48 offset) ++
        beBytes 2 (s.takeAllDue.queue.filter (passedBy s.mc offset)).length)) := by
  refine exec_taken (owner := stepTimeOwner offset mode) rfl rfl ht ?_
  have howner : stepTimeOwner offset mode s = ⟨s.takeAllDue.stepMove offset mode, .ok,
      timeBytes (movedBy s.mc offset) ++ beBytes 2 (overtaken offset s.takeAllDue).length⟩ := if_neg (by rw [hfar]; decide)
  rw [howner, overtaken_eq, State.takeAllDue_mc, movedBy]

theorem State.takes_stepTime_inReset {s : State} {p : Port} {offset : Int} {mode : StepMode}
    (ht : s.takes (.stepTime p offset mode)) : s.inReset = false :=
  ((s.awaits_eq_true p _).1 (s.takes_awaits _ p _ _ _ rfl ht)).1

/-- The state in which a step begins to move: its requester is ATTACHED and holds TIME_AUTHORITY still. -/
theorem State.takes_stepTime_begun {s : State} {p : Port} {offset : Int} {mode : StepMode}
    (ht : s.takes (.stepTime p offset mode)) : s.takeAllDue.stepBegun offset = s.takeAllDue.moved offset := by
  refine State.stepBegun_eq_moved _ p offset ?_ ?_
  · rw [State.takeAllDue_timeAuthority]
    exact s.takes_role _ p _ _ .timeAuthority rfl ht
  · rw [((State.onlyTakes.takeAllDue s).port p).session]
    exact s.takes_attached _ p _ rfl ht

/-! ## What every step keeps -/

/-- What a step keeps of a port, whatever it takes. -/
def PortState.keptByStep (ps ps' : PortState) : Prop :=
  ps'.batch = ps.batch ∧ ps'.strobe = ps.strobe ∧ ps'.subscription = ps.subscription ∧ ps'.quota = ps.quota ∧
    ps'.session = ps.session

theorem PortState.keptByStep.trans {a b c : PortState} (h : a.keptByStep b) (h' : b.keptByStep c) : a.keptByStep c := by
  obtain ⟨h1, h2, h3, h4, h5⟩ := h
  obtain ⟨h1', h2', h3', h4', h5'⟩ := h'
  exact ⟨h1'.trans h1, h2'.trans h2, h3'.trans h3, h4'.trans h4, h5'.trans h5⟩

theorem PortState.onlyTakes.keptByStep {ps ps' : PortState} (h : ps.onlyTakes ps') : ps.keptByStep ps' := by
  rw [h.rest]
  exact ⟨rfl, rfl, rfl, rfl, rfl⟩

theorem PortState.onlyTakes.slewResult {ps ps' : PortState} (h : ps.onlyTakes ps') : ps'.slewResult = ps.slewResult := by
  rw [h.rest]

/-- The cancelling of a slew at a port, before the STEP record is offered. -/
def State.slewCancelledAt (s : State) (q : Port) : PortState :=
  if s.slew ≠ none ∧ s.timeAuthority = some q then (s.port q).raiseSlewDone .cancelled else s.port q

theorem State.slewCancelledAt_keptByStep (s : State) (q : Port) : (s.port q).keptByStep (s.slewCancelledAt q) := by
  unfold State.slewCancelledAt PortState.raiseSlewDone
  split
  · split <;> exact ⟨rfl, rfl, rfl, rfl, rfl⟩
  · exact ⟨rfl, rfl, rfl, rfl, rfl⟩

/-- The beginning of a step offers at most a record to what the slew's cancelling leaves. -/
theorem State.stepBegun_port_onlyTakes (s : State) (offset : Int) (q : Port) :
    (s.slewCancelledAt q).onlyTakes ((s.stepBegun offset).port q) := by
  rw [State.stepBegun_port]
  dsimp only
  rw [← State.slewCancelledAt]
  split
  · exact .offer ..
  · exact .refl _

/-- The whole of a step's move offers and takes at most, over what the slew's cancelling leaves. -/
theorem State.stepMove_port_onlyTakes (s : State) (offset : Int) (mode : StepMode) (q : Port) :
    (s.slewCancelledAt q).onlyTakes ((s.stepMove offset mode).port q) :=
  (s.stepBegun_port_onlyTakes offset q).trans ((s.stepMove_onlyTakes offset mode).port q)

theorem State.stepMove_rest (s : State) (offset : Int) (mode : StepMode) :
    s.stepMove offset mode = { s with
      mc := s.mc + BitVec.ofInt 48 offset, slew := none, lines := (s.stepMove offset mode).lines
      queue := (s.stepMove offset mode).queue, ports := (s.stepMove offset mode).ports } := by
  have hrest := (s.stepMove_onlyTakes offset mode).rest
  rw [State.stepBegun_rest] at hrest
  exact hrest

/-- A slew in progress is told of at the holder of TIME_AUTHORITY. -/
theorem State.slewCancelledAt_holder {s : State} {p : Port} (hslew : s.slew ≠ none) (hauth : s.timeAuthority = some p)
    (hsession : (s.port p).session = .attached) :
    s.slewCancelledAt p = { s.port p with
      events := (s.port p).events ||| EventKind.slewDone.mask, slewResult := some .cancelled } := by
  rw [State.slewCancelledAt, if_pos ⟨hslew, hauth⟩, PortState.raiseSlewDone, if_pos (by rw [hsession]; rfl)]

theorem State.slewCancelledAt_other {s : State} {p q : Port} (hauth : s.timeAuthority = some p)
    (h : s.slew = none ∨ q ≠ p) : s.slewCancelledAt q = s.port q := by
  refine if_neg fun ⟨hslew, hq⟩ => ?_
  rw [hauth] at hq
  exact h.elim hslew fun hne => hne (Option.some.inj hq).symm

/-- Settles O11: `exec_stepTime` with what is due taken first, and `State.stepMove_port_onlyTakes` for what a step keeps. -/
theorem stepTimeRefusedOrTaken : Obligations.StepTimeRefusedOrTaken := by
  unfold Obligations.StepTimeRefusedOrTaken
  refine ⟨fun p offset mode e s ht hneg he hr hbound => ?refused, fun p offset mode s ht hfar => ?taken⟩
  case refused =>
    have hfar : stepTooFar offset s = true := by
      simp only [stepTooFar, Bool.and_eq_true, decide_eq_true_eq, List.any_eq_true, Bool.not_eq_true']
      exact ⟨hneg, e, he, hr, hbound⟩
    exact exec_taken (owner := stepTimeOwner offset mode) rfl rfl ht (if_pos hfar)
  case taken =>
    have htakes := State.onlyTakes.takeAllDue s
    have hauth : s.timeAuthority = some p := s.takes_role _ p _ _ .timeAuthority rfl ht
    have hsession : (s.port p).session = .attached := s.takes_attached _ p _ rfl ht
    have hdauth : s.takeAllDue.timeAuthority = some p := s.takeAllDue_timeAuthority.trans hauth
    have hdsession : (s.takeAllDue.port p).session = .attached := (htakes.port p).session.trans hsession
    have hport := s.takeAllDue.stepMove_port_onlyTakes offset mode
    refine ⟨s.takeAllDue, s.takeAllDue.stepMove offset mode, runAll_dueEvents s (State.takes_stepTime_inReset ht),
      s.takeAllDue_dueHead, s.takeAllDue_mc, exec_stepTime ht hfar, ?rest, fun l => ?line, fun q => ?kept,
      fun hslew => ?told, fun q hq => ?untold⟩
    case rest =>
      have hrest := s.takeAllDue.stepMove_rest offset mode
      generalize s.takeAllDue.stepMove offset mode = u at hrest ⊢
      rw [htakes.rest] at hrest
      exact hrest
    case line =>
      have hmove := (s.takeAllDue.stepMove_onlyTakes offset mode).line l
      have hbegun : (s.takeAllDue.stepBegun offset).line l = s.takeAllDue.line l := by rw [State.stepBegun_rest]; rfl
      rw [hbegun] at hmove
      exact ⟨hmove.1.trans (htakes.line l).1, hmove.2.trans (htakes.line l).2⟩
    case kept =>
      exact ((htakes.port q).keptByStep.trans (s.takeAllDue.slewCancelledAt_keptByStep q)).trans (hport q).keptByStep
    case told =>
      have htold := State.slewCancelledAt_holder (s.takeAllDue_slew ▸ hslew) hdauth hdsession
      refine ⟨(hport p).events _ ?_, ?_⟩
      · rw [htold]
        rw [hasKind_raise]
        exact Bool.or_true _
      · rw [(hport p).slewResult, htold]
    case untold =>
      rw [(hport q).slewResult, State.slewCancelledAt_other hdauth (s.takeAllDue_slew.symm ▸ hq), (htakes.port q).slewResult]

/-! ## The skip -/

/-- Settles O12: the overtaken entries retire together, over the state that the step's beginning leaves. -/
theorem skipStepRetiresOvertaken : Obligations.SkipStepRetiresOvertaken := by
  unfold Obligations.SkipStepRetiresOvertaken
  intro p offset s ht hfar
  have hskip : s.takeAllDue.stepMove offset .skip =
      (s.takeAllDue.moved offset).retiring (passedBy s.takeAllDue.mc offset) .skipped := by
    rw [State.stepMove_skip, State.takes_stepTime_begun ht]
    exact State.retireAll_filter _ _ _ (by decide)
  refine ⟨s.takeAllDue, runAll_dueEvents s (State.takes_stepTime_inReset ht), s.takeAllDue_dueHead, ?_, ?_⟩
  · rw [exec_stepTime ht hfar, hskip, s.takeAllDue_mc]
  · simp only [State.retiring, State.moved]

/-! ## The sweep -/

/-- In an ordered queue of which nothing has fallen due, the entries that a step passes stand first. -/
theorem filter_passedBy_append {mc : Time} {offset : Int} {queue : List Entry} (horder : queue.Pairwise (mayPrecede mc))
    (hnone : ∀ e ∈ queue, reached mc e.dueTime = false) :
    queue = queue.filter (passedBy mc offset) ++ queue.filter fun e => !passedBy mc offset e := by
  induction queue with
  | nil => rfl
  | cons e queue ih =>
    rw [List.pairwise_cons] at horder
    have ih := ih horder.2 fun x hx => hnone x (List.mem_cons_of_mem _ hx)
    by_cases he : passedBy mc offset e = true
    · rw [List.filter_cons_of_pos he, List.filter_cons_of_neg (by rw [he]; decide), List.cons_append, ← ih]
    · have hnopass : ∀ x ∈ queue, passedBy mc offset x = false := by
        intro x hx
        have hfar : distance mc e.dueTime ≤ distance mc x.dueTime := by
          rcases horder.1 x hx with hr | ⟨-, hle⟩
          · rw [hnone e List.mem_cons_self] at hr; cases hr
          · exact hle
        have hpos := ((not_reached_iff ..).1 (hnone e List.mem_cons_self)).1
        simp only [passedBy, Bool.and_eq_true, decide_eq_true_eq, not_and, not_le] at he
        simp only [passedBy, Bool.and_eq_false_iff, decide_eq_false_iff_not, not_le]
        have := he hpos
        omega
      have hnil : queue.filter (passedBy mc offset) = [] := by
        rw [List.filter_eq_nil_iff]
        intro x hx
        rw [hnopass x hx]
        decide
      have hall : queue.filter (fun x => !passedBy mc offset x) = queue := by
        rw [List.filter_eq_self]
        intro x hx
        rw [hnopass x hx]
        rfl
      rw [List.filter_cons_of_neg he, List.filter_cons_of_pos (by rw [Bool.eq_false_iff.2 he]; rfl), hnil, hall,
        List.nil_append]

/-- An entry that a step passes has fallen due after it. -/
theorem reached_of_passedBy {mc : Time} {offset : Int} {e : Entry} (ho : offset.natAbs ≤ Config.maxOffset)
    (h : passedBy mc offset e = true) : reached (movedBy mc offset) e.dueTime = true := by
  simp only [passedBy, Bool.and_eq_true, decide_eq_true_eq] at h
  obtain ⟨hpos, hle⟩ := h
  simp only [Config.maxOffset] at ho
  rw [reached_iff]
  rcases hle.eq_or_lt with heq | hlt
  · have := distance_moved mc e.dueTime offset (by omega) (by omega)
    omega
  · have := distance_passed mc e.dueTime offset (by omega) (by omega)
    omega

/-- In a state that the queue order and the tag law hold in, and in which nothing has fallen due, the sweep of the overtaken
entries over the begun step is the taking of all that is due after it. -/
theorem State.sweep_overtaken {d : State} {offset : Int} (ho : offset.natAbs ≤ Config.maxOffset) (hdue : d.dueHead = none)
    (horder : d.queueOrdered) (hnodup : d.queue.Nodup)
    (hback : offset < 0 → ∀ e ∈ d.queue, distance (movedBy d.mc offset) e.dueTime < Config.stepBound) :
    (d.stepBegun offset).sweep (overtaken offset d) = (d.stepBegun offset).takeAllDue := by
  obtain ⟨hsorted, hbound⟩ := horder
  have hnone := d.none_reached hsorted hdue
  have hqueue : (d.stepBegun offset).queue = d.queue := by rw [State.stepBegun_rest]
  have hmc : (d.stepBegun offset).mc = movedBy d.mc offset := by rw [State.stepBegun_rest]
  rw [overtaken_eq]
  refine State.sweep_eq _ _ (d.queue.filter fun e => !passedBy d.mc offset e) (hqueue ▸ hnodup) ?split
    (fun e he => ?passed) (fun e he => ?notPassed) (hnodup.filter _)
  case split =>
    rw [hqueue, List.filter_eq_self.2 fun e he => decide_eq_true (List.mem_filter.1 he).1]
    exact filter_passedBy_append hsorted hnone
  case passed =>
    rw [hmc]
    exact reached_of_passedBy ho (List.mem_filter.1 he).2
  case notPassed =>
    obtain ⟨hmem, hpass⟩ := List.mem_filter.1 he
    have hr := hnone e hmem
    have hpos := ((not_reached_iff ..).1 hr).1
    have hfar : ¬ (distance d.mc e.dueTime : Int) ≤ offset := by
      simp only [passedBy, Bool.not_eq_true', Bool.and_eq_false_iff, decide_eq_false_iff_not] at hpass
      exact hpass.resolve_left (not_not.2 hpos)
    rw [hmc]
    exact (distance_step ho hr (hbound e hmem hr) hfar fun hneg => hback hneg e hmem).1

theorem State.queueOrdered.takeAllDue {s : State} (h : s.queueOrdered) : s.takeAllDue.queueOrdered :=
  (State.thins.of_takes (.takeAllDue s)).queueOrdered h

/-- Settles O13: the sweep is a taking of all that is due by `State.sweep_overtaken`, and `State.sweep_survivors` says what stays. -/
theorem sweepStepTakesOvertaken : Obligations.SweepStepTakesOvertaken := by
  unfold Obligations.SweepStepTakesOvertaken
  intro p offset s ht hfar horder htags
  have hin := State.takes_stepTime_inReset ht
  have htakes := State.onlyTakes.takeAllDue s
  have hbegun := State.takes_stepTime_begun ht
  have hmc := s.takeAllDue_mc
  have hnone := s.takeAllDue.none_reached horder.takeAllDue.1 s.takeAllDue_dueHead
  have hsweep : s.takeAllDue.stepMove offset .sweep = (s.takeAllDue.moved offset).takeAllDue := by
    rw [State.stepMove_sweep, State.sweep_overtaken (s.takes_offset ht) s.takeAllDue_dueHead horder.takeAllDue
      ((s.queue_nodup htags).sublist htakes.queue) (fun hneg e he => ?_), hbegun]
    have hr := hnone e he
    rw [hmc] at hr ⊢
    exact stepTooFar_eq_false hfar hneg e (htakes.queue.subset he) hr
  have hmoves := s.takeAllDue.stepMove_onlyTakes offset .sweep
  have hqueue : (s.takeAllDue.stepBegun offset).queue = s.takeAllDue.queue := by rw [State.stepBegun_rest]
  refine ⟨s.takeAllDue, s.takeAllDue.stepMove offset .sweep, runAll_dueEvents s hin, s.takeAllDue_dueHead, ?run, ?exec,
    hqueue ▸ hmoves.queue, fun e he => ?gone, fun e he hpass => ?left⟩
  case run =>
    rw [hsweep]
    refine runAll_dueEvents _ ?_
    have hreset : (s.takeAllDue.moved offset).inReset = s.takeAllDue.inReset := rfl
    rw [hreset, htakes.rest]
    exact hin
  case exec => rw [exec_stepTime ht hfar, hmc]
  case gone =>
    have hgone := s.takeAllDue.stepMove_gone offset .sweep e he
    rw [← Bool.not_eq_true, passedBy, Bool.and_eq_true, decide_eq_true_eq, decide_eq_true_eq]
    exact hgone
  case left =>
    have hnotIn : e ∉ overtaken offset s.takeAllDue := by
      rw [overtaken_eq, List.mem_filter, hpass]
      exact fun hc => Bool.false_ne_true hc.2
    rw [State.stepMove_sweep]
    rcases State.sweep_survivors _ (s.takeAllDue.stepBegun offset) e (hqueue ▸ he) hnotIn with h | ⟨lead, hl, hrest⟩
    · exact .inl h
    · obtain ⟨hmem, hlpass⟩ := List.mem_filter.1 hl
      obtain ⟨-, hlead, htrail, hreport⟩ := hrest
      exact .inr ⟨lead, hmem, hlpass, hlead, htrail, hreport⟩

end Sys2Proof.Machine
end


section
/-! SUPPORT. The verdicts of checks 1 to 4 and the request frames as they are laid out (O49, O54). -/

namespace Sys2Proof.Machine

/-! ## The verdict, check by check -/

/-- The checks that come after the CRC, of a frame whose CRC is right and whose length is at least two. -/
def restOfChecks (p : Port) (bytes : List Byte) : FrameVerdict :=
  match Cmd.ofCode (frameCode bytes) with
  | none => .unknownCommand
  | some c =>
    if !c.sizeOk (frameLengthByte bytes - 2) then .badLength
    else
      match decodeCommand p c (frameParams bytes) with
      | none => .badField
      | some i => .passed i

theorem checkFrame_short {p : Port} {bytes : List Byte} (hcrc : crc8 (frameCrcRun bytes) = frameCrc bytes)
    (hlen : frameLengthByte bytes < 2) : checkFrame p bytes = .badLength := by
  rw [checkFrame, if_neg (not_not.2 hcrc), if_pos hlen]

theorem checkFrame_eq_restOfChecks {p : Port} {bytes : List Byte} (hcrc : crc8 (frameCrcRun bytes) = frameCrc bytes)
    (hlen : 2 ≤ frameLengthByte bytes) : checkFrame p bytes = restOfChecks p bytes := by
  rw [checkFrame, if_neg (not_not.2 hcrc), if_neg (not_lt.2 hlen)]
  rfl

theorem restOfChecks_unknown {p : Port} {bytes : List Byte} (hcode : Cmd.ofCode (frameCode bytes) = none) :
    restOfChecks p bytes = .unknownCommand := by
  rw [restOfChecks, hcode]

theorem restOfChecks_size {p : Port} {bytes : List Byte} {c : Cmd} (hcode : Cmd.ofCode (frameCode bytes) = some c)
    (hsize : c.sizeOk (frameLengthByte bytes - 2) = false) : restOfChecks p bytes = .badLength := by
  simp only [restOfChecks, hcode, hsize, Bool.not_false, ↓reduceIte]

theorem restOfChecks_field {p : Port} {bytes : List Byte} {c : Cmd} (hcode : Cmd.ofCode (frameCode bytes) = some c)
    (hsize : c.sizeOk (frameLengthByte bytes - 2) = true) (hread : decodeCommand p c (frameParams bytes) = none) :
    restOfChecks p bytes = .badField := by
  simp only [restOfChecks, hcode, hsize, Bool.not_true, Bool.false_eq_true, ↓reduceIte, hread]

theorem restOfChecks_passed {p : Port} {bytes : List Byte} {c : Cmd} {i : Instr}
    (hcode : Cmd.ofCode (frameCode bytes) = some c) (hsize : c.sizeOk (frameLengthByte bytes - 2) = true)
    (hread : decodeCommand p c (frameParams bytes) = some i) : restOfChecks p bytes = .passed i := by
  simp only [restOfChecks, hcode, hsize, Bool.not_true, Bool.false_eq_true, ↓reduceIte, hread]

/-! ## A request frame, byte by byte -/

/-- Every command's code names it. -/
theorem Cmd.ofCode_code (c : Cmd) : Cmd.ofCode c.code = some c := by
  cases c <;> rfl

/-- No command takes more than 19 parameter bytes, so that the length byte holds the length. -/
theorem Cmd.sizeOk_le {c : Cmd} {n : Nat} (h : c.sizeOk n = true) : n ≤ 19 := by
  cases c <;> simp only [Cmd.sizeOk, Bool.or_eq_true, beq_iff_eq] at h <;> omega

/-- The bytes of a frame: the type, the length of what follows up to the CRC, the sequence, the code and the parameters. -/
def frameOf (sequence : Byte) (c : Cmd) (params : List Byte) : List Byte :=
  let run := BitVec.ofNat 8 (params.length + 2) :: sequence :: c.code :: params
  requestType :: run ++ [crc8 run]

theorem requestFrame_eq {i : Instr} {p : Port} {c : Cmd} {params : List Byte}
    (h : encodeCommand i = some (p, c, params)) (sequence : Byte) : requestFrame sequence i = frameOf sequence c params := by
  rw [requestFrame, h]
  rfl

section
variable {sequence : Byte} {c : Cmd} {params : List Byte}

theorem frameLengthByte_frameOf (h : params.length ≤ 19) :
    frameLengthByte (frameOf sequence c params) = params.length + 2 := by
  show (BitVec.ofNat 8 (params.length + 2)).toNat = params.length + 2
  rw [BitVec.toNat_ofNat]
  omega

theorem frameCode_frameOf (h : params.length ≤ 19) : frameCode (frameOf sequence c params) = c.code := by
  rw [frameCode, frameLengthByte_frameOf h, if_neg (by omega)]
  rfl

theorem frameParams_frameOf (h : params.length ≤ 19) : frameParams (frameOf sequence c params) = params := by
  rw [frameParams, frameLengthByte_frameOf h]
  exact List.take_left

theorem frameWhole_frameOf (h : params.length ≤ 19) : frameWhole (frameOf sequence c params) = true := by
  rw [frameWhole, frameLengthByte_frameOf h]
  simp [frameOf]

theorem frameCrc_frameOf (h : params.length ≤ 19) :
    crc8 (frameCrcRun (frameOf sequence c params)) = frameCrc (frameOf sequence c params) := by
  rw [frameCrcRun, frameCrc, frameLengthByte_frameOf h]
  simp [frameOf]

end

/-! ## Reading a request back -/

/-- Every request is read back from its own parameters (the lemma of each command under `Laws.RoundTrip`). -/
theorem decodeCommand_encodeCommand (i : Instr) : Laws.RoundTrip.Statement i := by
  cases i with
  | powerOnReset => exact Laws.RoundTrip.powerOnReset
  | increment pins => exact Laws.RoundTrip.increment pins
  | correctionCycle pins => exact Laws.RoundTrip.correctionCycle pins
  | slewDone pins => exact Laws.RoundTrip.slewDone pins
  | frameBoundary => exact Laws.RoundTrip.frameBoundary
  | batchValidation p => exact Laws.RoundTrip.batchValidation p
  | leaseExpiry l => exact Laws.RoundTrip.leaseExpiry l
  | dueEvent => exact Laws.RoundTrip.dueEvent
  | reportMove p => exact Laws.RoundTrip.reportMove p
  | strobeEdge p => exact Laws.RoundTrip.strobeEdge p
  | edgeDelivery c => exact Laws.RoundTrip.edgeDelivery c
  | requestTransaction p part => exact Laws.RoundTrip.requestTransaction p part
  | unknownTransaction p first part => exact Laws.RoundTrip.unknownTransaction p first part
  | frameCheck p => exact Laws.RoundTrip.frameCheck p
  | fetchTransaction p part => exact Laws.RoundTrip.fetchTransaction p part
  | readTime p => exact Laws.RoundTrip.readTime p
  | stepTime p offset mode => exact Laws.RoundTrip.stepTime p offset mode
  | setRate p interval count => exact Laws.RoundTrip.setRate p interval count
  | setFrame p length => exact Laws.RoundTrip.setFrame p length
  | acquireLines p lines term failsafe => exact Laws.RoundTrip.acquireLines p lines term failsafe
  | renewLines p lines => exact Laws.RoundTrip.renewLines p lines
  | releaseLines p lines => exact Laws.RoundTrip.releaseLines p lines
  | revokeLines p lines => exact Laws.RoundTrip.revokeLines p lines
  | forceLines p lines level => exact Laws.RoundTrip.forceLines p lines level
  | unforceLines p lines => exact Laws.RoundTrip.unforceLines p lines
  | readLines p => exact Laws.RoundTrip.readLines p
  | submit p desc => exact Laws.RoundTrip.submit p desc
  | cancel p tag => exact Laws.RoundTrip.cancel p tag
  | cancelLines p lines => exact Laws.RoundTrip.cancelLines p lines
  | readQueue p => exact Laws.RoundTrip.readQueue p
  | readCompletions p count => exact Laws.RoundTrip.readCompletions p count
  | stage p desc => exact Laws.RoundTrip.stage p desc
  | commitBatch p framesAhead => exact Laws.RoundTrip.commitBatch p framesAhead
  | discardBatch p => exact Laws.RoundTrip.discardBatch p
  | configInput p channels depth select => exact Laws.RoundTrip.configInput p channels depth select
  | subscribe p channels => exact Laws.RoundTrip.subscribe p channels
  | readCaptures p count => exact Laws.RoundTrip.readCaptures p count
  | clearArms p channels => exact Laws.RoundTrip.clearArms p channels
  | readArms p => exact Laws.RoundTrip.readArms p
  | openPort p => exact Laws.RoundTrip.openPort p
  | closePort p => exact Laws.RoundTrip.closePort p
  | claimRole p role => exact Laws.RoundTrip.claimRole p role
  | releaseRole p role => exact Laws.RoundTrip.releaseRole p role
  | fencePort p target => exact Laws.RoundTrip.fencePort p target
  | setQuota p target quota => exact Laws.RoundTrip.setQuota p target quota
  | readStatus p => exact Laws.RoundTrip.readStatus p
  | readEvents p clear => exact Laws.RoundTrip.readEvents p clear
  | setEventMask p mask => exact Laws.RoundTrip.setEventMask p mask
  | resetAsserted => exact Laws.RoundTrip.resetAsserted
  | channelSample c => exact Laws.RoundTrip.channelSample c

/-- Settles O54: `decodeCommand_encodeCommand` for the parameters, and the fields of `frameOf` for the frame. -/
theorem requestsReadBackAsSent : Obligations.RequestsReadBackAsSent := by
  unfold Obligations.RequestsReadBackAsSent
  intro i p c params sequence hwf hencode
  obtain ⟨hsize, hread⟩ := decodeCommand_encodeCommand i p c params hwf hencode
  have hlen : params.length ≤ 19 := Cmd.sizeOk_le hsize
  rw [requestFrame_eq hencode]
  refine ⟨Cmd.ofCode_code c, hsize, hread, frameWhole_frameOf hlen, ?_⟩
  rw [checkFrame_eq_restOfChecks (frameCrc_frameOf hlen) (by rw [frameLengthByte_frameOf hlen]; omega)]
  refine restOfChecks_passed (c := c) ?_ ?_ ?_
  · rw [frameCode_frameOf hlen, Cmd.ofCode_code]
  · rw [frameLengthByte_frameOf hlen, Nat.add_sub_cancel]
    exact hsize
  · rw [frameParams_frameOf hlen]
    exact hread

end Sys2Proof.Machine
end


section
/-! SUPPORT. The links: request transactions, unknown transactions, frame checks and fetches (O47, O48, O49, O51). -/

namespace Sys2Proof.Machine

/-! ## Rows of the links out of reset -/

/-- A change of one port is known by the state that it makes of the port. -/
theorem State.modifyPort_eq_const (s : State) (p : Port) {g : PortState → PortState} {ps : PortState} (h : g (s.port p) = ps) :
    s.modifyPort p g = s.modifyPort p fun _ => ps := s.modifyPort_congr p h

section
variable {s : State} (h : s.inReset = false) (p : Port)
include h

theorem exec_requestTransaction (part : RequestPart) :
    exec (.requestTransaction p part) s = .next (s.modifyPort p (PortState.clockRequest part)) := by
  show Host.Outcome.next (s.modifyPort p
    (if s.inReset = true then PortState.moveIgnored (requestLeaves part) else PortState.clockRequest part)) = _
  rw [if_neg (by rw [h]; decide)]

theorem exec_unknownTransaction {first : Byte} (h6D : first ≠ 0x6D) (h93 : first ≠ 0x93) :
    (∀ n, exec (.unknownTransaction p first (.clocked n)) s = .next (s.modifyPort p (PortState.unknownClocked n))) ∧
    exec (.unknownTransaction p first .recognised) s = .next (s.modifyPort p PortState.unknownRecognised) := by
  have hrow : ∀ part, exec (.unknownTransaction p first part) s =
      .next (s.modifyPort p (PortState.unknownTransaction first part)) := by
    intro part
    show Host.Outcome.next (s.modifyPort p
      (if s.inReset = true then PortState.moveIgnored (unknownLeaves part) else PortState.unknownTransaction first part)) = _
    rw [if_neg (by rw [h]; decide)]
  have htype : ¬ (first == requestType || first == fetchType) = true := by
    rw [Bool.or_eq_true, beq_iff_eq, beq_iff_eq]
    exact fun hc => hc.elim h6D h93
  refine ⟨fun n => ?_, ?_⟩
  · rw [hrow]
    exact congrArg Host.Outcome.next (s.modifyPort_congr p (if_neg htype))
  · rw [hrow]
    exact congrArg Host.Outcome.next (s.modifyPort_congr p (if_neg htype))

theorem exec_fetchTransaction (part : FetchPart) :
    exec (.fetchTransaction p part) s = .next (s.modifyPort p (PortState.fetch part)) := by
  show Host.Outcome.next (s.modifyPort p
    (if s.inReset = true then PortState.moveIgnored (fetchLeaves part) else PortState.fetch part)) = _
  rw [if_neg (by rw [h]; decide)]

theorem exec_frameCheck : exec (.frameCheck p) s = .next (s.modifyPort p (PortState.checkInHand p)) := by
  show Host.Outcome.next (if s.inReset = true then s else s.modifyPort p (PortState.checkInHand p)) = _
  rw [if_neg (by rw [h]; decide)]

end

/-! ## Request transactions -/

theorem frameWhole_iff (rest : List Byte) :
    frameWhole (requestType :: rest) = true ↔ 1 ≤ rest.length ∧ rest.length = (rest.getD 0 0).toNat + 2 := by
  have hbyte : frameLengthByte (requestType :: rest) = (rest.getD 0 0).toNat := rfl
  rw [frameWhole, hbyte]
  simp only [List.length_cons, Bool.and_eq_true, decide_eq_true_eq, beq_iff_eq]
  omega

/-- The bytes of a transaction that is received join the frame in hand. -/
theorem PortState.requestBytes_receiving (rest : List Byte) {ps : PortState} {bytes : List Byte}
    (hl : ps.link = .receiving) (hf : ps.frame = some bytes) :
    rest.foldl (fun acc b => acc.requestByte b) ps =
      { ps with frame := some (bytes ++ rest), miso := ps.miso ++ List.replicate rest.length 0xFF } := by
  induction rest generalizing ps bytes with
  | nil =>
    rw [List.append_nil, ← hf]
    simp only [List.foldl_nil, List.length_nil, List.replicate_zero, List.append_nil]
  | cons b rest ih =>
    have hstep : ps.requestByte b = { ps with frame := some (bytes ++ [b]), miso := ps.miso ++ [0xFF] } := by
      simp only [PortState.requestByte, hl, hf, Option.map_some]
    rw [List.foldl_cons, hstep, ih (ps := { ps with frame := some (bytes ++ [b]), miso := ps.miso ++ [0xFF] }) hl rfl]
    simp only [List.append_assoc, List.singleton_append, List.length_cons, List.replicate_succ]

/-- The bytes of a transaction that is dropped only drive MISO. -/
theorem PortState.requestBytes_dropping (rest : List Byte) {ps : PortState} (hl : ps.link = .dropping) :
    rest.foldl (fun acc b => acc.requestByte b) ps =
      { ps with miso := ps.miso ++ List.replicate rest.length 0xFF } := by
  induction rest generalizing ps with
  | nil => simp only [List.foldl_nil, List.length_nil, List.replicate_zero, List.append_nil]
  | cons b rest ih =>
    have hstep : ps.requestByte b = { ps with miso := ps.miso ++ [0xFF] } := by
      simp only [PortState.requestByte, hl]
    rw [List.foldl_cons, hstep, ih (ps := { ps with miso := ps.miso ++ [0xFF] }) hl]
    simp only [List.append_assoc, List.singleton_append, List.length_cons, List.replicate_succ]

/-- The change that the rising CS_N of a received transaction brings (10 R160). -/
def receivedChange (rest : List Byte) (bits : Fin 8) : RiseChange :=
  if bits = 0 ∧ frameWhole (requestType :: rest) = true then .whole else .aborted

/-- A request transaction on an idle link, with the engine at rest (10 R160). -/
theorem PortState.clockRequest_received {ps : PortState} {left : Resting} (hl : ps.link = .idle) (he : ps.engine = left.engine)
    (rest : List Byte) (bits : Fin 8) :
    ps.clockRequest (.whole rest bits) = { ps with
      engine := .receiving left, frame := some (0x6D :: rest), miso := List.replicate (rest.length + 1) 0xFF
      risen := ps.risen ++ [⟨receivedChange rest bits, 0⟩] } := by
  have hbegins : ps.requestBegins = { ps with
      engine := .receiving left, frame := some [requestType], link := .receiving, miso := [0xFF] } := by
    cases left <;> simp only [PortState.requestBegins, hl, he, Resting.engine]
  have hwhole : ps.clockRequest (.whole rest bits) =
      (rest.foldl (fun acc b => acc.requestByte b) ps.requestBegins).requestEnds bits := by
    simp only [PortState.clockRequest, hl]
  rw [hwhole, hbegins, PortState.requestBytes_receiving rest (bytes := [requestType]) rfl rfl]
  simp only [PortState.requestEnds, PortState.csRises, hl]
  rfl

/-- A request transaction on an idle link, with the engine in RECEIVING or EXECUTING (10 R161). -/
theorem PortState.clockRequest_dropped {ps : PortState} (hl : ps.link = .idle)
    (he : (∃ left, ps.engine = .receiving left) ∨ ps.engine = .executing) (rest : List Byte) (bits : Fin 8) :
    ps.clockRequest (.whole rest bits) = { ps with
      miso := List.replicate (rest.length + 1) 0xFF, risen := ps.risen ++ [⟨.dropped, 0⟩] } := by
  have hbegins : ps.requestBegins = { ps with link := .dropping, miso := [0xFF] } := by
    rcases he with ⟨left, he⟩ | he <;> simp only [PortState.requestBegins, hl, he]
  have hwhole : ps.clockRequest (.whole rest bits) =
      (rest.foldl (fun acc b => acc.requestByte b) ps.requestBegins).requestEnds bits := by
    simp only [PortState.clockRequest, hl]
  rw [hwhole, hbegins, PortState.requestBytes_dropping rest rfl]
  simp only [PortState.requestEnds, PortState.csRises, hl]
  rfl

theorem receivedChange_whole {rest : List Byte} {bits : Fin 8}
    (h : bits = 0 ∧ 1 ≤ rest.length ∧ rest.length = (rest.getD 0 0).toNat + 2) : receivedChange rest bits = .whole :=
  if_pos ⟨h.1, (frameWhole_iff rest).2 h.2⟩

theorem receivedChange_aborted {rest : List Byte} {bits : Fin 8}
    (h : ¬ (bits = 0 ∧ 1 ≤ rest.length ∧ rest.length = (rest.getD 0 0).toNat + 2)) : receivedChange rest bits = .aborted :=
  if_neg fun hc => h ⟨hc.1, (frameWhole_iff rest).1 hc.2⟩

theorem PortState.riseTaken_eq {ps : PortState} {r : Rise} {rest : List Rise} (hr : ps.risen = r :: rest) :
    ps.riseTaken = { ps with risen := rest } := by
  rw [PortState.riseTaken, hr, List.tail_cons]

/-- FRAME_ABORTED is recorded in every session state. -/
theorem PortState.raise_frameAborted (ps : PortState) :
    ps.raise .frameAborted = { ps with events := ps.events ||| EventKind.frameAborted.mask } :=
  PortState.raise_kept _ _ rfl

/-- Settles O47: each transaction by `PortState.clockRequest_received` or `_dropped`, each recognition by the edge at the front. -/
theorem requestAndUnknownTransactions : Obligations.RequestAndUnknownTransactions := by
  unfold Obligations.RequestAndUnknownTransactions
  refine ⟨fun p rest bits s h hl => ?clocked, fun p first further s h hl h6D h93 => ?unknown, fun p s h hl => ?ignored,
    fun p r rest s h hr hstage => ?recognised⟩
  case clocked =>
    intro ps ones whole gives received
    have hrow : ∀ ps', ps.clockRequest (.whole rest bits) = ps' → gives ps' := fun ps' hps => by
      show exec _ s = _
      rw [exec_requestTransaction h, s.modifyPort_eq_const p hps]
    refine ⟨fun he hw => ?_, fun he hw => ?_, fun he hw => ?_, fun he hw => ?_, fun he => ?_⟩
    · exact hrow _ (by rw [PortState.clockRequest_received (left := .idle) hl he, receivedChange_whole hw])
    · exact hrow _ (by rw [PortState.clockRequest_received (left := .idle) hl he, receivedChange_aborted hw])
    · exact hrow _ (by rw [PortState.clockRequest_received (left := .replyHeld) hl he, receivedChange_whole hw])
    · exact hrow _ (by rw [PortState.clockRequest_received (left := .replyHeld) hl he, receivedChange_aborted hw])
    · exact hrow _ (PortState.clockRequest_dropped hl he rest bits)
  case unknown =>
    rw [(exec_unknownTransaction h p h6D h93).1]
    refine congrArg Host.Outcome.next (s.modifyPort_congr p ?_)
    simp only [PortState.unknownClocked, hl, PortState.csRises]
  case ignored =>
    intro freed
    have hfreed : ∀ g : PortState → PortState, g (s.port p) = { s.port p with link := .idle } → s.modifyPort p g = freed :=
      fun g hg => s.modifyPort_congr p hg
    have hmoved : (s.port p).moveIgnored (some false) = { s.port p with link := .idle } := by
      rw [PortState.moveIgnored_link, if_pos (.inr hl)]
      rfl
    refine ⟨?_, fun b => ?_, fun bits => ?_, fun rest bits => ?_, fun first further h6D h93 => ?_⟩
    · rw [exec_requestTransaction h]
      refine congrArg Host.Outcome.next (s.modifyPort_same p ?_)
      simp only [PortState.clockRequest, PortState.requestBegins, hl]
    · rw [exec_requestTransaction h]
      refine congrArg Host.Outcome.next (s.modifyPort_same p ?_)
      simp only [PortState.clockRequest, PortState.requestByte, hl]
    · rw [exec_requestTransaction h, hfreed]
      rw [← hmoved]
      simp only [PortState.clockRequest, PortState.requestEnds, hl]
    · rw [exec_requestTransaction h, hfreed]
      rw [← hmoved]
      simp only [PortState.clockRequest, hl]
    · rw [(exec_unknownTransaction h p h6D h93).1, hfreed]
      rw [← hmoved]
      simp only [PortState.unknownClocked, hl]
  case recognised =>
    have hrec := PortState.recognisable_cons hr hstage
    have htaken := PortState.riseTaken_eq hr
    refine ⟨fun left hc he => ?aborted, fun hc => ?dropped, fun first hc h6D h93 => ?unknownRise⟩
    case aborted =>
      rw [exec_requestTransaction h]
      refine congrArg Host.Outcome.next (s.modifyPort_congr p ?_)
      simp only [PortState.clockRequest, PortState.requestRecognised, hrec, hc, htaken, PortState.abortFrame, he,
        PortState.raise_frameAborted]
      cases left <;> rfl
    case dropped =>
      rw [exec_requestTransaction h]
      refine congrArg Host.Outcome.next (s.modifyPort_congr p ?_)
      simp only [PortState.clockRequest, PortState.requestRecognised, hrec, hc, htaken]
    case unknownRise =>
      rw [(exec_unknownTransaction h p h6D h93).2]
      refine congrArg Host.Outcome.next (s.modifyPort_congr p ?_)
      simp only [PortState.unknownRecognised, hrec, hc, htaken, PortState.raise_frameAborted]

/-! ## Frame checks -/

section
variable {p : Port} {bytes : List Byte} {ps : PortState}

/-- The result with which a failed check answers a frame (10 R162). -/
def refusalOf : FrameVerdict → Option ResultCode
  | .badCrc => some .badCrc
  | .badLength => some .badLength
  | .unknownCommand => some .unknownCommand
  | .badField => some .badField
  | .passed _ => none

theorem PortState.checkBytes_refused {c : ResultCode} (h : refusalOf (checkFrame p bytes) = some c) :
    ps.checkBytes p bytes = ({ ps with frame := none } : PortState).placeReply
      ⟨frameSequence bytes, frameCode bytes, c, []⟩ false := by
  unfold PortState.checkBytes
  cases hv : checkFrame p bytes with
  | passed i => rw [hv] at h; cases h
  | badCrc => rw [hv] at h; cases h; rfl
  | badLength => rw [hv] at h; cases h; rfl
  | unknownCommand => rw [hv] at h; cases h; rfl
  | badField => rw [hv] at h; cases h; rfl

theorem PortState.checkBytes_passed {i : Instr} (h : checkFrame p bytes = .passed i) :
    ps.checkBytes p bytes = ps.acceptFrame bytes := by
  rw [PortState.checkBytes, h]

/-- A frame in RECEIVING whose rising CS_N is recognised is checked (10 R162). -/
theorem PortState.checkInHand_whole {left : Resting} {r : Rise} {rest : List Rise} (hr : ps.risen = r :: rest)
    (hc : r.change = .whole) (hstage : 2 ≤ r.stage) (he : ps.engine = .receiving left) (hf : ps.frame = some bytes) :
    ps.checkInHand p = ({ ps with risen := rest } : PortState).checkBytes p bytes := by
  simp only [PortState.checkInHand, PortState.recognisable_cons hr hstage, hc, PortState.riseTaken_eq hr,
    PortState.checkReceived, he, hf]

theorem PortState.acceptFrame_repeat {x : LastExecuted} (hx : ps.lastExecuted = some x)
    (hs : x.sequence = frameSequence bytes) (hcrc : x.crc = frameCrc bytes) :
    ps.acceptFrame bytes = ({ ps with frame := none } : PortState).placeReply x.reply true := by
  have hrepeat : isRepeatOf bytes x = true := by
    rw [isRepeatOf, hs, hcrc, beq_self_eq_true, beq_self_eq_true]
    rfl
  simp only [PortState.acceptFrame, hx, hrepeat, ↓reduceIte]

theorem PortState.acceptFrame_fresh
    (h : ∀ x, ps.lastExecuted = some x → ¬ (x.sequence = frameSequence bytes ∧ x.crc = frameCrc bytes)) :
    ps.acceptFrame bytes = { ps with engine := .executing, checkedNow := true } := by
  unfold PortState.acceptFrame
  split
  · next x hx =>
    refine if_neg fun hc => h x hx ?_
    simpa only [isRepeatOf, Bool.and_eq_true, beq_iff_eq] using hc
  · rfl

/-- A recognition that ends no frame leaves the engine and the frame in hand. -/
theorem PortState.recogniseNext_keepsFrame (h : ∀ x ∈ ps.risen, x.change.endsFrame = false) :
    (ps.recogniseNext p).engine = ps.engine ∧ (ps.recogniseNext p).frame = ps.frame ∧
      ∀ x ∈ (ps.recogniseNext p).risen, x.change.endsFrame = false := by
  have htail : ∀ x ∈ ps.risen.tail, x.change.endsFrame = false := fun x hx => h x (List.mem_of_mem_tail hx)
  cases hrec : ps.recognisable with
  | none =>
    rw [PortState.recogniseNext, hrec]
    exact ⟨rfl, rfl, h⟩
  | some c =>
    have hends : c.endsFrame = false := by
      obtain ⟨r, rest, hr, hchange, -⟩ := PortState.recognisable_eq_some hrec
      rw [← hchange]
      exact h r (by rw [hr]; exact List.mem_cons_self)
    rw [PortState.recogniseNext, hrec]
    cases c with
    | whole => cases hends
    | aborted => cases hends
    | dropped =>
      simp only [PortState.requestRecognised, hrec]
      exact ⟨rfl, rfl, htail⟩
    | unknown =>
      simp only [PortState.unknownRecognised, hrec, PortState.raise_frameAborted]
      exact ⟨rfl, rfl, htail⟩
    | fetched =>
      simp only [PortState.fetchRecognised, hrec]
      exact ⟨rfl, rfl, htail⟩

theorem PortState.recogniseTimes_keepsFrame (n : Nat) (h : ∀ x ∈ ps.risen, x.change.endsFrame = false) :
    (ps.recogniseTimes p n).engine = ps.engine ∧ (ps.recogniseTimes p n).frame = ps.frame := by
  induction n generalizing ps with
  | zero => exact ⟨rfl, rfl⟩
  | succ n ih =>
    obtain ⟨hengine, hframe, hrisen⟩ := PortState.recogniseNext_keepsFrame (p := p) h
    obtain ⟨iengine, iframe⟩ := ih hrisen
    exact ⟨iengine.trans hengine, iframe.trans hframe⟩

end

/-- A port that owes no taking comes to the recognitions of the cycle's end with its link as it was. -/
theorem State.takings_keepsLink {s : State} (h : s.inReset = false) {p : Port} (ho : (s.port p).owedRequest p = none) :
    (s.port p).keepsLink ((Port.all.foldl State.takeFrame s).port p) :=
  (takings_port s h p (fun x => (s.port p).keepsLink x) (fun _ _ hk hx => hx.trans hk) fun u _ hk => by
    rw [State.takeFrame_none ((hk.owedRequest p).trans ho)]
    exact hk).2

/-- A frame checked in the present cycle is still in hand when the next begins, where no waiting edge ends a frame. -/
theorem State.finishCycle_keepsFrame {s : State} (h : s.inReset = false) {p : Port} (ho : (s.port p).owedRequest p = none)
    (hrisen : ∀ x ∈ (s.port p).risen, x.change.endsFrame = false) :
    (s.finishCycle.port p).engine = (s.port p).engine ∧ (s.finishCycle.port p).frame = (s.port p).frame := by
  have htakings := State.takings_keepsLink h ho
  have hblocks := s.finishCycle_keepsLink p
  rw [State.finishLinks_port] at hblocks
  obtain ⟨hengine, hframe⟩ := PortState.recogniseTimes_keepsFrame (p := p)
    ((Port.all.foldl State.takeFrame s).port p).risen.length (htakings.risen ▸ hrisen)
  exact ⟨hblocks.engine.trans (hengine.trans htakings.engine), hblocks.frame.trans (hframe.trans htakings.frame)⟩

/-- A frame in EXECUTING that passes its checks is owed once the cycle of its checks has ended. -/
theorem State.beginCycle_owed {s : State} {p : Port} {bytes : List Byte} {i : Instr} (pins : Pins)
    (he : (s.port p).engine = .executing) (hf : (s.port p).frame = some bytes) (hi : checkFrame p bytes = .passed i) :
    ((s.beginCycle pins).port p).owedRequest p = some i := by
  have hlink := s.beginCycle_link pins p
  exact (PortState.owedRequest_eq_some p _ i).2
    ⟨hlink.engine.trans he, hlink.checkedNow, bytes, hlink.frame.trans hf, hi⟩

theorem State.beginCycle_inReset {s : State} (h : s.inReset = false) (pins : Pins) : (s.beginCycle pins).inReset = false := by
  rw [s.beginCycle_rest pins]
  exact h

/-- A frame that goes to EXECUTING at its check awaits its owner from the next cycle on (10 R164, log entry 7). -/
theorem State.checked_awaits {s : State} (h : s.inReset = false) {p : Port} {bytes : List Byte} {i : Instr}
    {rest : List Rise} (hf : (s.port p).frame = some bytes) (hi : checkFrame p bytes = .passed i) :
    let t := s.modifyPort p fun _ =>
      { s.port p with risen := rest, engine := .executing, checkedNow := true }
    t.awaits p i = false ∧ ((∀ x ∈ rest, x.change.endsFrame = false) →
      ∀ (pins : Pins) (u : State), exec (.increment pins) t = .next u → u.awaits p i = true) := by
  intro t
  have hport : t.port p = { s.port p with risen := rest, engine := .executing, checkedNow := true } :=
    State.modifyPort_port_same ..
  have hreset : t.inReset = false := h
  have howes : (t.port p).owedRequest p = none := by
    refine Option.eq_none_iff_forall_ne_some.2 fun j hj => ?_
    have hchecked := ((PortState.owedRequest_eq_some p _ j).1 hj).2.1
    rw [hport] at hchecked
    cases hchecked
  refine ⟨?_, fun hrisen pins u hu => ?_⟩
  · rw [← Bool.not_eq_true, State.awaits_eq_true, howes]
    exact fun hc => nomatch hc.2
  · rw [exec_increment hreset] at hu
    obtain rfl := Host.Outcome.next.inj hu
    have hwaiting : ∀ x ∈ (t.port p).risen, x.change.endsFrame = false := by
      rw [hport]
      exact hrisen
    obtain ⟨hengine, hframe⟩ := State.finishCycle_keepsFrame hreset howes hwaiting
    rw [hport] at hengine hframe
    exact (State.awaits_eq_true _ p i).2 ⟨State.beginCycle_inReset (State.finishCycle_inReset hreset) pins,
      State.beginCycle_owed pins hengine (hframe.trans hf) hi⟩

/-- Settles O49: the verdict is found check by check, and `State.checked_awaits` follows a frame into the next cycle. -/
theorem frameCheckResult : Obligations.FrameCheckResult := by
  unfold Obligations.FrameCheckResult
  intro p left bytes r rest s h hr hc hstage he hf ps gives n crc code sequence params refused crcOk
  have hrow : ∀ ps', ps.checkBytes p bytes = ps' → gives ps' := fun ps' hps => by
    show exec _ s = _
    rw [exec_frameCheck h, s.modifyPort_eq_const p ((PortState.checkInHand_whole hr hc hstage he hf).trans hps)]
  have hrefused : ∀ c, refusalOf (checkFrame p bytes) = some c → refused c := fun c hv =>
    hrow _ (PortState.checkBytes_refused hv)
  have hrest : crcOk → 2 ≤ n → checkFrame p bytes = restOfChecks p bytes := checkFrame_eq_restOfChecks
  have hcodeEq : frameCode bytes = code := rfl
  refine ⟨fun hbad => ?badCrc, fun hok hlen => ?short, fun hok hlen hcode => ?unknown,
    fun c hok hlen hcode => ⟨fun hsize => ?size, fun hsize hread => ?field, fun hsize hread => ?passed⟩⟩
  case badCrc => exact hrefused _ (by rw [(checkFrame_eq_badCrc_iff p bytes).2 hbad]; rfl)
  case short => exact hrefused _ (by rw [checkFrame_short hok hlen]; rfl)
  case unknown => exact hrefused _ (by rw [hrest hok hlen, restOfChecks_unknown hcode]; rfl)
  case size => exact hrefused _ (by rw [hrest hok hlen, restOfChecks_size hcode hsize]; rfl)
  case field => exact hrefused _ (by rw [hrest hok hlen, restOfChecks_field hcode hsize hread]; rfl)
  case passed =>
    obtain ⟨i, hi⟩ := Option.ne_none_iff_exists'.1 hread
    have hpassed : checkFrame p bytes = .passed i := (hrest hok hlen).trans (restOfChecks_passed hcode hsize hi)
    refine ⟨fun x hx hseq hxcrc => ?repeated, fun hfresh => ?fresh⟩
    case repeated =>
      exact hrow _ ((PortState.checkBytes_passed hpassed).trans (PortState.acceptFrame_repeat hx hseq hxcrc))
    case fresh =>
      have hexec : gives { ps with engine := .executing, checkedNow := true } :=
        hrow _ ((PortState.checkBytes_passed hpassed).trans (PortState.acceptFrame_fresh hfresh))
      refine ⟨hexec, fun j hj t ht => ?_⟩
      obtain rfl : i = j := Option.some.inj (hi.symm.trans hj)
      obtain rfl := Host.Outcome.next.inj (hexec.symm.trans ht)
      exact State.checked_awaits h hf hpassed

/-! ## Fetches -/

section
variable {ps : PortState} {clocked : Nat}

/-- What a fetch of `clocked` bytes drives on MISO, from what the port has to say (10 R166). -/
def misoOf (clocked : Nat) (bytes : List Byte) : List Byte :=
  ((0xFF : Byte) :: bytes ++ List.replicate clocked 0xFF).take clocked

theorem PortState.fetchClocked_incomplete (hl : ps.link = .idle) (hpos : 0 < clocked)
    (h : ¬ (ps.engine = .replyHeld ∧ ps.fetchBytes.length < clocked)) :
    ps.fetchClocked clocked = { ps with miso := misoOf clocked ps.fetchBytes } := by
  simp only [PortState.fetchClocked, hl, if_neg hpos.ne', if_neg h]
  rfl

theorem PortState.fetchClocked_complete (hl : ps.link = .idle) (hpos : 0 < clocked)
    (h : ps.engine = .replyHeld ∧ ps.fetchBytes.length < clocked) :
    ps.fetchClocked clocked = { ps with
      miso := misoOf clocked ps.fetchBytes, risen := ps.risen ++ [⟨.fetched, 0⟩] } := by
  simp only [PortState.fetchClocked, hl, if_neg hpos.ne', if_pos h, PortState.csRises]
  rfl

theorem PortState.fetchBytes_replyHeld {b : ReplyEntry} (he : ps.engine = .replyHeld) (hb : ps.reply = some b) :
    ps.fetchBytes = 0xA5 :: b.frame := by
  simp only [PortState.fetchBytes, he, hb]
  rfl

end

theorem ReplyEntry.indicators_eq (b : ReplyEntry) :
    b.indicators = (if b.repeated then 1 else 0) + (if b.replyLost then 2 else 0) + (if b.overrun then 4 else 0) := by
  have hflags : ∀ x y z : Bool, BitVec.ofNat 8 (boolBit x + 2 * boolBit y + 4 * boolBit z) =
      (if x then 1 else 0) + (if y then 2 else 0) + (if z then 4 else 0) := by decide
  exact hflags ..

/-- Settles O51: the engine's state gives the bytes to drive, and their number tells a complete fetch from another. -/
theorem fetchResult : Obligations.FetchResult := by
  unfold Obligations.FetchResult
  refine ⟨fun p clocked s h hl hpos => ?clocked, fun p clocked s h hl => ?ignored, fun p r rest s h hr hc hstage => ?recognised⟩
  case clocked =>
    intro ps gives drives code
    have hrow : ∀ ps', ps.fetchClocked clocked = ps' → gives ps' := fun ps' hps => by
      show exec _ s = _
      rw [exec_fetchTransaction h, s.modifyPort_eq_const p (g := PortState.fetch (.clocked clocked)) hps]
    have hcode : ∀ r, code r = r.byte := fun r => by cases r <;> rfl
    refine ⟨fun he => ?idle, fun he => ?busy, fun b he hb => ?ready⟩
    case idle =>
      have hbytes : ps.fetchBytes = [0x4E] := by
        simp only [PortState.fetchBytes, he]
        rfl
      refine hrow _ ((PortState.fetchClocked_incomplete hl hpos ?_).trans (by rw [hbytes]; rfl))
      rw [he]
      exact fun hc => nomatch hc.1
    case busy =>
      have hbytes : ps.fetchBytes = [0x5A] ∧ ps.engine ≠ .replyHeld := by
        rcases he with ⟨left, he⟩ | he <;> simp only [PortState.fetchBytes, he] <;> exact ⟨rfl, nofun⟩
      exact hrow _ ((PortState.fetchClocked_incomplete hl hpos fun hc => hbytes.2 hc.1).trans (by rw [hbytes.1]; rfl))
    case ready =>
      intro run frame
      have hframe : frame = b.frame := by
        simp only [frame, run, hcode, ReplyEntry.frame, ReplyEntry.indicators_eq]
      have hbytes : ps.fetchBytes = 0xA5 :: frame := by rw [PortState.fetchBytes_replyHeld he hb, hframe]
      have hlen : (s.port p).fetchBytes.length = frame.length + 1 := congrArg List.length hbytes
      refine ⟨fun hshort => ?_, fun hlong => ?_⟩
      · refine hrow _ ((PortState.fetchClocked_incomplete hl hpos fun hc => ?_).trans (by rw [hbytes]; rfl))
        have := hc.2
        omega
      · exact hrow _ ((PortState.fetchClocked_complete hl hpos ⟨he, by omega⟩).trans (by rw [hbytes]; rfl))
  case ignored =>
    rw [exec_fetchTransaction h]
    refine congrArg Host.Outcome.next (s.modifyPort_congr p ?_)
    have hmoved : (s.port p).moveIgnored (some false) = { s.port p with link := .idle } := by
      rw [PortState.moveIgnored_link, if_pos (.inr hl)]
      rfl
    rw [← hmoved]
    simp only [PortState.fetch, PortState.fetchClocked, hl]
  case recognised =>
    rw [exec_fetchTransaction h]
    refine congrArg Host.Outcome.next (s.modifyPort_congr p ?_)
    simp only [PortState.fetch, PortState.fetchRecognised, PortState.recognisable_cons hr hstage, hc,
      PortState.riseTaken_eq hr, PortState.clearEvents, hasKind_mask]
    rfl

/-! ## A transaction in its parts -/

/-- A part of a request transaction as its row takes it at the port, in reset or out of it. -/
def PortState.takeRequestPart (reset : Bool) (ps : PortState) (part : RequestPart) : PortState :=
  (if reset then PortState.moveIgnored (requestLeaves part) else PortState.clockRequest part) ps

theorem runAll_requestParts (p : Port) (parts : List RequestPart) (s : State) :
    runAll (parts.map (.requestTransaction p)) s =
      .next (s.modifyPort p fun ps => parts.foldl (PortState.takeRequestPart s.inReset) ps) := by
  induction parts generalizing s with
  | nil => exact congrArg Host.Outcome.next (s.modifyPort_same p rfl).symm
  | cons part parts ih =>
    have hrow : exec (.requestTransaction p part) s =
        .next (s.modifyPort p fun ps => PortState.takeRequestPart s.inReset ps part) := rfl
    have hreset : (s.modifyPort p fun ps => PortState.takeRequestPart s.inReset ps part).inReset = s.inReset := rfl
    rw [List.map_cons, runAll_cons _ hrow, ih, hreset, State.modifyPort_modifyPort]
    rfl

/-- The bytes of a transaction in parts are those of the whole one (10 R157). -/
theorem PortState.foldl_takeRequestPart_bytes (reset : Bool) (rest : List Byte) (ps : PortState) :
    (rest.map RequestPart.byte).foldl (PortState.takeRequestPart reset) ps =
      if reset then ps else rest.foldl (fun acc b => acc.requestByte b) ps := by
  rw [List.foldl_map]
  cases reset with
  | false => rfl
  | true =>
    induction rest with
    | nil => rfl
    | cons b rest ih =>
      have hstep : PortState.takeRequestPart true ps (.byte b) = ps := PortState.moveIgnored_none ps
      rw [List.foldl_cons, hstep]
      exact ih

theorem PortState.requestBytes_ignored (rest : List Byte) {ps : PortState} (hl : ps.link = .ignored) :
    rest.foldl (fun acc b => acc.requestByte b) ps = ps := by
  induction rest with
  | nil => rfl
  | cons b rest ih =>
    have hstep : ps.requestByte b = ps := by simp only [PortState.requestByte, hl]
    rw [List.foldl_cons, hstep]
    exact ih

/-- The parts of a transaction make of a port what the whole transaction makes of it (10 R157). -/
theorem PortState.foldl_takeRequestPart (reset : Bool) (rest : List Byte) (bits : Fin 8) {ps : PortState}
    (hl : ps.link = .idle ∨ ps.link = .ignored) :
    ([RequestPart.begins] ++ rest.map RequestPart.byte ++ [RequestPart.csRises bits]).foldl
        (PortState.takeRequestPart reset) ps = ps.takeRequestPart reset (.whole rest bits) := by
  rw [List.foldl_append, List.foldl_append, PortState.foldl_takeRequestPart_bytes]
  cases reset with
  | true =>
    have hend : ps.takeRequestPart true (.whole rest bits) = { ps with link := .idle } := by
      rw [PortState.takeRequestPart, if_pos rfl, requestLeaves, PortState.moveIgnored_link, if_pos hl]
      rfl
    have hbegin : ps.takeRequestPart true .begins = { ps with link := .ignored } := by
      rw [PortState.takeRequestPart, if_pos rfl, requestLeaves, PortState.moveIgnored_link, if_pos hl]
      rfl
    rw [hend]
    show (PortState.takeRequestPart true ps .begins).takeRequestPart true (.csRises bits) = _
    rw [hbegin]
    rfl
  | false =>
    show ((rest.foldl (fun acc b => acc.requestByte b) ps.requestBegins).requestEnds bits) = ps.clockRequest (.whole rest bits)
    rcases hl with hl | hl
    · simp only [PortState.clockRequest, hl]
    · have hbegin : ps.requestBegins = ps := by simp only [PortState.requestBegins, hl]
      rw [hbegin, PortState.requestBytes_ignored rest hl]
      simp only [PortState.requestEnds, PortState.clockRequest, hl]

/-! ## A whole frame is answered -/

/-- The port has answered a frame of these bytes, and no rising CS_N waits. -/
def PortState.answersFrame (bytes : List Byte) (ps : PortState) : Prop :=
  ps.engine = .replyHeld ∧ ps.frame = none ∧ ps.risen = [] ∧
    ∃ e, ps.reply = some e ∧ (e.repeated = true ∨ e.reply.sequence = frameSequence bytes)

/-- The port waits for the owner of the request in a frame of these bytes, and no rising CS_N waits. -/
def PortState.executesFrame (p : Port) (bytes : List Byte) (ps : PortState) : Prop :=
  ps.engine = .executing ∧ ps.frame = some bytes ∧ ps.risen = [] ∧ ∃ i, checkFrame p bytes = .passed i

theorem PortState.keepsLink.answersFrame {ps ps' : PortState} (h : ps.keepsLink ps') {bytes : List Byte}
    (ha : ps.answersFrame bytes) : ps'.answersFrame bytes := by
  unfold PortState.answersFrame
  rw [h.engine, h.frame, h.risen, h.reply]
  exact ha

theorem PortState.keepsLink.executesFrame {ps ps' : PortState} (h : ps.keepsLink ps') {p : Port} {bytes : List Byte}
    (he : ps.executesFrame p bytes) : ps'.executesFrame p bytes := by
  unfold PortState.executesFrame
  rw [h.engine, h.frame, h.risen]
  exact he

theorem PortState.recognisable_nil {ps : PortState} (h : ps.risen = []) : ps.recognisable = none := by
  rw [PortState.recognisable, h]

/-- A reply placed for a frame whose sequence it has, or for a repeat, answers it. -/
theorem PortState.placeReply_answersFrame {ps : PortState} {bytes : List Byte} {reply : Reply} {repeated : Bool}
    (hf : ps.frame = none) (hr : ps.risen = []) (h : repeated = true ∨ reply.sequence = frameSequence bytes) :
    (ps.placeReply reply repeated).answersFrame bytes := by
  obtain ⟨hengine, hframe, hrisen, -, e, he, hreply, hrepeated⟩ := PortState.placeReply_link reply repeated ps
  exact ⟨hengine, hframe.trans hf, hrisen.trans hr, e, he, by rw [hreply, hrepeated]; exact h⟩

/-- The check of a frame answers it or leaves it to its owner (10 R162, R163). -/
theorem PortState.checkBytes_cases {p : Port} {bytes : List Byte} {ps : PortState} (hf : ps.frame = some bytes)
    (hr : ps.risen = []) :
    (ps.checkBytes p bytes).answersFrame bytes ∨ (ps.checkBytes p bytes).executesFrame p bytes := by
  cases hv : refusalOf (checkFrame p bytes) with
  | some c =>
    rw [PortState.checkBytes_refused hv]
    exact .inl (PortState.placeReply_answersFrame rfl hr (.inr rfl))
  | none =>
    obtain ⟨i, hi⟩ : ∃ i, checkFrame p bytes = .passed i := by
      cases hc : checkFrame p bytes with
      | passed i => exact ⟨i, rfl⟩
      | badCrc => rw [hc] at hv; cases hv
      | badLength => rw [hc] at hv; cases hv
      | unknownCommand => rw [hc] at hv; cases hv
      | badField => rw [hc] at hv; cases hv
    rw [PortState.checkBytes_passed hi]
    unfold PortState.acceptFrame
    split
    · split
      · exact .inl (PortState.placeReply_answersFrame rfl hr (.inl rfl))
      · exact .inr ⟨rfl, hf, hr, i, hi⟩
    · exact .inr ⟨rfl, hf, hr, i, hi⟩

/-- A whole frame in RECEIVING whose rising CS_N has passed `k` stages. -/
def PortState.awaitsCheck (k : Nat) (left : Resting) (bytes : List Byte) (ps : PortState) : Prop :=
  ps.engine = .receiving left ∧ ps.frame = some bytes ∧ ps.risen = [⟨.whole, k⟩]

theorem State.beginCycle_answersFrame {s : State} {p : Port} {bytes : List Byte} (pins : Pins)
    (h : (s.port p).answersFrame bytes) : ((s.beginCycle pins).port p).answersFrame bytes := by
  obtain ⟨hengine, hframe, hrisen, hreply⟩ := h
  have hlink := s.beginCycle_link pins p
  unfold PortState.answersFrame
  rw [hlink.engine, hlink.frame, hlink.reply, hlink.risen]
  exact ⟨hengine, hframe, by rw [hrisen]; rfl, hreply⟩

theorem State.beginCycle_executesFrame {s : State} {p : Port} {bytes : List Byte} (pins : Pins)
    (h : (s.port p).executesFrame p bytes) : ((s.beginCycle pins).port p).executesFrame p bytes := by
  obtain ⟨hengine, hframe, hrisen, hpassed⟩ := h
  have hlink := s.beginCycle_link pins p
  unfold PortState.executesFrame
  rw [hlink.engine, hlink.frame, hlink.risen]
  exact ⟨hengine, hframe, by rw [hrisen]; rfl, hpassed⟩

section
variable {s : State} {p : Port} {bytes : List Byte} (h : s.inReset = false) (pins : Pins)
include h

theorem State.cycle_awaitsCheck {k : Nat} {left : Resting} (hk : k < 2) (hp : (s.port p).awaitsCheck k left bytes) :
    ((s.finishCycle.beginCycle pins).port p).awaitsCheck (k + 1) left bytes := by
  obtain ⟨hengine, hframe, hrisen⟩ := hp
  have howes : (s.port p).owedRequest p = none := by
    simp only [PortState.owedRequest, hengine]
  have hwaits : (s.port p).recognisable = none := by
    rw [PortState.recognisable, hrisen]
    exact if_neg (Nat.not_le.2 hk)
  have hfinish := s.finishCycle_idleLink h p howes hwaits
  have hbegin := s.finishCycle.beginCycle_link pins p
  refine ⟨hbegin.engine.trans (hfinish.engine.trans hengine), hbegin.frame.trans (hfinish.frame.trans hframe), ?_⟩
  have hshift : ((s.finishCycle.beginCycle pins).port p).risen = (s.finishCycle.port p).risen.map Rise.shift := hbegin.risen
  rw [hshift, hfinish.risen, hrisen]
  exact congrArg (fun n => [Rise.mk .whole n]) (Nat.min_eq_right hk)

theorem State.cycle_checked {left : Resting} (hp : (s.port p).awaitsCheck 2 left bytes) :
    ((s.finishCycle.beginCycle pins).port p).answersFrame bytes ∨
      ((s.finishCycle.beginCycle pins).port p).executesFrame p bytes := by
  obtain ⟨hengine, hframe, hrisen⟩ := hp
  have howes : (s.port p).owedRequest p = none := by
    simp only [PortState.owedRequest, hengine]
  have htakings := State.takings_keepsLink h howes
  have hblocks := s.finishCycle_keepsLink p
  rw [State.finishLinks_port] at hblocks
  generalize (Port.all.foldl State.takeFrame s).port p = x at htakings hblocks
  have hxrisen : x.risen = [⟨.whole, 2⟩] := htakings.risen.trans hrisen
  have hxframe : x.frame = some bytes := htakings.frame.trans hframe
  have hchecked : x.recogniseTimes p x.risen.length = ({ x with risen := [] } : PortState).checkBytes p bytes := by
    have hrec : x.recognisable = some .whole := PortState.recognisable_cons hxrisen (Nat.le_refl 2)
    have hone : x.recogniseTimes p 1 = x.recogniseNext p := rfl
    rw [hxrisen, List.length_singleton, hone, PortState.recogniseNext, hrec]
    exact PortState.checkInHand_whole hxrisen rfl (Nat.le_refl 2) (htakings.engine.trans hengine) hxframe
  rw [hchecked] at hblocks
  exact (PortState.checkBytes_cases (p := p) (ps := { x with risen := [] }) hxframe rfl).imp
    (fun ha => State.beginCycle_answersFrame pins (hblocks.answersFrame ha))
    fun he => State.beginCycle_executesFrame pins (hblocks.executesFrame he)

/-- A frame that has been answered stays so through a cycle in which nothing more comes. -/
theorem State.cycle_answersFrame (hp : (s.port p).answersFrame bytes) :
    ((s.finishCycle.beginCycle pins).port p).answersFrame bytes :=
  State.beginCycle_answersFrame pins ((s.finishCycle_idleLink h p (PortState.owedRequest_none p _ hp.2.1)
    (PortState.recognisable_nil hp.2.2.1)).answersFrame hp)

/-- A frame that awaits its owner is answered in the next cycle (10 R164). -/
theorem State.cycle_executesFrame (hp : (s.port p).executesFrame p bytes) (hc : (s.port p).checkedNow = false) :
    ((s.finishCycle.beginCycle pins).port p).answersFrame bytes := by
  obtain ⟨hengine, hframe, hrisen, i, hi⟩ := hp
  have howed : (s.port p).owedRequest p = some i :=
    (PortState.owedRequest_eq_some p _ i).2 ⟨hengine, hc, bytes, hframe, hi⟩
  have htaken : ((Port.all.foldl State.takeFrame s).port p).answersFrame bytes :=
    (takings_port s h p (fun x => x.answersFrame bytes) (fun _ _ hk hx => hk.answersFrame hx) fun u hu hk => by
      obtain ⟨tengine, tframe, trisen, -, e, he, hseq⟩ := State.takeFrame_taken hu ((hk.owedRequest p).trans howed)
      have hbytes : u.frameBytes p = bytes := by rw [State.frameBytes, hk.frame, hframe, Option.getD_some]
      exact ⟨tengine, tframe, (trisen.trans hk.risen).trans hrisen, e, he, .inr (hbytes ▸ hseq)⟩).2
  have hblocks := s.finishCycle_keepsLink p
  rw [State.finishLinks_port, PortState.recogniseTimes_none _ _ _ (PortState.recognisable_nil htaken.2.2.1)] at hblocks
  exact State.beginCycle_answersFrame pins (hblocks.answersFrame htaken)

end

/-- A whole frame that is received with no other rising CS_N waiting is answered by the fourth cycle (log entries 2, 7). -/
theorem State.answered_by_fourth {s : State} {p : Port} {left : Resting} {bytes : List Byte} (h : s.inReset = false)
    (hp : (s.port p).awaitsCheck 0 left bytes) (a b c d : Pins) :
    ∃ t, runAll [.increment a, .increment b, .increment c, .increment d] s = .next t ∧
      (t.port p).answersFrame bytes := by
  have running : ∀ {u : State} (pins : Pins), u.inReset = false → (u.finishCycle.beginCycle pins).inReset = false :=
    fun pins hu => State.beginCycle_inReset (State.finishCycle_inReset hu) pins
  have ha := running a h
  have hb := running b ha
  have hc := running c hb
  have hrun : runAll [.increment a, .increment b, .increment c, .increment d] s = .next
      ((((s.finishCycle.beginCycle a).finishCycle.beginCycle b).finishCycle.beginCycle c).finishCycle.beginCycle d) := by
    rw [runAll_cons _ (exec_increment h a), runAll_cons _ (exec_increment ha b), runAll_cons _ (exec_increment hb c),
      runAll_cons _ (exec_increment hc d)]
    rfl
  have hready := State.cycle_awaitsCheck ha b (Nat.lt_succ_self 1) (State.cycle_awaitsCheck h a Nat.two_pos hp)
  refine ⟨_, hrun, ?_⟩
  rcases State.cycle_checked hb c hready with hanswered | hexecutes
  · exact State.cycle_answersFrame hc d hanswered
  · exact State.cycle_executesFrame hc d hexecutes (State.beginCycle_link _ c p).checkedNow

/-- Settles O48: the parts by `PortState.foldl_takeRequestPart`, the four cycles by `State.answered_by_fourth`. -/
theorem transactionInParts : Obligations.TransactionInParts := by
  unfold Obligations.TransactionInParts
  refine ⟨fun p rest bits s hl => ?parts, fun p rest s a b c d h hl hrisen he hpos hlen => ?answered⟩
  case parts =>
    refine ⟨s.modifyPort p fun ps => ps.takeRequestPart s.inReset (.whole rest bits), rfl, ?_⟩
    rw [runAll_requestParts]
    exact congrArg Host.Outcome.next (s.modifyPort_congr p (PortState.foldl_takeRequestPart s.inReset rest bits hl))
  case answered =>
    obtain ⟨left, hleft⟩ : ∃ left : Resting, (s.port p).engine = left.engine :=
      he.elim (fun hi => ⟨.idle, hi⟩) fun hh => ⟨.replyHeld, hh⟩
    have hrow := exec_requestTransaction h p (.whole rest 0)
    have hport : ((s.modifyPort p (PortState.clockRequest (.whole rest 0))).port p).awaitsCheck 0 left (0x6D :: rest) := by
      rw [State.modifyPort_port_same, PortState.clockRequest_received hl hleft,
        receivedChange_whole ⟨rfl, hpos, hlen⟩, hrisen]
      exact ⟨rfl, rfl, rfl⟩
    obtain ⟨t, ht, hengine, hframe, -, e, hreply, hsequence⟩ := State.answered_by_fourth
      (s := s.modifyPort p (PortState.clockRequest (.whole rest 0))) h hport a b c d
    exact ⟨t, e, (runAll_cons _ hrow).trans ht, hengine, hframe, hreply, hsequence⟩

end Sys2Proof.Machine
end


section
/-! SUPPORT. What a request leaves of the other ports, and what the pins and ATTN_N show within a cycle (O45, O46). -/

namespace Sys2Proof.Machine

/-! ## Other ports -/

/-- Every port but one is as it was. -/
def State.leavesOthers (p : Port) (s t : State) : Prop := ∀ q, q ≠ p → t.port q = s.port q

namespace State.leavesOthers

variable {p : Port}

theorem of_ports {s t : State} (h : t.ports = s.ports) : s.leavesOthers p t := fun q _ => by
  rw [State.port, State.port, h]

theorem trans {a b c : State} (h : a.leavesOthers p b) (h' : b.leavesOthers p c) : a.leavesOthers p c :=
  fun q hq => (h' q hq).trans (h q hq)

theorem modifyPort (s : State) (g : PortState → PortState) : s.leavesOthers p (s.modifyPort p g) :=
  fun _ hq => s.modifyPort_port_ne g hq

theorem mapLines (s : State) (g : Line → LineRecord → LineRecord) : s.leavesOthers p (s.mapLines g) :=
  of_ports (by simp only [State.mapLines])

theorem finishTaking (s : State) (bytes : List Byte) (r : ResultCode) (data : List Byte) :
    s.leavesOthers p (s.finishTaking p bytes r data) := modifyPort s _

/-- Entries of one port that retire report at that port. -/
theorem retireOwn (s : State) {f : Entry → Bool} {o : Outcome} (ho : o ≠ .done)
    (hf : ∀ e ∈ s.queue, f e = true → e.port = p) : s.leavesOthers p (s.retireAll (s.queue.filter f) o) := fun q hq => by
  rw [State.retireAll_filter _ _ _ ho, State.retiring_port_other _ o hf hq]

/-- A check of an owner refuses and changes nothing, or lets it go on. -/
theorem check {s : State} {c : Prop} [Decidable c] {r : ResultCode} {data : List Byte} {a : Answer}
    (h : s.leavesOthers p a.state) : s.leavesOthers p (if c then refuse s r data else a).state := by
  split
  · exact of_ports rfl
  · exact h

/-- The taking of a request whose owner leaves the other ports alone leaves them alone (10 R164). -/
theorem takeRequest {s : State} {d f : Bool} {role : Option Role} {i : Instr} (owner : State → Answer)
    (hrow : admissionRow i = some (p, d, f, role)) (h : s.leavesOthers p (owner s).state) :
    s.leavesOthers p (Machine.takeRequest ⟨d, f, role⟩ p i owner s) :=
  takeRequest_keeps (s.leavesOthers p) (s.leavesOthers p) p d f role i owner s hrow (fun _ h => h)
    (fun u r data hu => hu.trans (.finishTaking u _ r data)) (fun _ _ => h) (of_ports rfl)

theorem admitEntries (s : State) (x : Descriptor) : s.leavesOthers p (s.admitEntries p x) := by
  refine trans (b := s.enqueue (descEntries p x)) (of_ports ?_) (modifyPort _ _)
  rw [State.enqueue_eq]

end State.leavesOthers

/-- Settles O45: each owner's own lemma, the excluded requests set aside. -/
theorem otherPortsAreUndisturbed : Obligations.OtherPortsAreUndisturbed := by
  unfold Obligations.OtherPortsAreUndisturbed
  intro i p q s t hrow hstep hrelease hrevoke hclose hclaim hdrop hfence hquota ht hq
  obtain ⟨⟨d, f, role⟩, hrow⟩ := hrow
  revert q
  show s.leavesOthers p t
  have req : ∀ (q : Port) (d f : Bool) (role : Option Role) (owner : State → Answer),
      admissionRow i = some (q, d, f, role) → s.leavesOthers q (owner s).state →
      s.leavesOthers p (takeRequest ⟨d, f, role⟩ q i owner s) := by
    intro q d f role owner hrow' howner
    cases hrow.symm.trans hrow'
    exact .takeRequest owner hrow howner
  cases i <;> first
    | (replace hrow : (none : Option (Port × Bool × Bool × Option Role)) = some (p, d, f, role) := hrow
       cases hrow)
    | (have ht' := Host.Outcome.next.inj ht; clear ht; subst ht')
  case readTime p => exact req p _ _ _ _ rfl (.modifyPort s _)
  case stepTime p offset mode => cases hrow; exact absurd rfl (hstep offset mode)
  case setRate p k n => exact req p _ _ _ _ rfl (.of_ports rfl)
  case setFrame p n => exact req p _ _ _ _ rfl (.of_ports rfl)
  case acquireLines p m n g => exact req p _ _ _ _ rfl (.check (.mapLines s _))
  case renewLines p m => exact req p _ _ _ _ rfl (.check (.mapLines s _))
  case releaseLines p m => cases hrow; exact absurd rfl (hrelease m)
  case revokeLines p m => cases hrow; exact absurd rfl (hrevoke m)
  case forceLines p m l => exact req p _ _ _ _ rfl (.mapLines s _)
  case unforceLines p m => exact req p _ _ _ _ rfl (.mapLines s _)
  case readLines p => exact req p _ _ _ _ rfl (.of_ports rfl)
  case submit p x => exact req p _ _ _ _ rfl (.check (.check (.check (.check (.check (.admitEntries s x))))))
  case cancel p tag =>
    refine req p _ _ _ _ rfl (.check (.check (.trans (b := s.retireAll (pendingTagged p tag s) .cancelled) ?_
      (.modifyPort _ _))))
    rw [pendingTagged_eq]
    exact .retireOwn s (by decide) fun e _ he => beq_iff_eq.1 (Bool.and_eq_true_iff.1 he).1
  case cancelLines p m =>
    refine req p _ _ _ _ rfl ?_
    rw [cancelLinesOwner, pendingOnLines_eq]
    exact .retireOwn s (by decide) fun e _ he => beq_iff_eq.1 (Bool.and_eq_true_iff.1 he).1
  case readQueue p => exact req p _ _ _ _ rfl (.of_ports rfl)
  case readCompletions p n => exact req p _ _ _ _ rfl (.modifyPort s _)
  case stage p x => exact req p _ _ _ _ rfl (.check (.check (.check (.check (.modifyPort s _)))))
  case commitBatch p n =>
    refine req p _ _ _ _ rfl (.check ?_)
    cases (s.port p).batch.state with
    | empty => exact .of_ports rfl
    | armed => exact .of_ports rfl
    | opened => exact .modifyPort s _
  case discardBatch p => exact req p _ _ _ _ rfl (.modifyPort s _)
  case configInput p m n e => exact req p _ _ _ _ rfl (.check (.of_ports rfl))
  case subscribe p m => exact req p _ _ _ _ rfl (.modifyPort s _)
  case readCaptures p n => exact req p _ _ _ _ rfl (.modifyPort s _)
  case clearArms p m => exact req p _ _ _ _ rfl (.modifyPort s _)
  case readArms p => exact req p _ _ _ _ rfl (.of_ports rfl)
  case openPort p => exact req p _ _ _ _ rfl (.check (.modifyPort s _))
  case closePort p => cases hrow; exact absurd rfl hclose
  case claimRole p r => cases hrow; exact absurd rfl (hclaim r)
  case releaseRole p r => cases hrow; exact absurd rfl (hdrop r)
  case fencePort p target => cases hrow; exact absurd rfl (hfence target)
  case setQuota p target n => cases hrow; exact absurd rfl (hquota target n)
  case readStatus p => exact req p _ _ _ _ rfl (.of_ports rfl)
  case readEvents p m => exact req p _ _ _ _ rfl (.modifyPort s _)
  case setEventMask p m => exact req p _ _ _ _ rfl (.modifyPort s _)

/-! ## What the pins show -/

/-- The levels that the pins show are as they were (09 R150, log entry 15). -/
structure State.keepsShown (s t : State) : Prop where
  outs : t.outsShown = s.outsShown
  attn : ∀ q, (t.port q).attnShown = (s.port q).attnShown

namespace State.keepsShown

theorem trans {a b c : State} (h : a.keepsShown b) (h' : b.keepsShown c) : a.keepsShown c :=
  ⟨h'.outs.trans h.outs, fun q => (h'.attn q).trans (h.attn q)⟩

theorem of_ports {s t : State} (houts : t.outsShown = s.outsShown) (h : t.ports = s.ports) : s.keepsShown t :=
  ⟨houts, fun q => by rw [State.port, State.port, h]⟩

theorem of_work {s t : State} (h : s.onlyWork t) : s.keepsShown t where
  outs := by rw [h.rest]
  attn q := by
    have hport := h.port q
    unfold PortState.onlyWork at hport
    rw [hport]

theorem modifyPort (s : State) (p : Port) (g : PortState → PortState)
    (h : (g (s.port p)).attnShown = (s.port p).attnShown) : s.keepsShown (s.modifyPort p g) := by
  refine ⟨rfl, fun q => ?_⟩
  rw [State.modifyPort_port]
  split
  · next hq => rw [h, hq]
  · rfl

theorem mapPorts (s : State) (g : Port → PortState → PortState)
    (h : ∀ q, (g q (s.port q)).attnShown = (s.port q).attnShown) : s.keepsShown (s.mapPorts g) :=
  ⟨rfl, fun q => by rw [State.mapPorts_port]; exact h q⟩

theorem talks (s : State) (p : Port) (g : PortState → PortState) (h : (s.port p).onlyTalks (g (s.port p))) :
    s.keepsShown (s.modifyPort p g) :=
  modifyPort s p g (by rw [h.rest])

theorem raised (k : EventKind) (ps : PortState) : (ps.raise k).attnShown = ps.attnShown := by
  rw [PortState.raise_frame]

theorem moved (ps : PortState) : ps.moveReports.attnShown = ps.attnShown := by
  rw [PortState.moveReports_eq]

theorem retireAll (s : State) (es : List Entry) (o : Outcome) : s.keepsShown (s.retireAll es o) :=
  of_work (State.onlyTakes.retireAll ..).work

theorem raiseRoleChanged (s : State) (cause : Port) : s.keepsShown (s.raiseRoleChanged cause) :=
  mapPorts _ _ fun q => by
    split
    · exact raised ..
    · rfl

theorem dropTimeAuthority (s : State) (cause : Port) : s.keepsShown (s.dropTimeAuthority cause) :=
  trans (b := { s with timeAuthority := none, slew := none }) (of_ports rfl rfl) (raiseRoleChanged ..)

theorem dropSupervisor (s : State) (cause : Port) : s.keepsShown (s.dropSupervisor cause) :=
  trans (b := { s with supervisor := none }) (of_ports rfl rfl) (raiseRoleChanged ..)

theorem dropRoles (s : State) (p cause : Port) : s.keepsShown (s.dropRoles p cause) := by
  have hall : ∀ (b : Prop) [Decidable b] (u v : State), u.keepsShown v → u.keepsShown (if b then v else u) := by
    intro b _ u v h
    split
    · exact h
    · exact of_ports rfl rfl
  exact (hall _ s _ (dropTimeAuthority s cause)).trans (hall _ _ _ (dropSupervisor _ cause))

theorem stepMove (s : State) (offset : Int) (mode : StepMode) : s.keepsShown (s.stepMove offset mode) := by
  refine trans (b := s.stepBegun offset) ⟨by rw [State.stepBegun_rest], fun q => ?_⟩
    (of_work (State.stepMove_onlyTakes ..).work)
  have htold : (s.slewCancelledAt q).attnShown = (s.port q).attnShown := by
    unfold State.slewCancelledAt PortState.raiseSlewDone
    split
    · split <;> rfl
    · rfl
  rw [(s.stepBegun_port_onlyTakes offset q).rest]
  exact htold

theorem closeWork (s : State) (p : Port) : s.keepsShown (s.closeWork p) :=
  (((dropRoles s p p).trans (of_work (.endLeases ..))).trans (of_work (.freeBatch ..))).trans (retireAll ..)

theorem fence (s : State) (t cause : Port) : s.keepsShown (s.fence t cause) := by
  have hsession := modifyPort s t (fun ps => { ps with session := .fenced }) rfl
  exact ((((hsession.trans (dropRoles _ t cause)).trans (of_work (.mapLines ..))).trans (retireAll ..)).trans
    (of_work (.freeBatch ..))).trans (modifyPort _ _ _ (raised ..))

end State.keepsShown

/-- No request's owner moves what the pins show. -/
theorem keepsShown_owners (s : State) : KeepsOwners s.keepsShown where
  due u h := h.trans (.of_work (State.onlyTakes.takeDue u).work)
  readTime u p _ h := h.trans (.modifyPort u p (fun ps => { ps with strobe := ⟨ps.strobe.time, false, false⟩ }) rfl)
  stepTime u p offset mode _ _ _ h := h.trans (.stepMove ..)
  setRate _ _ _ _ _ h := h.trans (.of_ports rfl rfl)
  setFrame _ _ _ _ h := h.trans (.of_ports rfl rfl)
  acquire _ _ _ _ _ _ _ h := h.trans (.of_work (.mapLines ..))
  renew _ _ _ _ _ h := h.trans (.of_work (.mapLines ..))
  release _ _ _ _ h := h.trans (.of_work (.endLeases ..))
  revoke u p m _ h := h.trans (.trans (b := u.endLeases m .revoked) (.of_work (.endLeases ..)) (.mapPorts _ _ fun q => by
    split
    · exact State.keepsShown.raised ..
    · rfl))
  force _ _ _ h := h.trans (.of_work (.mapLines ..))
  submit _ _ _ _ _ _ _ _ h := h.trans (.of_work (.enqueue ..))
  admitting u p x mc h := h.trans (.of_work (.modifyPort _ _ _ (.admitting ..)))
  cancel u p tag _ _ h := h.trans (.trans (.retireAll ..) (.modifyPort _ _ _ rfl))
  cancelLines _ _ _ _ h := h.trans (.retireAll ..)
  readCompletions u p n _ h := h.trans (.modifyPort _ _ _ (State.keepsShown.moved _))
  stage _ _ _ _ _ _ _ h := h.trans (.modifyPort _ _ _ rfl)
  commit _ _ _ _ _ _ h := h.trans (.modifyPort _ _ _ rfl)
  discard _ _ _ h := h.trans (.of_work (.freeBatch ..))
  configure _ _ _ _ _ _ h := h.trans (.of_ports rfl rfl)
  subscribe u p m _ h := h.trans (.modifyPort u p
    (fun ps => { ps with subscription := m, arms := ps.arms &&& (ps.subscription &&& m) }) rfl)
  readCaptures u p n _ h := h.trans (.modifyPort u p (fun ps => { ps with log := ps.log.drop n }) rfl)
  clearArms u p m _ h := h.trans (.modifyPort u p (fun ps => { ps with arms := ps.arms &&& ~~~m }) rfl)
  openPort _ _ _ _ h := h.trans (.modifyPort _ _ _ rfl)
  closePort u p _ h := h.trans ((State.keepsShown.closeWork u p).trans (.modifyPort _ _ _ rfl))
  claimRole u p r _ _ h := h.trans (.trans (b := u.giveRole r p) (by cases r <;> exact .of_ports rfl rfl)
    (.raiseRoleChanged ..))
  releaseRole u p r _ h := h.trans (by
    cases r
    · exact .dropTimeAuthority u p
    · exact .dropSupervisor u p)
  fencePort _ _ _ _ _ _ h := h.trans (.fence ..)
  setQuota _ _ _ _ _ _ _ h := h.trans (.modifyPort _ _ _ rfl)
  readEvents u p _ h := h.trans (.modifyPort u p _ rfl)
  setEventMask u p m h := h.trans (.modifyPort u p (fun ps => { ps with mask := m }) rfl)

/-- No operation within a cycle moves what the pins show. -/
theorem keepsShown_inCycle (s : State) : KeepsInCycle s.keepsShown where
  toKeepsOwners := keepsShown_owners s
  sample u c h := h.trans (.of_work (.sampleChannel u c))
  strobe u p h := h.trans (.of_work (.takeStrobe u p))
  boundary u h := h.trans (.of_work (.handBoundary u))
  validate u p hd h := by
    have hwork := State.onlyWork.validateIfDue u p
    unfold State.validateIfDue at hwork
    rw [if_pos hd] at hwork
    exact h.trans (.of_work hwork)
  expire u l h := h.trans (.of_work (.expireLease u l))
  moveReports u p h := h.trans (.modifyPort _ _ _ (State.keepsShown.moved _))
  ignored u p low h := h.trans (.talks _ _ _ (.moveIgnored ..))
  request u p part h := h.trans (.talks _ _ _ (.clockRequest ..))
  unknown u p first part h := h.trans (.talks _ _ _ (.unknownTransaction ..))
  check u p h := h.trans (.talks _ _ _ (.checkInHand ..))
  fetch u p part h := h.trans (.talks _ _ _ (.fetch ..))
  finish u p bytes r data h := h.trans ⟨rfl, fun q => by
    rw [(PortState.onlyTalks.finishTaking u p q bytes r data).rest]⟩

/-! ## The event commands -/

/-- READ_EVENTS takes away what it showed of the kinds that it names, with their results (09 R151). -/
theorem PortState.clearEvents_shown (clear : EventSet) (ps : PortState) :
    ps.clearEvents (ps.events &&& clear) = { ps with
      events := ps.events &&& ~~~clear
      batchResult := if hasKind ps.events .batchDone && hasKind clear .batchDone then none else ps.batchResult
      slewResult := if hasKind ps.events .slewDone && hasKind clear .slewDone then none else ps.slewResult } := by
  have hset : ps.events &&& ~~~(ps.events &&& clear) = ps.events &&& ~~~clear := by
    ext i hi
    simp only [BitVec.getElem_and, BitVec.getElem_not]
    cases ps.events[i] <;> rfl
  rw [PortState.clearEvents, hset, hasKind_and, hasKind_and]

theorem resultsByte_eq (b : Option BatchResult) (w : Option SlewResult) :
    resultsByte b w = (match b with | none => 0 | some .committed => 1 | some .aborted => 2) +
      (match w with | none => 0 | some .complete => 4 | some .cancelled => 8) := by
  rcases b with _ | (_ | _) <;> rcases w with _ | (_ | _) <;> rfl

/-- Two event sets share a kind (09 R149). -/
theorem events_and_ne_zero (a b : EventSet) :
    a &&& b ≠ 0 ↔ ∃ k : EventKind, hasKind a k = true ∧ hasKind b k = true := by
  constructor
  · intro h
    by_contra hno
    refine h (eventSet_ext fun k => ?_)
    rw [hasKind_and, hasKind_zero, ← Bool.not_eq_true, Bool.and_eq_true]
    exact fun hc => hno ⟨k, hc⟩
  · rintro ⟨k, ha, hb⟩ h
    have hand := hasKind_and a b k
    rw [h, ha, hb, hasKind_zero] at hand
    cases hand

theorem State.attnPin_running {s : State} (h : s.inReset = false) (p : Port) :
    s.attnPin p = .low ↔ ∃ k, hasKind (s.port p).events k = true ∧ hasKind (s.port p).mask k = true := by
  rw [← events_and_ne_zero]
  have hpin : s.attnPin p = if (s.port p).wantsAttention = true then .low else .high := by
    rw [State.attnPin, h, Bool.not_false, Bool.true_and]
  rw [hpin, ← bne_iff_ne, ← PortState.wantsAttention]
  split
  · next hw => exact iff_of_true rfl hw
  · next hw => exact iff_of_false Level.noConfusion hw

/-- Settles O46: the two owners, the sets' common kind by `State.attnPin_running`, and `keepsShown_inCycle` for the pins. -/
theorem eventCommandsAndAttention : Obligations.EventCommandsAndAttention := by
  unfold Obligations.EventCommandsAndAttention
  refine ⟨⟨fun p clear s ht => ?read, fun p mask s ht => ?mask⟩,
    fun s p => ⟨fun h => State.attnPin_inReset h p, fun h => State.attnPin_running h p⟩,
    fun c s t hcycle hpower hreset ht => ?shown⟩
  case read =>
    intro ps cleared
    refine exec_taken (owner := readEventsOwner p clear) rfl rfl ht ?_
    rw [readEventsOwner, resultsByte_eq]
    exact congrArg (fun u => Answer.mk u _ _) (s.modifyPort_congr p (PortState.clearEvents_shown clear _))
  case mask => exact exec_taken (owner := setEventMaskOwner p mask) rfl rfl ht rfl
  case shown =>
    have hstarts : KeepsInCycle.startsCycle c = false := by
      cases c <;> first
        | rfl
        | exact absurd rfl hpower
        | exact absurd rfl hreset
        | exact absurd rfl (hcycle _).1
        | exact absurd rfl (hcycle _).2.1
        | exact absurd rfl (hcycle _).2.2
    obtain ⟨houts, hattn⟩ := (keepsShown_inCycle s).exec c hstarts s t (.of_ports rfl rfl) ht
    exact ⟨houts, hattn⟩

end Sys2Proof.Machine
end
